-- ==== Sys2Proof/Word.lean ====
section
/-! DEFINITION. The words of the part's buses and links, and the reading and writing of one place of a fixed-length table. -/

namespace Sys2Proof

/-- A 32-bit bus word (R52). -/
abbrev Word := BitVec 32

/-- A 28-bit byte address (R52). -/
abbrev Addr := BitVec 28

/-- A word of a tile link, in its 24-bit form; a 16-bit word lies in bits 15:0 (R99). -/
abbrev LinkWord := BitVec 24

/-- A set over the eight attention classes or the eight master tags, bit n for member n. -/
abbrev Set8 := BitVec 8

variable {α : Type} {n : Nat}

/-- The entry of a table at an index. -/
def pick (v : Vector α n) (i : Fin n) : α := v[i.val]

/-- The table with one entry replaced. -/
def put (v : Vector α n) (i : Fin n) (a : α) : Vector α n := v.set i.val a

@[simp] theorem pick_put_self (v : Vector α n) (i : Fin n) (a : α) : pick (put v i a) i = a := by
  simp [pick, put]

theorem pick_put_ne (v : Vector α n) {i j : Fin n} (a : α) (h : i ≠ j) :
    pick (put v i a) j = pick v j := by
  have h' : i.val ≠ j.val := fun e => h (Fin.ext e)
  simp [pick, put, h']

theorem pick_put (v : Vector α n) (i j : Fin n) (a : α) :
    pick (put v i a) j = if i = j then a else pick v j := by
  split
  · subst_vars; simp
  · exact pick_put_ne v a ‹_›

@[simp] theorem pick_replicate (a : α) (i : Fin n) : pick (Vector.replicate n a) i = a := by
  simp [pick]

@[simp] theorem pick_ofFn (f : Fin n → α) (i : Fin n) : pick (Vector.ofFn f) i = f i := by
  simp [pick]

@[simp] theorem pick_map {β : Type} (f : α → β) (v : Vector α n) (i : Fin n) :
    pick (v.map f) i = f (pick v i) := by
  simp [pick]

/-- Two tables with equal entries are equal. -/
theorem pick_ext {v w : Vector α n} (h : ∀ i : Fin n, pick v i = pick w i) : v = w := by
  apply Vector.ext
  intro i hi
  exact h ⟨i, hi⟩

end Sys2Proof
end

