-- ==== Sys2Proof/Config.lean ====
section
/-! DEFINITION. The sizes and constants the spec fixes for the part. Nothing here is left open: the part has no free value (NOTES.md, Assumptions). -/

namespace Sys2Proof.Config

/-- Entries of the order list (R62). -/
def orderListSize : Nat := 16

/-- Beats of the forward queue (R64). -/
def forwardQueueSize : Nat := 8

/-- Words of the own-write queue (R68). -/
def ownWriteQueueSize : Nat := 8

/-- Beats of the memory-port in-flight list (R65). -/
def inFlightSize : Nat := 24

/-- Entries of the event queue (R147). -/
def eventQueueSize : Nat := 32

/-- Words of one journal record (R154). -/
def recordWords : Nat := 4

/-- Bytes of one journal record (R149). -/
def recordBytes : Nat := 16

/-- Consecutive forward grants past a waiting own write (R70). -/
def maxForwardGrants : Nat := 4

/-- Full brightness, gain and ceiling limit (R29, R41). -/
def fullLevel : Nat := 4096

/-- The largest ambient value held (R24). -/
def maxAmbient : Nat := 8191

/-- The maximum of a 16-bit saturating count (R69, R93, R147). -/
def max16 : Nat := 65535

/-- The first byte address past the 28-bit space (R2, R180). -/
def addressSpace : Nat := 0x10000000

/-- Bytes of the control window (R55). -/
def windowBytes : Nat := 0x1000

/-- Ticks per millisecond increment of the tick divider (R18). -/
def tickDividerPeriod : Nat := 10

/-- The window base of a strap setting (R55). -/
def windowBaseOf (wsel : BitVec 2) : Addr := BitVec.ofNat 28 (0x0FFC0000 + wsel.toNat * 0x10000)

/-- The strap setting that State.reset takes. DESIGN CHOICE (log 7): the spec leaves the strap to the board. -/
def resetWsel : BitVec 2 := 0

end Sys2Proof.Config
end

