-- ==== Sys2Proof/Syntax.lean ====
section
/-! DEFINITION. The commands of the part: one constructor of Instr for each row of spec/opcode_table.json, with the operands the world supplies. -/

namespace Sys2Proof

/-- The kind of a bus beat (R52). -/
inductive Kind where
  | read
  | write
deriving DecidableEq, Repr

/-- A request beat on CPORT (R52). -/
structure Request where
  kind : Kind
  addr : Addr
  byteEnables : BitVec 4
  data : Word
  tag : BitVec 3
  id : BitVec 4
deriving DecidableEq, Repr

/-- An image word: 0..39 are the status image from window offset 0x040, 40..295 the module image from
0x400, in rising offset order (R160). -/
abbrev ImageWord := Fin 296

/-- The fields of a HEAD word other than its command code (10.2). -/
structure HeadFields where
  face : Fin 4
  slot : Fin 64
  count : BitVec 8
  tag : BitVec 8
deriving DecidableEq, Repr

/-- A place in the order in which the blocks take one tick: 0..3 are the stall timers of faces 0..3,
4..7 the level engines of faces 0..3 (R77, R20, log 4). -/
abbrev TickPart := Fin 8

/-- The commands (spec/opcode_table.json). Each is one whole event of the part. -/
inductive Instr where
  /-- Release of PORST_N with the strap setting sampled (R55, R73). -/
  | powerOnReset (wsel : BitVec 2)
  /-- One millisecond of the timebase; the operand orders the blocks if it brings a tick (R17, R18). -/
  | millisecondIncrement (order : List TickPart)
  /-- A tick on its own (R18, R19, R77). -/
  | tick (order : List TickPart)
  /-- An epoch on its own; the operand orders the faces (R20). -/
  | epoch (order : List (Fin 4))
  /-- A stall expiry of a face (R78). -/
  | stallExpiry (face : Fin 4)
  /-- A request offered on CPORT, accepted when there is room (R61). -/
  | cportRequestAccept (request : Request)
  /-- A write to an image word offered on CPORT (R58). -/
  | localWrite (word : ImageWord) (low : BitVec 2) (byteEnables : BitVec 4) (data : Word) (tag : BitVec 3) (id : BitVec 4)
  /-- The sign controller takes the response offered (R63). -/
  | cportResponseTaken
  /-- The frame store can take a beat and the arbiter grants (R70). -/
  | mportGrant
  /-- A response of the frame store (R66). -/
  | memoryResponse (status : BitVec 2) (data : Word)
  /-- The journal writer enqueues a ready record (R153). -/
  | journalRecordEnqueue
  /-- The status writer enqueues a word (R161). -/
  | statusWordEnqueue
  /-- The sync of a link frame (R95). -/
  | linkSync (face : Fin 4)
  /-- The start of a slot (R100). -/
  | slotStart (face : Fin 4) (slot : Fin 64)
  /-- The end of a slot; bit i of the samples is TLIN in the slot's i-th bit time (R98, R99, R106). -/
  | slotEnd (face : Fin 4) (slot : Fin 64) (samples : LinkWord)
  /-- The end of the gap of a draining link (R97). -/
  | drainEnd (face : Fin 4)
  /-- 2 microseconds after the last change of the presented class (R138). -/
  | attnPulseEnd
  /-- A full BODY write taken by the stream decoder (R166). -/
  | bodyWord (data : Word)
  /-- A HEAD word whose code names no command, and the BODY words after it (R165). -/
  | unknownCommand (code : BitVec 8) (head : HeadFields) (payload : List Word)
  /-- The HEAD word of FACE_GEOMETRY and the BODY words after it (R169). -/
  | faceGeometry (head : HeadFields) (payload : List Word)
  /-- FACE_ZONEMAP (R170). -/
  | faceZonemap (head : HeadFields) (payload : List Word)
  /-- FACE_CURVE (R171). -/
  | faceCurve (head : HeadFields) (payload : List Word)
  /-- FACE_LIMITS (R172). -/
  | faceLimits (head : HeadFields) (payload : List Word)
  /-- FACE_START (R75). -/
  | faceStart (head : HeadFields) (payload : List Word)
  /-- FACE_STOP (R80). -/
  | faceStop (head : HeadFields) (payload : List Word)
  /-- FACE_HOLD (R32). -/
  | faceHold (head : HeadFields) (payload : List Word)
  /-- FACE_RELEASE (R31). -/
  | faceRelease (head : HeadFields) (payload : List Word)
  /-- OUTPUT_CONFIG (R89). -/
  | outputConfig (head : HeadFields) (payload : List Word)
  /-- LINK_SETUP (R176). -/
  | linkSetup (head : HeadFields) (payload : List Word)
  /-- MODULE_COMMAND (R103). -/
  | moduleCommand (head : HeadFields) (payload : List Word)
  /-- MODULE_CLEAR (R129). -/
  | moduleClear (head : HeadFields) (payload : List Word)
  /-- ATTN_CONFIG (R144). -/
  | attnConfig (head : HeadFields) (payload : List Word)
  /-- JOURNAL_SETUP (R150). -/
  | journalSetup (head : HeadFields) (payload : List Word)
  /-- TIMING_SETUP (R181). -/
  | timingSetup (head : HeadFields) (payload : List Word)
  /-- STATUS_REFRESH (R159). -/
  | statusRefresh (head : HeadFields) (payload : List Word)
  /-- PART_RESET (R182). -/
  | partReset (head : HeadFields) (payload : List Word)
  /-- ACK operation TAKE (R141). -/
  | take
  /-- ACK operation FINISH_TOP (R142). -/
  | finishTop (rotate : Bool)
  /-- ACK operation FINISH (R142). -/
  | finish (rotate : Bool) (cls : Fin 8)
  /-- ACK operation SET_LOWEST (R143). -/
  | setLowest (cls : Fin 8)
  /-- An ACK write whose operation code names no operation (R140). -/
  | ackInvalid (operation : BitVec 4)
  /-- A full CONSUMED write (R152). -/
  | consumedWrite (data : Word)
  /-- PORST_N is driven low (R73, R82). -/
  | porstNAssertion
deriving DecidableEq, Repr

end Sys2Proof
end

