-- ==== Sys2Proof/Machine/Parts.lean ====
section
/-! DEFINITION. The named quantities of the spec and the records the blocks of the part hold, as plain data. -/

namespace Sys2Proof.Machine

/-- Face state (R74). -/
inductive FaceState where
  | off
  | starting
  | live
  | stalled
deriving DecidableEq, Repr

/-- Sensor state (R23). -/
inductive SensorState where
  | none
  | waiting
  | valid
  | lost
deriving DecidableEq, Repr

/-- Link state (R93). -/
inductive LinkState where
  | idle
  | running
  | draining
deriving DecidableEq, Repr

/-- Record state (R112). -/
inductive RecordState where
  | disabled
  | unseen
  | ok
  | suspect
  | faulted
  | lost
deriving DecidableEq, Repr

/-- Temperature level (R112). -/
inductive TempLevel where
  | normal
  | warm
  | hot
  | critical
deriving DecidableEq, Repr

/-- Decoder state (R163). -/
inductive DecoderState where
  | idle
  | collecting
  | discarding
deriving DecidableEq, Repr

/-- Result of a command (R168). -/
inductive ResultCode where
  | done
  | count
  | state
  | value
  | order
  | overlap
  | mailbox
  | busy
  | unknown
  | abandoned
deriving DecidableEq, Repr

/-- Result of an ACK operation (R134). -/
inductive AckResult where
  | done
  | none
  | invalid
deriving DecidableEq, Repr

/-- Pixel class (R45). -/
inductive PixelClass where
  | standard
  | priority
  | dark
  | fixed
deriving DecidableEq, Repr

/-- Lit polarity (R86). -/
inductive Polarity where
  | high
  | low
deriving DecidableEq, Repr

/-- Drive mode of an output (R87). -/
inductive DriveMode where
  | pushPull
  | sink
  | source
  | off
deriving DecidableEq, Repr

/-- B mode (R88). -/
inductive BMode where
  | off
  | track
  | antivalent
  | manual
deriving DecidableEq, Repr

/-- What a blanking output does at its pin (R87). -/
inductive PinLevel where
  | drivenHigh
  | drivenLow
  | highImpedance
deriving DecidableEq, Repr

/-- Output mode of ATTN_N (R134). -/
inductive OutputMode where
  | level
  | pulse
deriving DecidableEq, Repr

/-- Word length of a link (R91). -/
inductive WordLength where
  | w16
  | w24
deriving DecidableEq, Repr

/-- Bit order of a link (R91). -/
inductive BitOrder where
  | msbFirst
  | lsbFirst
deriving DecidableEq, Repr

/-- Bit rate of a link (R91). -/
inductive BitRate where
  | mhz2
  | mhz1
  | khz500
  | khz250
deriving DecidableEq, Repr

/-- Status of a response beat (R53). -/
inductive Status where
  | okay
  | error
  | discarded
deriving DecidableEq, Repr

/-- The four control words of the window (R55). -/
inductive ControlWord where
  | head
  | body
  | ack
  | consumed
deriving DecidableEq, Repr

/-- The seventeen commands of the stream decoder (R165). -/
inductive Command where
  | faceGeometry
  | faceZonemap
  | faceCurve
  | faceLimits
  | faceStart
  | faceStop
  | faceHold
  | faceRelease
  | outputConfig
  | linkSetup
  | moduleCommand
  | moduleClear
  | attnConfig
  | journalSetup
  | timingSetup
  | statusRefresh
  | partReset
deriving DecidableEq, Repr

/-- The ACK operations (R140). -/
inductive AckOperation where
  | take
  | finishTop
  | finish
  | setLowest
deriving DecidableEq, Repr

/-- The journaled codes (R148) and the journal writer's own DROPPED_SUMMARY (R154). -/
inductive EventCode where
  | cmdRefused
  | cmdAbandoned
  | streamStray
  | streamPartial
  | indexRejected
  | frameStall
  | frameResumed
  | moduleSeen
  | moduleSuspect
  | moduleFaulted
  | moduleLost
  | moduleRecovered
  | derateChanged
  | sensorLost
  | sensorRestored
  | droppedSummary
deriving DecidableEq, Repr

/-- A plane record (R1). The band counts are one more than the boundaries listed (R5). -/
structure PlaneRecord where
  valid : Bool
  base : Addr
  strideExp : Nat
  width : Nat
  height : Nat
  scanTags : Set8
  colBounds : List Nat
  rowBounds : List Nat
deriving DecidableEq, Repr

/-- A point of a curve (R22). -/
structure CurvePoint where
  ambient : Nat
  level : Nat
deriving DecidableEq, Repr

/-- A limits record (R21). -/
structure Limits where
  ceiling : Nat
  floor : Nat
  riseStep : Nat
  fallStep : Nat
  fallbackAmbient : Nat
  sensorLostEpochs : Nat
deriving DecidableEq, Repr

/-- A sensor record (R23). -/
structure SensorRecord where
  state : SensorState
  sample : Nat
  count : Nat
deriving DecidableEq, Repr

/-- A level engine (R35). -/
structure LevelEngine where
  curve : List CurvePoint
  stagedCurve : Option (List CurvePoint)
  limits : Limits
  stagedLimits : Option Limits
  sensor : SensorRecord
  hold : Bool
  level : Nat
  target : Nat
  ambient : Nat
deriving DecidableEq, Repr

/-- An applied set (R36). -/
structure AppliedSet where
  level : Nat
  floor : Nat
  steps : Vector (Fin 4) 64
deriving DecidableEq, Repr

/-- The output configuration of a face (R89). -/
structure OutputSettings where
  polarity : Polarity
  aDrive : DriveMode
  bMode : BMode
  bDrive : DriveMode
  bManualLit : Bool
deriving DecidableEq, Repr

/-- A face supervisor (R74). -/
structure Supervisor where
  state : FaceState
  stallTimer : Nat
  stallTimeout : Nat
  stallCount : Nat
  outputs : OutputSettings
deriving DecidableEq, Repr

/-- Temperature thresholds of a 24-bit link, in degrees C (R91). -/
structure Thresholds where
  warm : Int
  hot : Int
  critical : Int
  hysteresis : Nat
deriving DecidableEq, Repr

/-- A link setup (R91). -/
structure LinkSetup where
  slotCount : Nat
  mask : BitVec 64
  wordLength : WordLength
  bitOrder : BitOrder
  bitRate : BitRate
  sensorSlot : Option (Fin 64)
  lostCount : Nat
  confirmCount : Nat
  clearCount : Nat
  stuckLimit : Nat
  thresholds : Option Thresholds
deriving DecidableEq, Repr

/-- A frame setup: the copy taken at a sync (R93, R95). -/
structure FrameSetup where
  slotCount : Nat
  enabled : BitVec 64
  wordLength : WordLength
  bitOrder : BitOrder
  bitRate : BitRate
  sensorSlot : Option (Fin 64)
deriving DecidableEq, Repr

/-- What a channel drives since its last link event (R98). -/
inductive LinePhase where
  /-- TLCK, TLSYNC and TLOUT held low. -/
  | idle
  /-- The sync bit: TLSYNC high. -/
  | sync
  /-- A command word crosses in a slot. -/
  | word (slot : Fin 64) (command : LinkWord)
  /-- Between exchanges of a frame: TLOUT low. -/
  | low
deriving DecidableEq, Repr

/-- A one-shot command (R103). -/
structure OneShot where
  test : Bool
  clearLatch : Bool
deriving DecidableEq, Repr

/-- A tile link channel but for its mailboxes (R91, R93). -/
structure LinkChannel where
  setUp : Bool
  setup : LinkSetup
  state : LinkState
  frameCount : BitVec 16
  garbled : Nat
  silent : Nat
  frameSetup : Option FrameSetup
  line : LinePhase
deriving DecidableEq, Repr

/-- A module record (R112). Its derate step is derived (R126). -/
structure ModuleRecord where
  state : RecordState
  silentRun : Nat
  confirmRun : Nat
  cleanRun : Nat
  lastSequence : Option (BitVec 2)
  stuckRun : Nat
  tempLevel : TempLevel
  supplyLow : Bool
  pixelFaults : Nat
  measuredTemp : Option Int
deriving DecidableEq, Repr

/-- All the state of one face. -/
structure Face where
  plane : PlaneRecord
  zoneMap : Vector (Option (Fin 64)) 64
  level : LevelEngine
  applied : AppliedSet
  sup : Supervisor
  link : LinkChannel
  mailboxes : Vector (Option OneShot) 64
  records : Vector ModuleRecord 64
deriving DecidableEq, Repr

/-- A scale context (R43). -/
structure ScaleContext where
  face : Fin 4
  zone : Fin 64
  gain : Nat
  blanked : Bool
  floor : Nat
deriving DecidableEq, Repr

/-- The classification kept in an order-list entry (R62). -/
inductive Classification where
  | forward
  | forwardScale
  | forwardSnoop
  | localWrite
deriving DecidableEq, Repr

/-- The completion of an order-list entry, with its status and data once READY (R62). -/
inductive Completion where
  | awaitingMemory
  | ready (status : Status) (data : Word)
deriving DecidableEq, Repr

/-- An order-list entry (R62). -/
structure OrderEntry where
  kind : Kind
  id : BitVec 4
  cls : Classification
  context : Option ScaleContext
  completion : Completion
deriving DecidableEq, Repr

/-- The origin of an own write (R68): the journal record the word belongs to, named by its sequence
number, and whether it is the header; or the image word. -/
inductive Origin where
  | journal (sequence : BitVec 16) (header : Bool)
  | status (word : ImageWord)
deriving DecidableEq, Repr

/-- An entry of the own-write queue (R68). -/
structure OwnWrite where
  addr : Addr
  data : Word
  origin : Origin
deriving DecidableEq, Repr

/-- An entry of the memory-port in-flight list (R65). -/
inductive InFlight where
  | forwarded
  | own (origin : Origin)
deriving DecidableEq, Repr

/-- A response beat on CPORT (R53). -/
structure CportResponse where
  kind : Kind
  id : BitVec 4
  status : Status
  data : Word
deriving DecidableEq, Repr

/-- A beat issued on MPORT, with its OWN sideband (R54). -/
structure MportBeat where
  own : Bool
  request : Request
deriving DecidableEq, Repr

/-- The attention controller (R134). The presented class is derived (R136). -/
structure Attention where
  pending : Set8
  mask : Set8
  inService : Set8
  base : Fin 8
  mode : OutputMode
  autoFinish : Bool
  rotateOnAuto : Bool
  ackResult : AckResult
  ackClass : Option (Fin 8)
  pulse : Bool
deriving DecidableEq, Repr

/-- An entry of the event queue (R147). -/
structure EventEntry where
  code : EventCode
  face : Fin 4
  slot : Fin 64
  time : BitVec 32
  detailA : Word
  detailB : Word
deriving DecidableEq, Repr

/-- The journal record in progress (R149): CURRENT unless superseded. -/
structure RecordProgress where
  superseded : Bool
  addr : Addr
  sequence : BitVec 16
deriving DecidableEq, Repr

/-- The journal writer (R149). -/
structure Journal where
  configured : Bool
  base : Addr
  capacity : Nat
  threshold : Nat
  produced : BitVec 16
  consumed : BitVec 16
  drops : Nat
  sequence : BitVec 16
  inProgress : Option RecordProgress
deriving DecidableEq, Repr

/-- A HEAD word (10.2, 11.4). -/
structure HeadWord where
  code : BitVec 8
  fields : HeadFields
deriving DecidableEq, Repr

/-- The result word (R163). -/
structure ResultWord where
  tag : BitVec 8
  code : BitVec 8
  result : ResultCode
deriving DecidableEq, Repr

/-- The stream decoder (R163). -/
structure Decoder where
  state : DecoderState
  remaining : Nat
  inProgress : Option HeadWord
  refusal : Option ResultCode
  buffer : List Word
  result : ResultWord
deriving DecidableEq, Repr

end Sys2Proof.Machine
end

