-- ==== Sys2Proof/Machine/Operands.lean ====
section
/-! DEFINITION. The fields of every word the part reads (11.2 to 11.4), and the order in which a link word crosses its link (R99). -/

namespace Sys2Proof.Machine

/-- The field of a bus word that begins at a bit and has a length. -/
def field (w : Word) (lo len : Nat) : Nat := w.toNat / 2 ^ lo % 2 ^ len

/-- The field of a link word that begins at a bit and has a length. -/
def linkField (w : LinkWord) (lo len : Nat) : Nat := w.toNat / 2 ^ lo % 2 ^ len

/-- An address with bits 1 and 0 taken as zero (R2). -/
def alignedNat (a : Addr) : Nat := a.toNat / 4 * 4

/-- A payload base field: bits 27:0 with bits 1 and 0 taken as 0 (R169, R180). -/
def baseField (w : Word) : Addr := BitVec.ofNat 28 (field w 0 28 / 4 * 4)

/-- A word of a payload; the word is there when the command's payload count is one it allows. -/
def payloadWord (ws : List Word) (i : Nat) : Word := ws.getD i 0

/-! HEAD words (11.4). -/

/-- The fields of a HEAD word. -/
def headOf (w : Word) : HeadWord where
  code := BitVec.ofNat 8 (field w 24 8)
  fields :=
    { face := Fin.ofNat 4 (field w 22 2)
      slot := Fin.ofNat 64 (field w 16 6)
      count := BitVec.ofNat 8 (field w 8 8)
      tag := BitVec.ofNat 8 (field w 0 8) }

/-- The code of each command (11.4). -/
def Command.code : Command → BitVec 8
  | .faceGeometry => 0x01
  | .faceZonemap => 0x02
  | .faceCurve => 0x03
  | .faceLimits => 0x04
  | .faceStart => 0x05
  | .faceStop => 0x06
  | .faceHold => 0x07
  | .faceRelease => 0x08
  | .outputConfig => 0x09
  | .linkSetup => 0x0A
  | .moduleCommand => 0x0B
  | .moduleClear => 0x0C
  | .attnConfig => 0x10
  | .journalSetup => 0x11
  | .timingSetup => 0x12
  | .statusRefresh => 0x13
  | .partReset => 0x1F

/-- The command a code names, if it names one (11.4). -/
def commandOf (code : BitVec 8) : Option Command :=
  match code.toNat with
  | 0x01 => some .faceGeometry
  | 0x02 => some .faceZonemap
  | 0x03 => some .faceCurve
  | 0x04 => some .faceLimits
  | 0x05 => some .faceStart
  | 0x06 => some .faceStop
  | 0x07 => some .faceHold
  | 0x08 => some .faceRelease
  | 0x09 => some .outputConfig
  | 0x0A => some .linkSetup
  | 0x0B => some .moduleCommand
  | 0x0C => some .moduleClear
  | 0x10 => some .attnConfig
  | 0x11 => some .journalSetup
  | 0x12 => some .timingSetup
  | 0x13 => some .statusRefresh
  | 0x1F => some .partReset
  | _ => none

/-- The payload counts a command allows at its HEAD word (R165). -/
def Command.allows (c : Command) (count : Nat) : Bool :=
  match c with
  | .faceGeometry => decide (3 ≤ count) && decide (count ≤ 15)
  | .faceZonemap => decide (1 ≤ count) && decide (count ≤ 16)
  | .faceCurve => decide (count ≤ 8)
  | .faceLimits => count == 3
  | .faceStart => count == 0
  | .faceStop => count == 0
  | .faceHold => count == 0 || count == 1
  | .faceRelease => count == 0
  | .outputConfig => count == 1
  | .linkSetup => count == 4 || count == 5
  | .moduleCommand => count == 1
  | .moduleClear => count == 0 || count == 1
  | .attnConfig => count == 1 || count == 2
  | .journalSetup => count == 2
  | .timingSetup => count == 1
  | .statusRefresh => count == 0
  | .partReset => count == 0

/-! ACK and CONSUMED words (11.4). -/

/-- The operation an ACK operation code names, if it names one. -/
def ackOperationOf (code : BitVec 4) : Option AckOperation :=
  match code.toNat with
  | 1 => some .take
  | 2 => some .finishTop
  | 3 => some .finish
  | 4 => some .setLowest
  | _ => none

/-- The operation code of an ACK word. -/
def ackCode (w : Word) : BitVec 4 := BitVec.ofNat 4 (field w 28 4)

/-- The rotate flag of an ACK word. -/
def ackRotate (w : Word) : Bool := w.getLsbD 8

/-- The class field of an ACK word. -/
def ackClassField (w : Word) : Fin 8 := Fin.ofNat 8 (field w 0 3)

/-- The index a CONSUMED word offers. -/
def consumedField (w : Word) : BitVec 16 := BitVec.ofNat 16 (field w 0 16)

/-! Payload fields (11.4). -/

/-- The two boundary fields of a FACE_GEOMETRY word, first then second. -/
def boundaryFields (w : Word) : List Nat := [field w 0 16, field w 16 16]

/-- The first `n` boundaries carried by some payload words. -/
def boundaries (ws : List Word) (n : Nat) : List Nat := (ws.flatMap boundaryFields).take n

/-- The four slot fields of a FACE_ZONEMAP word, lowest zone first. -/
def slotFields (w : Word) : List Nat := [field w 0 8, field w 8 8, field w 16 8, field w 24 8]

/-- A drive mode of its two-bit code. -/
def driveModeOf (code : Nat) : DriveMode :=
  match code with
  | 0 => .pushPull
  | 1 => .sink
  | 2 => .source
  | _ => .off

/-- A B mode of its two-bit code. -/
def bModeOf (code : Nat) : BMode :=
  match code with
  | 0 => .off
  | 1 => .track
  | 2 => .antivalent
  | _ => .manual

/-- A bit rate of its two-bit code. -/
def bitRateOf (code : Nat) : BitRate :=
  match code with
  | 0 => .mhz2
  | 1 => .mhz1
  | 2 => .khz500
  | _ => .khz250

/-- The configuration an OUTPUT_CONFIG word carries (R175). -/
def outputsOf (w : Word) : OutputSettings where
  polarity := if w.getLsbD 0 then .low else .high
  aDrive := driveModeOf (field w 1 2)
  bMode := bModeOf (field w 4 2)
  bDrive := driveModeOf (field w 6 2)
  bManualLit := w.getLsbD 8

/-- The thresholds of a LINK_SETUP's fifth word: each threshold field is degrees C + 40. -/
def thresholdsOf (w : Word) : Thresholds where
  warm := (field w 0 8 : Int) - 40
  hot := (field w 8 8 : Int) - 40
  critical := (field w 16 8 : Int) - 40
  hysteresis := field w 24 4

/-- The word length field of a LINK_SETUP's third word. -/
def wordLengthOf (w : Word) : WordLength := if w.getLsbD 8 then .w24 else .w16

/-- The link setup a LINK_SETUP payload carries (R176). -/
def linkSetupOf (ws : List Word) : LinkSetup :=
  let w2 := payloadWord ws 2
  let w3 := payloadWord ws 3
  { slotCount := field w2 0 7
    mask := payloadWord ws 1 ++ payloadWord ws 0
    wordLength := wordLengthOf w2
    bitOrder := if w2.getLsbD 9 then .lsbFirst else .msbFirst
    bitRate := bitRateOf (field w2 10 2)
    sensorSlot := if w2.getLsbD 15 then some (Fin.ofNat 64 (field w2 16 6)) else none
    lostCount := field w3 0 8
    confirmCount := field w3 8 4
    clearCount := field w3 12 4
    stuckLimit := field w3 16 4
    thresholds :=
      match wordLengthOf w2 with
      | .w24 => some (thresholdsOf (payloadWord ws 4))
      | .w16 => none }

/-- A value raised to a least and lowered to a greatest one. -/
def clamp (lo hi v : Nat) : Nat := max lo (min v hi)

/-- The limits record a FACE_LIMITS payload carries, clamped (R172). -/
def limitsOf (ws : List Word) : Limits :=
  let w0 := payloadWord ws 0
  let w1 := payloadWord ws 1
  let w2 := payloadWord ws 2
  { ceiling := clamp 0 Config.fullLevel (field w0 0 16)
    floor := clamp 0 Config.fullLevel (field w0 16 16)
    riseStep := clamp 1 Config.fullLevel (field w1 0 16)
    fallStep := clamp 1 Config.fullLevel (field w1 16 16)
    fallbackAmbient := clamp 0 Config.maxAmbient (field w2 0 16)
    sensorLostEpochs := clamp 1 255 (field w2 16 8) }

/-- The stall timeout a FACE_LIMITS payload carries, clamped (R172). -/
def stallTimeoutOf (ws : List Word) : Nat := clamp 1 255 (field (payloadWord ws 2) 24 8)

/-- The point a FACE_CURVE word carries, before the clamp of its level (R171). -/
def curvePointOf (w : Word) : CurvePoint where
  ambient := field w 16 16
  level := field w 0 16

/-- The point with its level clamped to 4096 (R171). -/
def CurvePoint.clamped (p : CurvePoint) : CurvePoint := { p with level := min p.level Config.fullLevel }

/-- The forced level field of a FACE_HOLD word (R173). -/
def forcedLevelField (w : Word) : Nat := field w 0 16

/-- The one-shot a MODULE_COMMAND word carries (R177). -/
def oneShotOf (w : Word) : OneShot where
  test := w.getLsbD 0
  clearLatch := w.getLsbD 1

/-- The all-slots form of MODULE_CLEAR: a payload word with its flag set (R178). -/
def allSlotsForm (ws : List Word) : Bool :=
  match ws with
  | [] => false
  | w :: _ => w.getLsbD 0

/-- A set field in bits 7:0. -/
def setField (w : Word) : Set8 := BitVec.ofNat 8 (field w 0 8)

/-! Pixel words (11.2). -/

/-- The class of a pixel word (R45). -/
def pixelClassOf (w : Word) : PixelClass :=
  match field w 30 2 with
  | 0 => .standard
  | 1 => .priority
  | 2 => .dark
  | _ => .fixed

/-! Link words (11.3). -/

/-- The bit times of a slot (R91). -/
def WordLength.bits : WordLength → Nat
  | .w16 => 16
  | .w24 => 24

/-- A word in the order its bits cross the link: bit i of the answer is the bit of bit time i. The same
function takes the bits of the bit times back to their places in the word (R99). -/
def lineOrder (len : WordLength) (order : BitOrder) (w : LinkWord) : LinkWord :=
  match len, order with
  | .w24, .lsbFirst => w
  | .w24, .msbFirst => w.reverse
  | .w16, .lsbFirst => (w.setWidth 16).setWidth 24
  | .w16, .msbFirst => (w.setWidth 16).reverse.setWidth 24

/-- How many bits of a link word are set. -/
def onesCount (w : LinkWord) : Nat := (List.range 24).countP fun i => w.getLsbD i

/-- An odd number of ones over the whole word (R106). -/
def oddParity (w : LinkWord) : Bool := onesCount w % 2 == 1

/-- The marker: the word's highest-numbered bit (R106). -/
def linkMarker (len : WordLength) (w : LinkWord) : Bool := w.getLsbD (len.bits - 1)

/-- The class of a received word (R106). -/
inductive ReceivedClass where
  | silent
  | garbled
  | valid
deriving DecidableEq, Repr

/-- R106. -/
def classifyReceived (len : WordLength) (w : LinkWord) : ReceivedClass :=
  if !linkMarker len w then .silent
  else if oddParity w then .valid
  else .garbled

/-- A temperature level of its two-bit code (R185). -/
def tempLevelOf (code : Nat) : TempLevel :=
  match code with
  | 0 => .normal
  | 1 => .warm
  | 2 => .hot
  | _ => .critical

/-- What a valid module status word carries (R108). -/
structure ModuleReport where
  openFault : Bool
  shortFault : Bool
  tempLevel : TempLevel
  supplyLow : Bool
  sequence : BitVec 2
  pixelFaults : Nat
  measuredTemp : Option Int
deriving DecidableEq, Repr

/-- The fields of a module status word (11.3). -/
def moduleReportOf (len : WordLength) (w : LinkWord) : ModuleReport where
  openFault := w.getLsbD 14
  shortFault := w.getLsbD 13
  tempLevel := tempLevelOf (linkField w 11 2)
  supplyLow := w.getLsbD 10
  sequence := BitVec.ofNat 2 (linkField w 8 2)
  pixelFaults := linkField w 1 7
  measuredTemp :=
    match len with
    | .w16 => none
    | .w24 => some ((linkField w 15 8 : Int) - 40)

/-- The fresh bit of a sensor word (11.3). -/
def sensorFresh (len : WordLength) (w : LinkWord) : Bool :=
  match len with
  | .w16 => w.getLsbD 14
  | .w24 => w.getLsbD 22

/-- The ambient field of a sensor word as received (R109). -/
def sensorAmbient (len : WordLength) (w : LinkWord) : Nat :=
  match len with
  | .w16 => linkField w 1 13
  | .w24 => linkField w 1 21

/-- The memory status of a response beat: a status that is neither OKAY nor ERROR is taken as ERROR (R184).
DEDUCED (log 25): 11.8 gives no codes for MRSP_STATUS; 0 is OKAY here, as it gives for CRSP_STATUS. -/
def memoryStatusOf (code : BitVec 2) : Status := if code = 0 then .okay else .error

end Sys2Proof.Machine
end

