-- ==== Sys2Proof/Machine/ResetValues.lean ====
section
/-! DEFINITION. The reset value of each block's state, as the spec tables it. -/

namespace Sys2Proof.Machine

/-- R1. -/
def resetPlane : PlaneRecord where
  valid := false
  base := 0
  strideExp := 6
  width := 1
  height := 1
  scanTags := 0
  colBounds := []
  rowBounds := []

/-- The identity map (R7). -/
def identityMap : Vector (Option (Fin 64)) 64 := Vector.ofFn fun z => some z

/-- R21. -/
def defaultLimits : Limits where
  ceiling := 2048
  floor := 0
  riseStep := 64
  fallStep := 256
  fallbackAmbient := 1024
  sensorLostEpochs := 20

/-- R23. -/
def resetSensor : SensorRecord where
  state := .none
  sample := 0
  count := 0

/-- R35. -/
def resetLevel : LevelEngine where
  curve := []
  stagedCurve := none
  limits := defaultLimits
  stagedLimits := none
  sensor := resetSensor
  hold := false
  level := 0
  target := 0
  ambient := 0

/-- The dark form of an applied set (R36). -/
def darkForm : AppliedSet where
  level := 0
  floor := 0
  steps := Vector.replicate 64 3

/-- R74. -/
def resetOutputs : OutputSettings where
  polarity := .high
  aDrive := .off
  bMode := .off
  bDrive := .off
  bManualLit := false

/-- R74. -/
def resetSupervisor : Supervisor where
  state := .off
  stallTimer := 0
  stallTimeout := 50
  stallCount := 0
  outputs := resetOutputs

/-- R91. -/
def resetLinkSetup : LinkSetup where
  slotCount := 1
  mask := 0
  wordLength := .w16
  bitOrder := .msbFirst
  bitRate := .mhz1
  sensorSlot := none
  lostCount := 1
  confirmCount := 1
  clearCount := 1
  stuckLimit := 2
  thresholds := none

/-- R93, R111. -/
def resetLink : LinkChannel where
  setUp := false
  setup := resetLinkSetup
  state := .idle
  frameCount := 0
  garbled := 0
  silent := 0
  frameSetup := none
  line := .idle

/-- R105. -/
def emptyMailboxes : Vector (Option OneShot) 64 := Vector.replicate 64 none

/-- R112. -/
def resetRecord : ModuleRecord where
  state := .disabled
  silentRun := 0
  confirmRun := 0
  cleanRun := 0
  lastSequence := none
  stuckRun := 0
  tempLevel := .normal
  supplyLow := false
  pixelFaults := 0
  measuredTemp := none

/-- R112. -/
def resetRecords : Vector ModuleRecord 64 := Vector.replicate 64 resetRecord

/-- A face after power-on reset. -/
def resetFace : Face where
  plane := resetPlane
  zoneMap := identityMap
  level := resetLevel
  applied := darkForm
  sup := resetSupervisor
  link := resetLink
  mailboxes := emptyMailboxes
  records := resetRecords

/-- R134. -/
def resetAttention : Attention where
  pending := 0
  mask := 0
  inService := 0
  base := 0
  mode := .level
  autoFinish := false
  rotateOnAuto := false
  ackResult := .none
  ackClass := none
  pulse := false

/-- R149. -/
def resetJournal : Journal where
  configured := false
  base := 0
  capacity := 16
  threshold := 16
  produced := 0
  consumed := 0
  drops := 0
  sequence := 0
  inProgress := none

/-- R163. -/
def resetResult : ResultWord where
  tag := 0
  code := 0
  result := .done

/-- R163. -/
def resetDecoder : Decoder where
  state := .idle
  remaining := 0
  inProgress := none
  refusal := none
  buffer := []
  result := resetResult

/-- Every image word (R159). -/
def allDirty : Vector Bool 296 := Vector.replicate 296 true

/-- Epoch select after a reset (R19). -/
def resetEpochSelect : Fin 4 := 2

/-- Epoch timer after a reset (R19). -/
def resetEpochTimer : Nat := 10

end Sys2Proof.Machine
end

