-- ==== Sys2Proof/Machine/State.lean ====
section
/-! DEFINITION. The state of the part, its faults and refusals, and the state right after power-on reset. -/

namespace Sys2Proof.Machine

/-- The spec gives the part no fault that stops it: every error it describes is an effect on state
(log 16). No command raises a fault. -/
inductive Fault where
deriving DecidableEq, Repr

/-- Why a command has no meaning in the model. -/
inductive Refusal where
  /-- The command is not modelled yet. Raised by no arm of exec; safe. -/
  | notModelled (mnemonic : String)
deriving DecidableEq, Repr

/-- The state of the part. Each field is in INVENTORY.md under State with the rule that names it. -/
structure State where
  porstAsserted : Bool
  windowBase : Addr
  timeCount : BitVec 32
  tickDivider : Nat
  epochSelect : Fin 4
  epochTimer : Nat
  faces : Vector Face 4
  cportWaiting : List Request
  orderList : List OrderEntry
  forwardQueue : List Request
  inFlight : List InFlight
  ownWrites : List OwnWrite
  arbiterCount : Nat
  cportLast : Option CportResponse
  mportLast : Option MportBeat
  attention : Attention
  eventQueue : List EventEntry
  journal : Journal
  dirty : Vector Bool 296
  generation : BitVec 16
  generationOwed : Bool
  ownWriteErrors : Nat
  decoder : Decoder
  pending : List Instr
deriving DecidableEq, Repr

/-- The part right after the release of PORST_N (R73 and the reset column of each block), with the
strap setting of Config.resetWsel (DESIGN CHOICE, log 7) and no command waiting. -/
def State.reset : State where
  porstAsserted := false
  windowBase := Config.windowBaseOf Config.resetWsel
  timeCount := 0
  tickDivider := 0
  epochSelect := resetEpochSelect
  epochTimer := resetEpochTimer
  faces := Vector.replicate 4 resetFace
  cportWaiting := []
  orderList := []
  forwardQueue := []
  inFlight := []
  ownWrites := []
  arbiterCount := 0
  cportLast := none
  mportLast := none
  attention := resetAttention
  eventQueue := []
  journal := resetJournal
  dirty := allDirty
  generation := 0
  generationOwed := false
  ownWriteErrors := 0
  decoder := resetDecoder
  pending := []

end Sys2Proof.Machine
end

