-- ==== Sys2Proof/Machine/Flags.lean ====
section
/-! DEFINITION. The values the spec derives from state: decode of an address, derate steps, targets and gains, the presented class, the fill, the levels of the pins. Each is computed here once and stored nowhere. -/

namespace Sys2Proof.Machine

/-- The state of a face. -/
def State.face (s : State) (f : Fin 4) : Face := pick s.faces f

/-- The faces in rising order. -/
def allFaces : List (Fin 4) := [0, 1, 2, 3]

/-- The slots in rising order. -/
def allSlots : List (Fin 64) := List.finRange 64

/-- A face that is STARTING, LIVE or STALLED. -/
def FaceState.scanning (st : FaceState) : Bool :=
  match st with
  | .off => false
  | .starting => true
  | .live => true
  | .stalled => true

/-! Planes (R2 to R7). -/

/-- The column band count nc (R5). -/
def PlaneRecord.columnBands (p : PlaneRecord) : Nat := p.colBounds.length + 1

/-- The row band count nr (R5). -/
def PlaneRecord.rowBands (p : PlaneRecord) : Nat := p.rowBounds.length + 1

/-- Words per line (R1). -/
def PlaneRecord.stride (p : PlaneRecord) : Nat := 2 ^ p.strideExp

/-- Bytes the plane covers from its base (R2). -/
def PlaneRecord.bytes (p : PlaneRecord) : Nat := p.height * p.stride * 4

/-- Whether the plane of a valid record holds an address (R2). -/
def PlaneRecord.contains (p : PlaneRecord) (a : Addr) : Bool :=
  p.valid && decide (p.base.toNat ≤ alignedNat a) && decide (alignedNat a < p.base.toNat + p.bytes)

/-- The word index of an address of the plane (R2). -/
def PlaneRecord.wordIndex (p : PlaneRecord) (a : Addr) : Nat := (alignedNat a - p.base.toNat) / 4

/-- The row of a word index (R3). -/
def PlaneRecord.rowOf (p : PlaneRecord) (w : Nat) : Nat := w / p.stride

/-- The column of a word index (R3). -/
def PlaneRecord.columnOf (p : PlaneRecord) (w : Nat) : Nat := w % p.stride

/-- Whether a word index is padding (R4). -/
def PlaneRecord.isPadding (p : PlaneRecord) (w : Nat) : Bool := decide (p.width ≤ p.columnOf w)

/-- The band of a column or row: how many boundaries are at or below it (R5). -/
def bandOf (bounds : List Nat) (x : Nat) : Nat := bounds.countP fun b => decide (b ≤ x)

/-- The zone of a word index that is not padding (R6). -/
def PlaneRecord.zoneOf (p : PlaneRecord) (w : Nat) : Nat :=
  bandOf p.rowBounds (p.rowOf w) * p.columnBands + bandOf p.colBounds (p.columnOf w)

/-- The zone count of a face; a face with an invalid record has no zones (R6, R7). -/
def PlaneRecord.zoneCount (p : PlaneRecord) : Nat :=
  if p.valid then p.columnBands * p.rowBands else 0

/-- The default zone map for a zone count and a sensor slot (R7). -/
def defaultMap (zoneCount : Nat) (sensor : Option (Fin 64)) : Vector (Option (Fin 64)) 64 :=
  Vector.ofFn fun z =>
    if z.val < zoneCount then
      match sensor with
      | some s =>
        if s.val < zoneCount && decide (s ≤ z) then some (Fin.ofNat 64 (z.val + 1)) else some z
      | none => some z
    else none

/-- Whether two byte ranges, each a first byte and a length, share a byte. -/
def rangesOverlap (a la b lb : Nat) : Bool :=
  decide (a < b + lb) && decide (b < a + la)

/-! Links (R92, R98). -/

/-- The slots a link setup enables (R92). -/
def LinkSetup.enables (l : LinkSetup) (n : Fin 64) : Bool :=
  decide (n.val < l.slotCount) && l.mask.getLsbD n.val

/-- The enabled set of a link setup (R92). -/
def LinkSetup.enabledSet (l : LinkSetup) : BitVec 64 :=
  l.mask &&& BitVec.ofNat 64 (2 ^ l.slotCount - 1)

/-- An enabled slot that is not the sensor slot. -/
def LinkSetup.isModuleSlot (l : LinkSetup) (n : Fin 64) : Bool :=
  l.enables n && !(l.sensorSlot == some n)

/-- The slots a frame setup enables (R102). -/
def FrameSetup.enables (fs : FrameSetup) (n : Fin 64) : Bool :=
  decide (n.val < fs.slotCount) && fs.enabled.getLsbD n.val

/-- The copy of a link setup taken at a sync (R95). -/
def LinkSetup.frameSetup (l : LinkSetup) : FrameSetup where
  slotCount := l.slotCount
  enabled := l.enabledSet
  wordLength := l.wordLength
  bitOrder := l.bitOrder
  bitRate := l.bitRate
  sensorSlot := l.sensorSlot

/-- The bit times of a link frame: sync, slots, gap (R98). -/
def FrameSetup.frameBits (fs : FrameSetup) : Nat := 1 + fs.slotCount * fs.wordLength.bits + 16

/-- The first bit time of a slot (R98). -/
def FrameSetup.slotFirstBit (fs : FrameSetup) (n : Nat) : Nat := 1 + n * fs.wordLength.bits

/-- The bit time in nanoseconds (R98). -/
def BitRate.bitTimeNs : BitRate → Nat
  | .mhz2 => 500
  | .mhz1 => 1000
  | .khz500 => 2000
  | .khz250 => 4000

/-- The frame setup that an enabled slot's start and end use: a frame is in progress and enables the
slot (R96, R100, R102, R106). -/
def LinkChannel.exchange (l : LinkChannel) (n : Fin 64) : Option FrameSetup :=
  match l.state, l.frameSetup with
  | .idle, _ => none
  | _, none => none
  | _, some fs => if fs.enables n then some fs else none

/-! Module records (R118, R120, R126, R132). -/

/-- The temperature step of a level (R126). -/
def TempLevel.step : TempLevel → Fin 4
  | .normal => 0
  | .warm => 0
  | .hot => 1
  | .critical => 2

/-- The derate step of a record (R126). -/
def ModuleRecord.derateStep (r : ModuleRecord) : Fin 4 :=
  match r.state with
  | .disabled => 3
  | .unseen => 3
  | .faulted => 3
  | .lost => 3
  | .ok => max r.tempLevel.step (if r.supplyLow then 1 else 0)
  | .suspect => max r.tempLevel.step (if r.supplyLow then 1 else 0)

/-- How many records of a face are in a state (R132). -/
def countRecords (rs : Vector ModuleRecord 64) (st : RecordState) : Nat :=
  rs.toList.countP fun r => r.state == st

/-- A temperature level as a count of thresholds (R120). -/
def TempLevel.rank : TempLevel → Nat
  | .normal => 0
  | .warm => 1
  | .hot => 2
  | .critical => 3

/-- How many of the three thresholds, each lowered by an amount, a temperature is at or above (R120). -/
def Thresholds.reached (th : Thresholds) (t lowered : Int) : Nat :=
  [th.warm, th.hot, th.critical].countP fun x => decide (x - lowered ≤ t)

/-- The temperature level after a measured temperature (R120). -/
def Thresholds.levelAfter (th : Thresholds) (present : TempLevel) (t : Int) : TempLevel :=
  let rise := th.reached t 0
  let fall := th.reached t th.hysteresis
  if present.rank < rise then tempLevelOf rise
  else if fall < present.rank then tempLevelOf fall
  else present

/-! Level engines (R19, R28, R29). -/

/-- Ticks of an epoch select (R19). -/
def epochPeriod : Fin 4 → Nat
  | 0 => 2
  | 1 => 5
  | 2 => 10
  | 3 => 25

/-- The value of the segment between two points, its quotient truncated toward zero (R28). -/
def interpolate (p q : CurvePoint) (a : Nat) : Nat :=
  ((p.level : Int) + (((a : Int) - p.ambient) * ((q.level : Int) - p.level)).tdiv ((q.ambient : Int) - p.ambient)).toNat

/-- The value of a curve for an ambient at or above its first point (R28). -/
def curveFrom : List CurvePoint → Nat → Nat
  | [], _ => 0
  | [p], _ => p.level
  | p :: q :: rest, a => if a < q.ambient then interpolate p q a else curveFrom (q :: rest) a

/-- The target before the ceiling (R28). -/
def curveValue (curve : List CurvePoint) (ceiling a : Nat) : Nat :=
  match curve with
  | [] => ceiling
  | p :: rest => if a ≤ p.ambient then p.level else curveFrom (p :: rest) a

/-- The target of an ambient under a limits record (R28). -/
def targetOf (curve : List CurvePoint) (l : Limits) (a : Nat) : Nat :=
  min (curveValue curve l.ceiling a) l.ceiling

/-- The new computed level (R29). -/
def levelAfter (l : Limits) (hold : Bool) (level target : Nat) : Nat :=
  if hold then min level l.ceiling
  else if level < target then min (min target (level + l.riseStep)) l.ceiling
  else if target < level then min (max target (level - l.fallStep)) l.ceiling
  else min level l.ceiling

/-- The ambient in use (R27). -/
def ambientInUse (sensor : SensorRecord) (l : Limits) : Nat :=
  match sensor.state with
  | .valid => sensor.sample
  | .none => l.fallbackAmbient
  | .waiting => l.fallbackAmbient
  | .lost => l.fallbackAmbient

/-- A set sensor state for a link with or without a sensor slot (R23). -/
def sensorAfterSetup (sensorSlot : Option (Fin 64)) (r : SensorRecord) : SensorRecord :=
  { r with state := if sensorSlot.isSome then .waiting else .none, count := 0 }

/-! Pixels (R41 to R46). -/

/-- The zone factor of a zone step (R41). -/
def zoneFactor : Fin 4 → Nat
  | 0 => 4096
  | 1 => 3072
  | 2 => 2048
  | 3 => 0

/-- The base gain of an applied level and a zone step (R42). -/
def baseGain (level : Nat) (step : Fin 4) : Nat := level * zoneFactor step / 4096

/-- The gain of a class in a context (R45). -/
def gainOf (cls : PixelClass) (c : ScaleContext) : Nat :=
  match cls with
  | .standard => c.gain
  | .priority => if c.blanked then 0 else max c.gain c.floor
  | .dark => 0
  | .fixed => if c.blanked then 0 else 4096

/-- A colour channel scaled by a gain, rounded half up (R46). -/
def scaleChannel (c g : Nat) : Nat := (c * g + 2048) / 4096

/-- A returned word scaled with a context: the class kept, each channel scaled (R44 to R46). -/
def scaleWord (c : ScaleContext) (w : Word) : Word :=
  let g := gainOf (pixelClassOf w) c
  BitVec.ofNat 32 (field w 30 2 * 2 ^ 30 + scaleChannel (field w 20 10) g * 2 ^ 20 + scaleChannel (field w 10 10) g * 2 ^ 10 + scaleChannel (field w 0 10) g)

/-! Attention (R135, R136). -/

/-- Whether a class is in a set. -/
def hasClass (s : Set8) (c : Fin 8) : Bool := s.getLsbD c.val

/-- The set with one class. -/
def classBit (c : Fin 8) : Set8 := 1#8 <<< c.val

/-- The set with a class added. -/
def addClass (s : Set8) (c : Fin 8) : Set8 := s ||| classBit c

/-- The set with a class removed. -/
def removeClass (s : Set8) (c : Fin 8) : Set8 := s &&& ~~~classBit c

/-- The rank of a class under a rotation base (R135). -/
def rankOf (base c : Fin 8) : Nat := (c - base).val

/-- The classes from the highest-ranking to the lowest (R135). -/
def ranking (base : Fin 8) : List (Fin 8) := [base, base + 1, base + 2, base + 3, base + 4, base + 5, base + 6, base + 7]

/-- Whether a class ranks above every class of a set (R136). -/
def ranksAbove (base : Fin 8) (c : Fin 8) (s : Set8) : Bool :=
  (ranking base).all fun d => !hasClass s d || decide (rankOf base c < rankOf base d)

/-- The presented class (R136). -/
def Attention.presented (a : Attention) : Option (Fin 8) :=
  (ranking a.base).find? fun c => hasClass a.pending c && !hasClass a.mask c && ranksAbove a.base c a.inService

/-- The highest-ranking class in service (R142). -/
def Attention.topInService (a : Attention) : Option (Fin 8) :=
  (ranking a.base).find? fun c => hasClass a.inService c

/-! Journal (R151, R153). -/

/-- The fill (R151). -/
def Journal.fill (j : Journal) : Nat := (j.produced - j.consumed).toNat

/-- A CURRENT record is in progress (R149). -/
def Journal.hasCurrent (j : Journal) : Bool :=
  match j.inProgress with
  | some r => !r.superseded
  | none => false

/-- The write index (R151). -/
def Journal.writeIndex (j : Journal) : BitVec 16 := if j.hasCurrent then j.produced + 1 else j.produced

/-- The capacity of the CONSUMED test: 0 while UNCONFIGURED (R152). -/
def Journal.capacityInForce (j : Journal) : Nat := if j.configured then j.capacity else 0

/-- Whether an offered consumed index is accepted (R152). -/
def Journal.accepts (j : Journal) (v : BitVec 16) : Bool :=
  decide ((j.writeIndex - v).toNat ≤ j.capacityInForce) && decide ((j.produced - v).toNat ≤ j.capacityInForce)

/-- A journal record is ready (R153). -/
def State.recordReady (s : State) : Bool :=
  s.journal.configured && s.journal.inProgress.isNone && decide (s.journal.fill < s.journal.capacity) && (!s.eventQueue.isEmpty || decide (s.journal.drops ≠ 0))

/-- The word address of the ring slot the next record takes (R153). -/
def Journal.nextAddr (j : Journal) : Addr :=
  j.base + BitVec.ofNat 28 (j.produced.toNat % j.capacity * Config.recordBytes)

/-! Control window (R55). -/

/-- The window offset of an address, bits 1 and 0 taken as zero, if it lies in the window (R55). -/
def State.windowOffset (s : State) (a : Addr) : Option Nat :=
  if s.windowBase.toNat ≤ alignedNat a ∧ alignedNat a < s.windowBase.toNat + Config.windowBytes then
    some (alignedNat a - s.windowBase.toNat)
  else none

/-- The control word at a window offset (R55). -/
def controlWordAt (offset : Nat) : Option ControlWord :=
  match offset with
  | 0x000 => some .head
  | 0x004 => some .body
  | 0x008 => some .ack
  | 0x00C => some .consumed
  | _ => none

/-- The window offset of a control word (R55). -/
def ControlWord.offset : ControlWord → Nat
  | .head => 0x000
  | .body => 0x004
  | .ack => 0x008
  | .consumed => 0x00C

/-- Whether a window offset is in the status image or the module image (R55). -/
def isImageOffset (offset : Nat) : Bool :=
  (decide (0x040 ≤ offset) && decide (offset ≤ 0x0DF)) || (decide (0x400 ≤ offset) && decide (offset ≤ 0x7FF))

/-- The window offset of an image word (R160). -/
def imageOffset (w : ImageWord) : Nat :=
  if w.val < 40 then 0x040 + 4 * w.val else 0x400 + 4 * (w.val - 40)

/-! Pins (R85 to R88, R137, R138, R98). -/

/-- The logical level of OE_A: lit only in LIVE (R85). -/
def oeALit (st : FaceState) : Bool :=
  match st with
  | .live => true
  | .off => false
  | .starting => false
  | .stalled => false

/-- The logical level of OE_B, none in B mode OFF (R88). -/
def oeBLit (o : OutputSettings) (st : FaceState) : Option Bool :=
  match o.bMode with
  | .off => none
  | .track => some (oeALit st)
  | .antivalent => some (!oeALit st)
  | .manual => some o.bManualLit

/-- The electrical level of a logical level: true is high (R86). -/
def electrical (p : Polarity) (lit : Bool) : Bool :=
  match p with
  | .high => lit
  | .low => !lit

/-- The pin of a drive mode and an electrical level (R87). -/
def drivePin (d : DriveMode) (high : Bool) : PinLevel :=
  match d, high with
  | .pushPull, true => .drivenHigh
  | .pushPull, false => .drivenLow
  | .sink, true => .highImpedance
  | .sink, false => .drivenLow
  | .source, true => .drivenHigh
  | .source, false => .highImpedance
  | .off, _ => .highImpedance

/-- OE_A of a supervisor's state and outputs (R85 to R87). -/
def Supervisor.oeA (p : Supervisor) : PinLevel :=
  drivePin p.outputs.aDrive (electrical p.outputs.polarity (oeALit p.state))

/-- OE_B of a supervisor's state and outputs (R86 to R88). -/
def Supervisor.oeB (p : Supervisor) : PinLevel :=
  match oeBLit p.outputs p.state with
  | none => .highImpedance
  | some lit => drivePin p.outputs.bDrive (electrical p.outputs.polarity lit)

/-- OE_A at the pin: high-impedance while PORST_N is asserted (R82). -/
def State.oeA (s : State) (f : Fin 4) : PinLevel :=
  if s.porstAsserted then .highImpedance else (s.face f).sup.oeA

/-- OE_B at the pin: high-impedance while PORST_N is asserted (R82). -/
def State.oeB (s : State) (f : Fin 4) : PinLevel :=
  if s.porstAsserted then .highImpedance else (s.face f).sup.oeB

/-- ATTN_N, true for high (R134, R137, R138). -/
def State.attnHigh (s : State) : Bool :=
  if s.porstAsserted then true
  else
    match s.attention.mode with
    | .level => s.attention.presented.isNone
    | .pulse => !s.attention.pulse

/-- TLSYNC of a face in the i-th bit time after the last event of its link, true for high: the sync is the
one bit time that LINK_SYNC begins, whatever slots follow it (R98). -/
def State.tlsync (s : State) (f : Fin 4) (i : Nat) : Bool :=
  if s.porstAsserted then false else (s.face f).link.line == .sync && i == 0

/-- TLCK of a face makes one period per bit time through a frame; held low while the link is IDLE (R97, R98).
DESIGN CHOICE (log 26): the spec does not say what TLCK does on a RUNNING link before its first sync; here it
is held low. -/
def State.tlckRuns (s : State) (f : Fin 4) : Bool :=
  if s.porstAsserted then false else (s.face f).link.line != .idle

/-- TLOUT of a face in the i-th bit time of the exchange under way, true for high (R98, R99). -/
def State.tlout (s : State) (f : Fin 4) (i : Nat) : Bool :=
  if s.porstAsserted then false
  else
    match (s.face f).link.line, (s.face f).link.frameSetup with
    | .word _ w, some fs => decide (i < fs.wordLength.bits) && (lineOrder fs.wordLength fs.bitOrder w).getLsbD i
    | _, _ => false

/-- The response offered on CPORT: that of a READY head of the order list (R63). DESIGN CHOICE (log 28): R73 holds
acceptance and issue while PORST_N is asserted and does not speak of responses; a READY head is offered there too. -/
def State.cportOffer (s : State) : Option CportResponse :=
  match s.orderList with
  | [] => none
  | e :: _ =>
    match e.completion with
    | .awaitingMemory => none
    | .ready status data => some { kind := e.kind, id := e.id, status := status, data := data }

/-- The code of a response status on CRSP_STATUS (11.8, R184). -/
def Status.code : Status → BitVec 2
  | .okay => 0
  | .error => 1
  | .discarded => 2

/-- CRSP_VALID: a response is offered (11.8). DESIGN CHOICE (log 28): it does not depend on PORST_N. -/
def State.crspValid (s : State) : Bool := s.cportOffer.isSome

/-- CRSP_STATUS while a response is offered (11.8, R184). DESIGN CHOICE (log 28): it does not depend on PORST_N. -/
def State.crspStatus (s : State) : Option (BitVec 2) := s.cportOffer.map fun b => b.status.code

end Sys2Proof.Machine
end

