-- ==== Sys2Proof/Machine/Images.lean ====
section
/-! DEFINITION. The codes and layouts of the words the part writes: image words, journal records, command words (11.3, 11.5, 11.6, 11.7, R186). -/

namespace Sys2Proof.Machine

/-! State codes (R185). -/

/-- R185. -/
def FaceState.code : FaceState → Nat
  | .off => 0
  | .starting => 1
  | .live => 2
  | .stalled => 3

/-- R185. -/
def RecordState.code : RecordState → Nat
  | .disabled => 0
  | .unseen => 1
  | .ok => 2
  | .suspect => 3
  | .faulted => 4
  | .lost => 5

/-- R185. -/
def SensorState.code : SensorState → Nat
  | .none => 0
  | .waiting => 1
  | .valid => 2
  | .lost => 3

/-- R185. -/
def LinkState.code : LinkState → Nat
  | .idle => 0
  | .running => 1
  | .draining => 2

/-- R185. -/
def DecoderState.code : DecoderState → Nat
  | .idle => 0
  | .collecting => 1
  | .discarding => 2

/-- R185. -/
def TempLevel.code : TempLevel → Nat := TempLevel.rank

/-- R185. -/
def ResultCode.code : ResultCode → Nat
  | .done => 0
  | .count => 1
  | .state => 2
  | .value => 3
  | .order => 4
  | .overlap => 5
  | .mailbox => 6
  | .busy => 7
  | .unknown => 8
  | .abandoned => 9

/-- R185. -/
def AckResult.code : AckResult → Nat
  | .done => 0
  | .none => 1
  | .invalid => 2

/-- R185: 0 UNCONFIGURED, 1..7 for capacities 16 to 1024. -/
def Journal.capacityCode (j : Journal) : Nat :=
  if !j.configured then 0
  else if j.capacity ≤ 16 then 1
  else if j.capacity ≤ 32 then 2
  else if j.capacity ≤ 64 then 3
  else if j.capacity ≤ 128 then 4
  else if j.capacity ≤ 256 then 5
  else if j.capacity ≤ 512 then 6
  else 7

/-- The code of a journaled event (11.6). -/
def EventCode.code : EventCode → Nat
  | .cmdRefused => 0x01
  | .cmdAbandoned => 0x02
  | .streamStray => 0x03
  | .streamPartial => 0x04
  | .indexRejected => 0x05
  | .frameStall => 0x10
  | .frameResumed => 0x11
  | .moduleSeen => 0x20
  | .moduleSuspect => 0x21
  | .moduleFaulted => 0x22
  | .moduleLost => 0x23
  | .moduleRecovered => 0x24
  | .derateChanged => 0x25
  | .sensorLost => 0x30
  | .sensorRestored => 0x31
  | .droppedSummary => 0xFF

/-- A Boolean as a field value. -/
def flagBit (b : Bool) : Nat := if b then 1 else 0

/-- A value placed at a bit of a word, in a field of a length. -/
def place (value lo len : Nat) : Word := BitVec.ofNat 32 (value % 2 ^ len * 2 ^ lo)

/-! Journal details and records (R154, R186). -/

/-- A plain count as a detail (R186). -/
def plainDetail (n : Nat) : Word := BitVec.ofNat 32 n

/-- Command code and tag as a detail (R186). -/
def codeTagDetail (code tag : BitVec 8) : Word := place code.toNat 8 8 ||| place tag.toNat 0 8

/-- A derate step as a detail: bits 1:0 (R186 for a step after). DEDUCED (log 27): R186 does not place the step
before that detail A of DERATE_CHANGED names; it is placed alike. -/
def stepDetail (step : Fin 4) : Word := place step.val 0 2

/-- Derate step, temperature level and supply-low flag as a detail (R186). -/
def thermalDetail (step : Fin 4) (t : TempLevel) (supplyLow : Bool) : Word :=
  place step.val 0 2 ||| place t.code 4 2 ||| place (flagBit supplyLow) 8 1

/-- Derate step and the reasons of a word as a detail (R186). -/
def reasonsDetail (step : Fin 4) (openFault shortFault frozen : Bool) : Word :=
  place step.val 0 2 ||| place (flagBit openFault) 16 1 ||| place (flagBit shortFault) 17 1 ||| place (flagBit frozen) 18 1

/-- The header of a journal record (11.6). -/
def recordHeader (sequence : BitVec 16) (code : EventCode) (face : Fin 4) (slot : Fin 64) : Word :=
  place sequence.toNat 16 16 ||| place code.code 8 8 ||| place face.val 6 2 ||| place slot.val 0 6

/-! Image words (11.7). -/

/-- The status image word of a face (R160): word `i` of its block. -/
def faceWord (f : Fin 4) (i : Fin 8) : ImageWord := ⟨8 + 8 * f.val + i.val, by omega⟩

/-- The module image word of a face and slot (R160). -/
def moduleWord (f : Fin 4) (n : Fin 64) : ImageWord := ⟨40 + 64 * f.val + n.val, by omega⟩

/-- The generation word (R160). -/
def generationWord : ImageWord := 0

/-- Where an image word lies: a part word, a word of a face's block, or a module word. -/
inductive ImagePlace where
  | part (i : Fin 8)
  | face (f : Fin 4) (i : Fin 8)
  | module (f : Fin 4) (n : Fin 64)
deriving DecidableEq, Repr

/-- R160. -/
def imagePlace (w : ImageWord) : ImagePlace :=
  if w.val < 8 then .part (Fin.ofNat 8 w.val)
  else if w.val < 40 then .face (Fin.ofNat 4 ((w.val - 8) / 8)) (Fin.ofNat 8 ((w.val - 8) % 8))
  else .module (Fin.ofNat 4 ((w.val - 40) / 64)) (Fin.ofNat 64 ((w.val - 40) % 64))

/-- The part words 0x040 to 0x05C (11.7). -/
def partImage (s : State) : Fin 8 → Word
  | 0 => place s.generation.toNat 16 16 ||| place s.ownWriteErrors 0 16
  | 1 => place s.decoder.result.result.code 16 4 ||| place s.decoder.result.code.toNat 8 8 ||| place s.decoder.result.tag.toNat 0 8
  | 2 => place s.decoder.remaining 8 8 ||| place s.decoder.state.code 0 2
  | 3 =>
    let p := s.attention.presented
    place (flagBit p.isSome) 27 1 ||| place (p.getD 0).val 24 3 ||| place s.attention.inService.toNat 16 8 ||| place s.attention.mask.toNat 8 8 ||| place s.attention.pending.toNat 0 8
  | 4 =>
    let c := s.attention.ackClass
    place (flagBit c.isSome) 15 1 ||| place (c.getD 0).val 12 3 ||| place s.attention.ackResult.code 8 2 ||| place s.attention.base.val 0 3
  | 5 => place s.journal.produced.toNat 16 16 ||| place s.journal.consumed.toNat 0 16
  | 6 => place s.journal.capacityCode 28 3 ||| place s.journal.fill 16 11 ||| place s.journal.drops 0 16
  | 7 => place s.eventQueue.length 16 6 ||| place s.journal.threshold 0 11

/-- The words of a face's block (11.7). -/
def faceImage (f : Face) : Fin 8 → Word
  | 0 => place (flagBit f.level.hold) 8 1 ||| place f.sup.state.code 0 2
  | 1 => place f.applied.level 16 13 ||| place f.level.level 0 13
  | 2 => place f.level.ambient 16 13 ||| place f.level.target 0 13
  | 3 => place f.level.sensor.count 8 8 ||| place f.level.sensor.state.code 0 2
  | 4 => place f.link.state.code 16 2 ||| place f.link.frameCount.toNat 0 16
  | 5 => place f.link.garbled 16 16 ||| place f.link.silent 0 16
  | 6 => place (countRecords f.records .lost) 24 8 ||| place (countRecords f.records .faulted) 16 8 ||| place (countRecords f.records .suspect) 8 8 ||| place (countRecords f.records .ok) 0 8
  | 7 => place f.sup.stallCount 0 16

/-- The measured temperature field: degrees C + 40, 0 when absent (R185). -/
def measuredCode (t : Option Int) : Nat :=
  match t with
  | none => 0
  | some t => (t + 40).toNat

/-- A module image word (11.7). -/
def moduleImage (r : ModuleRecord) (mailbox : Option OneShot) : Word :=
  place r.silentRun 24 8 ||| place (measuredCode r.measuredTemp) 16 8 ||| place r.pixelFaults 9 7 ||| place (flagBit r.supplyLow) 8 1 ||| place r.tempLevel.code 6 2 ||| place r.derateStep.val 4 2 ||| place (flagBit mailbox.isSome) 3 1 ||| place r.state.code 0 3

/-- The image word as the part would write it now (R160). -/
def imageValue (s : State) (w : ImageWord) : Word :=
  match imagePlace w with
  | .part i => partImage s i
  | .face f i => faceImage (s.face f) i
  | .module f n => moduleImage (pick (s.face f).records n) (pick (s.face f).mailboxes n)

/-! The fields an image word shows, field by field, for the marking of the dirty set (R159). The
generation count is not among them: it alone does not mark its word (R160). -/

/-- An optional value as a list of fields. -/
def optionFields (o : Option Nat) : List Int :=
  match o with
  | none => [0]
  | some v => [1, v]

/-- The fields of a part word that mark it. -/
def partShown (s : State) : Fin 8 → List Int
  | 0 => [s.ownWriteErrors]
  | 1 => [s.decoder.result.result.code, s.decoder.result.code.toNat, s.decoder.result.tag.toNat]
  | 2 => [s.decoder.remaining, s.decoder.state.code]
  | 3 => [(s.attention.inService.toNat : Int), s.attention.mask.toNat, s.attention.pending.toNat] ++ optionFields (s.attention.presented.map Fin.val)
  | 4 => [(s.attention.ackResult.code : Int), s.attention.base.val] ++ optionFields (s.attention.ackClass.map Fin.val)
  | 5 => [s.journal.produced.toNat, s.journal.consumed.toNat]
  | 6 => [s.journal.capacityCode, s.journal.fill, s.journal.drops]
  | 7 => [s.eventQueue.length, s.journal.threshold]

/-- The fields of a word of a face's block. -/
def faceShown (f : Face) : Fin 8 → List Int
  | 0 => [flagBit f.level.hold, f.sup.state.code]
  | 1 => [f.applied.level, f.level.level]
  | 2 => [f.level.ambient, f.level.target]
  | 3 => [f.level.sensor.count, f.level.sensor.state.code]
  | 4 => [f.link.state.code, f.link.frameCount.toNat]
  | 5 => [f.link.garbled, f.link.silent]
  | 6 => [countRecords f.records .lost, countRecords f.records .faulted, countRecords f.records .suspect, countRecords f.records .ok]
  | 7 => [f.sup.stallCount]

/-- The fields of a module image word (R132). -/
def moduleShown (r : ModuleRecord) (mailbox : Option OneShot) : List Int :=
  [r.state.code, r.derateStep.val, r.tempLevel.code, flagBit r.supplyLow, r.pixelFaults, r.silentRun, flagBit mailbox.isSome, flagBit r.measuredTemp.isSome, r.measuredTemp.getD 0]

/-- The fields an image word shows, but for the generation count. -/
def shown (s : State) (w : ImageWord) : List Int :=
  match imagePlace w with
  | .part i => partShown s i
  | .face f i => faceShown (s.face f) i
  | .module f n => moduleShown (pick (s.face f).records n) (pick (s.face f).mailboxes n)

/-! Command words of the link (11.3, R100, R101). -/

/-- The level byte (R101). -/
def levelByte (level : Nat) : Nat := min 255 (level / 16)

/-- A command word but for its parity bit. -/
def commandFields (len : WordLength) (level : Nat) (blank : Bool) (step : Fin 4) (oneShot : Option OneShot) (frameCount : BitVec 16) (slot : Fin 64) : LinkWord :=
  let marker := match len with
    | .w16 => 2 ^ 15
    | .w24 => 2 ^ 23 + levelByte level * 2 ^ 15
  let requests := match oneShot with
    | none => 0
    | some o => flagBit o.test * 2 ^ 11 + flagBit o.clearLatch * 2 ^ 10
  BitVec.ofNat 24 (marker + flagBit blank * 2 ^ 14 + step.val * 2 ^ 12 + requests + frameCount.toNat % 8 * 2 ^ 7 + slot.val * 2)

/-- A word with its parity bit chosen for an odd number of ones (R100). -/
def withOddParity (w : LinkWord) : LinkWord := if oddParity w then w else w ||| 1#24

/-- The command word of a slot (R100). -/
def commandWord (len : WordLength) (level : Nat) (blank : Bool) (step : Fin 4) (oneShot : Option OneShot) (frameCount : BitVec 16) (slot : Fin 64) : LinkWord :=
  withOddParity (commandFields len level blank step oneShot frameCount slot)

end Sys2Proof.Machine
end

