-- ==== Sys2Proof/Machine/Ops.lean ====
section
/-! DEFINITION. The named operations every block uses: writing a face, marking the image words a change shows in, raising an event, saturating counts. -/

namespace Sys2Proof.Machine

/-! Faces. -/

/-- The state with one face replaced. -/
def State.setFace (s : State) (f : Fin 4) (x : Face) : State := { s with faces := put s.faces f x }

/-- The state with one face changed by a function. -/
def State.updFace (f : Fin 4) (g : Face → Face) (s : State) : State := s.setFace f (g (s.face f))

/-! The dirty set (R159). -/

/-- A dirty set with those of some words added whose shown fields differ between two states. -/
def markChanged (before after : State) (ws : List ImageWord) (d : Vector Bool 296) : Vector Bool 296 :=
  ws.foldl (fun d w => if shown after w = shown before w then d else put d w true) d

/-- A change of state by the owner of some image words: each of those words whose shown fields the
change alters joins the dirty set, and a field written over with its own value marks nothing (R159). -/
def touch (ws : List ImageWord) (change : State → State) (s : State) : State :=
  { change s with dirty := markChanged s (change s) ws (change s).dirty }

/-- Every image word joins the dirty set (R159). -/
def markAll (s : State) : State := { s with dirty := allDirty }

/-- The part word `i` of the status image (R160). -/
def partWord (i : Fin 8) : ImageWord := ⟨i.val, by omega⟩

/-- The words of the module image of a face. -/
def moduleWords (f : Fin 4) : List ImageWord := allSlots.map (moduleWord f)

/-! Saturating counts. -/

/-- One more, stopping at a maximum. -/
def satSucc (maximum n : Nat) : Nat := min maximum (n + 1)

/-! Tests of a command (R167). -/

/-- The result of a list of tests made in order: that of the first that fails, or DONE (R167). -/
def firstFailure : List (Bool × ResultCode) → ResultCode
  | [] => .done
  | (passes, failure) :: rest => if passes then firstFailure rest else failure

/-! Events (R133, R147). -/

/-- A change of the pending set, mask, in-service set or rotation base taken whole: the presented class
is derived again, and in PULSE mode a change of it to a class begins a pulse (R136, R138). -/
def Attention.change (g : Attention → Attention) (a : Attention) : Attention :=
  { g a with pulse := (g a).pulse || ((g a).mode == .pulse && (g a).presented.isSome && !((g a).presented == a.presented)) }

/-- A class joins the pending set (R133). -/
def raiseClass (c : Fin 8) (s : State) : State :=
  touch [partWord 3] (fun s => { s with attention := s.attention.change fun a => { a with pending := addClass a.pending c } }) s

/-- The attention class of an event (R133); a DROPPED_SUMMARY is never raised (R148). -/
def EventCode.cls : EventCode → Option (Fin 8)
  | .cmdRefused => some 0
  | .cmdAbandoned => some 0
  | .streamStray => some 0
  | .streamPartial => some 0
  | .indexRejected => some 0
  | .frameStall => some 1
  | .moduleFaulted => some 2
  | .moduleLost => some 2
  | .moduleSuspect => some 3
  | .derateChanged => some 4
  | .sensorLost => some 5
  | .sensorRestored => some 5
  | .frameResumed => some 6
  | .moduleRecovered => some 6
  | .moduleSeen => some 6
  | .droppedSummary => none

/-- Class 7 JOURNAL, of JOURNAL_DROP and JOURNAL_THRESHOLD (R156). -/
def journalClass : Fin 8 := 7

/-- A journaled event is counted as a drop; the first raises JOURNAL_DROP (R147, R156). -/
def countDrop (s : State) : State :=
  let t := touch [partWord 6] (fun s => { s with journal := { s.journal with drops := satSucc Config.max16 s.journal.drops } }) s
  if s.journal.drops = 0 then raiseClass journalClass t else t

/-- The event queue is offered an entry (R147). -/
def offerEvent (e : EventEntry) (s : State) : State :=
  if s.eventQueue.length < Config.eventQueueSize then
    touch [partWord 7] (fun s => { s with eventQueue := s.eventQueue ++ [e] }) s
  else countDrop s

/-- A class joins the pending set, if there is one. -/
def raiseClass? (c : Option (Fin 8)) (s : State) : State :=
  match c with
  | none => s
  | some c => raiseClass c s

/-- A block raises a journaled event: its class is set pending, and an entry with the time count is
offered to the event queue (R17, R133, R147). -/
def raiseEvent (code : EventCode) (face : Fin 4) (slot : Fin 64) (a b : Word) (s : State) : State :=
  offerEvent { code := code, face := face, slot := slot, time := s.timeCount, detailA := a, detailB := b } (raiseClass? code.cls s)

end Sys2Proof.Machine
end

