-- ==== Sys2Proof/Machine/StatusWriter.lean ====
section
/-! DEFINITION. The status writer: its turn at the own-write queue (R161) and completions answered ERROR (R69, R162). -/

namespace Sys2Proof.Machine

/-- The dirty word of lowest offset (R161). -/
def lowestDirty (d : Vector Bool 296) : Option ImageWord := (List.finRange 296).find? fun w => pick d w

/-- No image word is dirty. -/
def noneDirty (d : Vector Bool 296) : Bool := (lowestDirty d).isNone

/-- An image word enqueued with its fields as they stand (R68, R161). -/
def enqueueImageWord (w : ImageWord) (s : State) : State :=
  { s with
    ownWrites := s.ownWrites ++ [{ addr := s.windowBase + BitVec.ofNat 28 (imageOffset w), data := imageValue s w, origin := .status w }] }

/-- A word leaves the dirty set, and the pass ends if the set is now empty (R161). -/
def takeDirty (w : ImageWord) (s : State) : State :=
  let d := put s.dirty w false
  if noneDirty d then
    { s with dirty := d, generation := s.generation + 1, generationOwed := s.generationOwed || w != generationWord }
  else { s with dirty := d }

/-- The status writer may enqueue: the queue has a free entry and no journal record is ready (R161, R68). -/
def State.statusTurn (s : State) : Bool :=
  decide (s.ownWrites.length < Config.ownWriteQueueSize) && !s.recordReady

/-- The status writer's turn (R161). -/
def statusEnqueue (s : State) : State :=
  if s.statusTurn then
    if s.generationOwed then
      enqueueImageWord generationWord { s with generationOwed := false, dirty := put s.dirty generationWord false }
    else
      match lowestDirty s.dirty with
      | none => s
      | some w => enqueueImageWord w (takeDirty w s)
  else s

/-- The memory status of an own write counted (R69). -/
def countOwnWriteError (status : Status) (s : State) : State :=
  match status with
  | .error => touch [generationWord] (fun s => { s with ownWriteErrors := satSucc Config.max16 s.ownWriteErrors }) s
  | .okay => s
  | .discarded => s

/-- What STATUS_WORD_ENQUEUE does (R161). -/
def execStatusWordEnqueue (s : State) : Host.Outcome State Fault Refusal := .next (statusEnqueue s)

end Sys2Proof.Machine
end

