-- ==== Sys2Proof/Machine/AttentionController.lean ====
section
/-! DEFINITION. The attention controller: ACK operations (R140 to R143), its configuration (R144, R139), the end of a pulse (R138). -/

namespace Sys2Proof.Machine

/-- The last ack result written, its image word marked if it changes (R140). -/
def setAck (r : AckResult) (c : Option (Fin 8)) (s : State) : State :=
  touch [partWord 4] (fun s => { s with attention := { s.attention with ackResult := r, ackClass := c } }) s

/-- A change of the pending set, the in-service set or the base taken whole (R136). -/
def changeAttention (g : Attention → Attention) (s : State) : State :=
  touch [partWord 3, partWord 4] (fun s => { s with attention := s.attention.change g }) s

/-- The sets and base after TAKE of a presented class (R141). -/
def Attention.took (c : Fin 8) (a : Attention) : Attention :=
  { a with
    pending := removeClass a.pending c
    inService := if a.autoFinish then removeClass a.inService c else addClass a.inService c
    base := if a.autoFinish && a.rotateOnAuto then c + 1 else a.base }

/-- TAKE (R141). -/
def takeClass (s : State) : State :=
  match s.attention.presented with
  | none => setAck .none none s
  | some c => setAck .done (some c) (changeAttention (Attention.took c) s)

/-- The in-service set and base after a class is finished (R142). -/
def Attention.finished (rotate : Bool) (c : Fin 8) (a : Attention) : Attention :=
  { a with inService := removeClass a.inService c, base := if rotate then c + 1 else a.base }

/-- FINISH_TOP (R142). -/
def finishTopClass (rotate : Bool) (s : State) : State :=
  match s.attention.topInService with
  | none => setAck .none none s
  | some c => setAck .done (some c) (changeAttention (Attention.finished rotate c) s)

/-- FINISH of a class (R142). -/
def finishClass (rotate : Bool) (c : Fin 8) (s : State) : State :=
  if hasClass s.attention.inService c then
    setAck .done (some c) (changeAttention (Attention.finished rotate c) s)
  else setAck .none (some c) s

/-- SET_LOWEST of a class (R143). -/
def setLowestClass (c : Fin 8) (s : State) : State :=
  setAck .done (some c) (changeAttention (fun a => { a with base := c + 1 }) s)

/-- An ACK operation code that names no operation (R140). -/
def invalidAck (s : State) : State := setAck .invalid none s

/-- An ACK write's operation, rotate flag and class performed (R140). -/
def takeAck (code : BitVec 4) (rotate : Bool) (c : Fin 8) (s : State) : State :=
  match ackOperationOf code with
  | some .take => takeClass s
  | some .finishTop => finishTopClass rotate s
  | some .finish => finishClass rotate c s
  | some .setLowest => setLowestClass c s
  | none => invalidAck s

/-- The fields an ATTN_CONFIG writes (R144, R179). -/
def Attention.configured (ws : List Word) (a : Attention) : Attention :=
  let w := payloadWord ws 0
  { a with
    mask := setField w
    mode := if w.getLsbD 8 then .pulse else .level
    autoFinish := w.getLsbD 9
    rotateOnAuto := w.getLsbD 10
    pending := a.pending &&& ~~~(if 2 ≤ ws.length then setField (payloadWord ws 1) else 0) }

/-- ATTN_CONFIG at the controller: a change of mode ends or begins no pulse, by R139; with the mode kept,
a change of the presented class acts as any other (R138, R139, log 12). -/
def Attention.reconfigured (ws : List Word) (a : Attention) : Attention :=
  if (a.configured ws).mode = a.mode then a.change (Attention.configured ws)
  else { a.configured ws with pulse := false }

/-- ATTN_CONFIG (R144). -/
def configureAttention (ws : List Word) (s : State) : State :=
  touch [partWord 3] (fun s => { s with attention := s.attention.reconfigured ws }) s

/-- The end of a pulse (R138). -/
def endPulse (s : State) : State := { s with attention := { s.attention with pulse := false } }

/-- What TAKE does (R141). -/
def execTake (s : State) : Host.Outcome State Fault Refusal := .next (takeClass s)

/-- What FINISH_TOP does (R142). -/
def execFinishTop (rotate : Bool) (s : State) : Host.Outcome State Fault Refusal := .next (finishTopClass rotate s)

/-- What FINISH does (R142). -/
def execFinish (rotate : Bool) (cls : Fin 8) (s : State) : Host.Outcome State Fault Refusal :=
  .next (finishClass rotate cls s)

/-- What SET_LOWEST does (R143). -/
def execSetLowest (cls : Fin 8) (s : State) : Host.Outcome State Fault Refusal := .next (setLowestClass cls s)

/-- What an ACK write of an unused operation code does (R140). -/
def execAckInvalid (operation : BitVec 4) (s : State) : Host.Outcome State Fault Refusal :=
  .next (takeAck operation false 0 s)

/-- What ATTN_PULSE_END does (R138). -/
def execAttnPulseEnd (s : State) : Host.Outcome State Fault Refusal := .next (endPulse s)

end Sys2Proof.Machine
end

