-- ==== Sys2Proof/Machine/JournalWriter.lean ====
section
/-! DEFINITION. The journal writer: setup (R150), the consumed index (R152), writing a record (R153, R154), completions (R155), its attention events (R156). -/

namespace Sys2Proof.Machine

/-- A change of the journal, its image words marked if they change (R149). -/
def changeJournal (g : Journal → Journal) (s : State) : State :=
  touch [partWord 5, partWord 6, partWord 7] (fun s => { s with journal := g s.journal }) s

/-- JOURNAL_THRESHOLD, raised when the fill rises across the threshold from a fill before (R156). -/
def raiseThreshold (before : Nat) (s : State) : State :=
  if before < s.journal.threshold ∧ s.journal.threshold ≤ s.journal.fill then raiseClass journalClass s else s

/-- The record in progress after JOURNAL_SETUP or PART_RESET: SUPERSEDED (R150, R158). -/
def Journal.superseded (j : Journal) : Option RecordProgress :=
  j.inProgress.map fun r => { r with superseded := true }

/-- JOURNAL_SETUP taken (R150). -/
def setupJournal (base : Addr) (capacity threshold : Nat) (s : State) : State :=
  changeJournal (fun j =>
    { j with
      configured := true
      base := base
      capacity := capacity
      threshold := threshold
      produced := 0
      consumed := 0
      inProgress := j.superseded }) s

/-- A CONSUMED write taken (R152). -/
def offerConsumed (v : BitVec 16) (s : State) : State :=
  if s.journal.accepts v then
    raiseThreshold s.journal.fill (changeJournal (fun j => { j with consumed := v }) s)
  else
    raiseEvent .indexRejected 0 0 (plainDetail v.toNat) (plainDetail s.journal.writeIndex.toNat) s

/-- The four own writes of a record, header last (R154). -/
def recordWrites (addr : Addr) (sequence : BitVec 16) (e : EventEntry) : List OwnWrite :=
  [{ addr := addr + 8, data := e.detailA, origin := .journal sequence false },
   { addr := addr + 12, data := e.detailB, origin := .journal sequence false },
   { addr := addr + 4, data := e.time.setWidth 32, origin := .journal sequence false },
   { addr := addr, data := recordHeader sequence e.code e.face e.slot, origin := .journal sequence true }]

/-- The DROPPED_SUMMARY of a state (R154). -/
def droppedSummary (s : State) : EventEntry where
  code := .droppedSummary
  face := 0
  slot := 0
  time := s.timeCount
  detailA := plainDetail s.journal.drops
  detailB := plainDetail s.eventQueue.length

/-- A record placed whole into the own-write queue: it becomes CURRENT, and the sequence number rises
(R153, R154). -/
def enqueueRecord (e : EventEntry) (s : State) : State :=
  let addr := s.journal.nextAddr
  let sequence := s.journal.sequence
  { s with
    ownWrites := s.ownWrites ++ recordWrites addr sequence e
    journal :=
      { s.journal with
        sequence := sequence + 1
        inProgress := some { superseded := false, addr := addr, sequence := sequence } } }

/-- The queue has room for a record (R68). -/
def State.roomForRecord (s : State) : Bool :=
  decide (s.ownWrites.length + Config.recordWords ≤ Config.ownWriteQueueSize)

/-- A ready record enqueued: a summary while the drop count is not 0, else the head of the event queue
(R153, R154). -/
def journalEnqueue (s : State) : State :=
  if s.recordReady && s.roomForRecord then
    if s.journal.drops ≠ 0 then
      changeJournal (fun j => { j with drops := 0 }) (enqueueRecord (droppedSummary s) s)
    else
      match s.eventQueue with
      | [] => s
      | e :: rest => touch [partWord 7] (fun s => { s with eventQueue := rest }) (enqueueRecord e s)
  else s

/-- The completion of a journal header ends its record (R155). -/
def completeRecord (sequence : BitVec 16) (s : State) : State :=
  match s.journal.inProgress with
  | none => s
  | some r =>
    if r.sequence = sequence then
      if r.superseded then { s with journal := { s.journal with inProgress := none } }
      else
        raiseThreshold s.journal.fill
          (changeJournal (fun j => { j with inProgress := none, produced := j.produced + 1 }) s)
    else s

/-- The journal writer and event queue at PART_RESET (R158). -/
def resetJournalWriter (s : State) : State :=
  { s with journal := { resetJournal with inProgress := s.journal.superseded }, eventQueue := [] }

/-- What JOURNAL_RECORD_ENQUEUE does (R153). -/
def execJournalRecordEnqueue (s : State) : Host.Outcome State Fault Refusal := .next (journalEnqueue s)

/-- What CONSUMED_WRITE does (R152). -/
def execConsumedWrite (data : Word) (s : State) : Host.Outcome State Fault Refusal :=
  .next (offerConsumed (consumedField data) s)

end Sys2Proof.Machine
end

