-- ==== Sys2Proof/Machine/PixelScaler.lean ====
section
/-! DEFINITION. The applied set: the latch at a frame start (R37), the dark form (R40), and the capture of a scale context (R43). -/

namespace Sys2Proof.Machine

/-- The zone step the latch takes for a zone (R37). -/
def latchedStep (x : Face) (z : Fin 64) : Fin 4 :=
  if z.val < x.plane.zoneCount then
    match pick x.zoneMap z with
    | some n => (pick x.records n).derateStep
    | none => 3
  else 3

/-- The applied set a latch writes (R37). -/
def latchedSet (x : Face) : AppliedSet where
  level := x.level.level
  floor := x.level.limits.floor
  steps := Vector.ofFn (latchedStep x)

/-- The latch at a frame start of a face (R37). -/
def latch (f : Fin 4) (s : State) : State :=
  touch [faceWord f 1] (State.updFace f fun x => { x with applied := latchedSet x }) s

/-- The applied set of a face put in the dark form (R40). -/
def darken (f : Fin 4) (s : State) : State :=
  touch [faceWord f 1] (State.updFace f fun x => { x with applied := darkForm }) s

/-- The context a scan read of a zone captures from the applied set (R43). -/
def captureContext (f : Fin 4) (zone : Fin 64) (s : State) : ScaleContext :=
  let a := (s.face f).applied
  let step := pick a.steps zone
  { face := f
    zone := zone
    gain := baseGain a.level step
    blanked := step == 3
    floor := a.floor }

end Sys2Proof.Machine
end

