-- ==== Sys2Proof/Machine/LevelEngine.lean ====
section
/-! DEFINITION. The level engine of a face: adoption, the sensor test, the target and the level at an epoch (R20 to R29), sensor outcomes (R24), hold and forced level (R31, R32), start (R33). -/

namespace Sys2Proof.Machine

/-- The sensor slot an event of a level engine names (R26); it has one whenever it raises an event. -/
def sensorSlotOf (x : Face) : Fin 64 := x.link.setup.sensorSlot.getD 0

/-- Adoption of the staged copies (R20). -/
def LevelEngine.adopted (e : LevelEngine) : LevelEngine :=
  { e with
    curve := e.stagedCurve.getD e.curve
    stagedCurve := none
    limits := e.stagedLimits.getD e.limits
    stagedLimits := none }

/-- Whether the sensor test declares the sensor lost (R25). -/
def SensorRecord.lostNow (r : SensorRecord) (limit : Nat) : Bool :=
  (r.state == .waiting || r.state == .valid) && decide (limit ≤ r.count)

/-- The sensor record after the sensor test (R25). -/
def SensorRecord.tested (r : SensorRecord) (limit : Nat) : SensorRecord :=
  if r.state = .none then r
  else { r with state := if r.lostNow limit then .lost else r.state, count := satSucc 255 r.count }

/-- A, T and L at an epoch (R27 to R29). -/
def LevelEngine.computed (e : LevelEngine) : LevelEngine :=
  let a := ambientInUse e.sensor e.limits
  let t := targetOf e.curve e.limits a
  { e with ambient := a, target := t, level := levelAfter e.limits e.hold e.level t }

/-- The adoption stage of a face (R20). -/
def adoptStaged (f : Fin 4) (s : State) : State :=
  s.updFace f fun x => { x with level := x.level.adopted }

/-- The sensor test of a face, with SENSOR_LOST raised (R25, R26). -/
def sensorTest (f : Fin 4) (s : State) : State :=
  let x := s.face f
  let r := x.level.sensor
  let limit := x.level.limits.sensorLostEpochs
  let t := touch [faceWord f 3] (State.updFace f fun x => { x with level := { x.level with sensor := x.level.sensor.tested x.level.limits.sensorLostEpochs } }) s
  if r.lostNow limit then
    raiseEvent .sensorLost f (sensorSlotOf x) (plainDetail r.state.code) (plainDetail r.count) t
  else t

/-- The ambient, target and level stages of a face (R27 to R29). -/
def computeLevel (f : Fin 4) (s : State) : State :=
  touch [faceWord f 1, faceWord f 2] (State.updFace f fun x => { x with level := x.level.computed }) s

/-- An epoch at the level engine of a face (R20). -/
def epochFace (f : Fin 4) (s : State) : State :=
  let t := adoptStaged f s
  if (s.face f).sup.state.scanning then computeLevel f (sensorTest f t) else t

/-- A fresh sample stored (R24). -/
def SensorRecord.fresh (r : SensorRecord) (ambient : Nat) : SensorRecord :=
  { r with state := .valid, sample := min ambient Config.maxAmbient, count := 0 }

/-- A valid, fresh sensor word at a face that is not OFF (R24, R26). -/
def takeSample (f : Fin 4) (ambient : Nat) (s : State) : State :=
  let x := s.face f
  let t := touch [faceWord f 3] (State.updFace f fun x => { x with level := { x.level with sensor := x.level.sensor.fresh ambient } }) s
  if x.level.sensor.state = .lost then
    raiseEvent .sensorRestored f (sensorSlotOf x) (plainDetail SensorState.lost.code) (plainDetail 0) t
  else t

/-- The outcome of the sensor slot handed to the level engine (R24, R109). -/
def sensorOutcome (f : Fin 4) (len : WordLength) (c : ReceivedClass) (w : LinkWord) (s : State) : State :=
  if (s.face f).sup.state.scanning then
    match c with
    | .silent => s
    | .garbled => s
    | .valid => if sensorFresh len w then takeSample f (sensorAmbient len w) s else s
  else s

/-- The hold flag set, with L replaced by a forced level if there is one (R31, R32). -/
def holdLevel (f : Fin 4) (forced : Option Nat) (s : State) : State :=
  touch [faceWord f 0, faceWord f 1]
    (State.updFace f fun x =>
      { x with
        level :=
          { x.level with
            hold := true
            level :=
              match forced with
              | none => x.level.level
              | some v => min (min v Config.fullLevel) x.level.limits.ceiling } }) s

/-- The hold flag cleared (R31). -/
def releaseLevel (f : Fin 4) (s : State) : State :=
  touch [faceWord f 0] (State.updFace f fun x => { x with level := { x.level with hold := false } }) s

/-- The level engine at FACE_START (R33, R23). -/
def startLevel (f : Fin 4) (s : State) : State :=
  touch [faceWord f 1, faceWord f 3]
    (State.updFace f fun x =>
      { x with level := { x.level with level := 0, sensor := sensorAfterSetup x.link.setup.sensorSlot x.level.sensor } }) s

end Sys2Proof.Machine
end

