-- ==== Sys2Proof/Machine/ModuleRecords.lean ====
section
/-! DEFINITION. The module record table: taking an outcome (R114 to R125), the events of records (R130), start, clear and reset of records (R127 to R129). -/

namespace Sys2Proof.Machine

/-- The outcome of a module slot as a record sees it: SILENT and GARBLED are both a silence (R117). -/
inductive ModuleOutcome where
  | silence
  | valid (report : ModuleReport)
deriving DecidableEq, Repr

/-- R106, R108, R117. -/
def moduleOutcomeOf (len : WordLength) (c : ReceivedClass) (w : LinkWord) : ModuleOutcome :=
  match c with
  | .silent => .silence
  | .garbled => .silence
  | .valid => .valid (moduleReportOf len w)

/-- The temperature level a valid word gives (R115, R119, R120); a 24-bit link holds thresholds (R91,
log 19). -/
def reportedLevel (th : Option Thresholds) (present : TempLevel) (w : ModuleReport) : TempLevel :=
  match w.measuredTemp, th with
  | none, _ => w.tempLevel
  | some t, some th => th.levelAfter present t
  | some _, none => present

/-- The stuck run after a sequence value (R116). -/
def stuckAfter (r : ModuleRecord) (sequence : BitVec 2) : Nat :=
  if r.lastSequence = some sequence then satSucc 15 r.stuckRun else 1

/-- The fields stage of a valid outcome (R115, R116). -/
def ModuleRecord.reported (r : ModuleRecord) (th : Option Thresholds) (w : ModuleReport) : ModuleRecord :=
  { r with
    supplyLow := w.supplyLow
    pixelFaults := w.pixelFaults
    tempLevel := reportedLevel th r.tempLevel w
    measuredTemp := w.measuredTemp.or r.measuredTemp
    silentRun := 0
    stuckRun := stuckAfter r w.sequence
    lastSequence := some w.sequence }

/-- The reasons of a valid word: the conditions of R118 that hold. -/
structure Reasons where
  openFault : Bool
  shortFault : Bool
  frozen : Bool
deriving DecidableEq, Repr

/-- The word is judged FAULTY (R118). -/
def Reasons.faulty (q : Reasons) : Bool := q.openFault || q.shortFault || q.frozen

/-- No reasons, those of a silence. -/
def noReasons : Reasons where
  openFault := false
  shortFault := false
  frozen := false

/-- The judgement of a valid word, after the fields stage (R118). -/
def judge (setup : LinkSetup) (r : ModuleRecord) (w : ModuleReport) : Reasons where
  openFault := w.openFault
  shortFault := w.shortFault
  frozen := decide (setup.stuckLimit ≤ r.stuckRun)

/-- A record moved to SUSPECT by a word that starts a run (R121, R122, R124). -/
def ModuleRecord.suspected (r : ModuleRecord) (faulty : Bool) : ModuleRecord :=
  { r with state := .suspect, confirmRun := if faulty then 1 else 0, cleanRun := if faulty then 0 else 1 }

/-- The transition stage of a valid word (R121 to R125). -/
def ModuleRecord.afterWord (r : ModuleRecord) (setup : LinkSetup) (faulty : Bool) : ModuleRecord :=
  match r.state with
  | .disabled => r
  | .faulted => r
  | .unseen => if faulty then r.suspected true else { r with state := .ok }
  | .ok => if faulty then r.suspected true else r
  | .lost => r.suspected faulty
  | .suspect =>
    if faulty then
      { r with
        state := if setup.confirmCount ≤ satSucc 15 r.confirmRun then .faulted else .suspect
        confirmRun := satSucc 15 r.confirmRun
        cleanRun := 0 }
    else if setup.clearCount ≤ satSucc 15 r.cleanRun then
      { r with state := .ok, confirmRun := 0, cleanRun := 0 }
    else { r with confirmRun := 0, cleanRun := satSucc 15 r.cleanRun }

/-- The transition stage of a silence, after the silent run has risen (R121 to R125). -/
def ModuleRecord.afterSilence (r : ModuleRecord) (setup : LinkSetup) : ModuleRecord :=
  let lost := if setup.lostCount ≤ r.silentRun then { r with state := RecordState.lost, confirmRun := 0, cleanRun := 0 } else r
  match r.state with
  | .disabled => r
  | .faulted => r
  | .lost => r
  | .unseen => lost
  | .ok => lost
  | .suspect => lost

/-- The record after an outcome, and the reasons of its word (R114, stages 1 to 3). -/
def ModuleRecord.taken (r : ModuleRecord) (setup : LinkSetup) (o : ModuleOutcome) : ModuleRecord × Reasons :=
  match o with
  | .silence => ({ r with silentRun := satSucc 255 r.silentRun }.afterSilence setup, noReasons)
  | .valid w =>
    let r1 := r.reported setup.thresholds w
    let q := judge setup r1 w
    (r1.afterWord setup q.faulty, q)

/-- An event of a record: its code and details. -/
structure RecordEvent where
  code : EventCode
  detailA : Word
  detailB : Word
deriving DecidableEq, Repr

/-- The event of a slot end: that of the transition, or DERATE_CHANGED, or none (R114 stage 5, R130). DEDUCED
(log 27): the packing of detail A of DERATE_CHANGED, the derate step before. -/
def recordEvent (before after : ModuleRecord) (q : Reasons) : Option RecordEvent :=
  let step := after.derateStep
  let thermal := thermalDetail step after.tempLevel after.supplyLow
  let reasons := reasonsDetail step q.openFault q.shortFault q.frozen
  let stateBefore := plainDetail before.state.code
  if before.state = after.state then
    if (after.state = .ok ∨ after.state = .suspect) ∧ before.derateStep ≠ step then
      some { code := .derateChanged, detailA := stepDetail before.derateStep, detailB := thermal }
    else none
  else
    match after.state with
    | .ok =>
      if before.state = .unseen then some { code := .moduleSeen, detailA := stateBefore, detailB := thermal }
      else some { code := .moduleRecovered, detailA := plainDetail (satSucc 15 before.cleanRun), detailB := stepDetail step }
    | .suspect => some { code := .moduleSuspect, detailA := stateBefore, detailB := reasons }
    | .faulted => some { code := .moduleFaulted, detailA := plainDetail after.confirmRun, detailB := reasons }
    | .lost => some { code := .moduleLost, detailA := stateBefore, detailB := plainDetail after.silentRun }
    | .disabled => none
    | .unseen => none

/-- One record of a face written, its image word and the face's count word marked if they change (R114
stage 6, R132). -/
def setRecord (f : Fin 4) (n : Fin 64) (r : ModuleRecord) (s : State) : State :=
  touch [moduleWord f n, faceWord f 6] (State.updFace f fun x => { x with records := put x.records n r }) s

/-- Every record of a face written. -/
def setRecords (f : Fin 4) (rs : Vector ModuleRecord 64) (s : State) : State :=
  touch (moduleWords f ++ [faceWord f 6]) (State.updFace f fun x => { x with records := rs }) s

/-- The outcome of a module slot handed to its record (R114). -/
def recordOutcome (f : Fin 4) (n : Fin 64) (o : ModuleOutcome) (s : State) : State :=
  let x := s.face f
  let r := pick x.records n
  if x.sup.state.scanning && r.state != .disabled then
    let out := r.taken x.link.setup o
    let t := setRecord f n out.1 s
    match recordEvent r out.1 out.2 with
    | none => t
    | some e => raiseEvent e.code f n e.detailA e.detailB t
  else s

/-- A record at FACE_START (R127). -/
def unseenRecord : ModuleRecord := { resetRecord with state := .unseen }

/-- The records of a face at FACE_START: enabled slots but the sensor slot become UNSEEN (R127). -/
def startRecords (f : Fin 4) (s : State) : State :=
  let x := s.face f
  setRecords f (Vector.ofFn fun n => if x.link.setup.isModuleSlot n then unseenRecord else pick x.records n) s

/-- A FAULTED record released; any other is left (R129). -/
def ModuleRecord.cleared (r : ModuleRecord) : ModuleRecord :=
  if r.state = .faulted then
    { r with state := .unseen, silentRun := 0, confirmRun := 0, cleanRun := 0, stuckRun := 0, lastSequence := none }
  else r

/-- MODULE_CLEAR, all-slots form (R129). -/
def clearAllRecords (f : Fin 4) (s : State) : State :=
  setRecords f ((s.face f).records.map ModuleRecord.cleared) s

/-- MODULE_CLEAR, single-slot form (R129). -/
def clearRecord (f : Fin 4) (n : Fin 64) (s : State) : State :=
  setRecord f n (pick (s.face f).records n).cleared s

end Sys2Proof.Machine
end

