-- ==== Sys2Proof/Machine/TileLink.lean ====
section
/-! DEFINITION. The tile link channel: sync (R95), slot start and mailboxes (R100 to R105), slot end (R106 to R109), the end of a drain (R97). -/

namespace Sys2Proof.Machine

/-- The mailbox of a slot written, its image word marked if it fills or empties (R103, R105). -/
def setMailbox (f : Fin 4) (n : Fin 64) (m : Option OneShot) (s : State) : State :=
  touch [moduleWord f n] (State.updFace f fun x => { x with mailboxes := put x.mailboxes n m }) s

/-- Every mailbox of a face emptied (R105). -/
def emptyAllMailboxes (f : Fin 4) (s : State) : State :=
  touch (moduleWords f) (State.updFace f fun x => { x with mailboxes := emptyMailboxes }) s

/-- The sync of a RUNNING link: the frame setup is copied and the frame count rises (R95). -/
def linkSync (f : Fin 4) (s : State) : State :=
  if (s.face f).link.state = .running then
    touch [faceWord f 4]
      (State.updFace f fun x =>
        { x with link := { x.link with frameSetup := some x.link.setup.frameSetup, frameCount := x.link.frameCount + 1, line := .sync } }) s
  else s

/-- The derate step a slot's command word carries: 0 for the sensor slot (R100). -/
def slotStep (x : Face) (fs : FrameSetup) (n : Fin 64) : Fin 4 :=
  if fs.sensorSlot = some n then 0 else (pick x.records n).derateStep

/-- The one-shot taken at a slot start: that of the mailbox while the link is RUNNING (R104). -/
def slotOneShot (x : Face) (n : Fin 64) : Option OneShot :=
  if x.link.state = .running then pick x.mailboxes n else none

/-- The command word assembled at a slot start (R100, R101). -/
def slotCommand (x : Face) (fs : FrameSetup) (n : Fin 64) : LinkWord :=
  commandWord fs.wordLength x.level.level (x.sup.state != .live || slotStep x fs n == 3) (slotStep x fs n) (slotOneShot x n) x.link.frameCount n

/-- The start of an enabled slot of a frame in progress (R100, R104). -/
def slotStart (f : Fin 4) (n : Fin 64) (s : State) : State :=
  let x := s.face f
  match x.link.exchange n with
  | none => s
  | some fs =>
    let t := s.updFace f fun x => { x with link := { x.link with line := .word n (slotCommand x fs n) } }
    if x.link.state = .running then setMailbox f n none t else t

/-- The outcome counted, before it is handed on (R107). -/
def countOutcome (f : Fin 4) (c : ReceivedClass) (s : State) : State :=
  touch [faceWord f 5]
    (State.updFace f fun x =>
      { x with
        link :=
          match c with
          | .silent => { x.link with silent := satSucc Config.max16 x.link.silent }
          | .garbled => { x.link with garbled := satSucc Config.max16 x.link.garbled }
          | .valid => x.link }) s

/-- The line after the end of a slot: its command word is sent. -/
def LinePhase.afterSlot (l : LinePhase) (n : Fin 64) : LinePhase :=
  match l with
  | .word m w => if m = n then .low else .word m w
  | .idle => .idle
  | .sync => .sync
  | .low => .low

/-- The end of an enabled slot of a frame in progress, TLIN sampled: the word is assembled, classified,
counted and handed on (R99, R106 to R109). -/
def receiveSlot (f : Fin 4) (n : Fin 64) (samples : LinkWord) (s : State) : State :=
  match (s.face f).link.exchange n with
  | none => s
  | some fs =>
    let w := lineOrder fs.wordLength fs.bitOrder samples
    let c := classifyReceived fs.wordLength w
    let t := countOutcome f c (s.updFace f fun x => { x with link := { x.link with line := x.link.line.afterSlot n } })
    if fs.sensorSlot = some n then sensorOutcome f fs.wordLength c w t
    else recordOutcome f n (moduleOutcomeOf fs.wordLength c w) t

/-- The end of a slot: TLIN is ignored while PORST_N is asserted (R98). -/
def slotEnd (f : Fin 4) (n : Fin 64) (samples : LinkWord) (s : State) : State :=
  if s.porstAsserted then s else receiveSlot f n samples s

/-- A link reaches IDLE: the frame setup is dropped, the mailboxes empty, the records become DISABLED
(R97, R128). -/
def linkIdle (f : Fin 4) (s : State) : State :=
  setRecords f resetRecords
    (emptyAllMailboxes f
      (touch [faceWord f 4]
        (State.updFace f fun x => { x with link := { x.link with state := .idle, frameSetup := none, line := .idle } }) s))

/-- The end of the gap of a DRAINING link (R97). -/
def drainEnd (f : Fin 4) (s : State) : State :=
  if (s.face f).link.state = .draining then linkIdle f s else s

/-- The channel at FACE_START (R94). -/
def startLink (f : Fin 4) (s : State) : State :=
  touch [faceWord f 4] (State.updFace f fun x => { x with link := { x.link with state := .running } }) s

/-- The channel at the entry of its face to OFF (R96). -/
def stopLink (f : Fin 4) (s : State) : State :=
  let l := (s.face f).link
  if l.state = .running then
    match l.frameSetup with
    | some _ => touch [faceWord f 4] (State.updFace f fun x => { x with link := { x.link with state := .draining } }) s
    | none => linkIdle f s
  else s

/-- A link setup taken: the counts become 0 and the sensor record WAITING or NONE (R92, R176). -/
def setLinkSetup (f : Fin 4) (l : LinkSetup) (s : State) : State :=
  touch [faceWord f 3, faceWord f 4, faceWord f 5]
    (State.updFace f fun x =>
      { x with
        link := { x.link with setup := l, setUp := true, frameCount := 0, garbled := 0, silent := 0 }
        level := { x.level with sensor := sensorAfterSetup l.sensorSlot x.level.sensor } }) s

/-- What LINK_SYNC does (R95). -/
def execLinkSync (face : Fin 4) (s : State) : Host.Outcome State Fault Refusal := .next (linkSync face s)

/-- What SLOT_START does (R100). -/
def execSlotStart (face : Fin 4) (slot : Fin 64) (s : State) : Host.Outcome State Fault Refusal :=
  .next (slotStart face slot s)

/-- What SLOT_END does (R106). -/
def execSlotEnd (face : Fin 4) (slot : Fin 64) (samples : LinkWord) (s : State) : Host.Outcome State Fault Refusal :=
  .next (slotEnd face slot samples s)

/-- What DRAIN_END does (R97). -/
def execDrainEnd (face : Fin 4) (s : State) : Host.Outcome State Fault Refusal := .next (drainEnd face s)

end Sys2Proof.Machine
end

