-- ==== Sys2Proof/Machine/FaceSupervisor.lean ====
section
/-! DEFINITION. The face supervisor: stall timer and stall expiry (R77, R78), frame start (R76), output configuration (R89). -/

namespace Sys2Proof.Machine

/-- The states in which the stall timer counts (R77). -/
def FaceState.timed (st : FaceState) : Bool :=
  match st with
  | .off => false
  | .starting => true
  | .live => true
  | .stalled => false

/-- A stall expiry of a face; it occurs only in STARTING or LIVE (R78, R83). DEDUCED (log 27): R186 does not name
the stall timeout setting, detail B of FRAME_STALL, among the plain values; it is written as one. -/
def stallExpiry (f : Fin 4) (s : State) : State :=
  let p := (s.face f).sup
  if p.state.timed then
    raiseEvent .frameStall f 0 (plainDetail p.state.code) (plainDetail p.stallTimeout)
      (touch [faceWord f 0, faceWord f 7]
        (State.updFace f fun x =>
          { x with sup := { x.sup with state := .stalled, stallTimer := 0, stallCount := satSucc Config.max16 x.sup.stallCount } }) s)
  else s

/-- A tick at the stall timer of a face (R77). -/
def stallTick (f : Fin 4) (s : State) : State :=
  let p := (s.face f).sup
  if p.state.timed then
    if p.stallTimer ≤ 1 then stallExpiry f s
    else s.updFace f fun x => { x with sup := { x.sup with stallTimer := x.sup.stallTimer - 1 } }
  else s

/-- A frame start at the supervisor of a face (R76). -/
def superviseFrameStart (f : Fin 4) (s : State) : State :=
  let p := (s.face f).sup
  if p.state.scanning then
    let t := touch [faceWord f 0] (State.updFace f fun x => { x with sup := { x.sup with state := .live, stallTimer := x.sup.stallTimeout } }) s
    if p.state = .stalled then raiseEvent .frameResumed f 0 (plainDetail p.stallCount) 0 t else t
  else s

/-- The supervisor at FACE_START (R75). -/
def startSupervisor (f : Fin 4) (s : State) : State :=
  touch [faceWord f 0] (State.updFace f fun x => { x with sup := { x.sup with state := .starting, stallTimer := x.sup.stallTimeout } }) s

/-- The supervisor at the entry to OFF (R80). -/
def stopSupervisor (f : Fin 4) (s : State) : State :=
  touch [faceWord f 0] (State.updFace f fun x => { x with sup := { x.sup with state := .off, stallTimer := 0 } }) s

/-- The output configuration written as one unit (R89). -/
def setOutputs (f : Fin 4) (o : OutputSettings) (s : State) : State :=
  s.updFace f fun x => { x with sup := { x.sup with outputs := o } }

/-- The stall timeout setting handed to the supervisor (R79). -/
def setStallTimeout (f : Fin 4) (n : Nat) (s : State) : State :=
  s.updFace f fun x => { x with sup := { x.sup with stallTimeout := n } }

end Sys2Proof.Machine
end

