-- ==== Sys2Proof/Machine/Timebase.lean ====
section
/-! DEFINITION. The timebase: milliseconds, ticks and epochs (R17 to R20, R77). -/

namespace Sys2Proof.Machine

/-- The members of a list, each once, at its first place. -/
def firstOccurrences {n : Nat} : List (Fin n) → List (Fin n) → List (Fin n)
  | _, [] => []
  | seen, x :: xs => if x ∈ seen then firstOccurrences seen xs else x :: firstOccurrences (x :: seen) xs

/-- A given order of all members: those listed first, then the rest in rising order (log 4). -/
def completeOrder {n : Nat} (order : List (Fin n)) : List (Fin n) :=
  firstOccurrences [] (order ++ List.finRange n)

/-- One block takes a tick: parts 0..3 are the stall timers, 4..7 the level engines, which act if the
tick brought an epoch (R77, R20). -/
def tickPart (epochDue : Bool) (s : State) (p : TickPart) : State :=
  if p.val < 4 then stallTick (Fin.ofNat 4 p.val) s
  else if epochDue then epochFace (Fin.ofNat 4 (p.val - 4)) s
  else s

/-- A tick brings the epoch timer to 0 (R19). -/
def State.epochDue (s : State) : Bool := decide (s.epochTimer ≤ 1)

/-- The tick divider returns to 0 and the epoch timer counts down, or reloads at 0 (R18, R19). -/
def countTick (s : State) : State :=
  { s with tickDivider := 0, epochTimer := if s.epochDue then epochPeriod s.epochSelect else s.epochTimer - 1 }

/-- A tick (R18, R19, R77): the blocks take it in the order given. -/
def runTick (order : List TickPart) (s : State) : State :=
  (completeOrder order).foldl (tickPart s.epochDue) (countTick s)

/-- A millisecond: the time count rises, and the tick divider rises or brings a tick (R17, R18). -/
def runMillisecond (order : List TickPart) (s : State) : State :=
  let t := { s with timeCount := s.timeCount + 1 }
  if Config.tickDividerPeriod ≤ s.tickDivider + 1 then runTick order t
  else { t with tickDivider := s.tickDivider + 1 }

/-- An epoch: the timer reloads and every level engine takes it (R19, R20). -/
def runEpoch (order : List (Fin 4)) (s : State) : State :=
  (completeOrder order).foldl (fun s f => epochFace f s) { s with epochTimer := epochPeriod s.epochSelect }

/-- What MILLISECOND_INCREMENT does (R17). -/
def execMillisecondIncrement (order : List TickPart) (s : State) : Host.Outcome State Fault Refusal :=
  .next (runMillisecond order s)

/-- What TICK does (R18). -/
def execTick (order : List TickPart) (s : State) : Host.Outcome State Fault Refusal := .next (runTick order s)

/-- What EPOCH does (R20). -/
def execEpoch (order : List (Fin 4)) (s : State) : Host.Outcome State Fault Refusal := .next (runEpoch order s)

/-- What STALL_EXPIRY does (R78). -/
def execStallExpiry (face : Fin 4) (s : State) : Host.Outcome State Fault Refusal := .next (stallExpiry face s)

end Sys2Proof.Machine
end

