-- ==== Sys2Proof/Machine/Commands.lean ====
section
/-! DEFINITION. The seventeen commands: the tests of each in order, and its effect (R75, R80, R169 to R182). A result function answers the first test that fails, or DONE; an effect function is what the command does when every test passes (R167). -/

namespace Sys2Proof.Machine

/-- A face that is OFF. -/
def Face.isOff (x : Face) : Bool := x.sup.state == .off

/-- A link that is not DRAINING. -/
def Face.notDraining (x : Face) : Bool := x.link.state != .draining

/-- A list that ascends strictly. -/
def strictlyAscending : List Nat → Bool
  | [] => true
  | [_] => true
  | a :: b :: rest => decide (a < b) && strictlyAscending (b :: rest)

/-- A number that is at least one bound and at most another. -/
def inRange (lo hi v : Nat) : Bool := decide (lo ≤ v) && decide (v ≤ hi)

/-- Half of a count, rounded up. -/
def halfUp (n : Nat) : Nat := (n + 1) / 2

/-! FACE_GEOMETRY (R169). -/

/-- The column band count field. -/
def columnBandField (ws : List Word) : Nat := field (payloadWord ws 2) 8 5

/-- The row band count field. -/
def rowBandField (ws : List Word) : Nat := field (payloadWord ws 2) 16 4

/-- The derived count (R169). -/
def derivedCount (ws : List Word) : Nat := 3 + halfUp (columnBandField ws - 1) + halfUp (rowBandField ws - 1)

/-- The plane record a payload carries (R169). -/
def planeOf (ws : List Word) : PlaneRecord :=
  let nc := columnBandField ws
  let nr := rowBandField ws
  { valid := true
    base := baseField (payloadWord ws 0)
    strideExp := field (payloadWord ws 1) 0 4
    width := field (payloadWord ws 1) 4 11
    height := field (payloadWord ws 1) 15 11
    scanTags := setField (payloadWord ws 2)
    colBounds := boundaries (ws.drop 3) (nc - 1)
    rowBounds := boundaries (ws.drop (3 + halfUp (nc - 1))) (nr - 1) }

/-- The value test of a plane record (R169). -/
def planeInRange (p : PlaneRecord) (nc nr : Nat) (sensor : Option (Fin 64)) : Bool :=
  inRange 6 11 p.strideExp && inRange 1 1024 p.width && inRange 1 1024 p.height && decide (p.width ≤ p.stride) && decide (nc * nr ≤ 64) && !(nc * nr == 64 && sensor.isSome) && decide (p.base.toNat + p.bytes ≤ Config.addressSpace)

/-- The order test of a boundary list (R169). -/
def boundsOrdered (bounds : List Nat) (extent : Nat) : Bool :=
  strictlyAscending bounds && bounds.all fun b => inRange 1 (extent - 1) b

/-- A byte range clear of the control window (R2). -/
def clearOfWindow (s : State) (a la : Nat) : Bool := !rangesOverlap a la s.windowBase.toNat Config.windowBytes

/-- A byte range clear of the plane of a face with a valid record (R2). -/
def clearOfPlane (x : Face) (a la : Nat) : Bool :=
  !(x.plane.valid && rangesOverlap a la x.plane.base.toNat x.plane.bytes)

/-- A byte range clear of the ring of a CONFIGURED journal (R169). -/
def clearOfRing (j : Journal) (a la : Nat) : Bool :=
  !(j.configured && rangesOverlap a la j.base.toNat (j.capacity * Config.recordBytes))

/-- A byte range clear of a SUPERSEDED record still in progress (R169). -/
def clearOfSuperseded (j : Journal) (a la : Nat) : Bool :=
  match j.inProgress with
  | none => true
  | some r => !(r.superseded && rangesOverlap a la r.addr.toNat Config.recordBytes)

/-- The overlap test of a plane for a face (R169). -/
def planeClear (s : State) (f : Fin 4) (p : PlaneRecord) : Bool :=
  let a := p.base.toNat
  let la := p.bytes
  clearOfWindow s a la && (allFaces.all fun g => g == f || clearOfPlane (s.face g) a la) && clearOfRing s.journal a la && clearOfSuperseded s.journal a la

/-- The tests of FACE_GEOMETRY (R169). -/
def faceGeometryResult (h : HeadFields) (ws : List Word) (s : State) : ResultCode :=
  let x := s.face h.face
  let nc := columnBandField ws
  let nr := rowBandField ws
  let p := planeOf ws
  firstFailure
    [(x.isOff, .state),
     (inRange 1 16 nc && inRange 1 8 nr, .value),
     (ws.length == derivedCount ws, .count),
     (planeInRange p nc nr x.link.setup.sensorSlot, .value),
     (boundsOrdered p.colBounds p.width && boundsOrdered p.rowBounds p.height, .order),
     (planeClear s h.face p, .overlap)]

/-- The effect of FACE_GEOMETRY (R1, R7, R169). -/
def faceGeometryEffect (h : HeadFields) (ws : List Word) (s : State) : State :=
  s.updFace h.face fun x =>
    { x with plane := planeOf ws, zoneMap := defaultMap (planeOf ws).zoneCount x.link.setup.sensorSlot }

/-! FACE_ZONEMAP (R170). -/

/-- The slot fields of the zones in use, in zone order. -/
def zoneSlots (x : Face) (ws : List Word) : List Nat := (ws.flatMap slotFields).take x.plane.zoneCount

/-- The value test of a zone map (R170, R8). -/
def zoneSlotsValid (slots : List Nat) (sensor : Option (Fin 64)) : Bool :=
  (slots.all fun n => decide (n ≤ 63)) && decide slots.Nodup && !(slots.any fun n => sensor.map Fin.val == some n)

/-- The tests of FACE_ZONEMAP (R170). -/
def faceZonemapResult (h : HeadFields) (ws : List Word) (s : State) : ResultCode :=
  let x := s.face h.face
  firstFailure
    [(x.isOff, .state),
     (x.plane.valid, .state),
     (ws.length == (x.plane.zoneCount + 3) / 4, .count),
     (zoneSlotsValid (zoneSlots x ws) x.link.setup.sensorSlot, .value)]

/-- A zone map with its first entries replaced by listed slots (R7). -/
def mapWithSlots (m : Vector (Option (Fin 64)) 64) (slots : List Nat) : Vector (Option (Fin 64)) 64 :=
  Vector.ofFn fun z =>
    match slots[z.val]? with
    | some n => some (Fin.ofNat 64 n)
    | none => pick m z

/-- The effect of FACE_ZONEMAP (R7, R170). -/
def faceZonemapEffect (h : HeadFields) (ws : List Word) (s : State) : State :=
  s.updFace h.face fun x => { x with zoneMap := mapWithSlots x.zoneMap (zoneSlots x ws) }

/-! FACE_CURVE (R171), FACE_LIMITS (R172), FACE_HOLD and FACE_RELEASE (R173). -/

/-- The tests of FACE_CURVE (R171). -/
def faceCurveResult (_h : HeadFields) (ws : List Word) (_s : State) : ResultCode :=
  let points := ws.map curvePointOf
  firstFailure
    [(points.all fun p => decide (p.ambient ≤ Config.maxAmbient), .value),
     (strictlyAscending (points.map CurvePoint.ambient), .order)]

/-- The effect of FACE_CURVE (R22, R171). -/
def faceCurveEffect (h : HeadFields) (ws : List Word) (s : State) : State :=
  s.updFace h.face fun x =>
    { x with level := { x.level with stagedCurve := some (ws.map fun w => (curvePointOf w).clamped) } }

/-- The effect of FACE_LIMITS (R21, R79, R172). -/
def faceLimitsEffect (h : HeadFields) (ws : List Word) (s : State) : State :=
  setStallTimeout h.face (stallTimeoutOf ws)
    (s.updFace h.face fun x => { x with level := { x.level with stagedLimits := some (limitsOf ws) } })

/-- The effect of FACE_HOLD (R32, R173). -/
def faceHoldEffect (h : HeadFields) (ws : List Word) (s : State) : State :=
  holdLevel h.face (ws.head?.map forcedLevelField) s

/-! FACE_START (R75) and FACE_STOP (R80). -/

/-- Every zone map entry in use names an enabled slot that is not the sensor slot (R75). -/
def Face.zonesServed (x : Face) : Bool :=
  allSlots.all fun z =>
    decide (x.plane.zoneCount ≤ z.val) ||
      match pick x.zoneMap z with
      | some n => x.link.setup.isModuleSlot n
      | none => false

/-- The tests of FACE_START (R75, R174). -/
def faceStartResult (h : HeadFields) (_ws : List Word) (s : State) : ResultCode :=
  let x := s.face h.face
  firstFailure
    [(x.isOff, .state),
     (x.notDraining, .busy),
     (x.plane.valid && x.link.setUp, .state),
     (x.zonesServed, .value)]

/-- A face starts (R75). -/
def startFace (f : Fin 4) (s : State) : State :=
  startLink f (startRecords f (startLevel f (startSupervisor f s)))

/-- A face that is not OFF enters OFF; an OFF face is left as it is (R40, R80, R96). -/
def enterOff (f : Fin 4) (s : State) : State :=
  if (s.face f).sup.state.scanning then stopLink f (darken f (stopSupervisor f s)) else s

/-! LINK_SETUP (R176). -/

/-- No zone map entry in use of a face names a slot (R8). -/
def Face.slotUnmapped (x : Face) (n : Fin 64) : Bool :=
  allSlots.all fun z => decide (x.plane.zoneCount ≤ z.val) || !(pick x.zoneMap z == some n)

/-- The tests of LINK_SETUP (R176). -/
def linkSetupResult (h : HeadFields) (ws : List Word) (s : State) : ResultCode :=
  let x := s.face h.face
  let l := linkSetupOf ws
  firstFailure
    [(x.isOff, .state),
     (x.notDraining, .busy),
     (ws.length == (match l.wordLength with | .w24 => 5 | .w16 => 4), .count),
     (inRange 1 64 l.slotCount && inRange 1 255 l.lostCount && inRange 1 15 l.confirmCount && inRange 1 15 l.clearCount && inRange 2 15 l.stuckLimit, .value),
     ((match l.sensorSlot with | some n => l.enables n | none => true), .value),
     ((match l.sensorSlot with | some n => x.slotUnmapped n | none => true), .value),
     ((match l.thresholds with | some t => decide (t.warm < t.hot) && decide (t.hot < t.critical) | none => true), .value)]

/-- The effect of LINK_SETUP (R91, R92, R176). -/
def linkSetupEffect (h : HeadFields) (ws : List Word) (s : State) : State :=
  setLinkSetup h.face (linkSetupOf ws) s

/-! MODULE_COMMAND (R103, R177) and MODULE_CLEAR (R129, R178). -/

/-- The tests of MODULE_COMMAND (R103). -/
def moduleCommandResult (h : HeadFields) (ws : List Word) (s : State) : ResultCode :=
  let x := s.face h.face
  let o := oneShotOf (payloadWord ws 0)
  firstFailure
    [(x.sup.state.scanning, .state),
     (x.link.setup.enables h.slot, .value),
     (o.test || o.clearLatch, .value),
     ((pick x.mailboxes h.slot).isNone, .mailbox)]

/-- The effect of MODULE_COMMAND (R103). -/
def moduleCommandEffect (h : HeadFields) (ws : List Word) (s : State) : State :=
  setMailbox h.face h.slot (some (oneShotOf (payloadWord ws 0))) s

/-- The tests of MODULE_CLEAR (R129). -/
def moduleClearResult (h : HeadFields) (ws : List Word) (s : State) : ResultCode :=
  let x := s.face h.face
  firstFailure
    [(x.sup.state.scanning, .state),
     (allSlotsForm ws || x.link.setup.isModuleSlot h.slot, .value)]

/-- The effect of MODULE_CLEAR (R129). -/
def moduleClearEffect (h : HeadFields) (ws : List Word) (s : State) : State :=
  if allSlotsForm ws then clearAllRecords h.face s else clearRecord h.face h.slot s

/-! JOURNAL_SETUP (R180). -/

/-- The capacity field. -/
def capacityField (ws : List Word) : Nat := field (payloadWord ws 1) 0 16

/-- The threshold field. -/
def thresholdField (ws : List Word) : Nat := field (payloadWord ws 1) 16 16

/-- The capacities a ring may have (R149). -/
def ringCapacities : List Nat := [16, 32, 64, 128, 256, 512, 1024]

/-- The tests of JOURNAL_SETUP (R180). -/
def journalSetupResult (_h : HeadFields) (ws : List Word) (s : State) : ResultCode :=
  let base := (baseField (payloadWord ws 0)).toNat
  let bytes := capacityField ws * Config.recordBytes
  firstFailure
    [(ringCapacities.contains (capacityField ws), .value),
     (inRange 1 (capacityField ws) (thresholdField ws), .value),
     (decide (base + bytes ≤ Config.addressSpace), .value),
     (clearOfWindow s base bytes && allFaces.all fun g => clearOfPlane (s.face g) base bytes, .overlap)]

/-- The effect of JOURNAL_SETUP (R150). -/
def journalSetupEffect (_h : HeadFields) (ws : List Word) (s : State) : State :=
  setupJournal (baseField (payloadWord ws 0)) (capacityField ws) (thresholdField ws) s

/-! TIMING_SETUP (R181). -/

/-- The epoch select field. -/
def epochSelectField (ws : List Word) : Nat := field (payloadWord ws 0) 0 8

/-- The test of TIMING_SETUP (R181). -/
def timingSetupResult (_h : HeadFields) (ws : List Word) (_s : State) : ResultCode :=
  firstFailure [(decide (epochSelectField ws ≤ 3), .value)]

/-- The effect of TIMING_SETUP (R19, R181). -/
def timingSetupEffect (_h : HeadFields) (ws : List Word) (s : State) : State :=
  { s with epochSelect := Fin.ofNat 4 (epochSelectField ws), epochTimer := epochPeriod (Fin.ofNat 4 (epochSelectField ws)) }

/-! PART_RESET (R182). -/

/-- The link channel at PART_RESET: setup and counts at once, link state, frame setup and line kept for
a drain (R97, R111). -/
def LinkChannel.partReset (l : LinkChannel) : LinkChannel :=
  { l with setUp := false, setup := resetLinkSetup, frameCount := 0, garbled := 0, silent := 0 }

/-- The state of a face at PART_RESET, after its entry to OFF (R16, R35, R51, R81, R111, R128). -/
def Face.partReset (x : Face) : Face where
  plane := resetPlane
  zoneMap := identityMap
  level := resetLevel
  applied := x.applied
  sup := resetSupervisor
  link := x.link.partReset
  mailboxes := emptyMailboxes
  records := resetRecords

/-- One face at PART_RESET (R81). -/
def partResetFace (s : State) (f : Fin 4) : State := (enterOff f s).updFace f Face.partReset

/-- The effect of PART_RESET on every owner but the decoder (R19, R72, R134, R158, R159, R182). -/
def partResetEffect (s : State) : State :=
  let t := resetJournalWriter (allFaces.foldl partResetFace s)
  { t with
    epochSelect := resetEpochSelect
    epochTimer := resetEpochTimer
    attention := resetAttention
    dirty := allDirty
    generationOwed := false
    ownWriteErrors := 0 }

end Sys2Proof.Machine
end

