-- ==== Sys2Proof/Machine/StreamDecoder.lean ====
section
/-! DEFINITION. The stream decoder: HEAD words (R164, R165), BODY words (R166), execution and results (R167, R168); and the meaning of each of its rows. -/

namespace Sys2Proof.Machine

/-- The decoder state and remaining count written, and what it holds of a command in progress. -/
def setDecoder (st : DecoderState) (remaining : Nat) (cmd : Option HeadWord) (refusal : Option ResultCode) (buffer : List Word) (s : State) : State :=
  touch [partWord 2]
    (fun s => { s with decoder := { s.decoder with state := st, remaining := remaining, inProgress := cmd, refusal := refusal, buffer := buffer } }) s

/-- The result word written (R168). -/
def setResult (h : HeadWord) (r : ResultCode) (s : State) : State :=
  touch [partWord 1] (fun s => { s with decoder := { s.decoder with result := { tag := h.fields.tag, code := h.code, result := r } } }) s

/-- A command ends: its result is posted, the decoder is IDLE, and every result but DONE raises
CMD_REFUSED (R168). -/
def postResult (h : HeadWord) (r : ResultCode) (s : State) : State :=
  let t := setDecoder .idle 0 none none [] (setResult h r s)
  if r = .done then t
  else raiseEvent .cmdRefused h.fields.face h.fields.slot (codeTagDetail h.code h.fields.tag) (place r.code 0 4) t

/-- The command in progress is abandoned by a HEAD word: its result is ABANDONED and CMD_ABANDONED is
raised (R164). The decoder state is left to the new HEAD word, which is decoded in the same event. -/
def abandonCommand (s : State) : State :=
  match s.decoder.state, s.decoder.inProgress with
  | .idle, _ => s
  | _, none => s
  | _, some h =>
    raiseEvent .cmdAbandoned h.fields.face h.fields.slot (codeTagDetail h.code h.fields.tag) (plainDetail s.decoder.remaining) (setResult h .abandoned s)

/-- A command whose tests and effect are given ends with their result (R167). -/
def conclude (h : HeadWord) (r : ResultCode) (effect : State → State) (s : State) : State :=
  postResult h r (if r = .done then effect s else s)

/-- A command is executed against its whole payload (R167). -/
def executeCommand (c : Command) (h : HeadWord) (ws : List Word) (s : State) : State :=
  let k := h.fields
  match c with
  | .faceGeometry => conclude h (faceGeometryResult k ws s) (faceGeometryEffect k ws) s
  | .faceZonemap => conclude h (faceZonemapResult k ws s) (faceZonemapEffect k ws) s
  | .faceCurve => conclude h (faceCurveResult k ws s) (faceCurveEffect k ws) s
  | .faceLimits => conclude h .done (faceLimitsEffect k ws) s
  | .faceStart => conclude h (faceStartResult k ws s) (startFace k.face) s
  | .faceStop => conclude h .done (enterOff k.face) s
  | .faceHold => conclude h .done (faceHoldEffect k ws) s
  | .faceRelease => conclude h .done (releaseLevel k.face) s
  | .outputConfig => conclude h .done (setOutputs k.face (outputsOf (payloadWord ws 0))) s
  | .linkSetup => conclude h (linkSetupResult k ws s) (linkSetupEffect k ws) s
  | .moduleCommand => conclude h (moduleCommandResult k ws s) (moduleCommandEffect k ws) s
  | .moduleClear => conclude h (moduleClearResult k ws s) (moduleClearEffect k ws) s
  | .attnConfig => conclude h .done (configureAttention ws) s
  | .journalSetup => conclude h (journalSetupResult k ws s) (journalSetupEffect k ws) s
  | .timingSetup => conclude h (timingSetupResult k ws s) (timingSetupEffect k ws) s
  | .statusRefresh => conclude h .done markAll s
  | .partReset => conclude h .done partResetEffect s

/-- A HEAD word is decoded by its code and payload count (R165). -/
def decodeHead (h : HeadWord) (s : State) : State :=
  let n := h.fields.count.toNat
  match commandOf h.code with
  | some c =>
    if c.allows n then
      if n = 0 then executeCommand c h [] s else setDecoder .collecting n (some h) none [] s
    else if n = 0 then postResult h .count s
    else setDecoder .discarding n (some h) (some .count) [] s
  | none =>
    if n = 0 then postResult h .unknown s
    else setDecoder .discarding n (some h) (some .unknown) [] s

/-- The decoder takes a HEAD word (R164, R165). -/
def takeHead (h : HeadWord) (s : State) : State := decodeHead h (abandonCommand s)

/-- The command in progress of a decoder that is not IDLE. -/
def Decoder.command (d : Decoder) : HeadWord :=
  d.inProgress.getD { code := 0, fields := { face := 0, slot := 0, count := 0, tag := 0 } }

/-- The last payload word of a command in progress is taken: it is executed (R166, R167). -/
def completeCommand (h : HeadWord) (ws : List Word) (s : State) : State :=
  match commandOf h.code with
  | some c => executeCommand c h ws s
  | none => postResult h .unknown s

/-- The decoder takes a BODY word (R166). -/
def takeBody (w : Word) (s : State) : State :=
  let d := s.decoder
  match d.state with
  | .idle => raiseEvent .streamStray 0 0 w 0 s
  | .collecting =>
    if d.remaining ≤ 1 then completeCommand d.command (d.buffer ++ [w]) s
    else setDecoder .collecting (d.remaining - 1) d.inProgress d.refusal (d.buffer ++ [w]) s
  | .discarding =>
    if d.remaining ≤ 1 then postResult d.command (d.refusal.getD .unknown) s
    else setDecoder .discarding (d.remaining - 1) d.inProgress d.refusal d.buffer s

/-- The decoder takes some BODY words one after another. -/
def takeBodies (ws : List Word) (s : State) : State := ws.foldl (fun s w => takeBody w s) s

/-- A HEAD word and the BODY words after it, as a row of the table carries them (log 2). -/
def streamCommand (code : BitVec 8) (h : HeadFields) (ws : List Word) (s : State) : State :=
  takeBodies ws (takeHead { code := code, fields := h } s)

/-- What BODY_WORD does (R166). -/
def execBodyWord (data : Word) (s : State) : Host.Outcome State Fault Refusal := .next (takeBody data s)

/-- What UNKNOWN_COMMAND does (R165). -/
def execUnknownCommand (code : BitVec 8) (head : HeadFields) (payload : List Word) (s : State) : Host.Outcome State Fault Refusal :=
  .next (streamCommand code head payload s)

/-- What FACE_GEOMETRY does (R169). -/
def execFaceGeometry (head : HeadFields) (payload : List Word) (s : State) : Host.Outcome State Fault Refusal :=
  .next (streamCommand Command.faceGeometry.code head payload s)

/-- What FACE_ZONEMAP does (R170). -/
def execFaceZonemap (head : HeadFields) (payload : List Word) (s : State) : Host.Outcome State Fault Refusal :=
  .next (streamCommand Command.faceZonemap.code head payload s)

/-- What FACE_CURVE does (R171). -/
def execFaceCurve (head : HeadFields) (payload : List Word) (s : State) : Host.Outcome State Fault Refusal :=
  .next (streamCommand Command.faceCurve.code head payload s)

/-- What FACE_LIMITS does (R172). -/
def execFaceLimits (head : HeadFields) (payload : List Word) (s : State) : Host.Outcome State Fault Refusal :=
  .next (streamCommand Command.faceLimits.code head payload s)

/-- What FACE_START does (R75). -/
def execFaceStart (head : HeadFields) (payload : List Word) (s : State) : Host.Outcome State Fault Refusal :=
  .next (streamCommand Command.faceStart.code head payload s)

/-- What FACE_STOP does (R80). -/
def execFaceStop (head : HeadFields) (payload : List Word) (s : State) : Host.Outcome State Fault Refusal :=
  .next (streamCommand Command.faceStop.code head payload s)

/-- What FACE_HOLD does (R32). -/
def execFaceHold (head : HeadFields) (payload : List Word) (s : State) : Host.Outcome State Fault Refusal :=
  .next (streamCommand Command.faceHold.code head payload s)

/-- What FACE_RELEASE does (R31). -/
def execFaceRelease (head : HeadFields) (payload : List Word) (s : State) : Host.Outcome State Fault Refusal :=
  .next (streamCommand Command.faceRelease.code head payload s)

/-- What OUTPUT_CONFIG does (R89). -/
def execOutputConfig (head : HeadFields) (payload : List Word) (s : State) : Host.Outcome State Fault Refusal :=
  .next (streamCommand Command.outputConfig.code head payload s)

/-- What LINK_SETUP does (R176). -/
def execLinkSetup (head : HeadFields) (payload : List Word) (s : State) : Host.Outcome State Fault Refusal :=
  .next (streamCommand Command.linkSetup.code head payload s)

/-- What MODULE_COMMAND does (R103). -/
def execModuleCommand (head : HeadFields) (payload : List Word) (s : State) : Host.Outcome State Fault Refusal :=
  .next (streamCommand Command.moduleCommand.code head payload s)

/-- What MODULE_CLEAR does (R129). -/
def execModuleClear (head : HeadFields) (payload : List Word) (s : State) : Host.Outcome State Fault Refusal :=
  .next (streamCommand Command.moduleClear.code head payload s)

/-- What ATTN_CONFIG does (R144). -/
def execAttnConfig (head : HeadFields) (payload : List Word) (s : State) : Host.Outcome State Fault Refusal :=
  .next (streamCommand Command.attnConfig.code head payload s)

/-- What JOURNAL_SETUP does (R150). -/
def execJournalSetup (head : HeadFields) (payload : List Word) (s : State) : Host.Outcome State Fault Refusal :=
  .next (streamCommand Command.journalSetup.code head payload s)

/-- What TIMING_SETUP does (R181). -/
def execTimingSetup (head : HeadFields) (payload : List Word) (s : State) : Host.Outcome State Fault Refusal :=
  .next (streamCommand Command.timingSetup.code head payload s)

/-- What STATUS_REFRESH does (R159). -/
def execStatusRefresh (head : HeadFields) (payload : List Word) (s : State) : Host.Outcome State Fault Refusal :=
  .next (streamCommand Command.statusRefresh.code head payload s)

/-- What PART_RESET does (R182). -/
def execPartReset (head : HeadFields) (payload : List Word) (s : State) : Host.Outcome State Fault Refusal :=
  .next (streamCommand Command.partReset.code head payload s)

end Sys2Proof.Machine
end

