-- ==== Sys2Proof/Machine/RequestPath.lean ====
section
/-! DEFINITION. The request path: classification (R57), acceptance and the order list (R61, R62), responses (R63), the arbiter (R70), memory responses (R66, R67, R69). -/

namespace Sys2Proof.Machine

/-- What the classifier finds of a request (R57). -/
inductive RequestClass where
  /-- A write to an image word. -/
  | localWrite
  /-- A full write to a control word. -/
  | snoop (word : ControlWord)
  /-- A write to a control word with fewer than four byte enables. -/
  | partialWrite (word : ControlWord)
  /-- A scan read of a word that is not padding, and whether it is a frame start. -/
  | scan (face : Fin 4) (zone : Fin 64) (frameStart : Bool)
  /-- Any other request. -/
  | forward
deriving DecidableEq, Repr

/-- A master tag is in a scan tag set (R10). -/
def tagIn (tags : Set8) (tag : BitVec 3) : Bool := tags.getLsbD tag.toNat

/-- A read is a scan read of a face (R10). -/
def isScanRead (x : Face) (r : Request) : Bool :=
  r.kind == .read && x.plane.contains r.addr && tagIn x.plane.scanTags r.tag && x.sup.state.scanning

/-- The face whose scan read a request is, if one (R10). -/
def scanFace (s : State) (r : Request) : Option (Fin 4) := allFaces.find? fun f => isScanRead (s.face f) r

/-- The scan-read row of the classification; padding is FORWARD (R4, R57). -/
def classifyScan (s : State) (r : Request) : RequestClass :=
  match scanFace s r with
  | none => .forward
  | some f =>
    let p := (s.face f).plane
    let w := p.wordIndex r.addr
    if p.isPadding w then .forward else .scan f (Fin.ofNat 64 (p.zoneOf w)) (w == 0)

/-- The window rows of the classification, for a write at a window offset (R57). -/
def classifyWindowWrite (offset : Nat) (byteEnables : BitVec 4) : RequestClass :=
  if isImageOffset offset then .localWrite
  else
    match controlWordAt offset with
    | none => .forward
    | some c => if byteEnables = 15 then .snoop c else .partialWrite c

/-- The classification of a request at its acceptance (R57). -/
def classify (s : State) (r : Request) : RequestClass :=
  match r.kind, s.windowOffset r.addr with
  | .write, some offset => classifyWindowWrite offset r.byteEnables
  | .write, none => .forward
  | .read, _ => classifyScan s r

/-- The classification kept in the order-list entry (R62). -/
def RequestClass.kept : RequestClass → Classification
  | .localWrite => .localWrite
  | .snoop _ => .forwardSnoop
  | .partialWrite _ => .forward
  | .scan _ _ _ => .forwardScale
  | .forward => .forward

/-- A request is accepted when the order list, and for a request to forward the forward queue, has a
free entry; none is accepted while PORST_N is asserted (R61, R73). -/
def canAccept (s : State) (r : Request) : Bool :=
  !s.porstAsserted && decide (s.orderList.length < Config.orderListSize) && (classify s r == .localWrite || decide (s.forwardQueue.length < Config.forwardQueueSize))

/-- Stage 1 of an acceptance: for a frame start the latch (R12, R37). -/
def latchIfFrameStart (c : RequestClass) (s : State) : State :=
  match c with
  | .scan f _ true => latch f s
  | _ => s

/-- Stage 1 of an acceptance: for a frame start the face supervisor is told, after the capture (R12). -/
def superviseIfFrameStart (c : RequestClass) (s : State) : State :=
  match c with
  | .scan f _ true => superviseFrameStart f s
  | _ => s

/-- The scale context captured for a scan read (R43). -/
def contextOf (c : RequestClass) (s : State) : Option ScaleContext :=
  match c with
  | .scan f z _ => some (captureContext f z s)
  | _ => none

/-- The order-list entry of a request: a LOCAL entry enters READY (R58, R62). -/
def entryOf (r : Request) (c : RequestClass) (context : Option ScaleContext) : OrderEntry where
  kind := r.kind
  id := r.id
  cls := c.kept
  context := context
  completion := if c = .localWrite then .ready .discarded 0 else .awaitingMemory

/-- Stages 2 and 3: the entry joins the order list and a request that is not LOCAL the forward queue
(R61). -/
def enterRequest (r : Request) (c : RequestClass) (context : Option ScaleContext) (s : State) : State :=
  { s with
    orderList := s.orderList ++ [entryOf r c context]
    forwardQueue := if c = .localWrite then s.forwardQueue else s.forwardQueue ++ [r] }

/-- The receiver of a control word takes it (R59). -/
def handWord (c : ControlWord) (w : Word) (s : State) : State :=
  match c with
  | .head => takeHead (headOf w) s
  | .body => takeBody w s
  | .ack => takeAck (ackCode w) (ackRotate w) (ackClassField w) s
  | .consumed => offerConsumed (consumedField w) s

/-- Stage 4: a control word is handed on, or STREAM_PARTIAL is raised (R59, R60). -/
def handOn (r : Request) (c : RequestClass) (s : State) : State :=
  match c with
  | .snoop word => handWord word r.data s
  | .partialWrite word => raiseEvent .streamPartial 0 0 (plainDetail word.offset) (plainDetail r.byteEnables.toNat) s
  | .localWrite => s
  | .scan _ _ _ => s
  | .forward => s

/-- A request of a classification is accepted: the stages of R61 in order. -/
def acceptAs (r : Request) (c : RequestClass) (s : State) : State :=
  let latched := latchIfFrameStart c s
  handOn r c (enterRequest r c (contextOf c latched) (superviseIfFrameStart c latched))

/-- A request is accepted, classified by the state it finds (R61). -/
def acceptRequest (r : Request) (s : State) : State := acceptAs r (classify s r) s

/-- Requests at the front of CPORT are accepted in order while they can be; the rest wait (R61). -/
def acceptFrom : List Request → State → State
  | [], s => { s with cportWaiting := [] }
  | r :: rest, s =>
    if canAccept s r then acceptFrom rest (acceptRequest r s) else { s with cportWaiting := r :: rest }

/-- The waiting requests are accepted as far as they can be (R61). -/
def acceptWaiting (s : State) : State := acceptFrom s.cportWaiting s

/-- A request is offered on CPORT behind those that wait; while PORST_N is asserted the sign controller
is reset with the part and offers none (R61, R73). -/
def offerRequest (r : Request) (s : State) : State :=
  if s.porstAsserted then s else acceptFrom (s.cportWaiting ++ [r]) s

/-- The beat of a write to an image word (R58). -/
def localRequest (s : State) (word : ImageWord) (low : BitVec 2) (byteEnables : BitVec 4) (data : Word) (tag : BitVec 3) (id : BitVec 4) : Request where
  kind := .write
  addr := s.windowBase + BitVec.ofNat 28 (imageOffset word + low.toNat)
  byteEnables := byteEnables
  data := data
  tag := tag
  id := id

/-- The response of a READY head is taken, and its entry removed (R63). DESIGN CHOICE (log 28): while PORST_N is
asserted too. -/
def takeResponse (s : State) : State :=
  match s.cportOffer with
  | none => s
  | some beat => { s with orderList := s.orderList.tail, cportLast := some beat }

/-! The memory-port arbiter (R70). -/

/-- The queue the arbiter grants, and the count afterwards. -/
inductive Grant where
  | forward (request : Request) (countAfter : Nat)
  | own (write : OwnWrite)
  | none
deriving DecidableEq, Repr

/-- The grant table of R70. -/
def arbitrate (forwardQueue : List Request) (ownWrites : List OwnWrite) (count : Nat) : Grant :=
  match forwardQueue, ownWrites with
  | [], [] => .none
  | r :: _, [] => .forward r 0
  | [], w :: _ => .own w
  | r :: _, w :: _ => if count < Config.maxForwardGrants then .forward r (count + 1) else .own w

/-- The beat of an own write (R54). -/
def ownBeat (w : OwnWrite) : MportBeat where
  own := true
  request := { kind := .write, addr := w.addr, byteEnables := 15, data := w.data, tag := 0, id := 0 }

/-- A grant issues the head beat of its queue and appends its in-flight entry (R64, R65, R70). -/
def issueGrant (g : Grant) (s : State) : State :=
  match g with
  | .none => s
  | .forward r n =>
    { s with
      forwardQueue := s.forwardQueue.tail
      inFlight := s.inFlight ++ [.forwarded]
      arbiterCount := n
      mportLast := some { own := false, request := r } }
  | .own w =>
    { s with
      ownWrites := s.ownWrites.tail
      inFlight := s.inFlight ++ [.own w.origin]
      arbiterCount := 0
      mportLast := some (ownBeat w) }

/-- MPORT can issue: the in-flight list has a free entry and PORST_N is released (R65, R73). -/
def State.canIssue (s : State) : Bool :=
  !s.porstAsserted && decide (s.inFlight.length < Config.inFlightSize)

/-- The frame store can take a beat, and the arbiter grants (R70). -/
def grantBeat (s : State) : State :=
  if s.canIssue then issueGrant (arbitrate s.forwardQueue s.ownWrites s.arbiterCount) s else s

/-! Memory responses (R66, R67, R69). -/

/-- An awaiting entry made READY by a response (R67). -/
def OrderEntry.answered (e : OrderEntry) (status : Status) (data : Word) : OrderEntry :=
  { e with
    completion :=
      .ready status
        (match e.kind with
         | .write => 0
         | .read =>
           match status, e.context with
           | .okay, some c => scaleWord c data
           | _, _ => data) }

/-- The entry awaits memory (R62). -/
def OrderEntry.awaiting (e : OrderEntry) : Bool :=
  match e.completion with
  | .awaitingMemory => true
  | .ready _ _ => false

/-- The oldest awaiting entry takes a response (R66). -/
def answerOldest (status : Status) (data : Word) : List OrderEntry → List OrderEntry
  | [] => []
  | e :: rest => if e.awaiting then e.answered status data :: rest else e :: answerOldest status data rest

/-- An own write's completion is reported to its origin (R69, R155, R162). -/
def completeOwnWrite (origin : Origin) (status : Status) (s : State) : State :=
  let t := countOwnWriteError status s
  match origin with
  | .status _ => t
  | .journal sequence header => if header then completeRecord sequence t else t

/-- A response of the frame store is paired with the head of the in-flight list; with the list empty it
is discarded (R66). -/
def takeMemoryResponse (status : Status) (data : Word) (s : State) : State :=
  match s.inFlight with
  | [] => s
  | .forwarded :: rest => { s with inFlight := rest, orderList := answerOldest status data s.orderList }
  | .own origin :: rest => completeOwnWrite origin status { s with inFlight := rest }

/-- What CPORT_REQUEST_ACCEPT does (R61). -/
def execCportRequestAccept (request : Request) (s : State) : Host.Outcome State Fault Refusal :=
  .next (offerRequest request s)

/-- What LOCAL_WRITE does (R58). -/
def execLocalWrite (word : ImageWord) (low : BitVec 2) (byteEnables : BitVec 4) (data : Word) (tag : BitVec 3) (id : BitVec 4) (s : State) : Host.Outcome State Fault Refusal :=
  .next (offerRequest (localRequest s word low byteEnables data tag id) s)

/-- What CPORT_RESPONSE_TAKEN does: the freed entry lets waiting requests in (R63, R71). -/
def execCportResponseTaken (s : State) : Host.Outcome State Fault Refusal := .next (acceptWaiting (takeResponse s))

/-- What MPORT_GRANT does: a freed forward-queue entry lets waiting requests in (R70, R61). -/
def execMportGrant (s : State) : Host.Outcome State Fault Refusal := .next (acceptWaiting (grantBeat s))

/-- What MEMORY_RESPONSE does (R66). -/
def execMemoryResponse (status : BitVec 2) (data : Word) (s : State) : Host.Outcome State Fault Refusal :=
  .next (takeMemoryResponse (memoryStatusOf status) data s)

end Sys2Proof.Machine
end

