-- ==== Sys2Proof/Machine/Resets.lean ====
section
/-! DEFINITION. Power-on reset (R55, R73 and the reset column of each block) and the assertion of PORST_N (R73, R82). -/

namespace Sys2Proof.Machine

/-- The state after the release of PORST_N with a strap setting; the queue of commands is the sender's. -/
def powerOn (wsel : BitVec 2) (s : State) : State :=
  { State.reset with windowBase := Config.windowBaseOf wsel, pending := s.pending }

/-- What POWER_ON_RESET does (R73). -/
def execPowerOnReset (wsel : BitVec 2) (s : State) : Host.Outcome State Fault Refusal := .next (powerOn wsel s)

/-- What PORST_N_ASSERTION does: the pins, the acceptance of requests and the issue of beats are held, as the pins of
the model and the guards of both ports read from the flag (R73, R82, R98, R134, log 11); responses on CPORT are not
(log 28). -/
def execPorstNAssertion (s : State) : Host.Outcome State Fault Refusal := .next { s with porstAsserted := true }

end Sys2Proof.Machine
end

