-- ==== Sys2Proof/Machine/Dispatch.lean ====
section
/-! DEFINITION. The meaning of every command: one arm for each constructor of Instr. -/

namespace Sys2Proof.Machine

/-- The effect of a command on everything but the queue of commands. -/
def exec (i : Instr) (s : State) : Host.Outcome State Fault Refusal :=
  match i with
  | .powerOnReset wsel => Sys2Proof.Machine.execPowerOnReset wsel s
  | .millisecondIncrement order => Sys2Proof.Machine.execMillisecondIncrement order s
  | .tick order => Sys2Proof.Machine.execTick order s
  | .epoch order => Sys2Proof.Machine.execEpoch order s
  | .stallExpiry face => Sys2Proof.Machine.execStallExpiry face s
  | .cportRequestAccept request => Sys2Proof.Machine.execCportRequestAccept request s
  | .localWrite word low byteEnables data tag id => Sys2Proof.Machine.execLocalWrite word low byteEnables data tag id s
  | .cportResponseTaken => Sys2Proof.Machine.execCportResponseTaken s
  | .mportGrant => Sys2Proof.Machine.execMportGrant s
  | .memoryResponse status data => Sys2Proof.Machine.execMemoryResponse status data s
  | .journalRecordEnqueue => Sys2Proof.Machine.execJournalRecordEnqueue s
  | .statusWordEnqueue => Sys2Proof.Machine.execStatusWordEnqueue s
  | .linkSync face => Sys2Proof.Machine.execLinkSync face s
  | .slotStart face slot => Sys2Proof.Machine.execSlotStart face slot s
  | .slotEnd face slot samples => Sys2Proof.Machine.execSlotEnd face slot samples s
  | .drainEnd face => Sys2Proof.Machine.execDrainEnd face s
  | .attnPulseEnd => Sys2Proof.Machine.execAttnPulseEnd s
  | .bodyWord data => Sys2Proof.Machine.execBodyWord data s
  | .unknownCommand code head payload => Sys2Proof.Machine.execUnknownCommand code head payload s
  | .faceGeometry head payload => Sys2Proof.Machine.execFaceGeometry head payload s
  | .faceZonemap head payload => Sys2Proof.Machine.execFaceZonemap head payload s
  | .faceCurve head payload => Sys2Proof.Machine.execFaceCurve head payload s
  | .faceLimits head payload => Sys2Proof.Machine.execFaceLimits head payload s
  | .faceStart head payload => Sys2Proof.Machine.execFaceStart head payload s
  | .faceStop head payload => Sys2Proof.Machine.execFaceStop head payload s
  | .faceHold head payload => Sys2Proof.Machine.execFaceHold head payload s
  | .faceRelease head payload => Sys2Proof.Machine.execFaceRelease head payload s
  | .outputConfig head payload => Sys2Proof.Machine.execOutputConfig head payload s
  | .linkSetup head payload => Sys2Proof.Machine.execLinkSetup head payload s
  | .moduleCommand head payload => Sys2Proof.Machine.execModuleCommand head payload s
  | .moduleClear head payload => Sys2Proof.Machine.execModuleClear head payload s
  | .attnConfig head payload => Sys2Proof.Machine.execAttnConfig head payload s
  | .journalSetup head payload => Sys2Proof.Machine.execJournalSetup head payload s
  | .timingSetup head payload => Sys2Proof.Machine.execTimingSetup head payload s
  | .statusRefresh head payload => Sys2Proof.Machine.execStatusRefresh head payload s
  | .partReset head payload => Sys2Proof.Machine.execPartReset head payload s
  | .take => Sys2Proof.Machine.execTake s
  | .finishTop rotate => Sys2Proof.Machine.execFinishTop rotate s
  | .finish rotate cls => Sys2Proof.Machine.execFinish rotate cls s
  | .setLowest cls => Sys2Proof.Machine.execSetLowest cls s
  | .ackInvalid operation => Sys2Proof.Machine.execAckInvalid operation s
  | .consumedWrite data => Sys2Proof.Machine.execConsumedWrite data s
  | .porstNAssertion => Sys2Proof.Machine.execPorstNAssertion s

end Sys2Proof.Machine
end

