-- ==== Sys2Proof/Safety.lean ====
section
/-! DEFINITION. What statements about the part are written in: states alike but for the dirty set, the marking of image words, the rows of the stream decoder, and the invariants the spec gives the part. -/

namespace Sys2Proof.Machine

/-! States compared. -/

/-- The second state is the first but for its dirty set. -/
def SameBesidesDirty (a b : State) : Prop := b = { a with dirty := b.dirty }

/-- A change of state marks exactly the image words in which it shows (R159). -/
def MarksExactly (s t : State) : Prop :=
  ∀ w : ImageWord, pick t.dirty w = (pick s.dirty w || decide (shown t w ≠ shown s w))

/-- Every image word in which a change of state shows is dirty after it, and none that was dirty is clean
(R159). -/
def TracksImage (s t : State) : Prop :=
  ∀ w : ImageWord, (shown t w ≠ shown s w → pick t.dirty w = true) ∧ (pick s.dirty w = true → pick t.dirty w = true)

/-- The attention controller after a class joins the pending set: the presented class is derived again, and in
PULSE mode its change to a class begins a pulse (R133, R136, R138). -/
def Attention.joined (a : Attention) (c : Fin 8) : Attention :=
  let p := addClass a.pending c
  { a with
    pending := p
    pulse := a.pulse || (a.mode == .pulse && ({ a with pending := p }).presented.isSome && ({ a with pending := p }).presented != a.presented) }

/-! Words laid out in fields (11.6, 11.7, R184, R186). -/

/-- A field of a word: its highest bit, its lowest bit and the value it is written with. -/
structure BitField where
  hi : Nat
  lo : Nat
  value : Nat
deriving DecidableEq, Repr

/-- A word holds some fields, each with its value in as many bits as the field has, and every bit of no field is 0
(R184). -/
def Laid (v : Word) (fs : List BitField) : Prop :=
  (∀ p ∈ fs, v.toNat / 2 ^ p.lo % 2 ^ (p.hi + 1 - p.lo) = p.value % 2 ^ (p.hi + 1 - p.lo)) ∧
    ∀ i : Nat, i < 32 → (∀ p ∈ fs, i < p.lo ∨ p.hi < i) → v.getLsbD i = false

/-- A flag as a field value. -/
def bitOf (b : Bool) : Nat := if b then 1 else 0

/-- The fields of the word of the part at a window offset (R160, 11.7); an absent class has present bit 0 and class
field 0 (R185). -/
def partFields (s : State) (offset : Nat) : List BitField :=
  let shownClass := s.attention.presented
  let ackClass := s.attention.ackClass
  match offset with
  | 0x040 => [⟨31, 16, s.generation.toNat⟩, ⟨15, 0, s.ownWriteErrors⟩]
  | 0x044 => [⟨19, 16, s.decoder.result.result.code⟩, ⟨15, 8, s.decoder.result.code.toNat⟩, ⟨7, 0, s.decoder.result.tag.toNat⟩]
  | 0x048 => [⟨15, 8, s.decoder.remaining⟩, ⟨1, 0, s.decoder.state.code⟩]
  | 0x04C =>
    [⟨27, 27, bitOf shownClass.isSome⟩, ⟨26, 24, (shownClass.getD 0).val⟩, ⟨23, 16, s.attention.inService.toNat⟩,
     ⟨15, 8, s.attention.mask.toNat⟩, ⟨7, 0, s.attention.pending.toNat⟩]
  | 0x050 =>
    [⟨15, 15, bitOf ackClass.isSome⟩, ⟨14, 12, (ackClass.getD 0).val⟩, ⟨9, 8, s.attention.ackResult.code⟩,
     ⟨2, 0, s.attention.base.val⟩]
  | 0x054 => [⟨31, 16, s.journal.produced.toNat⟩, ⟨15, 0, s.journal.consumed.toNat⟩]
  | 0x058 =>
    [⟨30, 28, s.journal.capacityCode⟩, ⟨26, 16, (s.journal.produced - s.journal.consumed).toNat⟩, ⟨15, 0, s.journal.drops⟩]
  | 0x05C => [⟨21, 16, s.eventQueue.length⟩, ⟨10, 0, s.journal.threshold⟩]
  | _ => []

/-- How many records of a face are in a state (R132). -/
def recordsIn (x : Face) (st : RecordState) : Nat := (List.finRange 64).countP fun n => (pick x.records n).state == st

/-- The fields of the word of a face at an offset from the start of its block (R160, 11.7). -/
def faceFields (x : Face) (offset : Nat) : List BitField :=
  match offset with
  | 0x00 => [⟨8, 8, bitOf x.level.hold⟩, ⟨1, 0, x.sup.state.code⟩]
  | 0x04 => [⟨28, 16, x.applied.level⟩, ⟨12, 0, x.level.level⟩]
  | 0x08 => [⟨28, 16, x.level.ambient⟩, ⟨12, 0, x.level.target⟩]
  | 0x0C => [⟨15, 8, x.level.sensor.count⟩, ⟨1, 0, x.level.sensor.state.code⟩]
  | 0x10 => [⟨17, 16, x.link.state.code⟩, ⟨15, 0, x.link.frameCount.toNat⟩]
  | 0x14 => [⟨31, 16, x.link.garbled⟩, ⟨15, 0, x.link.silent⟩]
  | 0x18 =>
    [⟨31, 24, recordsIn x .lost⟩, ⟨23, 16, recordsIn x .faulted⟩, ⟨15, 8, recordsIn x .suspect⟩, ⟨7, 0, recordsIn x .ok⟩]
  | 0x1C => [⟨15, 0, x.sup.stallCount⟩]
  | _ => []

/-- The fields of the module image word of a slot (R132, 11.7): an absent temperature is written 0 (R185). -/
def moduleFields (x : Face) (n : Fin 64) : List BitField :=
  let r := pick x.records n
  [⟨31, 24, r.silentRun⟩, ⟨23, 16, match r.measuredTemp with | none => 0 | some t => (t + 40).toNat⟩, ⟨15, 9, r.pixelFaults⟩,
   ⟨8, 8, bitOf r.supplyLow⟩, ⟨7, 6, r.tempLevel.code⟩, ⟨5, 4, r.derateStep.val⟩, ⟨3, 3, bitOf (pick x.mailboxes n).isSome⟩,
   ⟨2, 0, r.state.code⟩]

/-! Requests. -/

/-- A read is a scan read of a face: the four conditions of R10. -/
structure ScanReadOf (s : State) (f : Fin 4) (r : Request) : Prop where
  read : r.kind = .read
  valid : (s.face f).plane.valid = true
  first : (s.face f).plane.base.toNat ≤ r.addr.toNat / 4 * 4
  last : r.addr.toNat / 4 * 4 < (s.face f).plane.base.toNat + (s.face f).plane.height * 2 ^ (s.face f).plane.strideExp * 4
  tag : (s.face f).plane.scanTags.getLsbD r.tag.toNat = true
  scanning : (s.face f).sup.state ≠ .off

/-- CPORT can accept a request that is not LOCAL at once (R61). -/
structure RoomToForward (s : State) : Prop where
  released : s.porstAsserted = false
  front : s.cportWaiting = []
  order : s.orderList.length < 16
  queue : s.forwardQueue.length < 8

/-- The state with a request on the order list and in the forward queue (R61). -/
def entered (s : State) (r : Request) (cls : Classification) (context : Option ScaleContext) : State :=
  { s with
    orderList := s.orderList ++ [{ kind := r.kind, id := r.id, cls := cls, context := context, completion := .awaitingMemory }]
    forwardQueue := s.forwardQueue ++ [r] }

/-- The context a scan read of a zone captures from an applied set (R42, R43). -/
def contextFrom (f : Fin 4) (a : AppliedSet) (z : Fin 64) : ScaleContext where
  face := f
  zone := z
  gain := a.level * zoneFactor (pick a.steps z) / 4096
  blanked := decide (pick a.steps z = 3)
  floor := a.floor

/-! Rows of the stream decoder. -/

/-- The row of the table of a command of the stream decoder. -/
def Command.row (c : Command) (h : HeadFields) (ws : List Word) : Instr :=
  match c with
  | .faceGeometry => .faceGeometry h ws
  | .faceZonemap => .faceZonemap h ws
  | .faceCurve => .faceCurve h ws
  | .faceLimits => .faceLimits h ws
  | .faceStart => .faceStart h ws
  | .faceStop => .faceStop h ws
  | .faceHold => .faceHold h ws
  | .faceRelease => .faceRelease h ws
  | .outputConfig => .outputConfig h ws
  | .linkSetup => .linkSetup h ws
  | .moduleCommand => .moduleCommand h ws
  | .moduleClear => .moduleClear h ws
  | .attnConfig => .attnConfig h ws
  | .journalSetup => .journalSetup h ws
  | .timingSetup => .timingSetup h ws
  | .statusRefresh => .statusRefresh h ws
  | .partReset => .partReset h ws

/-- The decoder is IDLE and a row's HEAD word announces exactly the payload it carries, a count the
command allows (R165). -/
structure Taken (c : Command) (h : HeadFields) (ws : List Word) (s : State) : Prop where
  idle : s.decoder.state = .idle
  whole : ws.length = h.count.toNat
  allowed : c.allows ws.length = true

/-- The decoder after a command of a code ended with a result (R168). -/
def endedDecoder (code : BitVec 8) (h : HeadFields) (r : ResultCode) : Decoder where
  state := .idle
  remaining := 0
  inProgress := none
  refusal := none
  buffer := []
  result := { tag := h.tag, code := code, result := r }

/-- The state with a command ended DONE at the decoder. -/
def doneWith (c : Command) (h : HeadFields) (s : State) : State :=
  { s with decoder := endedDecoder c.code h .done }

/-- Two byte ranges, each a first byte and a length, share no byte. -/
def Apart (a la b lb : Nat) : Prop := a + la ≤ b ∨ b + lb ≤ a

/-! The tests of the commands, in the terms and the order of their rules, each with the result it gives (R75, R103,
R129, R169 to R171, R174, R176 to R178, R180, R181). -/

/-- The i-th half word of a payload, two to a word, the low half first (11.4). -/
def payloadHalf (ws : List Word) (i : Nat) : Nat := (payloadWord ws (i / 2)).toNat / 2 ^ (16 * (i % 2)) % 2 ^ 16

/-- The i-th byte of a payload, four to a word, the lowest first (11.4). -/
def payloadByte (ws : List Word) (i : Nat) : Nat := (payloadWord ws (i / 4)).toNat / 2 ^ (8 * (i % 4)) % 2 ^ 8

/-- The column boundaries of a FACE_GEOMETRY of nc column bands (R169). -/
def columnBounds (ws : List Word) (nc : Nat) : List Nat := (List.range (nc - 1)).map fun i => payloadHalf ws (6 + i)

/-- The row boundaries of a FACE_GEOMETRY of nc column bands and nr row bands, from the word after the last of the
column boundaries (R169). -/
def rowBounds (ws : List Word) (nc nr : Nat) : List Nat :=
  (List.range (nr - 1)).map fun i => payloadHalf ws (6 + (nc - 1 + 1) / 2 * 2 + i)

/-- A boundary list ascends strictly and lies in 1..extent − 1 (R169). -/
def BoundsInOrder (bounds : List Nat) (extent : Nat) : Prop :=
  bounds.Pairwise (· < ·) ∧ ∀ b ∈ bounds, 1 ≤ b ∧ b ≤ extent - 1

/-- A byte range shares no byte with the plane of a face, if that face's record is valid (R2). -/
def ClearOfPlane (s : State) (f : Fin 4) (a la : Nat) : Prop :=
  (s.face f).plane.valid = true →
    Apart a la (s.face f).plane.base.toNat ((s.face f).plane.height * 2 ^ (s.face f).plane.strideExp * 4)

/-- A slot is below the slot count of a link setup and its mask bit is set (R92). -/
def Enabled (l : LinkSetup) (n : Fin 64) : Prop := n.val < l.slotCount ∧ l.mask.getLsbD n.val = true

/-- The tests of FACE_GEOMETRY (R169). -/
def geometryTests (h : HeadFields) (ws : List Word) (s : State) : List (Prop × ResultCode) :=
  let x := s.face h.face
  let base := (payloadWord ws 0).toNat % 2 ^ 28 / 4 * 4
  let w1 := (payloadWord ws 1).toNat
  let w2 := (payloadWord ws 2).toNat
  let k := w1 % 2 ^ 4
  let width := w1 / 2 ^ 4 % 2 ^ 11
  let height := w1 / 2 ^ 15 % 2 ^ 11
  let bytes := height * 2 ^ k * 4
  let nc := w2 / 2 ^ 8 % 2 ^ 5
  let nr := w2 / 2 ^ 16 % 2 ^ 4
  [(x.sup.state = .off, .state),
   ((1 ≤ nc ∧ nc ≤ 16) ∧ 1 ≤ nr ∧ nr ≤ 8, .value),
   (ws.length = 3 + (nc - 1 + 1) / 2 + (nr - 1 + 1) / 2, .count),
   ((6 ≤ k ∧ k ≤ 11) ∧ (1 ≤ width ∧ width ≤ 1024) ∧ (1 ≤ height ∧ height ≤ 1024) ∧ width ≤ 2 ^ k ∧ nc * nr ≤ 64 ∧
      (nc * nr = 64 → x.link.setup.sensorSlot = none) ∧ base + bytes ≤ 0x10000000, .value),
   (BoundsInOrder (columnBounds ws nc) width ∧ BoundsInOrder (rowBounds ws nc nr) height, .order),
   (Apart base bytes s.windowBase.toNat 4096 ∧ (∀ g, g ≠ h.face → ClearOfPlane s g base bytes) ∧
      (s.journal.configured = true → Apart base bytes s.journal.base.toNat (s.journal.capacity * 16)) ∧
      ∀ r, s.journal.inProgress = some r → r.superseded = true → Apart base bytes r.addr.toNat 16, .overlap)]

/-- The tests of FACE_ZONEMAP (R170, R8). -/
def zonemapTests (h : HeadFields) (ws : List Word) (s : State) : List (Prop × ResultCode) :=
  let x := s.face h.face
  let inUse := fun z : Nat => z < x.plane.zoneCount
  [(x.sup.state = .off, .state),
   (x.plane.valid = true, .state),
   (ws.length = (x.plane.zoneCount + 3) / 4, .count),
   ((∀ z, inUse z → payloadByte ws z ≤ 63) ∧ (∀ z y, inUse z → inUse y → payloadByte ws z = payloadByte ws y → z = y) ∧
      ∀ z, inUse z → ∀ n, x.link.setup.sensorSlot = some n → payloadByte ws z ≠ n.val, .value)]

/-- The tests of FACE_CURVE (R171). -/
def curveTests (ws : List Word) : List (Prop × ResultCode) :=
  [(∀ w ∈ ws, w.toNat / 2 ^ 16 ≤ 8191, .value),
   ((ws.map fun w => w.toNat / 2 ^ 16).Pairwise (· < ·), .order)]

/-- The tests of FACE_START (R75, R174). -/
def startTests (h : HeadFields) (s : State) : List (Prop × ResultCode) :=
  let x := s.face h.face
  [(x.sup.state = .off, .state),
   (x.link.state ≠ .draining, .busy),
   (x.plane.valid = true ∧ x.link.setUp = true, .state),
   (∀ z : Fin 64, z.val < x.plane.zoneCount →
      ∃ n, pick x.zoneMap z = some n ∧ Enabled x.link.setup n ∧ x.link.setup.sensorSlot ≠ some n, .value)]

/-- The tests of LINK_SETUP (R176). -/
def linkSetupTests (h : HeadFields) (ws : List Word) (s : State) : List (Prop × ResultCode) :=
  let x := s.face h.face
  let w2 := payloadWord ws 2
  let w3 := (payloadWord ws 3).toNat
  let w4 := (payloadWord ws 4).toNat
  let slots := w2.toNat % 2 ^ 7
  let long := w2.getLsbD 8 = true
  let hasSensor := w2.getLsbD 15 = true
  let sensor := w2.toNat / 2 ^ 16 % 2 ^ 6
  let lost := w3 % 2 ^ 8
  let confirm := w3 / 2 ^ 8 % 2 ^ 4
  let clear := w3 / 2 ^ 12 % 2 ^ 4
  let stuck := w3 / 2 ^ 16 % 2 ^ 4
  [(x.sup.state = .off, .state),
   (x.link.state ≠ .draining, .busy),
   ((ws.length = 5 ∧ long) ∨ (ws.length = 4 ∧ ¬long), .count),
   ((1 ≤ slots ∧ slots ≤ 64) ∧ (1 ≤ lost ∧ lost ≤ 255) ∧ (1 ≤ confirm ∧ confirm ≤ 15) ∧ (1 ≤ clear ∧ clear ≤ 15) ∧
      2 ≤ stuck ∧ stuck ≤ 15, .value),
   (hasSensor → sensor < slots ∧ (payloadWord ws (sensor / 32)).getLsbD (sensor % 32) = true, .value),
   (hasSensor → ∀ z n : Fin 64, z.val < x.plane.zoneCount → pick x.zoneMap z = some n → n.val ≠ sensor, .value),
   (long → w4 % 2 ^ 8 < w4 / 2 ^ 8 % 2 ^ 8 ∧ w4 / 2 ^ 8 % 2 ^ 8 < w4 / 2 ^ 16 % 2 ^ 8, .value)]

/-- The tests of MODULE_COMMAND (R103, R177). -/
def moduleCommandTests (h : HeadFields) (ws : List Word) (s : State) : List (Prop × ResultCode) :=
  let x := s.face h.face
  [(x.sup.state ≠ .off, .state),
   (Enabled x.link.setup h.slot, .value),
   ((payloadWord ws 0).getLsbD 0 = true ∨ (payloadWord ws 0).getLsbD 1 = true, .value),
   (pick x.mailboxes h.slot = none, .mailbox)]

/-- The all-slots form of MODULE_CLEAR: a payload word with its all-slots flag set (R178). -/
def AllSlotsForm (ws : List Word) : Prop := ∃ w, ws = [w] ∧ w.getLsbD 0 = true

/-- The tests of MODULE_CLEAR (R129, R178). -/
def moduleClearTests (h : HeadFields) (ws : List Word) (s : State) : List (Prop × ResultCode) :=
  let x := s.face h.face
  [(x.sup.state ≠ .off, .state),
   (¬AllSlotsForm ws → Enabled x.link.setup h.slot ∧ x.link.setup.sensorSlot ≠ some h.slot, .value)]

/-- The tests of JOURNAL_SETUP (R180). -/
def journalSetupTests (ws : List Word) (s : State) : List (Prop × ResultCode) :=
  let base := (payloadWord ws 0).toNat % 2 ^ 28 / 4 * 4
  let capacity := (payloadWord ws 1).toNat % 2 ^ 16
  let threshold := (payloadWord ws 1).toNat / 2 ^ 16
  [(capacity ∈ [16, 32, 64, 128, 256, 512, 1024], .value),
   (1 ≤ threshold ∧ threshold ≤ capacity, .value),
   (base + capacity * 16 ≤ 0x10000000, .value),
   (Apart base (capacity * 16) s.windowBase.toNat 4096 ∧ ∀ g, ClearOfPlane s g base (capacity * 16), .overlap)]

/-- The tests of a command in order; those of the rules that give none are none (R172 to R175, R179, R181, R182). -/
def Command.tests (c : Command) (h : HeadFields) (ws : List Word) (s : State) : List (Prop × ResultCode) :=
  match c with
  | .faceGeometry => geometryTests h ws s
  | .faceZonemap => zonemapTests h ws s
  | .faceCurve => curveTests ws
  | .faceLimits => []
  | .faceStart => startTests h s
  | .faceStop => []
  | .faceHold => []
  | .faceRelease => []
  | .outputConfig => []
  | .linkSetup => linkSetupTests h ws s
  | .moduleCommand => moduleCommandTests h ws s
  | .moduleClear => moduleClearTests h ws s
  | .attnConfig => []
  | .journalSetup => journalSetupTests ws s
  | .timingSetup => [((payloadWord ws 0).toNat % 2 ^ 8 ≤ 3, .value)]
  | .statusRefresh => []
  | .partReset => []

/-- Every test of a command passes (R167). -/
def Passes (c : Command) (h : HeadFields) (ws : List Word) (s : State) : Prop := ∀ p ∈ c.tests h ws s, p.1

/-- The result of some tests made in order: that of the first that fails, or DONE when all of them pass (R167). -/
def FirstFailing : List (Prop × ResultCode) → ResultCode → Prop
  | [], r => r = .done
  | (passes, failure) :: rest, r => (passes → FirstFailing rest r) ∧ (¬passes → r = failure)

/-- A row of the decoder is refused with a result: no block changes, the result is posted, and CMD_REFUSED is
raised with the command code and tag and the result code (R167, R168). -/
def Refused (c : Command) (h : HeadFields) (ws : List Word) (s : State) (r : ResultCode) : Prop :=
  ∃ t, exec (c.row h ws) s = .next t ∧
    SameBesidesDirty
      (raiseEvent .cmdRefused h.face h.slot (codeTagDetail c.code h.tag) (plainDetail r.code)
        { s with decoder := endedDecoder c.code h r }) t

/-- The row a full write of a control word amounts to at its receiver, from the fields of HEAD and ACK words
(R59, 11.4). -/
def controlRow (c : ControlWord) (w : Word) : Instr :=
  let bits := fun (hi lo : Nat) => w.toNat / 2 ^ lo % 2 ^ (hi + 1 - lo)
  match c with
  | .head =>
    let h : HeadFields :=
      { face := Fin.ofNat 4 (bits 23 22), slot := Fin.ofNat 64 (bits 21 16)
        count := BitVec.ofNat 8 (bits 15 8), tag := BitVec.ofNat 8 (bits 7 0) }
    match commandOf (BitVec.ofNat 8 (bits 31 24)) with
    | some k => k.row h []
    | none => .unknownCommand (BitVec.ofNat 8 (bits 31 24)) h []
  | .body => .bodyWord w
  | .ack =>
    let rotate := w.getLsbD 8
    let named : Fin 8 := Fin.ofNat 8 (bits 2 0)
    match bits 31 28 with
    | 0x1 => .take
    | 0x2 => .finishTop rotate
    | 0x3 => .finish rotate named
    | 0x4 => .setLowest named
    | code => .ackInvalid (BitVec.ofNat 4 code)
  | .consumed => .consumedWrite w

/-- The table of commands: each code, the command it names, and the payload counts allowed at HEAD (R165, 11.4). -/
def commandTable : List (BitVec 8 × Command × List Nat) :=
  [(0x01, .faceGeometry, [3, 4, 5, 6, 7, 8, 9, 10, 11, 12, 13, 14, 15]),
   (0x02, .faceZonemap, [1, 2, 3, 4, 5, 6, 7, 8, 9, 10, 11, 12, 13, 14, 15, 16]),
   (0x03, .faceCurve, [0, 1, 2, 3, 4, 5, 6, 7, 8]), (0x04, .faceLimits, [3]), (0x05, .faceStart, [0]),
   (0x06, .faceStop, [0]), (0x07, .faceHold, [0, 1]), (0x08, .faceRelease, [0]), (0x09, .outputConfig, [1]),
   (0x0A, .linkSetup, [4, 5]), (0x0B, .moduleCommand, [1]), (0x0C, .moduleClear, [0, 1]), (0x10, .attnConfig, [1, 2]),
   (0x11, .journalSetup, [2]), (0x12, .timingSetup, [1]), (0x13, .statusRefresh, [0]), (0x1F, .partReset, [0])]

/-- The rows whose HEAD word or operands name a face, and the face. -/
def faceOf : Instr → Option (Fin 4)
  | .stallExpiry f => some f
  | .linkSync f => some f
  | .slotStart f _ => some f
  | .slotEnd f _ _ => some f
  | .drainEnd f => some f
  | .faceGeometry h _ => some h.face
  | .faceZonemap h _ => some h.face
  | .faceCurve h _ => some h.face
  | .faceLimits h _ => some h.face
  | .faceStart h _ => some h.face
  | .faceStop h _ => some h.face
  | .faceHold h _ => some h.face
  | .faceRelease h _ => some h.face
  | .outputConfig h _ => some h.face
  | .linkSetup h _ => some h.face
  | .moduleCommand h _ => some h.face
  | .moduleClear h _ => some h.face
  | _ => none

/-! Events that a tick or an epoch raises (R25, R26, R77, R78, R83). -/

/-- Some events raised one after another (R133, R147). -/
def raiseAll (es : List EventEntry) (s : State) : State :=
  es.foldl (fun s e => raiseEvent e.code e.face e.slot e.detailA e.detailB s) s

/-- A tick brings the stall timer of a face in STARTING or LIVE to 0 (R77). -/
def Expires (s : State) (f : Fin 4) : Prop :=
  ((s.face f).sup.state = .starting ∨ (s.face f).sup.state = .live) ∧ (s.face f).sup.stallTimer ≤ 1

/-- The FRAME_STALL of a face: detail A the state left, detail B the stall timeout setting (R78, R83). -/
def stallEvent (s : State) (f : Fin 4) : EventEntry where
  code := .frameStall
  face := f
  slot := 0
  time := s.timeCount
  detailA := plainDetail (s.face f).sup.state.code
  detailB := plainDetail (s.face f).sup.stallTimeout

/-- The sensor test of an epoch declares the sensor of a face lost, under the limits the epoch puts in force (R25). -/
def LosesSensor (s : State) (f : Fin 4) : Prop :=
  (s.face f).sup.state ≠ .off ∧
    ((s.face f).level.sensor.state = .waiting ∨ (s.face f).level.sensor.state = .valid) ∧
    ((s.face f).level.stagedLimits.getD (s.face f).level.limits).sensorLostEpochs ≤ (s.face f).level.sensor.count

/-- The SENSOR_LOST of a face: its sensor slot, detail A the state before, detail B the count found (R26). -/
def sensorLostEvent (s : State) (f : Fin 4) : EventEntry where
  code := .sensorLost
  face := f
  slot := (s.face f).link.setup.sensorSlot.getD 0
  time := s.timeCount
  detailA := plainDetail (s.face f).level.sensor.state.code
  detailB := plainDetail (s.face f).level.sensor.count

/-! What an epoch does at a level engine (R20 to R29). -/

/-- A value that a curve gives for an ambient, before the ceiling limits it: the table of R28. -/
structure CurveGives (curve : List CurvePoint) (ceiling a : Nat) (v : Nat) : Prop where
  empty : curve = [] → v = ceiling
  one : ∀ p, curve = [p] → v = p.level
  first : ∀ p rest, curve = p :: rest → a ≤ p.ambient → v = p.level
  last : ∀ p, curve.getLast? = some p → p.ambient ≤ a → v = p.level
  segment : ∀ i p q, curve[i]? = some p → curve[i + 1]? = some q → p.ambient ≤ a → a < q.ambient →
    (v : Int) = p.level + (((a : Int) - p.ambient) * ((q.level : Int) - p.level)).tdiv ((q.ambient : Int) - p.ambient)

/-- The level engine a face holds after an epoch, field by field, from the face before it. -/
structure EpochTaken (x : Face) (e : LevelEngine) : Prop where
  curve : e.curve = x.level.stagedCurve.getD x.level.curve
  limits : e.limits = x.level.stagedLimits.getD x.level.limits
  stagedCurve : e.stagedCurve = none
  stagedLimits : e.stagedLimits = none
  hold : e.hold = x.level.hold
  sample : e.sensor.sample = x.level.sensor.sample
  off : x.sup.state = .off →
    e.sensor = x.level.sensor ∧ e.ambient = x.level.ambient ∧ e.target = x.level.target ∧ e.level = x.level.level
  noSensor : x.sup.state ≠ .off → x.level.sensor.state = .none → e.sensor = x.level.sensor
  count : x.sup.state ≠ .off → x.level.sensor.state ≠ .none → e.sensor.count = min 255 (x.level.sensor.count + 1)
  tested : x.sup.state ≠ .off → x.level.sensor.state = .waiting ∨ x.level.sensor.state = .valid →
    e.sensor.state = if e.limits.sensorLostEpochs ≤ x.level.sensor.count then .lost else x.level.sensor.state
  lost : x.sup.state ≠ .off → x.level.sensor.state = .lost → e.sensor.state = .lost
  ambient : x.sup.state ≠ .off →
    e.ambient = if e.sensor.state = .valid then e.sensor.sample else e.limits.fallbackAmbient
  target : x.sup.state ≠ .off →
    e.target = min (curveValue e.curve e.limits.ceiling e.ambient) e.limits.ceiling
  targetByTable : x.sup.state ≠ .off → (e.curve.Pairwise fun p q => p.ambient < q.ambient) →
    ∃ v, CurveGives e.curve e.limits.ceiling e.ambient v ∧ e.target = min v e.limits.ceiling
  level : x.sup.state ≠ .off →
    e.level =
      min e.limits.ceiling
        (if x.level.hold then x.level.level
         else if x.level.level < e.target then min e.target (x.level.level + e.limits.riseStep)
         else if e.target < x.level.level then max e.target (x.level.level - e.limits.fallStep)
         else x.level.level)

/-! Invariants of the request path (R62 to R65, R68, R70, R147, R149). -/

/-- An in-flight entry marked FORWARDED. -/
def InFlight.isForwarded : InFlight → Bool
  | .forwarded => true
  | .own _ => false

/-- The bounds of the path's lists, and the matching of awaiting entries with forwarded requests. -/
structure PathSound (s : State) : Prop where
  orderRoom : s.orderList.length ≤ 16
  forwardRoom : s.forwardQueue.length ≤ 8
  flightRoom : s.inFlight.length ≤ 24
  ownRoom : s.ownWrites.length ≤ 8
  eventRoom : s.eventQueue.length ≤ 32
  grants : s.arbiterCount ≤ 4
  noOwn : s.ownWrites = [] → s.arbiterCount = 0
  awaiting : s.orderList.countP OrderEntry.awaiting = s.forwardQueue.length + s.inFlight.countP InFlight.isForwarded

/-- What R53 and R62 say of one order-list entry. -/
structure EntrySound (e : OrderEntry) : Prop where
  context : e.context.isSome = true ↔ e.cls = .forwardScale
  scaleReads : e.cls = .forwardScale → e.kind = .read
  local_ : e.cls = .localWrite → e.kind = .write ∧ e.completion = .ready .discarded 0
  discarded : ∀ d, e.completion = .ready .discarded d → e.cls = .localWrite
  writeData : ∀ st d, e.kind = .write → e.completion = .ready st d → d = 0

/-- The sequence number of a journal header under way. -/
def Origin.header? : Origin → Option (BitVec 16)
  | .journal n header => if header then some n else none
  | .status _ => none

/-- The journal headers in flight and in the own-write queue, oldest first. -/
def headersUnderWay (s : State) : List (BitVec 16) :=
  (s.inFlight.filterMap fun e => match e with | .forwarded => none | .own o => o.header?) ++
    s.ownWrites.filterMap fun w => w.origin.header?

/-- A record is in progress exactly while its header, and no other, is under way (R149). -/
def RecordUnderWay (s : State) : Prop :=
  headersUnderWay s = (s.journal.inProgress.map RecordProgress.sequence).toList

/-! Invariants of the journal and of the regions of the frame store (R2, R149, R151). -/

/-- The journal's ranges, and the bound of its fill (R149, R151). -/
structure JournalSound (j : Journal) : Prop where
  capacity : j.capacity ∈ ringCapacities
  threshold : 1 ≤ j.threshold ∧ j.threshold ≤ j.capacity
  fill : j.fill ≤ j.capacity
  unconfigured : j.configured = false → j.produced = 0 ∧ j.consumed = 0 ∧ j.hasCurrent = false
  current : j.hasCurrent = true → j.fill < j.capacity
  drops : j.drops ≤ 65535

/-- The regions of R2: configured planes apart from each other, the control window, the ring and a
SUPERSEDED record; the ring apart from the window; a CURRENT record inside its ring. -/
structure RegionsApart (s : State) : Prop where
  planes : ∀ f g : Fin 4, f ≠ g → (s.face f).plane.valid = true → (s.face g).plane.valid = true →
    Apart (s.face f).plane.base.toNat (s.face f).plane.bytes (s.face g).plane.base.toNat (s.face g).plane.bytes
  window : ∀ f : Fin 4, (s.face f).plane.valid = true →
    Apart (s.face f).plane.base.toNat (s.face f).plane.bytes s.windowBase.toNat 4096
  ring : ∀ f : Fin 4, (s.face f).plane.valid = true → s.journal.configured = true →
    Apart (s.face f).plane.base.toNat (s.face f).plane.bytes s.journal.base.toNat (s.journal.capacity * 16)
  record : ∀ (f : Fin 4) (r : RecordProgress), (s.face f).plane.valid = true → s.journal.inProgress = some r →
    Apart (s.face f).plane.base.toNat (s.face f).plane.bytes r.addr.toNat 16
  ringWindow : s.journal.configured = true →
    Apart s.journal.base.toNat (s.journal.capacity * 16) s.windowBase.toNat 4096
  ringEnd : s.journal.configured = true → s.journal.base.toNat + s.journal.capacity * 16 ≤ 0x10000000
  current : ∀ r : RecordProgress, s.journal.inProgress = some r → r.superseded = false →
    s.journal.configured = true ∧ s.journal.base.toNat ≤ r.addr.toNat ∧
      r.addr.toNat + 16 ≤ s.journal.base.toNat + s.journal.capacity * 16
  capacity : 0 < s.journal.capacity

/-! Invariants of a face (R1, R5, R8, R21 to R23, R39, R77, R91 to R93, R105, R112, R114). -/

/-- The plane record and zone map of a face (R1, R5, R6, R8). -/
structure PlaneSound (x : Face) : Prop where
  strideExp : x.plane.valid = true → 6 ≤ x.plane.strideExp ∧ x.plane.strideExp ≤ 11
  width : x.plane.valid = true → 1 ≤ x.plane.width ∧ x.plane.width ≤ 1024 ∧ x.plane.width ≤ x.plane.stride
  height : x.plane.valid = true → 1 ≤ x.plane.height ∧ x.plane.height ≤ 1024
  base : x.plane.valid = true → x.plane.base.toNat % 4 = 0 ∧ x.plane.base.toNat + x.plane.bytes ≤ 0x10000000
  columns : x.plane.valid = true → x.plane.columnBands ≤ 16 ∧ x.plane.colBounds.Pairwise (· < ·) ∧
    ∀ b ∈ x.plane.colBounds, 1 ≤ b ∧ b < x.plane.width
  rows : x.plane.valid = true → x.plane.rowBands ≤ 8 ∧ x.plane.rowBounds.Pairwise (· < ·) ∧
    ∀ b ∈ x.plane.rowBounds, 1 ≤ b ∧ b < x.plane.height
  zones : x.plane.zoneCount ≤ 64
  mapped : ∀ z : Fin 64, z.val < x.plane.zoneCount →
    ∃ n, pick x.zoneMap z = some n ∧ x.link.setup.sensorSlot ≠ some n
  distinct : ∀ z y : Fin 64, z.val < x.plane.zoneCount → y.val < x.plane.zoneCount →
    pick x.zoneMap z = pick x.zoneMap y → z = y

/-- A limits record (R21). -/
structure LimitsSound (l : Limits) : Prop where
  ceiling : l.ceiling ≤ 4096
  floor : l.floor ≤ 4096
  rise : 1 ≤ l.riseStep ∧ l.riseStep ≤ 4096
  fall : 1 ≤ l.fallStep ∧ l.fallStep ≤ 4096
  fallback : l.fallbackAmbient ≤ 8191
  lost : 1 ≤ l.sensorLostEpochs ∧ l.sensorLostEpochs ≤ 255

/-- A curve (R22). -/
structure CurveSound (c : List CurvePoint) : Prop where
  points : c.length ≤ 8
  ascends : c.Pairwise fun p q => p.ambient < q.ambient
  ranges : ∀ p ∈ c, p.ambient ≤ 8191 ∧ p.level ≤ 4096

/-- The level engine and applied set of a face; and, while it is not OFF, the sensor slot of its frame setup is
that of its link setup (R21 to R29, R36, R95, R176). -/
structure LevelSound (x : Face) : Prop where
  limits : LimitsSound x.level.limits
  stagedLimits : ∀ l, x.level.stagedLimits = some l → LimitsSound l
  curve : CurveSound x.level.curve
  stagedCurve : ∀ c, x.level.stagedCurve = some c → CurveSound c
  level : x.level.level ≤ 4096
  target : x.level.target ≤ 4096
  ambient : x.level.ambient ≤ 8191
  sample : x.level.sensor.sample ≤ 8191
  count : x.level.sensor.count ≤ 255
  sensor : x.level.sensor.state = .none ↔ x.link.setup.sensorSlot = none
  noCount : x.level.sensor.state = .none → x.level.sensor.count = 0
  frame : x.sup.state ≠ .off → ∀ fs, x.link.frameSetup = some fs → fs.sensorSlot = x.link.setup.sensorSlot
  appliedLevel : x.applied.level ≤ 4096
  appliedFloor : x.applied.floor ≤ 4096

/-- A link setup (R91, R92). -/
structure SetupSound (l : LinkSetup) : Prop where
  slots : 1 ≤ l.slotCount ∧ l.slotCount ≤ 64
  lost : 1 ≤ l.lostCount ∧ l.lostCount ≤ 255
  confirm : 1 ≤ l.confirmCount ∧ l.confirmCount ≤ 15
  clear : 1 ≤ l.clearCount ∧ l.clearCount ≤ 15
  stuck : 2 ≤ l.stuckLimit ∧ l.stuckLimit ≤ 15
  sensor : ∀ n, l.sensorSlot = some n → l.enables n = true
  thresholds : l.thresholds.isSome = true ↔ l.wordLength = .w24
  ascending : ∀ th, l.thresholds = some th → th.warm < th.hot ∧ th.hot < th.critical ∧ th.hysteresis ≤ 15

/-- A module record (R112, R121 to R125). -/
structure RecordSound (r : ModuleRecord) : Prop where
  silent : r.silentRun ≤ 255
  confirm : r.confirmRun ≤ 15
  clean : r.cleanRun ≤ 15
  stuck : r.stuckRun ≤ 15
  pixels : r.pixelFaults ≤ 127
  disabled : r.state = .disabled → r = resetRecord
  runs : r.state = .unseen ∨ r.state = .ok ∨ r.state = .lost → r.confirmRun = 0 ∧ r.cleanRun = 0
  oneRun : r.confirmRun = 0 ∨ r.cleanRun = 0
  measured : ∀ t, r.measuredTemp = some t → -40 ≤ t ∧ t ≤ 215

/-- The face state, link state, applied set, mailboxes and records of a face together (R37, R39, R74, R77,
R93, R103, R105, R112, R114). -/
structure FaceSound (x : Face) : Prop where
  running : x.link.state = .running ↔ x.sup.state ≠ .off
  idleFrame : x.link.state = .idle → x.link.frameSetup = none
  drainFrame : x.link.state = .draining → x.link.frameSetup ≠ none
  dark : x.sup.state = .off ∨ x.sup.state = .starting → x.applied = darkForm
  timeout : 1 ≤ x.sup.stallTimeout ∧ x.sup.stallTimeout ≤ 255
  stopped : x.sup.state = .off ∨ x.sup.state = .stalled → x.sup.stallTimer = 0
  counting : x.sup.state = .starting ∨ x.sup.state = .live → 1 ≤ x.sup.stallTimer ∧ x.sup.stallTimer ≤ 255
  configured : x.sup.state ≠ .off → x.plane.valid = true ∧ x.link.setUp = true ∧ x.zonesServed = true
  moduleSlots : x.sup.state ≠ .off → ∀ n, (pick x.records n).state = .disabled ↔ x.link.setup.isModuleSlot n = false
  idleRecords : x.link.state = .idle → x.records = resetRecords
  idleMailboxes : x.link.state = .idle → x.mailboxes = emptyMailboxes
  requests : ∀ n o, pick x.mailboxes n = some o → o.test = true ∨ o.clearLatch = true
  setup : SetupSound x.link.setup
  records : ∀ n, RecordSound (pick x.records n)

/-! Invariants of the decoder, the timebase and the attention controller (R163, R18, R19, R137). -/

/-- The stream decoder (R163, R165). -/
structure DecoderSound (d : Decoder) : Prop where
  idle : d.state = .idle → d.remaining = 0 ∧ d.inProgress = none ∧ d.refusal = none ∧ d.buffer = []
  collecting : d.state = .collecting →
    ∃ h c, d.inProgress = some h ∧ commandOf h.code = some c ∧ c.allows h.fields.count.toNat = true ∧
      d.refusal = none ∧ 1 ≤ d.remaining ∧ d.buffer.length + d.remaining = h.fields.count.toNat
  discarding : d.state = .discarding →
    ∃ h, d.inProgress = some h ∧ d.buffer = [] ∧ 1 ≤ d.remaining ∧ d.remaining ≤ h.fields.count.toNat ∧
      d.refusal = some (if (commandOf h.code).isSome then .count else .unknown)
  buffer : d.buffer.length ≤ 16

/-- The timebase, the attention line and the saturating counts of the part (R18, R19, R69, R93, R137). -/
structure CountsSound (s : State) : Prop where
  divider : s.tickDivider ≤ 9
  epochTimer : 1 ≤ s.epochTimer ∧ s.epochTimer ≤ epochPeriod s.epochSelect
  levelMode : s.attention.mode = .level → s.attention.pulse = false
  errors : s.ownWriteErrors ≤ 65535
  counters : ∀ f : Fin 4, (s.face f).link.garbled ≤ 65535 ∧ (s.face f).link.silent ≤ 65535 ∧ (s.face f).sup.stallCount ≤ 65535

end Sys2Proof.Machine
end

