-- ==== Sys2Proof/Certificates/Slice0/Obligations.lean ====
section
/-! DEFINITION. The statements about the part, from the numbered rules of the spec. -/

open Sys2Proof Sys2Proof.Machine

/-! The machine as a whole. -/

/-- One step runs the command at the front of the queue against the queue's rest; with an empty queue the part
idles (the model's choice, log 8). -/
def Obligations.StepRunsFrontCommand : Prop :=
  (∀ (c : Instr) (rest : List Instr) (s : State), step { s with pending := c :: rest } = exec c { s with pending := rest }) ∧
    ∀ s : State, s.pending = [] → step s = .next s

/-- Every command completes in every state: none faults and none is refused (the model's deduction, log 16), and a row
whose event cannot occur changes nothing (the model's choice, log 6). It leaves the queue of commands; POWER_ON_RESET alone moves the
control window (R55), and it and MILLISECOND_INCREMENT alone change the time count (R17); POWER_ON_RESET and
PORST_N_ASSERTION alone change the reset line. -/
def Obligations.EveryCommandCompletes : Prop :=
  ∀ (c : Instr) (s : State), ∃ t, exec c s = .next t ∧ t.pending = s.pending ∧
    ((∀ w, c ≠ .powerOnReset w) →
      t.windowBase = s.windowBase ∧
      ((∀ order, c ≠ .millisecondIncrement order) → t.timeCount = s.timeCount) ∧
      (c ≠ .porstNAssertion → t.porstAsserted = s.porstAsserted))

/-- POWER_ON_RESET: the reset value of every piece of state, from any state, and State.reset among them (its
window base is the model's choice of WSEL 0, log 7).
PORST_N_ASSERTION: the line is held and nothing else changes (log 11); both blanking outputs of every face are
high-impedance, the link pins low, ATTN_N high; CPORT accepts no request and MPORT issues no beat. -/
def Obligations.PowerOnReset : Prop :=
  (
    ∀ (wsel : BitVec 2) (s : State), ∃ t, exec (.powerOnReset wsel) s = .next t ∧
      t.pending = s.pending ∧ t.porstAsserted = false ∧
      t.windowBase.toNat = 0x0FFC0000 + wsel.toNat * 0x10000 ∧
      t.timeCount = 0 ∧ t.tickDivider = 0 ∧ t.epochSelect = 2 ∧ t.epochTimer = 10 ∧
      t.cportWaiting = [] ∧ t.orderList = [] ∧ t.forwardQueue = [] ∧ t.inFlight = [] ∧ t.ownWrites = [] ∧
      t.arbiterCount = 0 ∧
      t.attention.pending = 0 ∧ t.attention.mask = 0 ∧ t.attention.inService = 0 ∧ t.attention.base = 0 ∧
      t.attention.mode = .level ∧ t.attention.autoFinish = false ∧ t.attention.rotateOnAuto = false ∧
      t.attention.ackResult = .none ∧ t.attention.ackClass = none ∧ t.attention.presented = none ∧ t.attnHigh = true ∧
      t.eventQueue = [] ∧
      t.journal = { configured := false, base := 0, capacity := 16, threshold := 16, produced := 0, consumed := 0, drops := 0, sequence := 0, inProgress := none } ∧
      (∀ w, pick t.dirty w = true) ∧ t.generation = 0 ∧ t.generationOwed = false ∧ t.ownWriteErrors = 0 ∧
      t.decoder = { state := .idle, remaining := 0, inProgress := none, refusal := none, buffer := [], result := { tag := 0, code := 0, result := .done } } ∧
      (∀ f : Fin 4,
        (t.face f).plane = { valid := false, base := 0, strideExp := 6, width := 1, height := 1, scanTags := 0, colBounds := [], rowBounds := [] } ∧
        (∀ z, pick (t.face f).zoneMap z = some z) ∧
        (t.face f).level =
          { curve := [], stagedCurve := none,
            limits := { ceiling := 2048, floor := 0, riseStep := 64, fallStep := 256, fallbackAmbient := 1024, sensorLostEpochs := 20 },
            stagedLimits := none, sensor := { state := .none, sample := 0, count := 0 }, hold := false, level := 0, target := 0, ambient := 0 } ∧
        (t.face f).applied.level = 0 ∧ (t.face f).applied.floor = 0 ∧ (∀ z, pick (t.face f).applied.steps z = 3) ∧
        (t.face f).sup =
          { state := .off, stallTimer := 0, stallTimeout := 50, stallCount := 0,
            outputs := { polarity := .high, aDrive := .off, bMode := .off, bDrive := .off, bManualLit := false } } ∧
        t.oeA f = .highImpedance ∧ t.oeB f = .highImpedance ∧
        (t.face f).link.setUp = false ∧
        (t.face f).link.setup =
          { slotCount := 1, mask := 0, wordLength := .w16, bitOrder := .msbFirst, bitRate := .mhz1, sensorSlot := none,
            lostCount := 1, confirmCount := 1, clearCount := 1, stuckLimit := 2, thresholds := none } ∧
        (t.face f).link.state = .idle ∧ (t.face f).link.frameCount = 0 ∧ (t.face f).link.garbled = 0 ∧
        (t.face f).link.silent = 0 ∧ (t.face f).link.frameSetup = none ∧ (t.face f).link.line = .idle ∧
        (∀ n, pick (t.face f).mailboxes n = none) ∧
        ∀ n, pick (t.face f).records n =
          { state := .disabled, silentRun := 0, confirmRun := 0, cleanRun := 0, lastSequence := none, stuckRun := 0,
            tempLevel := .normal, supplyLow := false, pixelFaults := 0, measuredTemp := none } ∧
          (pick (t.face f).records n).derateStep = 3) ∧
      exec (.powerOnReset 0) State.reset = .next State.reset
  ) ∧
  (
    ∀ s : State, ∃ t, exec .porstNAssertion s = .next t ∧ t = { s with porstAsserted := true } ∧
      (∀ f, t.oeA f = .highImpedance ∧ t.oeB f = .highImpedance ∧ t.tlckRuns f = false ∧ ∀ i, t.tlsync f i = false ∧ t.tlout f i = false) ∧
      t.attnHigh = true ∧
      (∀ r, exec (.cportRequestAccept r) t = .next t) ∧ exec .mportGrant t = .next t
  )

/-! The timebase, the level engines and the stall timers. -/

/-- A millisecond raises the time count by one and the tick divider by one; from 9 the divider would reach 10, and
the millisecond brings a tick, which it runs in the same event (log 3). -/
def Obligations.MillisecondsBringTicks : Prop :=
  ∀ (order : List TickPart) (s : State),
    (s.tickDivider < 9 →
      exec (.millisecondIncrement order) s = .next { s with timeCount := s.timeCount + 1, tickDivider := s.tickDivider + 1 }) ∧
    (9 ≤ s.tickDivider →
      exec (.millisecondIncrement order) s = exec (.tick order) { s with timeCount := s.timeCount + 1 })

/-- A tick, whatever the order of the blocks (log 4): the divider returns to 0, the epoch timer counts down or reloads,
each stall timer counts in STARTING and LIVE alone and expires at its last tick, and a tick that ends the epoch
period brings an epoch to every level engine. The events are one FRAME_STALL for each face whose timer expires and, at
an epoch, one SENSOR_LOST for each face whose sensor is lost, raised in some order; a tick without either raises none.
Nothing else of the part changes; the target of an epoch is that of R28's table (`CurveGives`). (Detail B of FRAME_STALL is the plain stall timeout: log 27.) -/
def Obligations.TickReachesEveryFace : Prop :=
  ∀ (order : List TickPart) (s : State), ∃ t es, exec (.tick order) s = .next t ∧
    t = { raiseAll es s with
          tickDivider := 0
          epochTimer := if s.epochTimer ≤ 1 then (match s.epochSelect with | 0 => 2 | 1 => 5 | 2 => 10 | 3 => 25) else s.epochTimer - 1
          faces := t.faces
          dirty := t.dirty } ∧
    es.Nodup ∧
    (∀ e, e ∈ es ↔
      (∃ f, Expires s f ∧ e = stallEvent s f) ∨ (s.epochTimer ≤ 1 ∧ ∃ f, LosesSensor s f ∧ e = sensorLostEvent s f)) ∧
    ∀ f : Fin 4,
      t.face f = { s.face f with sup := (t.face f).sup, level := (t.face f).level } ∧
      ((s.face f).sup.state = .off ∨ (s.face f).sup.state = .stalled → (t.face f).sup = (s.face f).sup) ∧
      ((s.face f).sup.state = .starting ∨ (s.face f).sup.state = .live →
        (t.face f).sup =
          if (s.face f).sup.stallTimer ≤ 1 then
            { (s.face f).sup with state := .stalled, stallTimer := 0, stallCount := min 65535 ((s.face f).sup.stallCount + 1) }
          else { (s.face f).sup with stallTimer := (s.face f).sup.stallTimer - 1 }) ∧
      (1 < s.epochTimer → (t.face f).level = (s.face f).level) ∧
      (s.epochTimer ≤ 1 → EpochTaken (s.face f) (t.face f).level)

/-- An epoch, whatever the order of the faces (log 4): the timer reloads and every level engine takes adoption and, if its
face is not OFF, the sensor test, ambient, target (by R28's table, `CurveGives`) and level stages. The events are one SENSOR_LOST for each face whose
sensor is lost, raised in some order, and nothing else of the part changes; a face whose sensor is lost sets class 5
pending, and classes other than 5 and 7 are left.
SENSOR_LOST at an epoch: with one face scanning, its sensor WAITING or VALID, and the count at or above the
sensor-lost epochs that this epoch puts in force, the event queue takes one entry with the state before and the
count found, and class 5 joins the pending set. -/
def Obligations.EpochAtTheLevelEngines : Prop :=
  (
    ∀ (order : List (Fin 4)) (s : State), ∃ t es, exec (.epoch order) s = .next t ∧
      t = { raiseAll es s with
            epochTimer := match s.epochSelect with | 0 => 2 | 1 => 5 | 2 => 10 | 3 => 25
            faces := t.faces
            dirty := t.dirty } ∧
      es.Nodup ∧ (∀ e, e ∈ es ↔ ∃ f, LosesSensor s f ∧ e = sensorLostEvent s f) ∧
      (∀ f : Fin 4, t.face f = { s.face f with level := (t.face f).level } ∧ EpochTaken (s.face f) (t.face f).level) ∧
      (∀ f : Fin 4, (t.face f).level.sensor.state = .lost → (s.face f).level.sensor.state ≠ .lost →
        hasClass t.attention.pending 5 = true) ∧
      (∀ c : Fin 8, c ≠ 5 → c ≠ 7 → hasClass t.attention.pending c = hasClass s.attention.pending c)
  ) ∧
  (
    ∀ (order : List (Fin 4)) (f : Fin 4) (n : Fin 64) (s : State),
      (∀ g, g ≠ f → (s.face g).sup.state = .off) → (s.face f).sup.state ≠ .off →
      (s.face f).level.sensor.state = .waiting ∨ (s.face f).level.sensor.state = .valid →
      ((s.face f).level.stagedLimits.getD (s.face f).level.limits).sensorLostEpochs ≤ (s.face f).level.sensor.count →
      (s.face f).link.setup.sensorSlot = some n → s.eventQueue.length < 32 →
      ∃ t, exec (.epoch order) s = .next t ∧
        t.eventQueue = s.eventQueue ++
          [{ code := .sensorLost, face := f, slot := n, time := s.timeCount,
             detailA := plainDetail (s.face f).level.sensor.state.code, detailB := plainDetail (s.face f).level.sensor.count }] ∧
        t.attention = s.attention.joined 5 ∧ t.journal = s.journal
  )

/-- STALL_EXPIRY of a face in STARTING or LIVE: the face becomes STALLED, its timer 0 and its stall count rises,
FRAME_STALL is raised with the state left and the timeout setting (a plain value: log 27), and OE_A is blank. In OFF and STALLED there is
no expiry and nothing changes (log 6). -/
def Obligations.StallExpiryStalls : Prop :=
  ∀ (f : Fin 4) (s : State),
    ((s.face f).sup.state = .starting ∨ (s.face f).sup.state = .live →
      ∃ t, exec (.stallExpiry f) s = .next t ∧
        SameBesidesDirty
          (raiseEvent .frameStall f 0 (plainDetail (s.face f).sup.state.code) (plainDetail (s.face f).sup.stallTimeout)
            (s.setFace f
              { s.face f with
                sup :=
                  { (s.face f).sup with
                    state := .stalled, stallTimer := 0, stallCount := min 65535 ((s.face f).sup.stallCount + 1) } })) t ∧
        oeALit (t.face f).sup.state = false) ∧
    ((s.face f).sup.state = .off ∨ (s.face f).sup.state = .stalled → exec (.stallExpiry f) s = .next s)

/-! The request path. -/

/-- The classification of a request by its kind, its address with bits 1 and 0 ignored, its byte enables and the plane
decoder's state: the 4 KiB of the window from its base by offset, a write outside it, and reads. -/
def Obligations.ClassificationFollowsTheTable : Prop :=
  ∀ (s : State) (r : Request),
    let word := r.addr.toNat / 4 * 4
    let full := fun c : ControlWord => if r.byteEnables = 15 then RequestClass.snoop c else .partialWrite c
    (r.kind = .write → ∀ o, o < 0x1000 → word = s.windowBase.toNat + o →
      ((0x040 ≤ o ∧ o ≤ 0x0DF) ∨ (0x400 ≤ o ∧ o ≤ 0x7FF) → classify s r = .localWrite) ∧
      (o = 0x000 → classify s r = full .head) ∧
      (o = 0x004 → classify s r = full .body) ∧
      (o = 0x008 → classify s r = full .ack) ∧
      (o = 0x00C → classify s r = full .consumed) ∧
      ((0x010 ≤ o ∧ o ≤ 0x03F) ∨ (0x0E0 ≤ o ∧ o ≤ 0x3FF) ∨ 0x800 ≤ o → classify s r = .forward)) ∧
    (r.kind = .write → word < s.windowBase.toNat ∨ s.windowBase.toNat + 0x1000 ≤ word → classify s r = .forward) ∧
    (r.kind = .read → (∀ f, ¬ScanReadOf s f r) → classify s r = .forward) ∧
    (∀ f, ScanReadOf s f r → (∀ g, g ≠ f → ¬ScanReadOf s g r) →
      let p := (s.face f).plane
      let w := (word - p.base.toNat) / 4
      (p.width ≤ w % 2 ^ p.strideExp → classify s r = .forward) ∧
      (w % 2 ^ p.strideExp < p.width →
        ∀ z : Fin 64,
          z.val = (p.rowBounds.countP fun b => decide (b ≤ w / 2 ^ p.strideExp)) * (p.colBounds.length + 1)
            + (p.colBounds.countP fun b => decide (b ≤ w % 2 ^ p.strideExp)) →
          classify s r = .scan f z (w == 0)))

/-- A request classified FORWARD and offered with room is accepted at once onto both lists; a request that cannot
be accepted waits (log 5), and with the order list full it waits behind those that wait. -/
def Obligations.ForwardedRequestsJoinOrWait : Prop :=
  ∀ (r : Request) (s : State),
    (RoomToForward s → classify s r = .forward → exec (.cportRequestAccept r) s = .next (entered s r .forward none)) ∧
    (s.porstAsserted = false → s.cportWaiting = [] →
      16 ≤ s.orderList.length ∨ (classify s r ≠ .localWrite ∧ 8 ≤ s.forwardQueue.length) →
      exec (.cportRequestAccept r) s = .next { s with cportWaiting := [r] }) ∧
    (s.porstAsserted = false → 16 ≤ s.orderList.length →
      exec (.cportRequestAccept r) s = .next { s with cportWaiting := s.cportWaiting ++ [r] })

/-- A scan read of another word than the first captures its context from the applied set as it stands and changes
nothing but the two lists.
A frame start latches the applied set, captures the read's own context from it, reloads the stall timer and
makes the face LIVE; only a STALLED face raises an event, FRAME_RESUMED. -/
def Obligations.ScanReadsCaptureContexts : Prop :=
  (
    ∀ (r : Request) (f : Fin 4) (z : Fin 64) (s : State),
      RoomToForward s → classify s r = .scan f z false →
      exec (.cportRequestAccept r) s = .next (entered s r .forwardScale (some (contextFrom f (s.face f).applied z)))
  ) ∧
  (
    ∀ (r : Request) (f : Fin 4) (z : Fin 64) (s : State),
      RoomToForward s → classify s r = .scan f z true →
      ∃ t a, exec (.cportRequestAccept r) s = .next t ∧
        a.level = (s.face f).level.level ∧ a.floor = (s.face f).level.limits.floor ∧
        (∀ y : Fin 64, (s.face f).plane.zoneCount ≤ y.val → pick a.steps y = 3) ∧
        (∀ (y n : Fin 64), y.val < (s.face f).plane.zoneCount → pick (s.face f).zoneMap y = some n →
          pick a.steps y = (pick (s.face f).records n).derateStep) ∧
        let u := entered
          (s.setFace f { s.face f with applied := a, sup := { (s.face f).sup with state := .live, stallTimer := (s.face f).sup.stallTimeout } })
          r .forwardScale (some (contextFrom f a z))
        ((s.face f).sup.state ≠ .stalled → SameBesidesDirty u t ∧ MarksExactly s t) ∧
        ((s.face f).sup.state = .stalled →
          SameBesidesDirty (raiseEvent .frameResumed f 0 (plainDetail (s.face f).sup.stallCount) 0 u) t)
  )

/-- A full write to a control word is forwarded and handed to its receiver: the state after it is that of the
receiver's own row, with the fields of its HEAD or ACK word, run on the state with the request on both lists (log 1;
`controlRow` spells the fields). A partial write is forwarded and raises STREAM_PARTIAL with the word's window offset
and the byte enables, and no receiver takes it. -/
def Obligations.ControlWordsReachTheirReceivers : Prop :=
  ∀ (r : Request) (w : ControlWord) (s : State),
    (RoomToForward s → classify s r = .snoop w →
      exec (.cportRequestAccept r) s = exec (controlRow w r.data) (entered s r .forwardSnoop none)) ∧
    (RoomToForward s → classify s r = .partialWrite w →
      ∃ t, exec (.cportRequestAccept r) s = .next t ∧
        SameBesidesDirty
          (raiseEvent .streamPartial 0 0
            (match w with | .head => 0x000 | .body => 0x004 | .ack => 0x008 | .consumed => 0x00C)
            (r.byteEnables.setWidth 32) (entered s r .forward none)) t ∧
        MarksExactly s t)

/-- A write classified LOCAL, offered on CPORT, is absorbed: it is entered complete with status DISCARDED and data 0,
whatever room the forward queue has, and changes nothing else.
LOCAL_WRITE, the row of a write to an image word, does just that; with the order list full it waits at the port. -/
def Obligations.LocalWriteIsDiscarded : Prop :=
  (
    ∀ (r : Request) (s : State),
      s.porstAsserted = false → s.cportWaiting = [] → s.orderList.length < 16 → classify s r = .localWrite →
      exec (.cportRequestAccept r) s =
        .next { s with
          orderList := s.orderList ++ [{ kind := r.kind, id := r.id, cls := .localWrite, context := none, completion := .ready .discarded 0 }] }
  ) ∧
  ∀ (word : ImageWord) (low : BitVec 2) (be : BitVec 4) (data : Word) (tag : BitVec 3) (id : BitVec 4) (s : State),
    (∃ wsel : BitVec 2, s.windowBase.toNat = 0x0FFC0000 + wsel.toNat * 0x10000) →
    s.porstAsserted = false → s.cportWaiting = [] →
    (s.orderList.length < 16 →
      exec (.localWrite word low be data tag id) s =
        .next { s with
          orderList := s.orderList ++ [{ kind := .write, id := id, cls := .localWrite, context := none, completion := .ready .discarded 0 }] }) ∧
    (16 ≤ s.orderList.length →
      ∃ r, exec (.localWrite word low be data tag id) s = .next { s with cportWaiting := [r] } ∧
        r.kind = .write ∧ r.byteEnables = be ∧ r.data = data ∧ r.tag = tag ∧ r.id = id ∧
        r.addr.toNat = s.windowBase.toNat + (if word.val < 40 then 0x040 + 4 * word.val else 0x400 + 4 * (word.val - 40)) + low.toNat)

/-- A READY head is offered with its id, kind, status code (0 OKAY, 1 ERROR, 2 DISCARDED) and data, and an AWAITING one
is not; this and the taking hold while PORST_N is asserted too (the model's choice, log 28). CPORT_RESPONSE_TAKEN: the response of a READY head leaves with its id, kind, status and data, and frees its
entry; a waiting request classified FORWARD, for which the forward queue has room, is accepted in the same step (log 5); an
AWAITING head offers nothing, and nothing changes (log 6). -/
def Obligations.TakenResponseFreesItsEntry : Prop :=
  ∀ (e : OrderEntry) (rest : List OrderEntry) (s : State), s.orderList = e :: rest →
    (∀ st d, e.completion = .ready st d →
      s.crspValid = true ∧ s.cportOffer = some { kind := e.kind, id := e.id, status := st, data := d } ∧
      s.crspStatus = some (match st with | .okay => 0 | .error => 1 | .discarded => 2) ∧
      let u := { s with orderList := rest, cportLast := some { kind := e.kind, id := e.id, status := st, data := d } }
      (s.cportWaiting = [] → exec .cportResponseTaken s = .next u) ∧
      (∀ r, s.porstAsserted = false → s.cportWaiting = [r] → rest.length < 16 → s.forwardQueue.length < 8 →
        classify s r = .forward →
        exec .cportResponseTaken s = .next (entered { u with cportWaiting := [] } r .forward none))) ∧
    (e.completion = .awaitingMemory →
      s.crspValid = false ∧ s.crspStatus = none ∧ (s.cportWaiting = [] → exec .cportResponseTaken s = .next s))

/-- MPORT_GRANT: the arbiter's table, with the beat issued and its in-flight entry; nothing is granted while the
in-flight list is full. A grant of the forward queue frees an entry of it: a waiting request classified FORWARD, for
which the order list has room, is accepted in the same step (log 5). -/
def Obligations.ArbiterGrantsByTheTable : Prop :=
  (
    ∀ s : State, s.porstAsserted = false → s.cportWaiting = [] →
      (24 ≤ s.inFlight.length ∨ (s.forwardQueue = [] ∧ s.ownWrites = []) → exec .mportGrant s = .next s) ∧
      (s.inFlight.length < 24 → ∀ r rest, s.forwardQueue = r :: rest → s.ownWrites = [] ∨ s.arbiterCount < 4 →
        exec .mportGrant s =
          .next { s with
            forwardQueue := rest
            inFlight := s.inFlight ++ [.forwarded]
            arbiterCount := if s.ownWrites = [] then 0 else s.arbiterCount + 1
            mportLast := some { own := false, request := r } }) ∧
      (s.inFlight.length < 24 → ∀ w rest, s.ownWrites = w :: rest → s.forwardQueue = [] ∨ 4 ≤ s.arbiterCount →
        exec .mportGrant s =
          .next { s with
            ownWrites := rest
            inFlight := s.inFlight ++ [.own w.origin]
            arbiterCount := 0
            mportLast := some { own := true, request := { kind := .write, addr := w.addr, byteEnables := 15, data := w.data, tag := 0, id := 0 } } })
  ) ∧
  (
    ∀ (r q : Request) (rest : List Request) (s : State),
      s.porstAsserted = false → s.inFlight.length < 24 → s.forwardQueue = r :: rest → s.ownWrites = [] ∨ s.arbiterCount < 4 →
      s.cportWaiting = [q] → s.orderList.length < 16 → rest.length < 8 → classify s q = .forward →
      exec .mportGrant s =
        .next
          (entered
            { s with
              forwardQueue := rest
              inFlight := s.inFlight ++ [.forwarded]
              arbiterCount := if s.ownWrites = [] then 0 else s.arbiterCount + 1
              mportLast := some { own := false, request := r }
              cportWaiting := [] } q .forward none)
  )

/-- An own write at the head of its queue is issued within five grants, however many forwarded beats wait. -/
def Obligations.OwnWriteIssuedWithinFiveGrants : Prop :=
  ∀ (w : OwnWrite) (rest : List OwnWrite) (s : State),
    s.ownWrites = w :: rest → s.arbiterCount ≤ 4 → s.porstAsserted = false → s.cportWaiting = [] →
    s.inFlight.length + 5 ≤ 24 → s.pending = List.replicate 5 .mportGrant →
    ∃ k t, k ≤ 5 ∧ Host.Core.run Sys2Proof.core k s = .next t ∧ t.ownWrites = rest ∧
      t.inFlight.getLast? = some (.own w.origin) ∧
      t.mportLast = some { own := true, request := { kind := .write, addr := w.addr, byteEnables := 15, data := w.data, tag := 0, id := 0 } }

/-- MEMORY_RESPONSE to a forwarded beat: the oldest entry that awaits memory becomes READY with the memory status
(code 0 is OKAY, log 25, and any other is ERROR), data 0 for a write, and for a read the word, scaled with the entry's context if it
has one and the status is OKAY. A response with nothing in flight changes nothing. -/
def Obligations.ResponseAnswersOldestAwaiting : Prop :=
  ∀ (st : BitVec 2) (data : Word) (s : State),
    (s.inFlight = [] → exec (.memoryResponse st data) s = .next s) ∧
    ∀ (flight : List InFlight) (before after : List OrderEntry) (e : OrderEntry),
      s.inFlight = .forwarded :: flight → s.orderList = before ++ e :: after →
      (∀ x ∈ before, x.completion ≠ .awaitingMemory) → e.completion = .awaitingMemory →
      exec (.memoryResponse st data) s =
        .next { s with
          inFlight := flight
          orderList := before ++
            { e with
              completion :=
                .ready (if st = 0 then .okay else .error)
                  (if e.kind = .write then 0
                   else if st = 0 then
                     match e.context with
                     | none => data
                     | some c => scaleWord c data
                   else data) } :: after }

/-- MEMORY_RESPONSE to an own write: an ERROR (any status code but 0, log 25) counts into the own-write error count; the header of a CURRENT record
ends it and advances the produced index, raising class 7 when the fill crosses the threshold; the header of a
SUPERSEDED record ends it alone; no other completion changes anything. -/
def Obligations.OwnWriteCompletions : Prop :=
  ∀ (st : BitVec 2) (data : Word) (o : Origin) (flight : List InFlight) (s : State),
    s.inFlight = .own o :: flight →
    let u := { s with inFlight := flight, ownWriteErrors := if st = 0 then s.ownWriteErrors else min 65535 (s.ownWriteErrors + 1) }
    (∀ w, o = .status w → ∃ t, exec (.memoryResponse st data) s = .next t ∧ SameBesidesDirty u t ∧ MarksExactly s t) ∧
    (∀ n, o = .journal n false → ∃ t, exec (.memoryResponse st data) s = .next t ∧ SameBesidesDirty u t ∧ MarksExactly s t) ∧
    (∀ n r, o = .journal n true → s.journal.inProgress = some r → r.sequence = n →
      ∃ t, exec (.memoryResponse st data) s = .next t ∧ MarksExactly s t ∧
        (r.superseded = true → SameBesidesDirty { u with journal := { s.journal with inProgress := none } } t) ∧
        (r.superseded = false →
          let j := { s.journal with inProgress := none, produced := s.journal.produced + 1 }
          SameBesidesDirty
            { u with
              journal := j
              attention :=
                if s.journal.fill < s.journal.threshold ∧ s.journal.threshold ≤ j.fill then s.attention.joined 7
                else s.attention } t))

/-- Accepted requests keep their kind, id, classification and scale context, in order, through every command but
POWER_ON_RESET and the taking of a response, and a READY entry keeps its completion. -/
def Obligations.AcceptedRequestsKeepTheirEntries : Prop :=
  ∀ (c : Instr) (s t : State), exec c s = .next t → (∀ w, c ≠ .powerOnReset w) → c ≠ .cportResponseTaken →
    ∃ es more, t.orderList = es ++ more ∧
      List.Forall₂
        (fun e e' : OrderEntry =>
          e'.kind = e.kind ∧ e'.id = e.id ∧ e'.cls = e.cls ∧ e'.context = e.context ∧
            (e.completion = .awaitingMemory ∨ e'.completion = e.completion))
        s.orderList es

/-! Pixels and pins. -/

/-- The base gain a scan read captures, from the applied level and the zone's step. -/
def Obligations.BaseGainByZoneStep : Prop :=
  ∀ (f : Fin 4) (a : AppliedSet) (z : Fin 64),
    (contextFrom f a z).gain = baseGain a.level (pick a.steps z) ∧
    (pick a.steps z = 0 → baseGain a.level (pick a.steps z) = a.level * 4096 / 4096) ∧
    (pick a.steps z = 1 → baseGain a.level (pick a.steps z) = a.level * 3072 / 4096) ∧
    (pick a.steps z = 2 → baseGain a.level (pick a.steps z) = a.level * 2048 / 4096) ∧
    (pick a.steps z = 3 → baseGain a.level (pick a.steps z) = a.level * 0 / 4096) ∧
    (a.level ≤ 4096 → baseGain a.level (pick a.steps z) ≤ 4096)

/-- A scaled word keeps its class, and each channel is the stored one times the gain of the class, rounded half up
and never above the stored channel; DARK words and every word of a blanked zone are black, and a FIXED word of a
zone that is not blanked is as stored. -/
def Obligations.ScaledWordsAreNeverBrighter : Prop :=
  ∀ (c : ScaleContext) (w : Word), c.gain ≤ 4096 → c.floor ≤ 4096 → (c.blanked = true → c.gain = 0) →
    let g := match field w 30 2 with
      | 0 => c.gain
      | 1 => if c.blanked then 0 else max c.gain c.floor
      | 2 => 0
      | _ => if c.blanked then 0 else 4096
    let v := scaleWord c w
    field v 30 2 = field w 30 2 ∧
    field v 20 10 = (field w 20 10 * g + 2048) / 4096 ∧
    field v 10 10 = (field w 10 10 * g + 2048) / 4096 ∧
    field v 0 10 = (field w 0 10 * g + 2048) / 4096 ∧
    field v 20 10 ≤ field w 20 10 ∧ field v 10 10 ≤ field w 10 10 ∧ field v 0 10 ≤ field w 0 10 ∧
    (field w 30 2 = 2 ∨ c.blanked = true → field v 20 10 = 0 ∧ field v 10 10 = 0 ∧ field v 0 10 = 0) ∧
    (field w 30 2 = 3 → c.blanked = false → v = w)

/-- The pins of a face while PORST_N is released: OE_A is lit in LIVE alone; OE_B follows its B mode; the polarity
turns lit into a level for both pins; the drive mode drives or releases it. -/
def Obligations.PinsFollowStateAndConfiguration : Prop :=
  ∀ (f : Fin 4) (s : State), s.porstAsserted = false →
    let o := (s.face f).sup.outputs
    let lit : Bool := decide ((s.face f).sup.state = .live)
    let pin : DriveMode → Bool → PinLevel := fun d l =>
      let high := if o.polarity = .high then l else !l
      if (d = .pushPull ∨ d = .source) ∧ high = true then .drivenHigh
      else if (d = .pushPull ∨ d = .sink) ∧ high = false then .drivenLow
      else .highImpedance
    s.oeA f = pin o.aDrive lit ∧
    (o.bMode = .off → s.oeB f = .highImpedance) ∧
    (o.bMode = .track → s.oeB f = pin o.bDrive lit) ∧
    (o.bMode = .antivalent → s.oeB f = pin o.bDrive (!lit)) ∧
    (o.bMode = .manual → s.oeB f = pin o.bDrive o.bManualLit)

/-! The tile link and the module records. -/

/-- LINK_SYNC of a RUNNING link copies the setup into the frame setup and raises the frame count, with TLSYNC high for
the one bit time of the sync and TLOUT low; DRAIN_END of a
DRAINING link makes it IDLE with no frame setup, empty mailboxes, DISABLED records and its pins low; in any other link state
neither event occurs and nothing changes (log 6). -/
def Obligations.SyncAndDrainEnd : Prop :=
  ∀ (f : Fin 4) (s : State),
    let x := s.face f
    (x.link.state = .running → ∃ t fs, exec (.linkSync f) s = .next t ∧
      SameBesidesDirty
        (s.setFace f { x with link := { x.link with frameSetup := some fs, frameCount := x.link.frameCount + 1, line := .sync } }) t ∧
      MarksExactly s t ∧
      (s.porstAsserted = false → t.tlckRuns f = true ∧ ∀ i, t.tlsync f i = decide (i = 0) ∧ t.tlout f i = false) ∧
      fs.slotCount = x.link.setup.slotCount ∧ fs.wordLength = x.link.setup.wordLength ∧ fs.bitOrder = x.link.setup.bitOrder ∧
      fs.bitRate = x.link.setup.bitRate ∧ fs.sensorSlot = x.link.setup.sensorSlot ∧
      ∀ n : Fin 64, fs.enabled.getLsbD n.val = (decide (n.val < x.link.setup.slotCount) && x.link.setup.mask.getLsbD n.val)) ∧
    (x.link.state ≠ .running → exec (.linkSync f) s = .next s) ∧
    (x.link.state = .draining → ∃ t, exec (.drainEnd f) s = .next t ∧
      SameBesidesDirty
        (s.setFace f
          { x with
            link := { x.link with state := .idle, frameSetup := none, line := .idle }
            mailboxes := Vector.replicate 64 none
            records := Vector.replicate 64 resetRecord }) t ∧
      MarksExactly s t ∧ t.tlckRuns f = false ∧ ∀ i, t.tlsync f i = false ∧ t.tlout f i = false) ∧
    (x.link.state ≠ .draining → exec (.drainEnd f) s = .next s)

/-- SLOT_START of an enabled slot of a frame in progress puts the slot's command word on the line, built from the
face state, the record's step, the mailbox of a RUNNING link, the frame count and L, and empties that mailbox; TLSYNC is
low and TLOUT carries the word by the bit order through the slot. A
slot that is not enabled, or with no frame in progress, has neither start nor end, and nothing changes (log 6). -/
def Obligations.SlotStartSendsTheCommandWord : Prop :=
  ∀ (f : Fin 4) (n : Fin 64) (s : State),
    let x := s.face f
    (∀ fs, x.link.state ≠ .idle → x.link.frameSetup = some fs → n.val < fs.slotCount → fs.enabled.getLsbD n.val = true →
      let step : Fin 4 := if fs.sensorSlot = some n then 0 else (pick x.records n).derateStep
      let blank : Bool := decide (x.sup.state ≠ .live ∨ step = 3)
      let w := commandWord fs.wordLength x.level.level blank step
        (if x.link.state = .running then pick x.mailboxes n else none) x.link.frameCount n
      ∃ t, exec (.slotStart f n) s = .next t ∧
        SameBesidesDirty
          (s.setFace f
            { x with
              link := { x.link with line := .word n w }
              mailboxes := if x.link.state = .running then put x.mailboxes n none else x.mailboxes }) t ∧
        MarksExactly s t ∧
        (s.porstAsserted = false →
          t.tlckRuns f = true ∧
          ∀ i, t.tlsync f i = false ∧ t.tlout f i = (decide (i < fs.wordLength.bits) && (lineOrder fs.wordLength fs.bitOrder w).getLsbD i))) ∧
    (x.link.state = .idle ∨ x.link.frameSetup = none ∨
        (∃ fs, x.link.frameSetup = some fs ∧ (fs.slotCount ≤ n.val ∨ fs.enabled.getLsbD n.val = false)) →
      exec (.slotStart f n) s = .next s ∧ ∀ samples, exec (.slotEnd f n samples) s = .next s)

/-- Every field of a command word lies in its place, in both word lengths, and the word has an odd number of ones.
A received word is placed bit by bit by the bit order, in either direction alike, and classified by its marker
and its parity over the whole word. -/
def Obligations.LinkWordsInBothDirections : Prop :=
  (
    ∀ (len : WordLength) (level : Nat) (blank : Bool) (step : Fin 4) (o : Option OneShot) (count : BitVec 16) (n : Fin 64),
      let w := commandWord len level blank step o count n
      w.getLsbD (match len with | .w16 => 15 | .w24 => 23) = true ∧
      w.getLsbD 14 = blank ∧ linkField w 12 2 = step.val ∧
      w.getLsbD 11 = (match o with | none => false | some q => q.test) ∧
      w.getLsbD 10 = (match o with | none => false | some q => q.clearLatch) ∧
      linkField w 7 3 = count.toNat % 8 ∧ linkField w 1 6 = n.val ∧
      (len = .w24 → linkField w 15 8 = min 255 (level / 16)) ∧
      (len = .w16 → linkField w 16 8 = 0) ∧
      onesCount w % 2 = 1
  ) ∧
  (
    ∀ (order : BitOrder) (w : LinkWord),
      (∀ i, i < 24 → (lineOrder .w24 order w).getLsbD i = w.getLsbD (match order with | .lsbFirst => i | .msbFirst => 23 - i)) ∧
      (∀ i, i < 16 → (lineOrder .w16 order w).getLsbD i = w.getLsbD (match order with | .lsbFirst => i | .msbFirst => 15 - i)) ∧
      linkField (lineOrder .w16 order w) 16 8 = 0 ∧
      lineOrder .w24 order (lineOrder .w24 order w) = w ∧
      ∀ len : WordLength,
        let marker := w.getLsbD (match len with | .w16 => 15 | .w24 => 23)
        (marker = false → classifyReceived len w = .silent) ∧
        (marker = true → onesCount w % 2 = 0 → classifyReceived len w = .garbled) ∧
        (marker = true → onesCount w % 2 = 1 → classifyReceived len w = .valid)
  )

/-- SLOT_END of a module slot while PORST_N is released: the outcome is counted; a scanning face's record, if not
DISABLED, takes it and raises the event of its transition, if any; with the face OFF the record is left. A valid word
carries its fields as 11.3 lays them out. While PORST_N is asserted TLIN is ignored and nothing changes. -/
def Obligations.SlotEndReachesTheRecord : Prop :=
  ∀ (f : Fin 4) (n : Fin 64) (samples : LinkWord) (fs : FrameSetup) (s : State),
    let x := s.face f
    x.link.state ≠ .idle → x.link.frameSetup = some fs → n.val < fs.slotCount → fs.enabled.getLsbD n.val = true →
    fs.sensorSlot ≠ some n →
    let w := lineOrder fs.wordLength fs.bitOrder samples
    let c := classifyReceived fs.wordLength w
    let y := { x with
      link := { x.link with
        line := x.link.line.afterSlot n
        silent := if c = .silent then min 65535 (x.link.silent + 1) else x.link.silent
        garbled := if c = .garbled then min 65535 (x.link.garbled + 1) else x.link.garbled } }
    let r := pick x.records n
    let bits := fun (hi lo : Nat) => w.toNat / 2 ^ lo % 2 ^ (hi + 1 - lo)
    let report : ModuleReport :=
      { openFault := w.getLsbD 14
        shortFault := w.getLsbD 13
        tempLevel := match bits 12 11 with | 0 => .normal | 1 => .warm | 2 => .hot | _ => .critical
        supplyLow := w.getLsbD 10
        sequence := BitVec.ofNat 2 (bits 9 8)
        pixelFaults := bits 7 1
        measuredTemp := match fs.wordLength with | .w16 => none | .w24 => some ((bits 22 15 : Int) - 40) }
    let out := r.taken x.link.setup (if c = .valid then .valid report else .silence)
    (s.porstAsserted = true → exec (.slotEnd f n samples) s = .next s) ∧
    (s.porstAsserted = false → ∃ t, exec (.slotEnd f n samples) s = .next t ∧ MarksExactly s t ∧
      (x.sup.state = .off ∨ r.state = .disabled → SameBesidesDirty (s.setFace f y) t) ∧
      (x.sup.state ≠ .off → r.state ≠ .disabled →
        let u := s.setFace f { y with records := put x.records n out.1 }
        (recordEvent r out.1 out.2 = none → SameBesidesDirty u t) ∧
        (∀ e, recordEvent r out.1 out.2 = some e → SameBesidesDirty (raiseEvent e.code f n e.detailA e.detailB u) t)))

/-- SLOT_END of the sensor slot while PORST_N is released: the outcome is counted; a valid, fresh word of a scanning face
stores its ambient, limited to 8191, makes the sensor VALID and its count 0, and raises SENSOR_RESTORED from LOST; no
other outcome changes the sensor record. While PORST_N is asserted TLIN is ignored and nothing changes. -/
def Obligations.SlotEndReachesTheSensor : Prop :=
  ∀ (f : Fin 4) (n : Fin 64) (samples : LinkWord) (fs : FrameSetup) (s : State),
    let x := s.face f
    x.link.state ≠ .idle → x.link.frameSetup = some fs → n.val < fs.slotCount → fs.enabled.getLsbD n.val = true →
    fs.sensorSlot = some n →
    let w := lineOrder fs.wordLength fs.bitOrder samples
    let c := classifyReceived fs.wordLength w
    let fresh := match fs.wordLength with | .w16 => w.getLsbD 14 | .w24 => w.getLsbD 22
    let ambient := match fs.wordLength with | .w16 => linkField w 1 13 | .w24 => linkField w 1 21
    let y := { x with
      link := { x.link with
        line := x.link.line.afterSlot n
        silent := if c = .silent then min 65535 (x.link.silent + 1) else x.link.silent
        garbled := if c = .garbled then min 65535 (x.link.garbled + 1) else x.link.garbled } }
    (s.porstAsserted = true → exec (.slotEnd f n samples) s = .next s) ∧
    (s.porstAsserted = false → ∃ t, exec (.slotEnd f n samples) s = .next t ∧ MarksExactly s t ∧
      (x.sup.state = .off ∨ c ≠ .valid ∨ fresh = false → SameBesidesDirty (s.setFace f y) t) ∧
      (x.sup.state ≠ .off → c = .valid → fresh = true →
        let u := s.setFace f { y with level := { x.level with sensor := { state := .valid, sample := min ambient 8191, count := 0 } } }
        (x.level.sensor.state ≠ .lost → SameBesidesDirty u t) ∧
        (x.level.sensor.state = .lost →
          SameBesidesDirty (raiseEvent .sensorRestored f (x.link.setup.sensorSlot.getD 0) (plainDetail 3) 0 u) t)))

/-- How a record takes a silence and a valid word, by its state: the table of record states, with the reported
fields, the runs and the judgement.
The temperature level of a 24-bit word: it rises to the count of thresholds reached, and falls to the count of
thresholds less the hysteresis reached; of a 16-bit word it is the word's field. -/
def Obligations.RecordTakesOutcomes : Prop :=
  (
    ∀ (r : ModuleRecord) (l : LinkSetup),
      (let q := { r with silentRun := min 255 (r.silentRun + 1) }
       (r.state = .unseen ∨ r.state = .ok ∨ r.state = .suspect →
         (r.taken l .silence).1 =
           if l.lostCount ≤ q.silentRun then { q with state := .lost, confirmRun := 0, cleanRun := 0 } else q) ∧
       (r.state = .lost ∨ r.state = .faulted → (r.taken l .silence).1 = q)) ∧
      ∀ w : ModuleReport,
        let q := { r with
          supplyLow := w.supplyLow
          pixelFaults := w.pixelFaults
          tempLevel := reportedLevel l.thresholds r.tempLevel w
          measuredTemp := w.measuredTemp.or r.measuredTemp
          silentRun := 0
          stuckRun := if r.lastSequence = some w.sequence then min 15 (r.stuckRun + 1) else 1
          lastSequence := some w.sequence }
        let faulty := w.openFault = true ∨ w.shortFault = true ∨ l.stuckLimit ≤ q.stuckRun
        let out := (r.taken l (.valid w)).1
        (r.state = .unseen → ¬faulty → out = { q with state := .ok }) ∧
        (r.state = .ok → ¬faulty → out = q) ∧
        (r.state = .unseen ∨ r.state = .ok ∨ r.state = .lost → faulty → out = { q with state := .suspect, confirmRun := 1, cleanRun := 0 }) ∧
        (r.state = .lost → ¬faulty → out = { q with state := .suspect, confirmRun := 0, cleanRun := 1 }) ∧
        (r.state = .suspect → faulty →
          out = { q with
            state := if l.confirmCount ≤ min 15 (r.confirmRun + 1) then .faulted else .suspect
            confirmRun := min 15 (r.confirmRun + 1)
            cleanRun := 0 }) ∧
        (r.state = .suspect → ¬faulty →
          out =
            if l.clearCount ≤ min 15 (r.cleanRun + 1) then { q with state := .ok, confirmRun := 0, cleanRun := 0 }
            else { q with confirmRun := 0, cleanRun := min 15 (r.cleanRun + 1) }) ∧
        (r.state = .faulted → out = q)
  ) ∧
  (
    ∀ (th : Thresholds) (present : TempLevel) (w : ModuleReport),
      (w.measuredTemp = none → reportedLevel none present w = w.tempLevel) ∧
      ∀ t : Int, w.measuredTemp = some t →
        let count := fun (h : Int) =>
          (if th.warm - h ≤ t then 1 else 0) + (if th.hot - h ≤ t then 1 else 0) + (if th.critical - h ≤ t then 1 else 0)
        (reportedLevel (some th) present w).rank =
          if present.rank < count 0 then count 0
          else if count th.hysteresis < present.rank then count th.hysteresis
          else present.rank
  )

/-- The derate step of a record, from its state, temperature level and supply-low flag. -/
def Obligations.DerateStepOfRecord : Prop :=
  ∀ r : ModuleRecord,
    (r.state = .disabled ∨ r.state = .unseen ∨ r.state = .faulted ∨ r.state = .lost → r.derateStep = 3) ∧
    (r.state = .ok ∨ r.state = .suspect →
      r.derateStep.val =
        max (match r.tempLevel with | .normal => 0 | .warm => 0 | .hot => 1 | .critical => 2) (if r.supplyLow then 1 else 0))

/-- The event of a slot end by the states before and after and the steps: one event for a change of state,
DERATE_CHANGED for a change of step alone in OK or SUSPECT, and none otherwise. (The step before lies in the low two
bits of detail A of DERATE_CHANGED: log 27.)
The packing of the details: a plain value, a derate step, a derate step with the temperature level and the supply-low
flag, and a derate step with the reasons. -/
def Obligations.RecordEventsFollowTransitions : Prop :=
  (
    ∀ (r t : ModuleRecord) (q : Reasons),
      (r.state = t.state → recordEvent r t q =
        if (t.state = .ok ∨ t.state = .suspect) ∧ r.derateStep ≠ t.derateStep then
          some { code := .derateChanged, detailA := stepDetail r.derateStep, detailB := thermalDetail t.derateStep t.tempLevel t.supplyLow }
        else none) ∧
      (r.state = .unseen → t.state = .ok → recordEvent r t q =
        some { code := .moduleSeen, detailA := plainDetail 1, detailB := thermalDetail t.derateStep t.tempLevel t.supplyLow }) ∧
      (r.state ≠ .suspect → t.state = .suspect → recordEvent r t q =
        some { code := .moduleSuspect, detailA := plainDetail r.state.code, detailB := reasonsDetail t.derateStep q.openFault q.shortFault q.frozen }) ∧
      (r.state = .suspect → t.state = .faulted → recordEvent r t q =
        some { code := .moduleFaulted, detailA := plainDetail t.confirmRun, detailB := reasonsDetail 3 q.openFault q.shortFault q.frozen }) ∧
      (r.state ≠ .lost → t.state = .lost → recordEvent r t q =
        some { code := .moduleLost, detailA := plainDetail r.state.code, detailB := plainDetail t.silentRun }) ∧
      (r.state = .suspect → t.state = .ok → recordEvent r t q =
        some { code := .moduleRecovered, detailA := plainDetail (min 15 (r.cleanRun + 1)), detailB := stepDetail t.derateStep })
  ) ∧
  (
    ∀ (value : Nat) (step : Fin 4) (level : TempLevel) (low openFault shortFault frozen : Bool),
      (plainDetail value).toNat = value % 2 ^ 32 ∧
      Laid (stepDetail step) [⟨1, 0, step.val⟩] ∧
      Laid (thermalDetail step level low)
        [⟨1, 0, step.val⟩, ⟨5, 4, match level with | .normal => 0 | .warm => 1 | .hot => 2 | .critical => 3⟩, ⟨8, 8, bitOf low⟩] ∧
      Laid (reasonsDetail step openFault shortFault frozen)
        [⟨1, 0, step.val⟩, ⟨16, 16, bitOf openFault⟩, ⟨17, 17, bitOf shortFault⟩, ⟨18, 18, bitOf frozen⟩]
  )

/-! The attention controller. -/

/-- The presented class is the highest-ranking class that is pending, not masked, and ranks above every class in
service. -/
def Obligations.PresentedClassRanksHighest : Prop :=
  ∀ (a : Attention) (c : Fin 8),
    let rank := fun d : Fin 8 => (d.val + 8 - a.base.val) % 8
    let fits := fun d : Fin 8 =>
      hasClass a.pending d = true ∧ hasClass a.mask d = false ∧ ∀ e, hasClass a.inService e = true → rank d < rank e
    a.presented = some c ↔ fits c ∧ ∀ d, fits d → rank c ≤ rank d

/-- TAKE moves the presented class from pending to in service, or finishes it at once under auto-finish, moving the
base if rotate-on-auto is on; with none presented it answers NONE and changes nothing else. -/
def Obligations.TakeServesThePresentedClass : Prop :=
  ∀ s : State, ∃ t, exec .take s = .next t ∧ MarksExactly s t ∧
    (s.attention.presented = none →
      SameBesidesDirty { s with attention := { s.attention with ackResult := .none, ackClass := none } } t) ∧
    (∀ c, s.attention.presented = some c →
      let a := { s.attention with
        pending := removeClass s.attention.pending c
        inService := if s.attention.autoFinish then s.attention.inService else addClass s.attention.inService c
        base := if s.attention.autoFinish && s.attention.rotateOnAuto then c + 1 else s.attention.base
        ackResult := .done
        ackClass := some c }
      SameBesidesDirty
        { s with
          attention := { a with
            pulse := s.attention.pulse || (s.attention.mode == .pulse && a.presented.isSome && a.presented != some c) } } t)

/-- FINISH_TOP and FINISH remove the highest-ranking or the named class from the in-service set, with the base moved
past it if the rotate flag is set; with no such class in service they answer NONE and change nothing else. An
operation code that names no operation answers INVALID and changes nothing else. -/
def Obligations.FinishOperations : Prop :=
  ∀ (rotate : Bool) (s : State),
    let fin := fun c : Fin 8 =>
      let a := { s.attention with
        inService := removeClass s.attention.inService c
        base := if rotate then c + 1 else s.attention.base
        ackResult := .done
        ackClass := some c }
      { s with
        attention := { a with
          pulse := s.attention.pulse || (s.attention.mode == .pulse && a.presented.isSome && a.presented != s.attention.presented) } }
    let answer := fun (r : AckResult) (c : Option (Fin 8)) =>
      { s with attention := { s.attention with ackResult := r, ackClass := c } }
    (∃ t, exec (.finishTop rotate) s = .next t ∧ MarksExactly s t ∧
      (s.attention.inService = 0 → SameBesidesDirty (answer .none none) t) ∧
      (∀ c, hasClass s.attention.inService c = true →
        (∀ d, hasClass s.attention.inService d = true → rankOf s.attention.base c ≤ rankOf s.attention.base d) →
        SameBesidesDirty (fin c) t)) ∧
    (∀ c, ∃ t, exec (.finish rotate c) s = .next t ∧ MarksExactly s t ∧
      (hasClass s.attention.inService c = true → SameBesidesDirty (fin c) t) ∧
      (hasClass s.attention.inService c = false → SameBesidesDirty (answer .none (some c)) t)) ∧
    (∀ op : BitVec 4, op = 0 ∨ 5 ≤ op.toNat → ∃ t, exec (.ackInvalid op) s = .next t ∧ MarksExactly s t ∧
      SameBesidesDirty (answer .invalid none) t)

/-- SET_LOWEST c, in every state, makes c + 1, modulo 8, the rotation base, so that c ranks lowest, answers DONE with
class c, and leaves the pending set, the mask and the in-service set; the rotate flag, which it ignores, is no
operand of its row. -/
def Obligations.SetLowestMovesTheBase : Prop :=
  ∀ (c : Fin 8) (s : State), ∃ t, exec (.setLowest c) s = .next t ∧ MarksExactly s t ∧
    (∀ d, rankOf t.attention.base d ≤ rankOf t.attention.base c) ∧
    let a := { s.attention with base := c + 1, ackResult := .done, ackClass := some c }
    SameBesidesDirty
      { s with
        attention := { a with
          pulse := s.attention.pulse || (s.attention.mode == .pulse && a.presented.isSome && a.presented != s.attention.presented) } } t

/-- ATTN_N while PORST_N is released: in LEVEL mode low exactly while a class is presented, in PULSE mode low
exactly during a pulse, which ATTN_PULSE_END ends and which nothing else of that event changes. -/
def Obligations.AttentionLine : Prop :=
  ∀ s : State,
    (s.porstAsserted = false → s.attention.mode = .level → (s.attnHigh = false ↔ s.attention.presented ≠ none)) ∧
    (s.porstAsserted = false → s.attention.mode = .pulse → (s.attnHigh = false ↔ s.attention.pulse = true)) ∧
    exec .attnPulseEnd s = .next { s with attention := { s.attention with pulse := false } }

/-- Raising a journaled event: its class joins the pending set; with room its entry is appended with the time
count, and with the event queue full it is counted as a drop, the first of which sets class 7 pending. -/
def Obligations.RaisedEventsAreQueuedOrCounted : Prop :=
  ∀ (code : EventCode) (f : Fin 4) (n : Fin 64) (a b : Word) (s : State) (c : Fin 8),
    c.val =
      (match code with
       | .cmdRefused | .cmdAbandoned | .streamStray | .streamPartial | .indexRejected => 0
       | .frameStall => 1
       | .moduleFaulted | .moduleLost => 2
       | .moduleSuspect => 3
       | .derateChanged => 4
       | .sensorLost | .sensorRestored => 5
       | .frameResumed | .moduleRecovered | .moduleSeen => 6
       | .droppedSummary => 8) →
    let t := raiseEvent code f n a b s
    MarksExactly s t ∧
    (s.eventQueue.length < 32 →
      SameBesidesDirty
        { s with
          attention := s.attention.joined c
          eventQueue := s.eventQueue ++ [{ code := code, face := f, slot := n, time := s.timeCount, detailA := a, detailB := b }] } t) ∧
    (32 ≤ s.eventQueue.length →
      SameBesidesDirty
        { s with
          attention := if s.journal.drops = 0 then (s.attention.joined c).joined 7 else s.attention.joined c
          journal := { s.journal with drops := min 65535 (s.journal.drops + 1) } } t)

/-! The journal and the status writer. -/

/-- JOURNAL_RECORD_ENQUEUE of a ready record with 4 entries free: a summary of the drop count while it is not 0,
else the head of the event queue, joins as detail A, detail B, time and header at the next ring slot, and becomes
CURRENT; with no record ready, or less room, nothing changes (log 6).
The codes of the journaled events are those of 11.6. -/
def Obligations.ReadyRecordIsEnqueuedWhole : Prop :=
  (
    ∀ s : State,
      let j := s.journal
      let ready := j.configured = true ∧ j.inProgress = none ∧ (j.produced - j.consumed).toNat < j.capacity ∧ (s.eventQueue ≠ [] ∨ j.drops ≠ 0)
      let addr := j.base + BitVec.ofNat 28 (j.produced.toNat % j.capacity * 16)
      let words := fun (code : EventCode) (f : Fin 4) (n : Fin 64) (time : BitVec 32) (a b : Word) =>
        [{ addr := addr + 8, data := a, origin := .journal j.sequence false : OwnWrite },
         { addr := addr + 12, data := b, origin := .journal j.sequence false },
         { addr := addr + 4, data := time, origin := .journal j.sequence false },
         { addr := addr,
           data := BitVec.ofNat 32 (j.sequence.toNat * 65536 + code.code * 256 + f.val * 64 + n.val),
           origin := .journal j.sequence true }]
      let started := { j with sequence := j.sequence + 1, inProgress := some { superseded := false, addr := addr, sequence := j.sequence } }
      (ready → s.ownWrites.length ≤ 4 →
        ∃ t, exec .journalRecordEnqueue s = .next t ∧ MarksExactly s t ∧
          (j.drops ≠ 0 →
            SameBesidesDirty
              { s with
                ownWrites := s.ownWrites ++ words .droppedSummary 0 0 s.timeCount (plainDetail j.drops) (plainDetail s.eventQueue.length)
                journal := { started with drops := 0 } } t) ∧
          (∀ e rest, j.drops = 0 → s.eventQueue = e :: rest →
            SameBesidesDirty
              { s with
                ownWrites := s.ownWrites ++ words e.code e.face e.slot e.time e.detailA e.detailB
                eventQueue := rest
                journal := started } t)) ∧
      (¬ready ∨ 4 < s.ownWrites.length → exec .journalRecordEnqueue s = .next s)
  ) ∧
  (
    [EventCode.cmdRefused, .cmdAbandoned, .streamStray, .streamPartial, .indexRejected].map EventCode.code = [0x01, 0x02, 0x03, 0x04, 0x05] ∧
    [EventCode.frameStall, .frameResumed, .droppedSummary].map EventCode.code = [0x10, 0x11, 0xFF] ∧
    [EventCode.moduleSeen, .moduleSuspect, .moduleFaulted, .moduleLost, .moduleRecovered, .derateChanged].map EventCode.code =
      [0x20, 0x21, 0x22, 0x23, 0x24, 0x25] ∧
    [EventCode.sensorLost, .sensorRestored].map EventCode.code = [0x30, 0x31]
  )

/-- STATUS_WORD_ENQUEUE: an owed generation word goes first; else the dirty word of lowest offset leaves the set and
is enqueued with its fields as they stand, a pass ending when the set empties; with neither, with no free entry, or
with a journal record ready, nothing changes (log 6).
The value of an image word holds the fields of 11.7 at its offset, with the state codes of R185. -/
def Obligations.StatusWriterTakesLowestDirtyWord : Prop :=
  (
    ∀ s : State,
      let own := fun (w : ImageWord) (v : Word) =>
        ({ addr := s.windowBase + BitVec.ofNat 28 (if w.val < 40 then 0x040 + 4 * w.val else 0x400 + 4 * (w.val - 40)),
           data := v, origin := .status w } : OwnWrite)
      let j := s.journal
      let ready := j.configured = true ∧ j.inProgress = none ∧ (j.produced - j.consumed).toNat < j.capacity ∧ (s.eventQueue ≠ [] ∨ j.drops ≠ 0)
      let turn := s.ownWrites.length < 8 ∧ ¬ready
      (¬turn → exec .statusWordEnqueue s = .next s) ∧
      (turn → s.generationOwed = true →
        exec .statusWordEnqueue s =
          .next { s with
            generationOwed := false
            dirty := put s.dirty 0 false
            ownWrites := s.ownWrites ++ [own 0 (imageValue s 0)] }) ∧
      (turn → s.generationOwed = false → (∀ w, pick s.dirty w = false) → exec .statusWordEnqueue s = .next s) ∧
      (turn → s.generationOwed = false →
        ∀ w, pick s.dirty w = true → (∀ v, v < w → pick s.dirty v = false) →
          ((∃ v, w < v ∧ pick s.dirty v = true) →
            exec .statusWordEnqueue s =
              .next { s with dirty := put s.dirty w false, ownWrites := s.ownWrites ++ [own w (imageValue s w)] }) ∧
          ((∀ v, w < v → pick s.dirty v = false) →
            let u := { s with dirty := put s.dirty w false, generation := s.generation + 1, generationOwed := decide (w ≠ 0) }
            exec .statusWordEnqueue s = .next { u with ownWrites := s.ownWrites ++ [own w (imageValue u w)] }))
  ) ∧
  (
    ∀ (s : State) (w : ImageWord),
      (∀ i, i < 8 → w.val = i → Laid (imageValue s w) (partFields s (0x040 + 4 * i))) ∧
      (∀ (f : Fin 4) (i : Nat), i < 8 → w.val = 8 + 8 * f.val + i → Laid (imageValue s w) (faceFields (s.face f) (4 * i))) ∧
      (∀ (f : Fin 4) (n : Fin 64), w.val = 40 + 64 * f.val + n.val → Laid (imageValue s w) (moduleFields (s.face f) n))
  ) ∧
  (
    [FaceState.off, .starting, .live, .stalled].map FaceState.code = [0, 1, 2, 3] ∧
    [RecordState.disabled, .unseen, .ok, .suspect, .faulted, .lost].map RecordState.code = [0, 1, 2, 3, 4, 5] ∧
    [SensorState.none, .waiting, .valid, .lost].map SensorState.code = [0, 1, 2, 3] ∧
    [LinkState.idle, .running, .draining].map LinkState.code = [0, 1, 2] ∧
    [DecoderState.idle, .collecting, .discarding].map DecoderState.code = [0, 1, 2] ∧
    [TempLevel.normal, .warm, .hot, .critical].map TempLevel.code = [0, 1, 2, 3] ∧
    [ResultCode.done, .count, .state, .value, .order, .overlap, .mailbox, .busy, .unknown, .abandoned].map ResultCode.code =
      [0, 1, 2, 3, 4, 5, 6, 7, 8, 9] ∧
    [AckResult.done, .none, .invalid].map AckResult.code = [0, 1, 2] ∧
    ∀ j : Journal, (j.configured = false → j.capacityCode = 0) ∧
      ∀ i, i < 7 → j.configured = true → j.capacity = 16 * 2 ^ i → j.capacityCode = i + 1
  )

/-- CONSUMED_WRITE: the low 16 bits are accepted when they lie at most the capacity (0 while UNCONFIGURED) behind
both the write index and the produced index, and class 7 is set pending when the fill so crosses the threshold;
otherwise INDEX_REJECTED is raised with the value and the write index. -/
def Obligations.ConsumedIndexIsTested : Prop :=
  ∀ (data : Word) (s : State),
    let j := s.journal
    let v := data.setWidth 16
    let current := ∃ r, j.inProgress = some r ∧ r.superseded = false
    let cap := if j.configured then j.capacity else 0
    ∀ wi : BitVec 16, (current → wi = j.produced + 1) → (¬current → wi = j.produced) →
      ∃ t, exec (.consumedWrite data) s = .next t ∧ MarksExactly s t ∧
        ((wi - v).toNat ≤ cap ∧ (j.produced - v).toNat ≤ cap →
          SameBesidesDirty
            { s with
              journal := { j with consumed := v }
              attention :=
                if (j.produced - j.consumed).toNat < j.threshold ∧ j.threshold ≤ (j.produced - v).toNat then s.attention.joined 7 else s.attention } t) ∧
        (cap < (wi - v).toNat ∨ cap < (j.produced - v).toNat →
          SameBesidesDirty (raiseEvent .indexRejected 0 0 (plainDetail v.toNat) (plainDetail wi.toNat) s) t)

/-! The stream decoder. -/

/-- BODY_WORD: a stray in IDLE; in COLLECTING a word before the last is appended, and in DISCARDING a word before
the last is dropped; the last word ends DISCARDING with the pending refusal, and in COLLECTING executes the command in
progress: the state after it is that of the command's row taken with its whole payload, the buffer and the last word,
by an IDLE decoder that holds the result found. -/
def Obligations.BodyWordByDecoderState : Prop :=
  ∀ (w : Word) (s : State),
    (s.decoder.state = .idle → ∃ t, exec (.bodyWord w) s = .next t ∧ MarksExactly s t ∧
      SameBesidesDirty (raiseEvent .streamStray 0 0 w 0 s) t) ∧
    (s.decoder.state = .collecting → 2 ≤ s.decoder.remaining → ∃ t, exec (.bodyWord w) s = .next t ∧ MarksExactly s t ∧
      SameBesidesDirty { s with decoder := { s.decoder with remaining := s.decoder.remaining - 1, buffer := s.decoder.buffer ++ [w] } } t) ∧
    (∀ h c, s.decoder.state = .collecting → s.decoder.remaining = 1 → s.decoder.inProgress = some h → commandOf h.code = some c →
      c.allows h.fields.count.toNat = true → s.decoder.buffer.length + 1 = h.fields.count.toNat →
      let idle := { s with decoder := { state := .idle, remaining := 0, inProgress := none, refusal := none, buffer := [], result := s.decoder.result } }
      Taken c h.fields (s.decoder.buffer ++ [w]) idle ∧
      ∃ t u, exec (.bodyWord w) s = .next t ∧ exec (c.row h.fields (s.decoder.buffer ++ [w])) idle = .next u ∧ SameBesidesDirty u t) ∧
    (s.decoder.state = .discarding → 2 ≤ s.decoder.remaining → ∃ t, exec (.bodyWord w) s = .next t ∧ MarksExactly s t ∧
      SameBesidesDirty { s with decoder := { s.decoder with remaining := s.decoder.remaining - 1 } } t) ∧
    (∀ h r, s.decoder.state = .discarding → s.decoder.remaining = 1 → s.decoder.inProgress = some h →
      s.decoder.refusal = some r → r ≠ .done →
      ∃ t, exec (.bodyWord w) s = .next t ∧
        SameBesidesDirty
          (raiseEvent .cmdRefused h.fields.face h.fields.slot (codeTagDetail h.code h.fields.tag) (plainDetail r.code)
            { s with decoder := endedDecoder h.code h.fields r }) t)

/-- A HEAD word whose code names no command, or whose payload count its command does not allow, consumes exactly the
words it announces: with none it ends at once, with some it goes DISCARDING, and with all of them carried it ends
UNKNOWN or COUNT and raises CMD_REFUSED. A row carries its HEAD word and BODY words (log 2).
A command whose payload count is allowed and whose tests do not all pass changes no state of any block: its
result is that of the first test that fails, and CMD_REFUSED is raised with it. The tests are the tables of
`Command.tests`, in the terms of their rules. The codes and the counts allowed are those of `commandTable`; the details
of CMD_REFUSED hold the command code and tag, and the result code. -/
def Obligations.RefusalsChangeNothing : Prop :=
  (
    ∀ (h : HeadFields) (ws : List Word) (s : State), s.decoder.state = .idle →
      let ended := fun (code : BitVec 8) (r : ResultCode) =>
        raiseEvent .cmdRefused h.face h.slot (codeTagDetail code h.tag) (plainDetail r.code) { s with decoder := endedDecoder code h r }
      let discarding := fun (code : BitVec 8) (r : ResultCode) =>
        { s with
          decoder := { s.decoder with
            state := .discarding, remaining := h.count.toNat, inProgress := some { code := code, fields := h },
            refusal := some r, buffer := [] } }
      (∀ code, commandOf code = none →
        (ws.length = h.count.toNat → ∃ t, exec (.unknownCommand code h ws) s = .next t ∧ SameBesidesDirty (ended code .unknown) t) ∧
        (h.count ≠ 0 → ∃ t, exec (.unknownCommand code h []) s = .next t ∧ MarksExactly s t ∧
          SameBesidesDirty (discarding code .unknown) t)) ∧
      (∀ c : Command, c.allows h.count.toNat = false →
        (ws.length = h.count.toNat → ∃ t, exec (c.row h ws) s = .next t ∧ SameBesidesDirty (ended c.code .count) t) ∧
        (h.count ≠ 0 → ∃ t, exec (c.row h []) s = .next t ∧ MarksExactly s t ∧ SameBesidesDirty (discarding c.code .count) t))
  ) ∧
  (
    ∀ (c : Command) (h : HeadFields) (ws : List Word) (s : State) (r : ResultCode), Taken c h ws s →
      FirstFailing (c.tests h ws s) r → (r = .done ↔ Passes c h ws s) ∧ (r ≠ .done → Refused c h ws s r)
  ) ∧
  (
    (∀ (code : BitVec 8) (c : Command), commandOf code = some c ↔ ∃ counts, (code, c, counts) ∈ commandTable) ∧
    (∀ c : Command, ∃ code counts, (code, c, counts) ∈ commandTable) ∧
    (∀ e ∈ commandTable, e.2.1.code = e.1 ∧ ∀ n : Nat, e.2.1.allows n = true ↔ n ∈ e.2.2) ∧
    (∀ code tag : BitVec 8, Laid (codeTagDetail code tag) [⟨15, 8, code.toNat⟩, ⟨7, 0, tag.toNat⟩]) ∧
    (∀ r : ResultCode, Laid (plainDetail r.code) [⟨3, 0, r.code⟩])
  )

/-- A HEAD word taken while a command is in progress first abandons it: the state after any row of the decoder, of a
command or of an unused code, is that of the row taken by an IDLE decoder that holds the result ABANDONED, with
CMD_ABANDONED raised. -/
def Obligations.NewHeadAbandonsTheOld : Prop :=
  ∀ (row : Instr) (h : HeadFields) (ws : List Word) (old : HeadWord) (s : State),
    (∃ c : Command, row = c.row h ws) ∨ (∃ code, row = .unknownCommand code h ws) →
    s.decoder.state ≠ .idle → s.decoder.inProgress = some old →
    let idle := { s with decoder := endedDecoder old.code old.fields .abandoned }
    ∃ t u, exec row s = .next t ∧
      exec row
        (raiseEvent .cmdAbandoned old.fields.face old.fields.slot (codeTagDetail old.code old.fields.tag)
          (plainDetail s.decoder.remaining) idle) = .next u ∧
      SameBesidesDirty u t

/-- FACE_GEOMETRY and FACE_ZONEMAP whose tests all pass (`geometryTests`, `zonemapTests`): the plane record and the
default zone map, or the map's entries in use, take the payload; nothing else of the part changes but the decoder. -/
def Obligations.GeometryAndZoneMapWrite : Prop :=
  ∀ (h : HeadFields) (ws : List Word) (s : State),
    let x := s.face h.face
    (Taken .faceGeometry h ws s → Passes .faceGeometry h ws s →
      let w1 := (payloadWord ws 1).toNat
      let w2 := payloadWord ws 2
      let nc := w2.toNat / 2 ^ 8 % 2 ^ 5
      let nr := w2.toNat / 2 ^ 16 % 2 ^ 4
      ∃ t p m, exec (.faceGeometry h ws) s = .next t ∧
        SameBesidesDirty (doneWith .faceGeometry h (s.setFace h.face { x with plane := p, zoneMap := m })) t ∧
        p.valid = true ∧ p.base.toNat = (payloadWord ws 0).toNat % 2 ^ 28 / 4 * 4 ∧ p.strideExp = w1 % 2 ^ 4 ∧
        p.width = w1 / 2 ^ 4 % 2 ^ 11 ∧ p.height = w1 / 2 ^ 15 % 2 ^ 11 ∧ p.scanTags = w2.setWidth 8 ∧
        p.colBounds = columnBounds ws nc ∧ p.rowBounds = rowBounds ws nc nr ∧ p.zoneCount = nc * nr ∧
        (∀ z : Fin 64, nc * nr ≤ z.val → pick m z = none) ∧
        (∀ z : Fin 64, z.val < nc * nr →
          ∃ n : Fin 64, pick m z = some n ∧
            ∀ k : Fin 64, (x.link.setup.sensorSlot = some k → n.val = if k.val < nc * nr ∧ k ≤ z then z.val + 1 else z.val) ∧
              (x.link.setup.sensorSlot = none → n = z))) ∧
    (Taken .faceZonemap h ws s → Passes .faceZonemap h ws s →
      ∃ t m, exec (.faceZonemap h ws) s = .next t ∧
        SameBesidesDirty (doneWith .faceZonemap h (s.setFace h.face { x with zoneMap := m })) t ∧
        (∀ z : Fin 64, x.plane.zoneCount ≤ z.val → pick m z = pick x.zoneMap z) ∧
        (∀ z : Fin 64, z.val < x.plane.zoneCount → ∃ n : Fin 64, pick m z = some n ∧ n.val = payloadByte ws z.val))

/-- FACE_CURVE whose tests pass (`curveTests`) stages its points, with levels clamped to 4096; FACE_LIMITS stages its
record, clamped, and sets the stall timeout at once.
FACE_HOLD sets the hold flag and, with a payload word, makes L its low half clamped to 4096 and then to the
ceiling in force; FACE_RELEASE clears the flag. Both are taken in every face state with result DONE. -/
def Obligations.LevelCommands : Prop :=
  (
    ∀ (h : HeadFields) (ws : List Word) (s : State),
      let x := s.face h.face
      (Taken .faceCurve h ws s → Passes .faceCurve h ws s →
        ∃ t, exec (.faceCurve h ws) s = .next t ∧
          SameBesidesDirty
            (doneWith .faceCurve h
              (s.setFace h.face
                { x with
                  level := { x.level with
                    stagedCurve := some (ws.map fun w => { ambient := w.toNat / 2 ^ 16, level := min (w.toNat % 2 ^ 16) 4096 }) } })) t) ∧
      (Taken .faceLimits h ws s →
        let w0 := (payloadWord ws 0).toNat
        let w1 := (payloadWord ws 1).toNat
        let w2 := (payloadWord ws 2).toNat
        ∃ t, exec (.faceLimits h ws) s = .next t ∧
          SameBesidesDirty
            (doneWith .faceLimits h
              (s.setFace h.face
                { x with
                  level := { x.level with
                    stagedLimits := some
                      { ceiling := min (w0 % 2 ^ 16) 4096
                        floor := min (w0 / 2 ^ 16) 4096
                        riseStep := max 1 (min (w1 % 2 ^ 16) 4096)
                        fallStep := max 1 (min (w1 / 2 ^ 16) 4096)
                        fallbackAmbient := min (w2 % 2 ^ 16) 8191
                        sensorLostEpochs := max 1 (w2 / 2 ^ 16 % 2 ^ 8) } }
                  sup := { x.sup with stallTimeout := max 1 (w2 / 2 ^ 24) } })) t)
  ) ∧
  (
    ∀ (h : HeadFields) (ws : List Word) (s : State),
      let x := s.face h.face
      (Taken .faceHold h ws s → ∃ t, exec (.faceHold h ws) s = .next t ∧
        SameBesidesDirty
          (doneWith .faceHold h
            (s.setFace h.face
              { x with
                level := { x.level with
                  hold := true
                  level :=
                    match ws with
                    | [] => x.level.level
                    | w :: _ => min (min (w.toNat % 2 ^ 16) 4096) x.level.limits.ceiling } })) t) ∧
      (Taken .faceRelease h ws s → ∃ t, exec (.faceRelease h ws) s = .next t ∧
        SameBesidesDirty (doneWith .faceRelease h (s.setFace h.face { x with level := { x.level with hold := false } })) t)
  )

/-- FACE_START whose tests pass (`startTests`): STARTING with the stall timer loaded, L 0, the sensor WAITING or NONE,
the enabled module slots' records UNSEEN, the link RUNNING.
FACE_STOP: an OFF face is left; any other becomes OFF with its timer stopped and its applied set dark, its link
DRAINING if it has sent a sync, or else IDLE at once with its records DISABLED and its mailboxes empty. -/
def Obligations.FaceStartAndStop : Prop :=
  (
    ∀ (h : HeadFields) (s : State), Taken .faceStart h [] s → Passes .faceStart h [] s →
      let x := s.face h.face
      ∃ t rs, exec (.faceStart h []) s = .next t ∧
        (∀ n : Fin 64,
          pick rs n =
            if n.val < x.link.setup.slotCount ∧ x.link.setup.mask.getLsbD n.val = true ∧ x.link.setup.sensorSlot ≠ some n then
              { resetRecord with state := .unseen }
            else pick x.records n) ∧
        SameBesidesDirty
          (doneWith .faceStart h
            (s.setFace h.face
              { x with
                sup := { x.sup with state := .starting, stallTimer := x.sup.stallTimeout }
                level := { x.level with
                  level := 0
                  sensor := { x.level.sensor with state := if x.link.setup.sensorSlot = none then .none else .waiting, count := 0 } }
                records := rs
                link := { x.link with state := .running } })) t
  ) ∧
  (
    ∀ (h : HeadFields) (s : State), Taken .faceStop h [] s →
      let x := s.face h.face
      let y := { x with sup := { x.sup with state := .off, stallTimer := 0 }, applied := darkForm }
      ∃ t, exec (.faceStop h []) s = .next t ∧
        (x.sup.state = .off → SameBesidesDirty (doneWith .faceStop h s) t) ∧
        (x.sup.state ≠ .off → x.link.state = .running → x.link.frameSetup ≠ none →
          SameBesidesDirty (doneWith .faceStop h (s.setFace h.face { y with link := { x.link with state := .draining } })) t) ∧
        (x.sup.state ≠ .off → x.link.state = .running → x.link.frameSetup = none →
          SameBesidesDirty
            (doneWith .faceStop h
              (s.setFace h.face
                { y with
                  link := { x.link with state := .idle, frameSetup := none, line := .idle }
                  mailboxes := Vector.replicate 64 none
                  records := Vector.replicate 64 resetRecord })) t)
  )

/-- OUTPUT_CONFIG writes the five fields as one unit, in every face state, and acts on both pins at once. -/
def Obligations.OutputConfigWritesAsOneUnit : Prop :=
  ∀ (h : HeadFields) (w : Word) (s : State), Taken .outputConfig h [w] s →
    let x := s.face h.face
    let drive := fun n : Nat => match n % 4 with
      | 0 => DriveMode.pushPull
      | 1 => .sink
      | 2 => .source
      | _ => .off
    ∃ t, exec (.outputConfig h [w]) s = .next t ∧
      SameBesidesDirty
        (doneWith .outputConfig h
          (s.setFace h.face
            { x with
              sup := { x.sup with
                outputs :=
                  { polarity := if w.getLsbD 0 then .low else .high
                    aDrive := drive (w.toNat / 2 ^ 1)
                    bMode := match w.toNat / 2 ^ 4 % 4 with | 0 => .off | 1 => .track | 2 => .antivalent | _ => .manual
                    bDrive := drive (w.toNat / 2 ^ 6)
                    bManualLit := w.getLsbD 8 } } })) t

/-- LINK_SETUP whose tests pass (`linkSetupTests`): every field of the payload, the set-up indication, the counts 0, and the sensor record WAITING
or NONE with its count 0. -/
def Obligations.LinkSetupWritesAsOneUnit : Prop :=
  ∀ (h : HeadFields) (ws : List Word) (s : State), Taken .linkSetup h ws s → Passes .linkSetup h ws s →
    let x := s.face h.face
    let w2 := payloadWord ws 2
    let w3 := (payloadWord ws 3).toNat
    let w4 := (payloadWord ws 4).toNat
    ∃ t l, exec (.linkSetup h ws) s = .next t ∧
      SameBesidesDirty
        (doneWith .linkSetup h
          (s.setFace h.face
            { x with
              link := { x.link with setup := l, setUp := true, frameCount := 0, garbled := 0, silent := 0 }
              level := { x.level with
                sensor := { x.level.sensor with state := if w2.getLsbD 15 then .waiting else .none, count := 0 } } })) t ∧
      l.slotCount = w2.toNat % 2 ^ 7 ∧
      (∀ n : Fin 32, l.mask.getLsbD n.val = (payloadWord ws 0).getLsbD n.val ∧
        l.mask.getLsbD (32 + n.val) = (payloadWord ws 1).getLsbD n.val) ∧
      l.wordLength = (if w2.getLsbD 8 then .w24 else .w16) ∧
      l.bitOrder = (if w2.getLsbD 9 then .lsbFirst else .msbFirst) ∧
      l.bitRate = (match w2.toNat / 2 ^ 10 % 4 with | 0 => .mhz2 | 1 => .mhz1 | 2 => .khz500 | _ => .khz250) ∧
      l.sensorSlot.map Fin.val = (if w2.getLsbD 15 then some (w2.toNat / 2 ^ 16 % 2 ^ 6) else none) ∧
      l.lostCount = w3 % 2 ^ 8 ∧ l.confirmCount = w3 / 2 ^ 8 % 2 ^ 4 ∧ l.clearCount = w3 / 2 ^ 12 % 2 ^ 4 ∧
      l.stuckLimit = w3 / 2 ^ 16 % 2 ^ 4 ∧
      l.thresholds =
        if w2.getLsbD 8 then
          some { warm := (w4 % 2 ^ 8 : Nat) - 40, hot := (w4 / 2 ^ 8 % 2 ^ 8 : Nat) - 40, critical := (w4 / 2 ^ 16 % 2 ^ 8 : Nat) - 40, hysteresis := w4 / 2 ^ 24 % 2 ^ 4 }
        else none

/-- MODULE_COMMAND whose tests pass (`moduleCommandTests`) fills the mailbox of its slot; MODULE_CLEAR whose tests pass
(`moduleClearTests`), for one slot or for all, makes FAULTED records UNSEEN with their runs 0 and leaves every other
record. -/
def Obligations.ModuleCommandAndClear : Prop :=
  ∀ (h : HeadFields) (ws : List Word) (s : State),
    let x := s.face h.face
    let cleared := fun r : ModuleRecord =>
      if r.state = .faulted then
        { r with state := .unseen, silentRun := 0, confirmRun := 0, cleanRun := 0, stuckRun := 0, lastSequence := none }
      else r
    (∀ w, ws = [w] → Taken .moduleCommand h ws s → Passes .moduleCommand h ws s →
      ∃ t, exec (.moduleCommand h ws) s = .next t ∧
        SameBesidesDirty
          (doneWith .moduleCommand h
            (s.setFace h.face { x with mailboxes := put x.mailboxes h.slot (some { test := w.getLsbD 0, clearLatch := w.getLsbD 1 }) })) t) ∧
    (Taken .moduleClear h ws s → Passes .moduleClear h ws s →
      ∃ t, exec (.moduleClear h ws) s = .next t ∧
        (¬AllSlotsForm ws →
          SameBesidesDirty
            (doneWith .moduleClear h (s.setFace h.face { x with records := put x.records h.slot (cleared (pick x.records h.slot)) })) t) ∧
        (AllSlotsForm ws →
          SameBesidesDirty (doneWith .moduleClear h (s.setFace h.face { x with records := x.records.map cleared })) t))

/-- ATTN_CONFIG writes the mask, the output mode, auto-finish and rotate-on-auto as one unit, clears the classes of a
second word from the pending set, and leaves the in-service set, the base and the ack result. A change of mode ends
a pulse and begins none, a changed presented class included (log 12); with the mode kept, a pulse begins at a new presented class in PULSE mode. -/
def Obligations.AttnConfigWritesAsOneUnit : Prop :=
  ∀ (h : HeadFields) (ws : List Word) (s : State), Taken .attnConfig h ws s →
    let w0 := payloadWord ws 0
    let a := { s.attention with
      mask := w0.setWidth 8
      mode := if w0.getLsbD 8 then .pulse else .level
      autoFinish := w0.getLsbD 9
      rotateOnAuto := w0.getLsbD 10
      pending := match ws with
        | [_, w1] => s.attention.pending &&& ~~~w1.setWidth 8
        | _ => s.attention.pending }
    ∃ t, exec (.attnConfig h ws) s = .next t ∧
      SameBesidesDirty
        (doneWith .attnConfig h
          { s with
            attention := { a with
              pulse :=
                if a.mode = s.attention.mode then
                  s.attention.pulse || (a.mode == .pulse && a.presented.isSome && a.presented != s.attention.presented)
                else false } }) t

/-- JOURNAL_SETUP whose tests pass (`journalSetupTests`): the ring fields, both indices 0, and a record in progress SUPERSEDED; the event queue, the
drop count and the sequence number are kept. TIMING_SETUP whose select is at most 3 reloads the epoch timer at once
with its period. STATUS_REFRESH marks every image word and changes nothing else. -/
def Obligations.PartWideSetups : Prop :=
  ∀ (h : HeadFields) (ws : List Word) (s : State),
    (Taken .journalSetup h ws s → Passes .journalSetup h ws s →
      ∃ t b, exec (.journalSetup h ws) s = .next t ∧ b.toNat = (payloadWord ws 0).toNat % 2 ^ 28 / 4 * 4 ∧
        SameBesidesDirty
          (doneWith .journalSetup h
            { s with
              journal := { s.journal with
                configured := true
                base := b
                capacity := (payloadWord ws 1).toNat % 2 ^ 16
                threshold := (payloadWord ws 1).toNat / 2 ^ 16
                produced := 0
                consumed := 0
                inProgress := s.journal.inProgress.map fun r => { r with superseded := true } } }) t) ∧
    (Taken .timingSetup h ws s → Passes .timingSetup h ws s →
      ∃ (t : State) (k : Fin 4), exec (.timingSetup h ws) s = .next t ∧ k.val = (payloadWord ws 0).toNat % 2 ^ 8 ∧
        SameBesidesDirty
          (doneWith .timingSetup h
            { s with
              epochSelect := k
              epochTimer := match k with | 0 => 2 | 1 => 5 | 2 => 10 | 3 => 25 }) t) ∧
    (Taken .statusRefresh h ws s →
      ∃ t, exec (.statusRefresh h ws) s = .next t ∧ (∀ w, pick t.dirty w = true) ∧
        SameBesidesDirty (doneWith .statusRefresh h s) t)

/-- PART_RESET, whatever the decoder was doing: every owner at its PART_RESET values, each face OFF with its link
draining or IDLE; the request path, the window base, the time count, the tick divider and the generation count
kept; every image word dirty. -/
def Obligations.PartResetValues : Prop :=
  ∀ (h : HeadFields) (s : State), h.count = 0 →
    ∃ t, exec (.partReset h []) s = .next t ∧
      t = { s with
            epochSelect := 2
            epochTimer := 10
            faces := t.faces
            attention := State.reset.attention
            eventQueue := []
            journal := { State.reset.journal with inProgress := s.journal.inProgress.map fun r => { r with superseded := true } }
            dirty := t.dirty
            generationOwed := false
            ownWriteErrors := 0
            decoder := endedDecoder 0x1F h .done } ∧
      (∀ w, pick t.dirty w = true) ∧
      ∀ f : Fin 4,
        let x := s.face f
        let y := t.face f
        let z := State.reset.face f
        y.plane = z.plane ∧ y.zoneMap = z.zoneMap ∧ y.level = z.level ∧ y.sup = z.sup ∧ y.mailboxes = z.mailboxes ∧
        y.records = z.records ∧
        y.applied = (if x.sup.state = .off then x.applied else darkForm) ∧
        y.link =
          { z.link with
            state :=
              if x.sup.state ≠ .off ∧ x.link.state = .running then
                if x.link.frameSetup = none then .idle else .draining
              else x.link.state
            frameSetup := x.link.frameSetup
            line := if x.sup.state ≠ .off ∧ x.link.state = .running ∧ x.link.frameSetup = none then .idle else x.link.line }

/-! What every step keeps. -/

/-- State.reset meets every invariant below, and so does a state fresh from POWER_ON_RESET. -/
def Obligations.InvariantsHoldAtReset : Prop :=
  ∀ (wsel : BitVec 2) (s t : State), t = State.reset ∨ exec (.powerOnReset wsel) s = .next t →
    PathSound t ∧ (∀ e ∈ t.orderList, EntrySound e) ∧ RecordUnderWay t ∧ JournalSound t.journal ∧ RegionsApart t ∧
    DecoderSound t.decoder ∧ CountsSound t ∧
    ∀ f, PlaneSound (t.face f) ∧ LevelSound (t.face f) ∧ FaceSound (t.face f)

/-- The order list, forward queue, in-flight list, own-write queue and event queue stay within their capacities, the
grant count within 4, and the awaiting entries match the forwarded requests not yet answered.
Order-list entries stay as R53 and R62 give them, and the record in progress stays exactly the one whose header
is under way. -/
def Obligations.RequestPathStaysSound : Prop :=
  (
    ∀ s t : State, PathSound s → step s = .next t → PathSound t
  ) ∧
  (
    ∀ s t : State, step s = .next t →
      ((∀ e ∈ s.orderList, EntrySound e) → ∀ e ∈ t.orderList, EntrySound e) ∧
      (RecordUnderWay s → RecordUnderWay t)
  )

/-- The journal's fill never exceeds its capacity, and its settings stay in their ranges. -/
def Obligations.JournalFillStaysWithinCapacity : Prop :=
  ∀ s t : State, JournalSound s.journal → step s = .next t → JournalSound t.journal

/-- Planes, control window, ring and records still being written stay apart, for every window the strap can set. -/
def Obligations.RegionsStayApart : Prop :=
  ∀ s t : State, RegionsApart s → step s = .next t → RegionsApart t

/-- Plane records stay in their ranges, and the entries in use of every zone map name distinct slots, none of them
the sensor slot. -/
def Obligations.ZoneMapsStayDistinct : Prop :=
  ∀ s t : State, (∀ f, PlaneSound (s.face f)) → step s = .next t → ∀ f, PlaneSound (t.face f)

/-- Curves, limits, levels, samples and applied levels stay in their ranges, while the decoder and the faces are
sound. -/
def Obligations.LevelsStayInRange : Prop :=
  ∀ s t : State, DecoderSound s.decoder → (∀ f, FaceSound (s.face f)) → (∀ f, LevelSound (s.face f)) → step s = .next t →
    ∀ f, LevelSound (t.face f)

/-- The link is RUNNING exactly while its face is not OFF; an OFF or STARTING face is dark; timers, records and
mailboxes agree with the face and link states. -/
def Obligations.FacesStaySound : Prop :=
  ∀ s t : State, (∀ f, FaceSound (s.face f)) → step s = .next t → ∀ f, FaceSound (t.face f)

/-- The decoder's state, count, command, refusal and buffer stay consistent; the tick divider, the epoch timer and
the saturating counts stay in their ranges. -/
def Obligations.DecoderAndCountsStaySound : Prop :=
  ∀ s t : State, step s = .next t →
    (DecoderSound s.decoder → DecoderSound t.decoder) ∧ (CountsSound s → CountsSound t)

/-- Every image word in which a command's effect shows is dirty after it, and only the status writer takes a word
from the dirty set (log 14): a word whose value changes, the generation count apart, is dirty.
What shows in a word is its fields of 11.7, the generation count apart, and whether a module's last measured
temperature is absent (log 14). -/
def Obligations.ImageWordsAreMarked : Prop :=
  (
    ∀ (c : Instr) (s t : State), exec c s = .next t →
      (∀ w, shown t w ≠ shown s w → pick t.dirty w = true) ∧
      (∀ w, w ≠ 0 → imageValue t w ≠ imageValue s w → pick t.dirty w = true) ∧
      ((imageValue t 0).toNat % 2 ^ 16 ≠ (imageValue s 0).toNat % 2 ^ 16 → pick t.dirty 0 = true) ∧
      (c ≠ .statusWordEnqueue → TracksImage s t)
  ) ∧
  (
    ∀ (s t : State) (w : ImageWord),
      (w.val = 0 → (shown t w = shown s w ↔ t.ownWriteErrors = s.ownWriteErrors)) ∧
      (∀ i, 1 ≤ i → i < 8 → w.val = i → (shown t w = shown s w ↔ partFields t (0x040 + 4 * i) = partFields s (0x040 + 4 * i))) ∧
      (∀ (f : Fin 4) (i : Nat), i < 8 → w.val = 8 + 8 * f.val + i →
        (shown t w = shown s w ↔ faceFields (t.face f) (4 * i) = faceFields (s.face f) (4 * i))) ∧
      (∀ (f : Fin 4) (n : Fin 64), w.val = 40 + 64 * f.val + n.val →
        (shown t w = shown s w ↔
          moduleFields (t.face f) n = moduleFields (s.face f) n ∧
            (pick (t.face f).records n).measuredTemp = (pick (s.face f).records n).measuredTemp))
  )

/-- A row that names a face leaves every other face as it was. -/
def Obligations.FacesAreIsolated : Prop :=
  ∀ (c : Instr) (f g : Fin 4) (s t : State), faceOf c = some f → g ≠ f → exec c s = .next t → t.face g = s.face g
end

