-- ==== Sys2Proof/Laws/State.lean ====
section
/-! SUPPORT. One lemma per field per update: what each named operation leaves as it is, and what it writes. -/

namespace Sys2Proof.Machine

variable (s : State) (f g : Fin 4)

/-! Writing a face. -/

@[simp] theorem setFace_porstAsserted (x : Face) : (s.setFace f x).porstAsserted = s.porstAsserted := rfl
@[simp] theorem setFace_windowBase (x : Face) : (s.setFace f x).windowBase = s.windowBase := rfl
@[simp] theorem setFace_timeCount (x : Face) : (s.setFace f x).timeCount = s.timeCount := rfl
@[simp] theorem setFace_tickDivider (x : Face) : (s.setFace f x).tickDivider = s.tickDivider := rfl
@[simp] theorem setFace_epochSelect (x : Face) : (s.setFace f x).epochSelect = s.epochSelect := rfl
@[simp] theorem setFace_epochTimer (x : Face) : (s.setFace f x).epochTimer = s.epochTimer := rfl
@[simp] theorem setFace_cportWaiting (x : Face) : (s.setFace f x).cportWaiting = s.cportWaiting := rfl
@[simp] theorem setFace_orderList (x : Face) : (s.setFace f x).orderList = s.orderList := rfl
@[simp] theorem setFace_forwardQueue (x : Face) : (s.setFace f x).forwardQueue = s.forwardQueue := rfl
@[simp] theorem setFace_inFlight (x : Face) : (s.setFace f x).inFlight = s.inFlight := rfl
@[simp] theorem setFace_ownWrites (x : Face) : (s.setFace f x).ownWrites = s.ownWrites := rfl
@[simp] theorem setFace_arbiterCount (x : Face) : (s.setFace f x).arbiterCount = s.arbiterCount := rfl
@[simp] theorem setFace_cportLast (x : Face) : (s.setFace f x).cportLast = s.cportLast := rfl
@[simp] theorem setFace_mportLast (x : Face) : (s.setFace f x).mportLast = s.mportLast := rfl
@[simp] theorem setFace_attention (x : Face) : (s.setFace f x).attention = s.attention := rfl
@[simp] theorem setFace_eventQueue (x : Face) : (s.setFace f x).eventQueue = s.eventQueue := rfl
@[simp] theorem setFace_journal (x : Face) : (s.setFace f x).journal = s.journal := rfl
@[simp] theorem setFace_dirty (x : Face) : (s.setFace f x).dirty = s.dirty := rfl
@[simp] theorem setFace_generation (x : Face) : (s.setFace f x).generation = s.generation := rfl
@[simp] theorem setFace_generationOwed (x : Face) : (s.setFace f x).generationOwed = s.generationOwed := rfl
@[simp] theorem setFace_ownWriteErrors (x : Face) : (s.setFace f x).ownWriteErrors = s.ownWriteErrors := rfl
@[simp] theorem setFace_decoder (x : Face) : (s.setFace f x).decoder = s.decoder := rfl
@[simp] theorem setFace_pending (x : Face) : (s.setFace f x).pending = s.pending := rfl

@[simp] theorem updFace_porstAsserted (h : Face → Face) : (s.updFace f h).porstAsserted = s.porstAsserted := rfl
@[simp] theorem updFace_windowBase (h : Face → Face) : (s.updFace f h).windowBase = s.windowBase := rfl
@[simp] theorem updFace_timeCount (h : Face → Face) : (s.updFace f h).timeCount = s.timeCount := rfl
@[simp] theorem updFace_tickDivider (h : Face → Face) : (s.updFace f h).tickDivider = s.tickDivider := rfl
@[simp] theorem updFace_epochSelect (h : Face → Face) : (s.updFace f h).epochSelect = s.epochSelect := rfl
@[simp] theorem updFace_epochTimer (h : Face → Face) : (s.updFace f h).epochTimer = s.epochTimer := rfl
@[simp] theorem updFace_cportWaiting (h : Face → Face) : (s.updFace f h).cportWaiting = s.cportWaiting := rfl
@[simp] theorem updFace_orderList (h : Face → Face) : (s.updFace f h).orderList = s.orderList := rfl
@[simp] theorem updFace_forwardQueue (h : Face → Face) : (s.updFace f h).forwardQueue = s.forwardQueue := rfl
@[simp] theorem updFace_inFlight (h : Face → Face) : (s.updFace f h).inFlight = s.inFlight := rfl
@[simp] theorem updFace_ownWrites (h : Face → Face) : (s.updFace f h).ownWrites = s.ownWrites := rfl
@[simp] theorem updFace_arbiterCount (h : Face → Face) : (s.updFace f h).arbiterCount = s.arbiterCount := rfl
@[simp] theorem updFace_cportLast (h : Face → Face) : (s.updFace f h).cportLast = s.cportLast := rfl
@[simp] theorem updFace_mportLast (h : Face → Face) : (s.updFace f h).mportLast = s.mportLast := rfl
@[simp] theorem updFace_attention (h : Face → Face) : (s.updFace f h).attention = s.attention := rfl
@[simp] theorem updFace_eventQueue (h : Face → Face) : (s.updFace f h).eventQueue = s.eventQueue := rfl
@[simp] theorem updFace_journal (h : Face → Face) : (s.updFace f h).journal = s.journal := rfl
@[simp] theorem updFace_dirty (h : Face → Face) : (s.updFace f h).dirty = s.dirty := rfl
@[simp] theorem updFace_generation (h : Face → Face) : (s.updFace f h).generation = s.generation := rfl
@[simp] theorem updFace_generationOwed (h : Face → Face) : (s.updFace f h).generationOwed = s.generationOwed := rfl
@[simp] theorem updFace_ownWriteErrors (h : Face → Face) : (s.updFace f h).ownWriteErrors = s.ownWriteErrors := rfl
@[simp] theorem updFace_decoder (h : Face → Face) : (s.updFace f h).decoder = s.decoder := rfl
@[simp] theorem updFace_pending (h : Face → Face) : (s.updFace f h).pending = s.pending := rfl

@[simp] theorem face_setFace_self (x : Face) : (s.setFace f x).face f = x := by
  simp [State.face, State.setFace]

theorem face_setFace (x : Face) : (s.setFace f x).face g = if f = g then x else s.face g := by
  simp [State.face, State.setFace, pick_put]

@[simp] theorem face_updFace_self (h : Face → Face) : (s.updFace f h).face f = h (s.face f) := by
  simp [State.updFace]

theorem face_updFace (h : Face → Face) :
    (s.updFace f h).face g = if f = g then h (s.face f) else s.face g := by
  simp [State.updFace, face_setFace]

theorem face_updFace_ne (h : Face → Face) (ne : f ≠ g) : (s.updFace f h).face g = s.face g := by
  simp [face_updFace, ne]

/-! Marking image words: `touch` is the change it makes but for the dirty set. -/

@[simp] theorem touch_porstAsserted (ws : List ImageWord) (h : State → State) : (touch ws h s).porstAsserted = (h s).porstAsserted := rfl
@[simp] theorem touch_windowBase (ws : List ImageWord) (h : State → State) : (touch ws h s).windowBase = (h s).windowBase := rfl
@[simp] theorem touch_timeCount (ws : List ImageWord) (h : State → State) : (touch ws h s).timeCount = (h s).timeCount := rfl
@[simp] theorem touch_tickDivider (ws : List ImageWord) (h : State → State) : (touch ws h s).tickDivider = (h s).tickDivider := rfl
@[simp] theorem touch_epochSelect (ws : List ImageWord) (h : State → State) : (touch ws h s).epochSelect = (h s).epochSelect := rfl
@[simp] theorem touch_epochTimer (ws : List ImageWord) (h : State → State) : (touch ws h s).epochTimer = (h s).epochTimer := rfl
@[simp] theorem touch_faces (ws : List ImageWord) (h : State → State) : (touch ws h s).faces = (h s).faces := rfl
@[simp] theorem touch_cportWaiting (ws : List ImageWord) (h : State → State) : (touch ws h s).cportWaiting = (h s).cportWaiting := rfl
@[simp] theorem touch_orderList (ws : List ImageWord) (h : State → State) : (touch ws h s).orderList = (h s).orderList := rfl
@[simp] theorem touch_forwardQueue (ws : List ImageWord) (h : State → State) : (touch ws h s).forwardQueue = (h s).forwardQueue := rfl
@[simp] theorem touch_inFlight (ws : List ImageWord) (h : State → State) : (touch ws h s).inFlight = (h s).inFlight := rfl
@[simp] theorem touch_ownWrites (ws : List ImageWord) (h : State → State) : (touch ws h s).ownWrites = (h s).ownWrites := rfl
@[simp] theorem touch_arbiterCount (ws : List ImageWord) (h : State → State) : (touch ws h s).arbiterCount = (h s).arbiterCount := rfl
@[simp] theorem touch_cportLast (ws : List ImageWord) (h : State → State) : (touch ws h s).cportLast = (h s).cportLast := rfl
@[simp] theorem touch_mportLast (ws : List ImageWord) (h : State → State) : (touch ws h s).mportLast = (h s).mportLast := rfl
@[simp] theorem touch_attention (ws : List ImageWord) (h : State → State) : (touch ws h s).attention = (h s).attention := rfl
@[simp] theorem touch_eventQueue (ws : List ImageWord) (h : State → State) : (touch ws h s).eventQueue = (h s).eventQueue := rfl
@[simp] theorem touch_journal (ws : List ImageWord) (h : State → State) : (touch ws h s).journal = (h s).journal := rfl
@[simp] theorem touch_generation (ws : List ImageWord) (h : State → State) : (touch ws h s).generation = (h s).generation := rfl
@[simp] theorem touch_generationOwed (ws : List ImageWord) (h : State → State) : (touch ws h s).generationOwed = (h s).generationOwed := rfl
@[simp] theorem touch_ownWriteErrors (ws : List ImageWord) (h : State → State) : (touch ws h s).ownWriteErrors = (h s).ownWriteErrors := rfl
@[simp] theorem touch_decoder (ws : List ImageWord) (h : State → State) : (touch ws h s).decoder = (h s).decoder := rfl
@[simp] theorem touch_pending (ws : List ImageWord) (h : State → State) : (touch ws h s).pending = (h s).pending := rfl

@[simp] theorem face_touch (ws : List ImageWord) (h : State → State) : (touch ws h s).face g = (h s).face g := rfl

theorem touch_dirty (ws : List ImageWord) (h : State → State) :
    (touch ws h s).dirty = markChanged s (h s) ws (h s).dirty := rfl

@[simp] theorem markAll_porstAsserted : (markAll s).porstAsserted = s.porstAsserted := rfl
@[simp] theorem markAll_windowBase : (markAll s).windowBase = s.windowBase := rfl
@[simp] theorem markAll_timeCount : (markAll s).timeCount = s.timeCount := rfl
@[simp] theorem markAll_tickDivider : (markAll s).tickDivider = s.tickDivider := rfl
@[simp] theorem markAll_epochSelect : (markAll s).epochSelect = s.epochSelect := rfl
@[simp] theorem markAll_epochTimer : (markAll s).epochTimer = s.epochTimer := rfl
@[simp] theorem markAll_faces : (markAll s).faces = s.faces := rfl
@[simp] theorem markAll_cportWaiting : (markAll s).cportWaiting = s.cportWaiting := rfl
@[simp] theorem markAll_orderList : (markAll s).orderList = s.orderList := rfl
@[simp] theorem markAll_forwardQueue : (markAll s).forwardQueue = s.forwardQueue := rfl
@[simp] theorem markAll_inFlight : (markAll s).inFlight = s.inFlight := rfl
@[simp] theorem markAll_ownWrites : (markAll s).ownWrites = s.ownWrites := rfl
@[simp] theorem markAll_arbiterCount : (markAll s).arbiterCount = s.arbiterCount := rfl
@[simp] theorem markAll_cportLast : (markAll s).cportLast = s.cportLast := rfl
@[simp] theorem markAll_mportLast : (markAll s).mportLast = s.mportLast := rfl
@[simp] theorem markAll_attention : (markAll s).attention = s.attention := rfl
@[simp] theorem markAll_eventQueue : (markAll s).eventQueue = s.eventQueue := rfl
@[simp] theorem markAll_journal : (markAll s).journal = s.journal := rfl
@[simp] theorem markAll_generation : (markAll s).generation = s.generation := rfl
@[simp] theorem markAll_generationOwed : (markAll s).generationOwed = s.generationOwed := rfl
@[simp] theorem markAll_ownWriteErrors : (markAll s).ownWriteErrors = s.ownWriteErrors := rfl
@[simp] theorem markAll_decoder : (markAll s).decoder = s.decoder := rfl
@[simp] theorem markAll_pending : (markAll s).pending = s.pending := rfl

@[simp] theorem markAll_dirty : (markAll s).dirty = allDirty := rfl
@[simp] theorem face_markAll : (markAll s).face g = s.face g := rfl

/-! Raising an event: only the attention controller, the event queue, the drop count and the dirty set change. -/

@[simp] theorem raiseClass_porstAsserted (c : Fin 8) : (raiseClass c s).porstAsserted = s.porstAsserted := rfl
@[simp] theorem raiseClass_windowBase (c : Fin 8) : (raiseClass c s).windowBase = s.windowBase := rfl
@[simp] theorem raiseClass_timeCount (c : Fin 8) : (raiseClass c s).timeCount = s.timeCount := rfl
@[simp] theorem raiseClass_tickDivider (c : Fin 8) : (raiseClass c s).tickDivider = s.tickDivider := rfl
@[simp] theorem raiseClass_epochSelect (c : Fin 8) : (raiseClass c s).epochSelect = s.epochSelect := rfl
@[simp] theorem raiseClass_epochTimer (c : Fin 8) : (raiseClass c s).epochTimer = s.epochTimer := rfl
@[simp] theorem raiseClass_faces (c : Fin 8) : (raiseClass c s).faces = s.faces := rfl
@[simp] theorem raiseClass_cportWaiting (c : Fin 8) : (raiseClass c s).cportWaiting = s.cportWaiting := rfl
@[simp] theorem raiseClass_orderList (c : Fin 8) : (raiseClass c s).orderList = s.orderList := rfl
@[simp] theorem raiseClass_forwardQueue (c : Fin 8) : (raiseClass c s).forwardQueue = s.forwardQueue := rfl
@[simp] theorem raiseClass_inFlight (c : Fin 8) : (raiseClass c s).inFlight = s.inFlight := rfl
@[simp] theorem raiseClass_ownWrites (c : Fin 8) : (raiseClass c s).ownWrites = s.ownWrites := rfl
@[simp] theorem raiseClass_arbiterCount (c : Fin 8) : (raiseClass c s).arbiterCount = s.arbiterCount := rfl
@[simp] theorem raiseClass_cportLast (c : Fin 8) : (raiseClass c s).cportLast = s.cportLast := rfl
@[simp] theorem raiseClass_mportLast (c : Fin 8) : (raiseClass c s).mportLast = s.mportLast := rfl
@[simp] theorem raiseClass_eventQueue (c : Fin 8) : (raiseClass c s).eventQueue = s.eventQueue := rfl
@[simp] theorem raiseClass_journal (c : Fin 8) : (raiseClass c s).journal = s.journal := rfl
@[simp] theorem raiseClass_generation (c : Fin 8) : (raiseClass c s).generation = s.generation := rfl
@[simp] theorem raiseClass_generationOwed (c : Fin 8) : (raiseClass c s).generationOwed = s.generationOwed := rfl
@[simp] theorem raiseClass_ownWriteErrors (c : Fin 8) : (raiseClass c s).ownWriteErrors = s.ownWriteErrors := rfl
@[simp] theorem raiseClass_decoder (c : Fin 8) : (raiseClass c s).decoder = s.decoder := rfl
@[simp] theorem raiseClass_pending (c : Fin 8) : (raiseClass c s).pending = s.pending := rfl

@[simp] theorem face_raiseClass (c : Fin 8) : (raiseClass c s).face g = s.face g := rfl

@[simp] theorem raiseClass?_porstAsserted (c : Option (Fin 8)) : (raiseClass? c s).porstAsserted = s.porstAsserted := by cases c <;> rfl
@[simp] theorem raiseClass?_windowBase (c : Option (Fin 8)) : (raiseClass? c s).windowBase = s.windowBase := by cases c <;> rfl
@[simp] theorem raiseClass?_timeCount (c : Option (Fin 8)) : (raiseClass? c s).timeCount = s.timeCount := by cases c <;> rfl
@[simp] theorem raiseClass?_tickDivider (c : Option (Fin 8)) : (raiseClass? c s).tickDivider = s.tickDivider := by cases c <;> rfl
@[simp] theorem raiseClass?_epochSelect (c : Option (Fin 8)) : (raiseClass? c s).epochSelect = s.epochSelect := by cases c <;> rfl
@[simp] theorem raiseClass?_epochTimer (c : Option (Fin 8)) : (raiseClass? c s).epochTimer = s.epochTimer := by cases c <;> rfl
@[simp] theorem raiseClass?_faces (c : Option (Fin 8)) : (raiseClass? c s).faces = s.faces := by cases c <;> rfl
@[simp] theorem raiseClass?_cportWaiting (c : Option (Fin 8)) : (raiseClass? c s).cportWaiting = s.cportWaiting := by cases c <;> rfl
@[simp] theorem raiseClass?_orderList (c : Option (Fin 8)) : (raiseClass? c s).orderList = s.orderList := by cases c <;> rfl
@[simp] theorem raiseClass?_forwardQueue (c : Option (Fin 8)) : (raiseClass? c s).forwardQueue = s.forwardQueue := by cases c <;> rfl
@[simp] theorem raiseClass?_inFlight (c : Option (Fin 8)) : (raiseClass? c s).inFlight = s.inFlight := by cases c <;> rfl
@[simp] theorem raiseClass?_ownWrites (c : Option (Fin 8)) : (raiseClass? c s).ownWrites = s.ownWrites := by cases c <;> rfl
@[simp] theorem raiseClass?_arbiterCount (c : Option (Fin 8)) : (raiseClass? c s).arbiterCount = s.arbiterCount := by cases c <;> rfl
@[simp] theorem raiseClass?_cportLast (c : Option (Fin 8)) : (raiseClass? c s).cportLast = s.cportLast := by cases c <;> rfl
@[simp] theorem raiseClass?_mportLast (c : Option (Fin 8)) : (raiseClass? c s).mportLast = s.mportLast := by cases c <;> rfl
@[simp] theorem raiseClass?_eventQueue (c : Option (Fin 8)) : (raiseClass? c s).eventQueue = s.eventQueue := by cases c <;> rfl
@[simp] theorem raiseClass?_journal (c : Option (Fin 8)) : (raiseClass? c s).journal = s.journal := by cases c <;> rfl
@[simp] theorem raiseClass?_generation (c : Option (Fin 8)) : (raiseClass? c s).generation = s.generation := by cases c <;> rfl
@[simp] theorem raiseClass?_generationOwed (c : Option (Fin 8)) : (raiseClass? c s).generationOwed = s.generationOwed := by cases c <;> rfl
@[simp] theorem raiseClass?_ownWriteErrors (c : Option (Fin 8)) : (raiseClass? c s).ownWriteErrors = s.ownWriteErrors := by cases c <;> rfl
@[simp] theorem raiseClass?_decoder (c : Option (Fin 8)) : (raiseClass? c s).decoder = s.decoder := by cases c <;> rfl
@[simp] theorem raiseClass?_pending (c : Option (Fin 8)) : (raiseClass? c s).pending = s.pending := by cases c <;> rfl

@[simp] theorem face_raiseClass? (c : Option (Fin 8)) : (raiseClass? c s).face g = s.face g := by cases c <;> rfl

@[simp] theorem countDrop_porstAsserted : (countDrop s).porstAsserted = s.porstAsserted := by unfold countDrop; split <;> rfl
@[simp] theorem countDrop_windowBase : (countDrop s).windowBase = s.windowBase := by unfold countDrop; split <;> rfl
@[simp] theorem countDrop_timeCount : (countDrop s).timeCount = s.timeCount := by unfold countDrop; split <;> rfl
@[simp] theorem countDrop_tickDivider : (countDrop s).tickDivider = s.tickDivider := by unfold countDrop; split <;> rfl
@[simp] theorem countDrop_epochSelect : (countDrop s).epochSelect = s.epochSelect := by unfold countDrop; split <;> rfl
@[simp] theorem countDrop_epochTimer : (countDrop s).epochTimer = s.epochTimer := by unfold countDrop; split <;> rfl
@[simp] theorem countDrop_faces : (countDrop s).faces = s.faces := by unfold countDrop; split <;> rfl
@[simp] theorem countDrop_cportWaiting : (countDrop s).cportWaiting = s.cportWaiting := by unfold countDrop; split <;> rfl
@[simp] theorem countDrop_orderList : (countDrop s).orderList = s.orderList := by unfold countDrop; split <;> rfl
@[simp] theorem countDrop_forwardQueue : (countDrop s).forwardQueue = s.forwardQueue := by unfold countDrop; split <;> rfl
@[simp] theorem countDrop_inFlight : (countDrop s).inFlight = s.inFlight := by unfold countDrop; split <;> rfl
@[simp] theorem countDrop_ownWrites : (countDrop s).ownWrites = s.ownWrites := by unfold countDrop; split <;> rfl
@[simp] theorem countDrop_arbiterCount : (countDrop s).arbiterCount = s.arbiterCount := by unfold countDrop; split <;> rfl
@[simp] theorem countDrop_cportLast : (countDrop s).cportLast = s.cportLast := by unfold countDrop; split <;> rfl
@[simp] theorem countDrop_mportLast : (countDrop s).mportLast = s.mportLast := by unfold countDrop; split <;> rfl
@[simp] theorem countDrop_eventQueue : (countDrop s).eventQueue = s.eventQueue := by unfold countDrop; split <;> rfl
@[simp] theorem countDrop_generation : (countDrop s).generation = s.generation := by unfold countDrop; split <;> rfl
@[simp] theorem countDrop_generationOwed : (countDrop s).generationOwed = s.generationOwed := by unfold countDrop; split <;> rfl
@[simp] theorem countDrop_ownWriteErrors : (countDrop s).ownWriteErrors = s.ownWriteErrors := by unfold countDrop; split <;> rfl
@[simp] theorem countDrop_decoder : (countDrop s).decoder = s.decoder := by unfold countDrop; split <;> rfl
@[simp] theorem countDrop_pending : (countDrop s).pending = s.pending := by unfold countDrop; split <;> rfl

@[simp] theorem face_countDrop : (countDrop s).face g = s.face g := by unfold countDrop; split <;> rfl

@[simp] theorem offerEvent_porstAsserted (e : EventEntry) : (offerEvent e s).porstAsserted = s.porstAsserted := by unfold offerEvent; split <;> simp
@[simp] theorem offerEvent_windowBase (e : EventEntry) : (offerEvent e s).windowBase = s.windowBase := by unfold offerEvent; split <;> simp
@[simp] theorem offerEvent_timeCount (e : EventEntry) : (offerEvent e s).timeCount = s.timeCount := by unfold offerEvent; split <;> simp
@[simp] theorem offerEvent_tickDivider (e : EventEntry) : (offerEvent e s).tickDivider = s.tickDivider := by unfold offerEvent; split <;> simp
@[simp] theorem offerEvent_epochSelect (e : EventEntry) : (offerEvent e s).epochSelect = s.epochSelect := by unfold offerEvent; split <;> simp
@[simp] theorem offerEvent_epochTimer (e : EventEntry) : (offerEvent e s).epochTimer = s.epochTimer := by unfold offerEvent; split <;> simp
@[simp] theorem offerEvent_faces (e : EventEntry) : (offerEvent e s).faces = s.faces := by unfold offerEvent; split <;> simp
@[simp] theorem offerEvent_cportWaiting (e : EventEntry) : (offerEvent e s).cportWaiting = s.cportWaiting := by unfold offerEvent; split <;> simp
@[simp] theorem offerEvent_orderList (e : EventEntry) : (offerEvent e s).orderList = s.orderList := by unfold offerEvent; split <;> simp
@[simp] theorem offerEvent_forwardQueue (e : EventEntry) : (offerEvent e s).forwardQueue = s.forwardQueue := by unfold offerEvent; split <;> simp
@[simp] theorem offerEvent_inFlight (e : EventEntry) : (offerEvent e s).inFlight = s.inFlight := by unfold offerEvent; split <;> simp
@[simp] theorem offerEvent_ownWrites (e : EventEntry) : (offerEvent e s).ownWrites = s.ownWrites := by unfold offerEvent; split <;> simp
@[simp] theorem offerEvent_arbiterCount (e : EventEntry) : (offerEvent e s).arbiterCount = s.arbiterCount := by unfold offerEvent; split <;> simp
@[simp] theorem offerEvent_cportLast (e : EventEntry) : (offerEvent e s).cportLast = s.cportLast := by unfold offerEvent; split <;> simp
@[simp] theorem offerEvent_mportLast (e : EventEntry) : (offerEvent e s).mportLast = s.mportLast := by unfold offerEvent; split <;> simp
@[simp] theorem offerEvent_generation (e : EventEntry) : (offerEvent e s).generation = s.generation := by unfold offerEvent; split <;> simp
@[simp] theorem offerEvent_generationOwed (e : EventEntry) : (offerEvent e s).generationOwed = s.generationOwed := by unfold offerEvent; split <;> simp
@[simp] theorem offerEvent_ownWriteErrors (e : EventEntry) : (offerEvent e s).ownWriteErrors = s.ownWriteErrors := by unfold offerEvent; split <;> simp
@[simp] theorem offerEvent_decoder (e : EventEntry) : (offerEvent e s).decoder = s.decoder := by unfold offerEvent; split <;> simp
@[simp] theorem offerEvent_pending (e : EventEntry) : (offerEvent e s).pending = s.pending := by unfold offerEvent; split <;> simp

@[simp] theorem face_offerEvent (e : EventEntry) : (offerEvent e s).face g = s.face g := by unfold offerEvent; split <;> simp [State.face]

@[simp] theorem raiseEvent_porstAsserted (code : EventCode) (face : Fin 4) (slot : Fin 64) (a b : Word) : (raiseEvent code face slot a b s).porstAsserted = s.porstAsserted := by simp [raiseEvent]
@[simp] theorem raiseEvent_windowBase (code : EventCode) (face : Fin 4) (slot : Fin 64) (a b : Word) : (raiseEvent code face slot a b s).windowBase = s.windowBase := by simp [raiseEvent]
@[simp] theorem raiseEvent_timeCount (code : EventCode) (face : Fin 4) (slot : Fin 64) (a b : Word) : (raiseEvent code face slot a b s).timeCount = s.timeCount := by simp [raiseEvent]
@[simp] theorem raiseEvent_tickDivider (code : EventCode) (face : Fin 4) (slot : Fin 64) (a b : Word) : (raiseEvent code face slot a b s).tickDivider = s.tickDivider := by simp [raiseEvent]
@[simp] theorem raiseEvent_epochSelect (code : EventCode) (face : Fin 4) (slot : Fin 64) (a b : Word) : (raiseEvent code face slot a b s).epochSelect = s.epochSelect := by simp [raiseEvent]
@[simp] theorem raiseEvent_epochTimer (code : EventCode) (face : Fin 4) (slot : Fin 64) (a b : Word) : (raiseEvent code face slot a b s).epochTimer = s.epochTimer := by simp [raiseEvent]
@[simp] theorem raiseEvent_faces (code : EventCode) (face : Fin 4) (slot : Fin 64) (a b : Word) : (raiseEvent code face slot a b s).faces = s.faces := by simp [raiseEvent]
@[simp] theorem raiseEvent_cportWaiting (code : EventCode) (face : Fin 4) (slot : Fin 64) (a b : Word) : (raiseEvent code face slot a b s).cportWaiting = s.cportWaiting := by simp [raiseEvent]
@[simp] theorem raiseEvent_orderList (code : EventCode) (face : Fin 4) (slot : Fin 64) (a b : Word) : (raiseEvent code face slot a b s).orderList = s.orderList := by simp [raiseEvent]
@[simp] theorem raiseEvent_forwardQueue (code : EventCode) (face : Fin 4) (slot : Fin 64) (a b : Word) : (raiseEvent code face slot a b s).forwardQueue = s.forwardQueue := by simp [raiseEvent]
@[simp] theorem raiseEvent_inFlight (code : EventCode) (face : Fin 4) (slot : Fin 64) (a b : Word) : (raiseEvent code face slot a b s).inFlight = s.inFlight := by simp [raiseEvent]
@[simp] theorem raiseEvent_ownWrites (code : EventCode) (face : Fin 4) (slot : Fin 64) (a b : Word) : (raiseEvent code face slot a b s).ownWrites = s.ownWrites := by simp [raiseEvent]
@[simp] theorem raiseEvent_arbiterCount (code : EventCode) (face : Fin 4) (slot : Fin 64) (a b : Word) : (raiseEvent code face slot a b s).arbiterCount = s.arbiterCount := by simp [raiseEvent]
@[simp] theorem raiseEvent_cportLast (code : EventCode) (face : Fin 4) (slot : Fin 64) (a b : Word) : (raiseEvent code face slot a b s).cportLast = s.cportLast := by simp [raiseEvent]
@[simp] theorem raiseEvent_mportLast (code : EventCode) (face : Fin 4) (slot : Fin 64) (a b : Word) : (raiseEvent code face slot a b s).mportLast = s.mportLast := by simp [raiseEvent]
@[simp] theorem raiseEvent_generation (code : EventCode) (face : Fin 4) (slot : Fin 64) (a b : Word) : (raiseEvent code face slot a b s).generation = s.generation := by simp [raiseEvent]
@[simp] theorem raiseEvent_generationOwed (code : EventCode) (face : Fin 4) (slot : Fin 64) (a b : Word) : (raiseEvent code face slot a b s).generationOwed = s.generationOwed := by simp [raiseEvent]
@[simp] theorem raiseEvent_ownWriteErrors (code : EventCode) (face : Fin 4) (slot : Fin 64) (a b : Word) : (raiseEvent code face slot a b s).ownWriteErrors = s.ownWriteErrors := by simp [raiseEvent]
@[simp] theorem raiseEvent_decoder (code : EventCode) (face : Fin 4) (slot : Fin 64) (a b : Word) : (raiseEvent code face slot a b s).decoder = s.decoder := by simp [raiseEvent]
@[simp] theorem raiseEvent_pending (code : EventCode) (face : Fin 4) (slot : Fin 64) (a b : Word) : (raiseEvent code face slot a b s).pending = s.pending := by simp [raiseEvent]

@[simp] theorem face_raiseEvent (code : EventCode) (face : Fin 4) (slot : Fin 64) (a b : Word) : (raiseEvent code face slot a b s).face g = s.face g := by simp [raiseEvent]

@[simp] theorem countDrop_journal_configured : (countDrop s).journal.configured = s.journal.configured := by unfold countDrop; split <;> rfl
@[simp] theorem countDrop_journal_base : (countDrop s).journal.base = s.journal.base := by unfold countDrop; split <;> rfl
@[simp] theorem countDrop_journal_capacity : (countDrop s).journal.capacity = s.journal.capacity := by unfold countDrop; split <;> rfl
@[simp] theorem countDrop_journal_threshold : (countDrop s).journal.threshold = s.journal.threshold := by unfold countDrop; split <;> rfl
@[simp] theorem countDrop_journal_produced : (countDrop s).journal.produced = s.journal.produced := by unfold countDrop; split <;> rfl
@[simp] theorem countDrop_journal_consumed : (countDrop s).journal.consumed = s.journal.consumed := by unfold countDrop; split <;> rfl
@[simp] theorem countDrop_journal_sequence : (countDrop s).journal.sequence = s.journal.sequence := by unfold countDrop; split <;> rfl
@[simp] theorem countDrop_journal_inProgress : (countDrop s).journal.inProgress = s.journal.inProgress := by unfold countDrop; split <;> rfl
@[simp] theorem offerEvent_journal_configured (e : EventEntry) : (offerEvent e s).journal.configured = s.journal.configured := by unfold offerEvent; split <;> simp
@[simp] theorem offerEvent_journal_base (e : EventEntry) : (offerEvent e s).journal.base = s.journal.base := by unfold offerEvent; split <;> simp
@[simp] theorem offerEvent_journal_capacity (e : EventEntry) : (offerEvent e s).journal.capacity = s.journal.capacity := by unfold offerEvent; split <;> simp
@[simp] theorem offerEvent_journal_threshold (e : EventEntry) : (offerEvent e s).journal.threshold = s.journal.threshold := by unfold offerEvent; split <;> simp
@[simp] theorem offerEvent_journal_produced (e : EventEntry) : (offerEvent e s).journal.produced = s.journal.produced := by unfold offerEvent; split <;> simp
@[simp] theorem offerEvent_journal_consumed (e : EventEntry) : (offerEvent e s).journal.consumed = s.journal.consumed := by unfold offerEvent; split <;> simp
@[simp] theorem offerEvent_journal_sequence (e : EventEntry) : (offerEvent e s).journal.sequence = s.journal.sequence := by unfold offerEvent; split <;> simp
@[simp] theorem offerEvent_journal_inProgress (e : EventEntry) : (offerEvent e s).journal.inProgress = s.journal.inProgress := by unfold offerEvent; split <;> simp
@[simp] theorem raiseEvent_journal_configured (code : EventCode) (face : Fin 4) (slot : Fin 64) (a b : Word) : (raiseEvent code face slot a b s).journal.configured = s.journal.configured := by simp [raiseEvent]
@[simp] theorem raiseEvent_journal_base (code : EventCode) (face : Fin 4) (slot : Fin 64) (a b : Word) : (raiseEvent code face slot a b s).journal.base = s.journal.base := by simp [raiseEvent]
@[simp] theorem raiseEvent_journal_capacity (code : EventCode) (face : Fin 4) (slot : Fin 64) (a b : Word) : (raiseEvent code face slot a b s).journal.capacity = s.journal.capacity := by simp [raiseEvent]
@[simp] theorem raiseEvent_journal_threshold (code : EventCode) (face : Fin 4) (slot : Fin 64) (a b : Word) : (raiseEvent code face slot a b s).journal.threshold = s.journal.threshold := by simp [raiseEvent]
@[simp] theorem raiseEvent_journal_produced (code : EventCode) (face : Fin 4) (slot : Fin 64) (a b : Word) : (raiseEvent code face slot a b s).journal.produced = s.journal.produced := by simp [raiseEvent]
@[simp] theorem raiseEvent_journal_consumed (code : EventCode) (face : Fin 4) (slot : Fin 64) (a b : Word) : (raiseEvent code face slot a b s).journal.consumed = s.journal.consumed := by simp [raiseEvent]
@[simp] theorem raiseEvent_journal_sequence (code : EventCode) (face : Fin 4) (slot : Fin 64) (a b : Word) : (raiseEvent code face slot a b s).journal.sequence = s.journal.sequence := by simp [raiseEvent]
@[simp] theorem raiseEvent_journal_inProgress (code : EventCode) (face : Fin 4) (slot : Fin 64) (a b : Word) : (raiseEvent code face slot a b s).journal.inProgress = s.journal.inProgress := by simp [raiseEvent]

/-- A face scans in every state but OFF. -/
theorem scanning_iff (p : FaceState) : p.scanning = true ↔ p ≠ .off := by cases p <;> simp [FaceState.scanning]

end Sys2Proof.Machine
end

