-- ==== Sys2Proof/Laws/Marking.lean ====
section
/-! SUPPORT. What `touch` and the raising of events do: states alike but for the dirty set, and the image words marked. -/

namespace Sys2Proof.Machine

/-! States alike but for the dirty set. -/

@[simp] theorem sameBesidesDirty_refl (s : State) : SameBesidesDirty s s := rfl

theorem sameBesidesDirty_mk (s : State) (d : Vector Bool 296) : SameBesidesDirty s { s with dirty := d } := rfl

theorem SameBesidesDirty.exists {a b : State} (h : SameBesidesDirty a b) : ∃ d, b = { a with dirty := d } := ⟨_, h⟩

theorem sameBesidesDirty_of {a b : State} (h : ∃ d, b = { a with dirty := d }) : SameBesidesDirty a b := by
  obtain ⟨d, rfl⟩ := h; rfl

theorem SameBesidesDirty.symm {a b : State} (h : SameBesidesDirty a b) : SameBesidesDirty b a := by
  obtain ⟨d, rfl⟩ := h.exists; rfl

theorem SameBesidesDirty.trans {a b c : State} (h : SameBesidesDirty a b) (k : SameBesidesDirty b c) :
    SameBesidesDirty a c := by
  obtain ⟨d, rfl⟩ := h.exists; obtain ⟨e, rfl⟩ := k.exists; rfl

theorem sameBesidesDirty_touch (ws : List ImageWord) (g : State → State) (s : State) :
    SameBesidesDirty (g s) (touch ws g s) := rfl

/-- An operation that neither reads the dirty set nor writes what depends on it, but for the dirty set itself. -/
def Blind (g : State → State) : Prop := ∀ a b : State, SameBesidesDirty a b → SameBesidesDirty (g a) (g b)

theorem blind_id : Blind id := fun _ _ h => h

theorem Blind.comp {g k : State → State} (hg : Blind g) (hk : Blind k) : Blind fun s => g (k s) :=
  fun a b h => hg _ _ (hk a b h)

theorem Blind.touch {g : State → State} (hg : Blind g) (ws : List ImageWord) : Blind (Machine.touch ws g) := by
  intro a b h
  exact ((sameBesidesDirty_touch ws g a).symm.trans (hg a b h)).trans (sameBesidesDirty_touch ws g b)

theorem blind_updFace (f : Fin 4) (g : Face → Face) : Blind (State.updFace f g) := by
  intro a b h; obtain ⟨d, rfl⟩ := h.exists; rfl

theorem Blind.ite {g k : State → State} {p : State → Prop} [DecidablePred p] (hg : Blind g) (hk : Blind k)
    (hp : ∀ a b, SameBesidesDirty a b → (p a ↔ p b)) : Blind fun s => if p s then g s else k s := by
  intro a b h
  have e := hp a b h
  show SameBesidesDirty (if p a then g a else k a) (if p b then g b else k b)
  by_cases ha : p a
  · rw [if_pos ha, if_pos (e.1 ha)]; exact hg a b h
  · rw [if_neg ha, if_neg (fun hb => ha (e.2 hb))]; exact hk a b h

theorem blind_raiseClass (c : Fin 8) : Blind (raiseClass c) := by
  refine Blind.touch ?_ _
  intro a b h; obtain ⟨d, rfl⟩ := h.exists; rfl

theorem blind_raiseClass? (c : Option (Fin 8)) : Blind (raiseClass? c) := by
  cases c
  · exact blind_id
  · exact blind_raiseClass _

theorem blind_countDrop : Blind countDrop := by
  have k : Blind (Machine.touch [partWord 6] fun s => { s with journal := { s.journal with drops := satSucc Config.max16 s.journal.drops } }) :=
    Blind.touch (by intro a b h; obtain ⟨d, rfl⟩ := h.exists; rfl) _
  exact Blind.ite (p := fun s => s.journal.drops = 0) ((blind_raiseClass _).comp k) k
    (by intro a b h; obtain ⟨d, rfl⟩ := h.exists; rfl)

theorem blind_offerEvent (e : EventEntry) : Blind (offerEvent e) :=
  Blind.ite (p := fun s => s.eventQueue.length < Config.eventQueueSize)
    (Blind.touch (by intro a b h; obtain ⟨d, rfl⟩ := h.exists; rfl) _) blind_countDrop
    (by intro a b h; obtain ⟨d, rfl⟩ := h.exists; rfl)

theorem blind_raiseEvent (code : EventCode) (f : Fin 4) (n : Fin 64) (x y : Word) : Blind (raiseEvent code f n x y) := by
  intro a b h
  obtain ⟨d, rfl⟩ := h.exists
  exact blind_offerEvent _ _ _ (blind_raiseClass? code.cls _ _ (sameBesidesDirty_mk a d))

/-! Which image words show a change. -/

@[simp] theorem shown_dirty (s : State) (d : Vector Bool 296) (w : ImageWord) :
    shown { s with dirty := d } w = shown s w := by
  unfold shown
  cases imagePlace w <;> simp only
  · unfold partShown; split <;> rfl
  · rfl
  · rfl

theorem pick_markChanged (s t : State) (ws : List ImageWord) (d : Vector Bool 296) (w : ImageWord) :
    pick (markChanged s t ws d) w = (pick d w || (decide (w ∈ ws) && decide (shown t w ≠ shown s w))) := by
  induction ws generalizing d with
  | nil => simp [markChanged]
  | cons v vs ih =>
    have e : markChanged s t (v :: vs) d = markChanged s t vs (if shown t v = shown s v then d else put d v true) := rfl
    rw [e, ih]
    by_cases hv : v = w
    · subst hv; by_cases h : shown t v = shown s v <;> simp [h]
    · by_cases h : shown t v = shown s v
      · by_cases hm : w ∈ vs <;> simp [h, hm, Ne.symm hv]
      · by_cases hm : w ∈ vs <;> simp [h, hm, Ne.symm hv, pick_put_ne _ _ hv]

theorem pick_dirty_touch (ws : List ImageWord) (g : State → State) (s : State) (w : ImageWord) :
    pick (touch ws g s).dirty w = (pick (g s).dirty w || (decide (w ∈ ws) && decide (shown (g s) w ≠ shown s w))) :=
  pick_markChanged s (g s) ws (g s).dirty w

@[simp] theorem shown_touch (ws : List ImageWord) (g : State → State) (s : State) (w : ImageWord) :
    shown (touch ws g s) w = shown (g s) w := shown_dirty _ _ _

theorem SameBesidesDirty.shown {a b : State} (h : SameBesidesDirty a b) (w : ImageWord) :
    Machine.shown b w = Machine.shown a w := by
  obtain ⟨d, rfl⟩ := h.exists; simp

/-- A change by the owner of the words it shows in marks exactly those. -/
theorem marksExactly_touch {ws : List ImageWord} {g : State → State} {s : State}
    (hd : (g s).dirty = s.dirty) (h : ∀ w, w ∉ ws → shown (g s) w = shown s w) : MarksExactly s (touch ws g s) := by
  intro w
  rw [pick_dirty_touch, hd, shown_touch]
  by_cases hm : w ∈ ws
  · simp [hm]
  · simp [hm, h w hm]

theorem marksExactly_refl (s : State) : MarksExactly s s := by intro w; simp

/-- A change that shows nowhere and marks nothing. -/
theorem marksExactly_of {s t : State} (hd : t.dirty = s.dirty) (h : ∀ w, shown t w = shown s w) : MarksExactly s t := by
  intro w; simp [hd, h w]

/-- Two changes in turn mark exactly, if the second takes no word back to what it showed before the first. -/
theorem MarksExactly.trans {s t u : State} (h : MarksExactly s t) (k : MarksExactly t u)
    (hc : ∀ w, shown u w = shown s w → shown t w = shown s w) : MarksExactly s u := by
  intro w
  rw [k w, h w]
  by_cases e : shown u w = shown s w
  · simp [e, hc w e]
  · by_cases e2 : shown t w = shown s w
    · simp [e2, e]
    · simp [e, e2]

/-- Two changes in turn that show in no common word mark exactly. -/
theorem MarksExactly.trans_apart {s t u : State} (h : MarksExactly s t) (k : MarksExactly t u)
    (hc : ∀ w, shown u w = shown t w ∨ shown t w = shown s w) : MarksExactly s u := by
  refine h.trans k fun w e => ?_
  rcases hc w with h' | h'
  · rw [← h', e]
  · exact h'

theorem MarksExactly.tracks {s t : State} (h : MarksExactly s t) : TracksImage s t := by
  intro w
  rw [h w]
  constructor
  · intro e; simp [e]
  · intro e; simp [e]

theorem TracksImage.refl (s : State) : TracksImage s s := (marksExactly_refl s).tracks

theorem TracksImage.trans {s t u : State} (h : TracksImage s t) (k : TracksImage t u) : TracksImage s u := by
  intro w
  constructor
  · intro e
    by_cases e2 : Machine.shown t w = Machine.shown s w
    · exact (k w).1 (by rw [e2]; exact e)
    · exact (k w).2 ((h w).1 e2)
  · intro e; exact (k w).2 ((h w).2 e)

/-! Shown fields, part by part: a change that keeps some parts of the state shows in none of their words. -/

/-- Every word of the part block but one is kept. -/
theorem shown_eq {s t : State} {w : ImageWord}
    (hp : ∀ i, imagePlace w = .part i → partShown t i = partShown s i)
    (hf : ∀ f i, imagePlace w = .face f i → faceShown (t.face f) i = faceShown (s.face f) i)
    (hm : ∀ f n, imagePlace w = .module f n →
      moduleShown (pick (t.face f).records n) (pick (t.face f).mailboxes n) =
        moduleShown (pick (s.face f).records n) (pick (s.face f).mailboxes n)) :
    shown t w = shown s w := by
  unfold shown
  cases h : imagePlace w with
  | part i => exact hp i h
  | face f i => exact hf f i h
  | module f n => exact hm f n h

theorem imagePlace_part {w : ImageWord} {i : Fin 8} (h : imagePlace w = .part i) : w = partWord i := by
  unfold imagePlace at h
  split at h
  · rename_i hw
    injection h with h
    subst h
    apply Fin.ext
    simp [partWord, Fin.ofNat, Nat.mod_eq_of_lt hw]
  · split at h <;> cases h

theorem imagePlace_face {w : ImageWord} {f : Fin 4} {i : Fin 8} (h : imagePlace w = .face f i) : w = faceWord f i := by
  unfold imagePlace at h
  split at h
  · cases h
  · split at h
    · injection h with h1 h2
      subst h1; subst h2
      apply Fin.ext
      simp only [faceWord, Fin.ofNat]
      omega
    · cases h

theorem imagePlace_module {w : ImageWord} {f : Fin 4} {n : Fin 64} (h : imagePlace w = .module f n) :
    w = moduleWord f n := by
  unfold imagePlace at h
  split at h
  · cases h
  · split at h
    · cases h
    · injection h with h1 h2
      subst h1; subst h2
      apply Fin.ext
      have := w.isLt
      simp only [moduleWord, Fin.ofNat]
      omega

@[simp] theorem imagePlace_partWord (i : Fin 8) : imagePlace (partWord i) = .part i := by
  have := i.isLt
  unfold imagePlace
  simp [partWord, this, Fin.ofNat, Nat.mod_eq_of_lt this]

@[simp] theorem imagePlace_faceWord (f : Fin 4) (i : Fin 8) : imagePlace (faceWord f i) = .face f i := by
  have := i.isLt
  have := f.isLt
  unfold imagePlace
  rw [if_neg (by simp [faceWord]; omega), if_pos (by simp [faceWord]; omega)]
  congr 1 <;> apply Fin.ext <;> simp only [faceWord, Fin.ofNat] <;> omega

@[simp] theorem imagePlace_moduleWord (f : Fin 4) (n : Fin 64) : imagePlace (moduleWord f n) = .module f n := by
  have := n.isLt
  have := f.isLt
  unfold imagePlace
  rw [if_neg (by simp [moduleWord]; omega), if_neg (by simp [moduleWord]; omega)]
  congr 1 <;> apply Fin.ext <;> simp only [moduleWord, Fin.ofNat] <;> omega

end Sys2Proof.Machine
end

