-- ==== Sys2Proof/Laws/Frames.lean ====
section
/-! SUPPORT. What each shared operation keeps: the request path, the faces it does not name, the words it does not show in; and that it does not read the dirty set. -/

namespace Sys2Proof.Machine

/-! What a receiver of commands keeps: the request path, the time count, the queue of commands. -/

/-- The two states have the same request path, control window, time count, reset line and queue of commands. -/
structure KeepsPath (s t : State) : Prop where
  porstAsserted : t.porstAsserted = s.porstAsserted
  windowBase : t.windowBase = s.windowBase
  timeCount : t.timeCount = s.timeCount
  cportWaiting : t.cportWaiting = s.cportWaiting
  orderList : t.orderList = s.orderList
  forwardQueue : t.forwardQueue = s.forwardQueue
  inFlight : t.inFlight = s.inFlight
  ownWrites : t.ownWrites = s.ownWrites
  arbiterCount : t.arbiterCount = s.arbiterCount
  cportLast : t.cportLast = s.cportLast
  mportLast : t.mportLast = s.mportLast
  generation : t.generation = s.generation
  pending : t.pending = s.pending

theorem KeepsPath.refl (s : State) : KeepsPath s s := by constructor <;> rfl

theorem KeepsPath.trans {s t u : State} (h : KeepsPath s t) (k : KeepsPath t u) : KeepsPath s u where
  porstAsserted := k.porstAsserted.trans h.porstAsserted
  windowBase := k.windowBase.trans h.windowBase
  timeCount := k.timeCount.trans h.timeCount
  cportWaiting := k.cportWaiting.trans h.cportWaiting
  orderList := k.orderList.trans h.orderList
  forwardQueue := k.forwardQueue.trans h.forwardQueue
  inFlight := k.inFlight.trans h.inFlight
  ownWrites := k.ownWrites.trans h.ownWrites
  arbiterCount := k.arbiterCount.trans h.arbiterCount
  cportLast := k.cportLast.trans h.cportLast
  mportLast := k.mportLast.trans h.mportLast
  generation := k.generation.trans h.generation
  pending := k.pending.trans h.pending

theorem KeepsPath.touch {g : State → State} {s : State} (h : KeepsPath s (g s)) (ws : List ImageWord) :
    KeepsPath s (Machine.touch ws g s) := by
  obtain ⟨⟩ := h; constructor <;> assumption

/-! Operations confined to some faces. -/

/-- An operation that keeps the path and every face not listed, marks what it shows in, and does not read the
dirty set. -/
structure Confined (fs : List (Fin 4)) (g : State → State) : Prop where
  path : ∀ s, KeepsPath s (g s)
  faces : ∀ s x, x ∉ fs → (g s).face x = s.face x
  tracks : ∀ s, TracksImage s (g s)
  blind : Blind g

variable {fs : List (Fin 4)} {g k : State → State}

theorem confined_id : Confined fs id where
  path := KeepsPath.refl
  faces _ _ _ := rfl
  tracks := TracksImage.refl
  blind := blind_id

theorem confined_same : Confined fs fun s => s := confined_id

theorem Confined.comp (hg : Confined fs g) (hk : Confined fs k) : Confined fs fun s => g (k s) where
  path s := (hk.path s).trans (hg.path _)
  faces s x hx := (hg.faces _ x hx).trans (hk.faces s x hx)
  tracks s := (hk.tracks s).trans (hg.tracks _)
  blind := hg.blind.comp hk.blind

theorem Confined.mono {gs : List (Fin 4)} (h : Confined fs g) (hs : ∀ x ∈ fs, x ∈ gs) : Confined gs g where
  path := h.path
  faces s x hx := h.faces s x fun hm => hx (hs x hm)
  tracks := h.tracks
  blind := h.blind

theorem Confined.weaken (h : Confined [] g) : Confined fs g := h.mono fun _ hx => absurd hx (by simp)

/-- An operation whose choice reads the state but not its dirty set. -/
theorem Confined.choose {α : Type} {c : State → α} {op : α → State → State} (h : ∀ a, Confined fs (op a))
    (hc : ∀ (s : State) d, c { s with dirty := d } = c s) : Confined fs fun s => op (c s) s where
  path s := (h _).path s
  faces s := (h _).faces s
  tracks s := (h _).tracks s
  blind a b hab := by
    have e : c b = c a := by obtain ⟨d, rfl⟩ := hab.exists; exact hc a d
    show SameBesidesDirty (op (c a) a) (op (c b) b)
    rw [e]
    exact (h (c a)).blind a b hab

theorem Confined.ite {p : State → Prop} [DecidablePred p] (hg : Confined fs g) (hk : Confined fs k)
    (hp : ∀ (s : State) d, p { s with dirty := d } ↔ p s) : Confined fs fun s => if p s then g s else k s where
  path s := by show _; split; exacts [hg.path s, hk.path s]
  faces s x hx := by show _; split; exacts [hg.faces s x hx, hk.faces s x hx]
  tracks s := by show _; split; exacts [hg.tracks s, hk.tracks s]
  blind := hg.blind.ite hk.blind fun a b h => by obtain ⟨d, rfl⟩ := h.exists; exact (hp a d).symm

theorem Confined.foldl {α : Type} {op : State → α → State} (h : ∀ a, Confined fs fun s => op s a) (l : List α) :
    Confined fs fun s => l.foldl op s := by
  induction l with
  | nil => exact confined_id
  | cons a l ih => exact ih.comp (h a)

/-- A change at some image words' owner that shows in no other word. -/
theorem Confined.touch {ws : List ImageWord} (hp : ∀ s, KeepsPath s (g s))
    (hf : ∀ s x, x ∉ fs → (g s).face x = s.face x) (hb : Blind g) (hd : ∀ s, (g s).dirty = s.dirty)
    (hw : ∀ s w, w ∉ ws → shown (g s) w = shown s w) : Confined fs (Machine.touch ws g) where
  path s := (hp s).touch ws
  faces s x hx := (hf s x hx)
  tracks s := (marksExactly_touch (hd s) (hw s)).tracks
  blind := hb.touch ws

/-! Operations of the blocks other than the stream decoder. -/

/-- The second state is the first but for its dirty set and stream decoder. -/
def Alike (a b : State) : Prop := b = { a with dirty := b.dirty, decoder := b.decoder }

theorem Alike.exists {a b : State} (h : Alike a b) : ∃ d e, b = { a with dirty := d, decoder := e } := ⟨_, _, h⟩

theorem alike_of {a b : State} (h : ∃ d e, b = { a with dirty := d, decoder := e }) : Alike a b := by
  obtain ⟨d, e, rfl⟩ := h; rfl

theorem Alike.symm {a b : State} (h : Alike a b) : Alike b a := by
  obtain ⟨d, e, rfl⟩ := h.exists; rfl

theorem Alike.trans {a b c : State} (h : Alike a b) (k : Alike b c) : Alike a c := by
  obtain ⟨d, e, rfl⟩ := h.exists; obtain ⟨d', e', rfl⟩ := k.exists; rfl

/-- A confined operation that neither reads nor writes the stream decoder. -/
structure Effect (fs : List (Fin 4)) (g : State → State) : Prop extends Confined fs g where
  decoder : ∀ s, (g s).decoder = s.decoder
  deaf : ∀ a b, Alike a b → Alike (g a) (g b)

theorem Effect.confined (h : Effect fs g) : Confined fs g := h.toConfined

theorem effect_same : Effect fs fun s => s := { confined_same with decoder := fun _ => rfl, deaf := fun _ _ h => h }

theorem Effect.comp (hg : Effect fs g) (hk : Effect fs k) : Effect fs fun s => g (k s) :=
  { hg.confined.comp hk.confined with
    decoder := fun s => (hg.decoder _).trans (hk.decoder s)
    deaf := fun a b h => hg.deaf _ _ (hk.deaf a b h) }

theorem Effect.mono {gs : List (Fin 4)} (h : Effect fs g) (hs : ∀ x ∈ fs, x ∈ gs) : Effect gs g :=
  { h.confined.mono hs with decoder := h.decoder, deaf := h.deaf }

theorem Effect.weaken (h : Effect [] g) : Effect fs g := h.mono fun _ hx => absurd hx (by simp)

theorem Effect.choose {α : Type} {c : State → α} {op : α → State → State} (h : ∀ a, Effect fs (op a))
    (hc : ∀ (s : State) d e, c { s with dirty := d, decoder := e } = c s) : Effect fs fun s => op (c s) s :=
  { Confined.choose (fun a => (h a).confined) (fun s d => hc s d s.decoder) with
    decoder := fun s => (h _).decoder s
    deaf := fun a b hab => by
      have e : c b = c a := by obtain ⟨d, e, rfl⟩ := hab.exists; exact hc a d e
      show Alike (op (c a) a) (op (c b) b)
      rw [e]
      exact (h (c a)).deaf a b hab }

theorem Effect.ite {p : State → Prop} [DecidablePred p] (hg : Effect fs g) (hk : Effect fs k)
    (hp : ∀ (s : State) d e, p { s with dirty := d, decoder := e } ↔ p s) : Effect fs fun s => if p s then g s else k s :=
  { Confined.ite hg.confined hk.confined (fun s d => hp s d s.decoder) with
    decoder := fun s => by show (if p s then g s else k s).decoder = _; split; exacts [hg.decoder s, hk.decoder s]
    deaf := fun a b hab => by
      have e : p b ↔ p a := by obtain ⟨d, e, rfl⟩ := hab.exists; exact hp a d e
      show Alike (if p a then g a else k a) (if p b then g b else k b)
      by_cases ha : p a
      · rw [if_pos ha, if_pos (e.2 ha)]; exact hg.deaf a b hab
      · rw [if_neg ha, if_neg fun hb => ha (e.1 hb)]; exact hk.deaf a b hab }

theorem Effect.foldl {α : Type} {op : State → α → State} (h : ∀ a, Effect fs fun s => op s a) (l : List α) :
    Effect fs fun s => l.foldl op s := by
  induction l with
  | nil => exact effect_same
  | cons a l ih => exact ih.comp (h a)

/-- Marking words reads neither the dirty set nor the decoder. -/
theorem alike_touch {a b : State} (h : Alike (g a) (g b)) (ws : List ImageWord) : Alike (Machine.touch ws g a) (Machine.touch ws g b) := by
  obtain ⟨d, e, k⟩ := h.exists
  apply alike_of
  refine ⟨(Machine.touch ws g b).dirty, e, ?_⟩
  unfold Machine.touch
  rw [k]

theorem Effect.touch {ws : List ImageWord} (hp : ∀ s, KeepsPath s (g s))
    (hf : ∀ s x, x ∉ fs → (g s).face x = s.face x) (hb : Blind g) (ha : ∀ a b, Alike a b → Alike (g a) (g b))
    (hc : ∀ s, (g s).decoder = s.decoder) (hd : ∀ s, (g s).dirty = s.dirty)
    (hw : ∀ s w, w ∉ ws → shown (g s) w = shown s w) : Effect fs (Machine.touch ws g) :=
  { Confined.touch hp hf hb hd hw with
    decoder := fun s => hc s
    deaf := fun a b h => alike_touch (ha a b h) ws }

/-! Where a change of one face or of the part block shows. -/

theorem partShown_setFace (s : State) (f : Fin 4) (x : Face) (i : Fin 8) : partShown (s.setFace f x) i = partShown s i := by
  unfold partShown; split <;> rfl

/-- A change of one face shows in the words of that face alone. -/
theorem shown_updFace {f : Fin 4} {h : Face → Face} {s : State} {ws : List ImageWord}
    (hf : ∀ i, faceWord f i ∉ ws → faceShown (h (s.face f)) i = faceShown (s.face f) i)
    (hm : ∀ n, moduleWord f n ∉ ws → moduleShown (pick (h (s.face f)).records n) (pick (h (s.face f)).mailboxes n) =
      moduleShown (pick (s.face f).records n) (pick (s.face f).mailboxes n))
    {w : ImageWord} (hw : w ∉ ws) : shown (s.updFace f h) w = shown s w := by
  apply shown_eq
  · intro i _; exact partShown_setFace _ _ _ _
  · intro x i hi
    by_cases e : x = f
    · subst e
      rw [imagePlace_face hi] at hw
      simpa using hf i hw
    · rw [face_updFace_ne _ _ _ _ (Ne.symm e)]
  · intro x n hn
    by_cases e : x = f
    · subst e
      rw [imagePlace_module hn] at hw
      simpa using hm n hw
    · rw [face_updFace_ne _ _ _ _ (Ne.symm e)]

theorem effect_touch_updFace {f : Fin 4} {h : Face → Face} {ws : List ImageWord}
    (hf : ∀ x i, faceWord f i ∉ ws → faceShown (h x) i = faceShown x i)
    (hm : ∀ x n, moduleWord f n ∉ ws → moduleShown (pick (h x).records n) (pick (h x).mailboxes n) =
      moduleShown (pick x.records n) (pick x.mailboxes n)) : Effect [f] (touch ws (State.updFace f h)) := by
  apply Effect.touch
  · intro s; constructor <;> rfl
  · intro s x hx; exact face_updFace_ne _ _ _ _ (fun e => hx (by simp [e]))
  · exact blind_updFace f h
  · intro a b k; obtain ⟨d, e, rfl⟩ := k.exists; rfl
  · intro s; rfl
  · intro s; rfl
  · intro s w hw; exact shown_updFace (fun i => hf _ i) (fun n => hm _ n) hw

/-- A change of a face in fields that show in no image word. -/
theorem effect_updFace {f : Fin 4} {h : Face → Face} (hf : ∀ x i, faceShown (h x) i = faceShown x i)
    (hm : ∀ x n, moduleShown (pick (h x).records n) (pick (h x).mailboxes n) =
      moduleShown (pick x.records n) (pick x.mailboxes n)) : Effect [f] (State.updFace f h) where
  path s := by constructor <;> rfl
  faces s x hx := by exact face_updFace_ne _ _ _ _ (fun e => hx (by simp [e]))
  tracks s := by
    refine MarksExactly.tracks (marksExactly_of (updFace_dirty s f h) fun w => ?_)
    exact shown_updFace (ws := []) (fun i _ => hf _ i) (fun n _ => hm _ n) (by simp)
  blind := blind_updFace f h
  decoder s := rfl
  deaf a b k := by obtain ⟨d, e, rfl⟩ := k.exists; rfl

/-- A change that keeps the faces shows in the part block alone. -/
theorem shown_part {s t : State} {ws : List ImageWord} (hf : t.faces = s.faces)
    (h : ∀ i, partWord i ∉ ws → partShown t i = partShown s i) {w : ImageWord} (hw : w ∉ ws) : shown t w = shown s w := by
  have e : ∀ x, t.face x = s.face x := fun x => by simp [State.face, hf]
  apply shown_eq
  · intro i hi; rw [imagePlace_part hi] at hw; exact h i hw
  · intro x i _; rw [e]
  · intro x n _; rw [e]

theorem confined_touch_part {ws : List ImageWord} (hp : ∀ s, KeepsPath s (g s)) (hf : ∀ s, (g s).faces = s.faces)
    (hb : Blind g) (hd : ∀ s, (g s).dirty = s.dirty) (h : ∀ s i, partWord i ∉ ws → partShown (g s) i = partShown s i) :
    Confined [] (touch ws g) := by
  apply Confined.touch hp _ hb hd
  · intro s w hw; exact shown_part (hf s) (h s) hw
  · intro s x _; simp [State.face, hf]

theorem effect_touch_part {ws : List ImageWord} (hp : ∀ s, KeepsPath s (g s)) (hf : ∀ s, (g s).faces = s.faces)
    (hb : Blind g) (ha : ∀ a b, Alike a b → Alike (g a) (g b)) (hc : ∀ s, (g s).decoder = s.decoder)
    (hd : ∀ s, (g s).dirty = s.dirty) (h : ∀ s i, partWord i ∉ ws → partShown (g s) i = partShown s i) :
    Effect [] (touch ws g) := by
  apply Effect.touch hp _ hb ha hc hd
  · intro s w hw; exact shown_part (hf s) (h s) hw
  · intro s x _; simp [State.face, hf]

/-! Events. -/

theorem effect_raiseClass (c : Fin 8) : Effect [] (raiseClass c) := by
  apply effect_touch_part
  · intro s; constructor <;> rfl
  · intro s; rfl
  · intro a b h; obtain ⟨d, rfl⟩ := h.exists; rfl
  · intro a b h; obtain ⟨d, e, rfl⟩ := h.exists; rfl
  · intro s; rfl
  · intro s; rfl
  · intro s i hi
    match i with
    | 3 => exact absurd (by simp) hi
    | 0 | 1 | 2 | 4 | 5 | 6 | 7 => rfl

theorem effect_raiseClass? (c : Option (Fin 8)) : Effect [] (raiseClass? c) := by
  cases c
  · exact effect_same
  · exact effect_raiseClass _

theorem effect_drop : Effect [] (touch [partWord 6] fun s => { s with journal := { s.journal with drops := satSucc Config.max16 s.journal.drops } }) := by
  apply effect_touch_part
  · intro s; constructor <;> rfl
  · intro s; rfl
  · intro a b h; obtain ⟨d, rfl⟩ := h.exists; rfl
  · intro a b h; obtain ⟨d, e, rfl⟩ := h.exists; rfl
  · intro s; rfl
  · intro s; rfl
  · intro s i hi
    match i with
    | 6 => exact absurd (by simp) hi
    | 0 | 1 | 2 | 3 | 4 | 5 | 7 => rfl

theorem effect_countDrop : Effect [] countDrop :=
  Effect.ite (p := fun s => s.journal.drops = 0) ((effect_raiseClass _).comp effect_drop) effect_drop
    fun _ _ _ => Iff.rfl

theorem effect_offerEvent (e : EventEntry) : Effect [] (offerEvent e) := by
  refine Effect.ite (p := fun s => s.eventQueue.length < Config.eventQueueSize) ?_ effect_countDrop fun _ _ _ => Iff.rfl
  apply effect_touch_part
  · intro s; constructor <;> rfl
  · intro s; rfl
  · intro a b h; obtain ⟨d, rfl⟩ := h.exists; rfl
  · intro a b h; obtain ⟨d, e, rfl⟩ := h.exists; rfl
  · intro s; rfl
  · intro s; rfl
  · intro s i hi
    match i with
    | 7 => exact absurd (by simp) hi
    | 0 | 1 | 2 | 3 | 4 | 5 | 6 => rfl

theorem effect_raiseEvent (code : EventCode) (f : Fin 4) (n : Fin 64) (x y : Word) : Effect fs (raiseEvent code f n x y) := by
  refine Effect.weaken ?_
  exact Effect.choose (c := fun s : State => s.timeCount)
    (op := fun t s => offerEvent { code := code, face := f, slot := n, time := t, detailA := x, detailB := y } (raiseClass? code.cls s))
    (fun t => (effect_offerEvent _).comp (effect_raiseClass? code.cls)) fun _ _ _ => rfl

end Sys2Proof.Machine
end

