-- ==== Sys2Proof/Laws/Receivers.lean ====
section
/-! SUPPORT. Every operation of the blocks that take commands and time is confined to its face: it keeps the request path and the other faces, and marks what it shows in. -/

namespace Sys2Proof.Machine

/-! Level engine. -/

theorem effect_adoptStaged (f : Fin 4) : Effect [f] (adoptStaged f) := by
  show Effect [f] fun s => State.updFace f _ s
  apply effect_updFace
  · intro x i; fin_cases i <;> rfl
  · intro x n; rfl

theorem effect_touchSensor (f : Fin 4) (g : Face → SensorRecord) :
    Effect [f] (touch [faceWord f 3] (State.updFace f fun x => { x with level := { x.level with sensor := g x } })) := by
  apply effect_touch_updFace
  · intro x i hi; fin_cases i <;> first | rfl | exact absurd (by simp) hi
  · intro x n _; rfl

theorem effect_sensorTest (f : Fin 4) : Effect [f] (sensorTest f) := by
  refine Effect.choose (c := fun s => s.face f)
    (op := fun x s =>
      if x.level.sensor.lostNow x.level.limits.sensorLostEpochs then
        raiseEvent .sensorLost f (sensorSlotOf x) (plainDetail x.level.sensor.state.code) (plainDetail x.level.sensor.count)
          (touch [faceWord f 3] (State.updFace f fun x => { x with level := { x.level with sensor := x.level.sensor.tested x.level.limits.sensorLostEpochs } }) s)
      else touch [faceWord f 3] (State.updFace f fun x => { x with level := { x.level with sensor := x.level.sensor.tested x.level.limits.sensorLostEpochs } }) s)
    (fun x => ?_) fun _ _ _ => rfl
  by_cases h : x.level.sensor.lostNow x.level.limits.sensorLostEpochs
  · simp only [if_pos h]
    exact (effect_raiseEvent _ _ _ _ _).comp (effect_touchSensor _ _)
  · simp only [if_neg h]
    exact effect_touchSensor _ _

theorem effect_computeLevel (f : Fin 4) : Effect [f] (computeLevel f) := by
  apply effect_touch_updFace
  · intro x i hi; fin_cases i <;> first | rfl | exact absurd (by simp) hi
  · intro x n _; rfl

theorem effect_epochFace (f : Fin 4) : Effect [f] (epochFace f) :=
  Effect.ite (p := fun s => (s.face f).sup.state.scanning = true)
    (((effect_computeLevel f).comp (effect_sensorTest f)).comp (effect_adoptStaged f)) (effect_adoptStaged f)
    fun _ _ _ => Iff.rfl

theorem effect_takeSample (f : Fin 4) (a : Nat) : Effect [f] (takeSample f a) := by
  refine Effect.choose (c := fun s => s.face f)
    (op := fun x s =>
      if x.level.sensor.state = .lost then
        raiseEvent .sensorRestored f (sensorSlotOf x) (plainDetail SensorState.lost.code) (plainDetail 0)
          (touch [faceWord f 3] (State.updFace f fun x => { x with level := { x.level with sensor := x.level.sensor.fresh a } }) s)
      else touch [faceWord f 3] (State.updFace f fun x => { x with level := { x.level with sensor := x.level.sensor.fresh a } }) s)
    (fun x => ?_) fun _ _ _ => rfl
  by_cases h : x.level.sensor.state = .lost
  · simp only [if_pos h]
    exact (effect_raiseEvent _ _ _ _ _).comp (effect_touchSensor _ _)
  · simp only [if_neg h]
    exact effect_touchSensor _ _

theorem effect_sensorOutcome (f : Fin 4) (len : WordLength) (c : ReceivedClass) (w : LinkWord) :
    Effect [f] (sensorOutcome f len c w) := by
  refine Effect.ite (p := fun s => (s.face f).sup.state.scanning = true) ?_ effect_same fun _ _ _ => Iff.rfl
  cases c
  · exact effect_same
  · exact effect_same
  · dsimp only
    split
    · exact effect_takeSample _ _
    · exact effect_same

theorem effect_holdLevel (f : Fin 4) (v : Option Nat) : Effect [f] (holdLevel f v) := by
  apply effect_touch_updFace
  · intro x i hi; fin_cases i <;> first | rfl | exact absurd (by simp) hi
  · intro x n _; rfl

theorem effect_releaseLevel (f : Fin 4) : Effect [f] (releaseLevel f) := by
  apply effect_touch_updFace
  · intro x i hi; fin_cases i <;> first | rfl | exact absurd (by simp) hi
  · intro x n _; rfl

theorem effect_startLevel (f : Fin 4) : Effect [f] (startLevel f) := by
  apply effect_touch_updFace
  · intro x i hi; fin_cases i <;> first | rfl | exact absurd (by simp) hi
  · intro x n _; rfl

/-! Pixel scaler. -/

theorem effect_latch (f : Fin 4) : Effect [f] (latch f) := by
  apply effect_touch_updFace
  · intro x i hi; fin_cases i <;> first | rfl | exact absurd (by simp) hi
  · intro x n _; rfl

theorem effect_darken (f : Fin 4) : Effect [f] (darken f) := by
  apply effect_touch_updFace
  · intro x i hi; fin_cases i <;> first | rfl | exact absurd (by simp) hi
  · intro x n _; rfl

/-! Face supervisor. -/

theorem effect_stallExpiry (f : Fin 4) : Effect [f] (stallExpiry f) := by
  refine Effect.choose (c := fun s => (s.face f).sup)
    (op := fun p s =>
      if p.state.timed then
        raiseEvent .frameStall f 0 (plainDetail p.state.code) (plainDetail p.stallTimeout)
          (touch [faceWord f 0, faceWord f 7]
            (State.updFace f fun x =>
              { x with sup := { x.sup with state := .stalled, stallTimer := 0, stallCount := satSucc Config.max16 x.sup.stallCount } }) s)
      else s)
    (fun p => ?_) fun _ _ _ => rfl
  by_cases h : p.state.timed
  · simp only [if_pos h]
    refine (effect_raiseEvent _ _ _ _ _).comp ?_
    apply effect_touch_updFace
    · intro x i hi; fin_cases i <;> first | rfl | exact absurd (by simp) hi
    · intro x n _; rfl
  · simp only [if_neg h]
    exact effect_same

theorem effect_stallTick (f : Fin 4) : Effect [f] (stallTick f) := by
  refine Effect.ite (p := fun s => (s.face f).sup.state.timed = true) ?_ effect_same fun _ _ _ => Iff.rfl
  refine Effect.ite (p := fun s => (s.face f).sup.stallTimer ≤ 1) (effect_stallExpiry f) ?_ fun _ _ _ => Iff.rfl
  apply effect_updFace
  · intro x i; fin_cases i <;> rfl
  · intro x n; rfl

theorem effect_superviseFrameStart (f : Fin 4) : Effect [f] (superviseFrameStart f) := by
  have k : Effect [f] (touch [faceWord f 0] (State.updFace f fun x => { x with sup := { x.sup with state := .live, stallTimer := x.sup.stallTimeout } })) := by
    apply effect_touch_updFace
    · intro x i hi; fin_cases i <;> first | rfl | exact absurd (by simp) hi
    · intro x n _; rfl
  refine Effect.choose (c := fun s => (s.face f).sup)
    (op := fun p s =>
      if p.state.scanning then
        let t := touch [faceWord f 0] (State.updFace f fun x => { x with sup := { x.sup with state := .live, stallTimer := x.sup.stallTimeout } }) s
        if p.state = .stalled then raiseEvent .frameResumed f 0 (plainDetail p.stallCount) 0 t else t
      else s)
    (fun p => ?_) fun _ _ _ => rfl
  by_cases h : p.state.scanning
  · simp only [if_pos h]
    by_cases h2 : p.state = .stalled
    · simp only [if_pos h2]; exact (effect_raiseEvent _ _ _ _ _).comp k
    · simp only [if_neg h2]; exact k
  · simp only [if_neg h]
    exact effect_same

theorem effect_startSupervisor (f : Fin 4) : Effect [f] (startSupervisor f) := by
  apply effect_touch_updFace
  · intro x i hi; fin_cases i <;> first | rfl | exact absurd (by simp) hi
  · intro x n _; rfl

theorem effect_stopSupervisor (f : Fin 4) : Effect [f] (stopSupervisor f) := by
  apply effect_touch_updFace
  · intro x i hi; fin_cases i <;> first | rfl | exact absurd (by simp) hi
  · intro x n _; rfl

theorem effect_setOutputs (f : Fin 4) (o : OutputSettings) : Effect [f] (setOutputs f o) := by
  show Effect [f] fun s => State.updFace f _ s
  apply effect_updFace
  · intro x i; fin_cases i <;> rfl
  · intro x n; rfl

theorem effect_setStallTimeout (f : Fin 4) (n : Nat) : Effect [f] (setStallTimeout f n) := by
  show Effect [f] fun s => State.updFace f _ s
  apply effect_updFace
  · intro x i; fin_cases i <;> rfl
  · intro x n; rfl

/-! Module records. -/

theorem faceWord_ne_moduleWord (f g : Fin 4) (i : Fin 8) (n : Fin 64) : faceWord f i ≠ moduleWord g n := by
  intro h
  have := congrArg imagePlace h
  simp at this

theorem mem_moduleWords (f : Fin 4) (n : Fin 64) : moduleWord f n ∈ moduleWords f := by
  simp only [moduleWords, allSlots, List.mem_map]
  exact ⟨n, List.mem_finRange n, rfl⟩

theorem effect_setRecord (f : Fin 4) (n : Fin 64) (r : ModuleRecord) : Effect [f] (setRecord f n r) := by
  apply effect_touch_updFace
  · intro x i hi; fin_cases i <;> first | rfl | exact absurd (by simp) hi
  · intro x m hm
    have : n ≠ m := fun e => hm (by simp [e])
    simp [pick_put_ne _ _ this]

theorem effect_setRecords (f : Fin 4) (rs : Vector ModuleRecord 64) : Effect [f] (setRecords f rs) := by
  apply effect_touch_updFace
  · intro x i hi; fin_cases i <;> first | rfl | exact absurd (by simp) hi
  · intro x m hm
    exact absurd (by simp [mem_moduleWords]) hm

theorem effect_recordOutcome (f : Fin 4) (n : Fin 64) (o : ModuleOutcome) : Effect [f] (recordOutcome f n o) := by
  refine Effect.choose (c := fun s => s.face f)
    (op := fun x s =>
      let r := pick x.records n
      if x.sup.state.scanning && r.state != .disabled then
        let out := r.taken x.link.setup o
        let t := setRecord f n out.1 s
        match recordEvent r out.1 out.2 with
        | none => t
        | some e => raiseEvent e.code f n e.detailA e.detailB t
      else s)
    (fun x => ?_) fun _ _ _ => rfl
  dsimp only
  by_cases h : (x.sup.state.scanning && (pick x.records n).state != .disabled) = true
  · simp only [if_pos h]
    cases recordEvent (pick x.records n) ((pick x.records n).taken x.link.setup o).1 ((pick x.records n).taken x.link.setup o).2
    · exact effect_setRecord _ _ _
    · exact (effect_raiseEvent _ _ _ _ _).comp (effect_setRecord _ _ _)
  · simp only [if_neg h]
    exact effect_same

theorem effect_startRecords (f : Fin 4) : Effect [f] (startRecords f) :=
  Effect.choose (c := fun s => s.face f)
    (op := fun x s => setRecords f (Vector.ofFn fun n => if x.link.setup.isModuleSlot n then unseenRecord else pick x.records n) s)
    (fun _ => effect_setRecords _ _) fun _ _ _ => rfl

theorem effect_clearAllRecords (f : Fin 4) : Effect [f] (clearAllRecords f) :=
  Effect.choose (c := fun s => s.face f) (op := fun x s => setRecords f (x.records.map ModuleRecord.cleared) s)
    (fun _ => effect_setRecords _ _) fun _ _ _ => rfl

theorem effect_clearRecord (f : Fin 4) (n : Fin 64) : Effect [f] (clearRecord f n) :=
  Effect.choose (c := fun s => s.face f) (op := fun x s => setRecord f n (pick x.records n).cleared s)
    (fun _ => effect_setRecord _ _ _) fun _ _ _ => rfl

/-! Tile link. -/

theorem effect_setMailbox (f : Fin 4) (n : Fin 64) (m : Option OneShot) : Effect [f] (setMailbox f n m) := by
  apply effect_touch_updFace
  · intro x i hi; fin_cases i <;> rfl
  · intro x k hk
    have : n ≠ k := fun e => hk (by simp [e])
    simp [pick_put_ne _ _ this]

theorem effect_emptyAllMailboxes (f : Fin 4) : Effect [f] (emptyAllMailboxes f) := by
  apply effect_touch_updFace
  · intro x i hi; fin_cases i <;> rfl
  · intro x m hm
    exact (hm (mem_moduleWords f m)).elim

theorem effect_linkSync (f : Fin 4) : Effect [f] (linkSync f) := by
  refine Effect.ite (p := fun s => (s.face f).link.state = .running) ?_ effect_same fun _ _ _ => Iff.rfl
  apply effect_touch_updFace
  · intro x i hi; fin_cases i <;> first | rfl | exact absurd (by simp) hi
  · intro x n _; rfl

theorem effect_line (f : Fin 4) (l : Face → LinePhase) :
    Effect [f] (State.updFace f fun x => { x with link := { x.link with line := l x } }) := by
  apply effect_updFace
  · intro x i; fin_cases i <;> rfl
  · intro x n; rfl

/-- SLOT_START at a face found as it stands. -/
theorem effect_slotStartAt (f : Fin 4) (n : Fin 64) (running : Prop) [Decidable running] (w : Option LinkWord) :
    Effect [f] fun s => match w with
      | none => s
      | some w => if running then setMailbox f n none (s.updFace f fun y => { y with link := { y.link with line := .word n w } })
        else s.updFace f fun y => { y with link := { y.link with line := .word n w } } := by
  cases w with
  | none => exact effect_same
  | some w =>
    dsimp only
    by_cases h : running
    · simp only [if_pos h]
      exact (effect_setMailbox f n none).comp (effect_line f fun _ => .word n w)
    · simp only [if_neg h]
      exact effect_line f fun _ => .word n w

theorem slotStart_eq (f : Fin 4) (n : Fin 64) (s : State) :
    slotStart f n s = match ((s.face f).link.exchange n).map fun fs => slotCommand (s.face f) fs n with
      | none => s
      | some w =>
        if (s.face f).link.state = .running then
          setMailbox f n none (s.updFace f fun y => { y with link := { y.link with line := .word n w } })
        else s.updFace f fun y => { y with link := { y.link with line := .word n w } } := by
  unfold slotStart
  dsimp only
  cases (s.face f).link.exchange n with
  | none => rfl
  | some fs => simp only [Option.map_some, State.updFace]

theorem effect_slotStart (f : Fin 4) (n : Fin 64) : Effect [f] (slotStart f n) := by
  rw [show slotStart f n = _ from funext (slotStart_eq f n)]
  exact Effect.choose (c := fun s => s.face f)
    (op := fun x s => match (x.link.exchange n).map fun fs => slotCommand x fs n with
      | none => s
      | some w =>
        if x.link.state = .running then
          setMailbox f n none (s.updFace f fun y => { y with link := { y.link with line := .word n w } })
        else s.updFace f fun y => { y with link := { y.link with line := .word n w } })
    (fun x => effect_slotStartAt f n (x.link.state = .running) ((x.link.exchange n).map fun fs => slotCommand x fs n)) fun _ _ _ => rfl

theorem effect_countOutcome (f : Fin 4) (c : ReceivedClass) : Effect [f] (countOutcome f c) := by
  apply effect_touch_updFace
  · intro x i hi
    match i with
    | 5 => exact absurd (by simp) hi
    | 4 => cases c <;> rfl
    | 0 | 1 | 2 | 3 | 6 | 7 => rfl
  · intro x n _; rfl

theorem effect_receiveSlot (f : Fin 4) (n : Fin 64) (samples : LinkWord) : Effect [f] (receiveSlot f n samples) := by
  refine Effect.choose (c := fun s => s.face f)
    (op := fun x s =>
      match x.link.exchange n with
      | none => s
      | some fs =>
        let w := lineOrder fs.wordLength fs.bitOrder samples
        let c := classifyReceived fs.wordLength w
        let t := countOutcome f c (s.updFace f fun x => { x with link := { x.link with line := x.link.line.afterSlot n } })
        if fs.sensorSlot = some n then sensorOutcome f fs.wordLength c w t
        else recordOutcome f n (moduleOutcomeOf fs.wordLength c w) t)
    (fun x => ?_) fun _ _ _ => rfl
  cases x.link.exchange n with
  | none => exact effect_same
  | some fs =>
    dsimp only
    have k : Effect [f] fun s => countOutcome f (classifyReceived fs.wordLength (lineOrder fs.wordLength fs.bitOrder samples))
        (s.updFace f fun x => { x with link := { x.link with line := x.link.line.afterSlot n } }) :=
      (effect_countOutcome f _).comp (effect_line f fun x => x.link.line.afterSlot n)
    by_cases h : fs.sensorSlot = some n
    · simp only [if_pos h]; exact (effect_sensorOutcome _ _ _ _).comp k
    · simp only [if_neg h]; exact (effect_recordOutcome _ _ _).comp k

theorem effect_slotEnd (f : Fin 4) (n : Fin 64) (samples : LinkWord) : Effect [f] (slotEnd f n samples) :=
  Effect.ite (p := fun s => s.porstAsserted = true) effect_same (effect_receiveSlot f n samples) fun _ _ _ => Iff.rfl

/-- With PORST_N released the end of a slot takes the slot's word. -/
theorem slotEnd_released {f : Fin 4} {n : Fin 64} {samples : LinkWord} {s : State} (h : s.porstAsserted = false) :
    slotEnd f n samples s = receiveSlot f n samples s := by simp [slotEnd, h]

theorem effect_linkState (f : Fin 4) (g : LinkChannel → LinkChannel)
    (hc : ∀ l, (g l).garbled = l.garbled ∧ (g l).silent = l.silent) :
    Effect [f] (touch [faceWord f 4] (State.updFace f fun x => { x with link := g x.link })) := by
  apply effect_touch_updFace
  · intro x i hi
    fin_cases i
    · rfl
    · rfl
    · rfl
    · rfl
    · exact absurd (by simp) hi
    · simp [faceShown, hc x.link]
    · rfl
    · rfl
  · intro x n _; rfl

theorem effect_linkIdle (f : Fin 4) : Effect [f] (linkIdle f) :=
  (effect_setRecords f resetRecords).comp ((effect_emptyAllMailboxes f).comp
    (effect_linkState f (fun l => { l with state := .idle, frameSetup := none, line := .idle }) fun _ => ⟨rfl, rfl⟩))

theorem effect_drainEnd (f : Fin 4) : Effect [f] (drainEnd f) :=
  Effect.ite (p := fun s => (s.face f).link.state = .draining) (effect_linkIdle f) effect_same fun _ _ _ => Iff.rfl

theorem effect_startLink (f : Fin 4) : Effect [f] (startLink f) :=
  effect_linkState f (fun l => { l with state := .running }) fun _ => ⟨rfl, rfl⟩

theorem effect_stopLink (f : Fin 4) : Effect [f] (stopLink f) := by
  refine Effect.choose (c := fun s => (s.face f).link)
    (op := fun l s =>
      if l.state = .running then
        match l.frameSetup with
        | some _ => touch [faceWord f 4] (State.updFace f fun x => { x with link := { x.link with state := .draining } }) s
        | none => linkIdle f s
      else s)
    (fun l => ?_) fun _ _ _ => rfl
  dsimp only
  by_cases h : l.state = .running
  · simp only [if_pos h]
    cases l.frameSetup
    · exact effect_linkIdle f
    · exact effect_linkState f (fun l => { l with state := .draining }) fun _ => ⟨rfl, rfl⟩
  · simp only [if_neg h]
    exact effect_same

theorem effect_setLinkSetup (f : Fin 4) (l : LinkSetup) : Effect [f] (setLinkSetup f l) := by
  apply effect_touch_updFace
  · intro x i hi; fin_cases i <;> first | rfl | exact absurd (by simp) hi
  · intro x n _; rfl

/-! Attention controller. -/

theorem effect_setAck (r : AckResult) (c : Option (Fin 8)) : Effect [] (setAck r c) := by
  apply effect_touch_part
  · intro s; constructor <;> rfl
  · intro s; rfl
  · intro a b h; obtain ⟨d, rfl⟩ := h.exists; rfl
  · intro a b h; obtain ⟨d, e, rfl⟩ := h.exists; rfl
  · intro s; rfl
  · intro s; rfl
  · intro s i hi
    match i with
    | 4 => exact absurd (by simp) hi
    | 0 | 1 | 2 | 3 | 5 | 6 | 7 => rfl

theorem effect_changeAttention (g : Attention → Attention) : Effect [] (changeAttention g) := by
  apply effect_touch_part
  · intro s; constructor <;> rfl
  · intro s; rfl
  · intro a b h; obtain ⟨d, rfl⟩ := h.exists; rfl
  · intro a b h; obtain ⟨d, e, rfl⟩ := h.exists; rfl
  · intro s; rfl
  · intro s; rfl
  · intro s i hi
    match i with
    | 3 | 4 => exact absurd (by simp) hi
    | 0 | 1 | 2 | 5 | 6 | 7 => rfl

theorem effect_takeClass : Effect [] takeClass := by
  refine Effect.choose (c := fun s => s.attention.presented)
    (op := fun p s => match p with
      | none => setAck .none none s
      | some c => setAck .done (some c) (changeAttention (Attention.took c) s))
    (fun p => ?_) fun _ _ _ => rfl
  cases p
  · exact effect_setAck _ _
  · exact (effect_setAck _ _).comp (effect_changeAttention _)

theorem effect_finishTopClass (rotate : Bool) : Effect [] (finishTopClass rotate) := by
  refine Effect.choose (c := fun s => s.attention.topInService)
    (op := fun p s => match p with
      | none => setAck .none none s
      | some c => setAck .done (some c) (changeAttention (Attention.finished rotate c) s))
    (fun p => ?_) fun _ _ _ => rfl
  cases p
  · exact effect_setAck _ _
  · exact (effect_setAck _ _).comp (effect_changeAttention _)

theorem effect_finishClass (rotate : Bool) (c : Fin 8) : Effect [] (finishClass rotate c) :=
  Effect.ite (p := fun s => hasClass s.attention.inService c = true)
    ((effect_setAck _ _).comp (effect_changeAttention _)) (effect_setAck _ _) fun _ _ _ => Iff.rfl

theorem effect_setLowestClass (c : Fin 8) : Effect [] (setLowestClass c) :=
  (effect_setAck _ _).comp (effect_changeAttention _)

theorem effect_takeAck (code : BitVec 4) (rotate : Bool) (c : Fin 8) : Effect [] (takeAck code rotate c) := by
  unfold takeAck
  cases ackOperationOf code with
  | none => exact effect_setAck _ _
  | some op =>
    cases op
    · exact effect_takeClass
    · exact effect_finishTopClass _
    · exact effect_finishClass _ _
    · exact effect_setLowestClass _

theorem reconfigured_keeps (ws : List Word) (a : Attention) :
    (a.reconfigured ws).ackResult = a.ackResult ∧ (a.reconfigured ws).base = a.base ∧ (a.reconfigured ws).ackClass = a.ackClass ∧
      (a.reconfigured ws).inService = a.inService := by
  unfold Attention.reconfigured
  split <;> exact ⟨rfl, rfl, rfl, rfl⟩

theorem effect_configureAttention (ws : List Word) : Effect [] (configureAttention ws) := by
  apply effect_touch_part
  · intro s; constructor <;> rfl
  · intro s; rfl
  · intro a b h; obtain ⟨d, rfl⟩ := h.exists; rfl
  · intro a b h; obtain ⟨d, e, rfl⟩ := h.exists; rfl
  · intro s; rfl
  · intro s; rfl
  · intro s i hi
    have k := reconfigured_keeps ws s.attention
    match i with
    | 3 => exact absurd (by simp) hi
    | 4 => simp [partShown, k]
    | 0 | 1 | 2 | 5 | 6 | 7 => rfl

/-! Journal. -/

theorem effect_changeJournal (g : Journal → Journal) : Effect [] (changeJournal g) := by
  apply effect_touch_part
  · intro s; constructor <;> rfl
  · intro s; rfl
  · intro a b h; obtain ⟨d, rfl⟩ := h.exists; rfl
  · intro a b h; obtain ⟨d, e, rfl⟩ := h.exists; rfl
  · intro s; rfl
  · intro s; rfl
  · intro s i hi
    match i with
    | 5 | 6 | 7 => exact absurd (by simp) hi
    | 0 | 1 | 2 | 3 | 4 => rfl

theorem effect_raiseThreshold (before : Nat) : Effect [] (raiseThreshold before) :=
  Effect.ite (p := fun s => before < s.journal.threshold ∧ s.journal.threshold ≤ s.journal.fill)
    (effect_raiseClass _) effect_same fun _ _ _ => Iff.rfl

theorem effect_offerConsumed (v : BitVec 16) : Effect [] (offerConsumed v) := by
  refine Effect.choose (c := fun s => s.journal)
    (op := fun j s =>
      if j.accepts v then raiseThreshold j.fill (changeJournal (fun j => { j with consumed := v }) s)
      else raiseEvent .indexRejected 0 0 (plainDetail v.toNat) (plainDetail j.writeIndex.toNat) s)
    (fun j => ?_) fun _ _ _ => rfl
  by_cases h : j.accepts v
  · simp only [if_pos h]; exact (effect_raiseThreshold _).comp (effect_changeJournal _)
  · simp only [if_neg h]; exact effect_raiseEvent _ _ _ _ _

theorem effect_setupJournal (base : Addr) (capacity threshold : Nat) : Effect [] (setupJournal base capacity threshold) := by
  show Effect [] fun s => changeJournal _ s
  exact effect_changeJournal _

/-! Commands. -/

theorem effect_startFace (f : Fin 4) : Effect [f] (startFace f) :=
  (effect_startLink f).comp ((effect_startRecords f).comp ((effect_startLevel f).comp (effect_startSupervisor f)))

theorem effect_enterOff (f : Fin 4) : Effect [f] (enterOff f) :=
  Effect.ite (p := fun s => (s.face f).sup.state.scanning = true)
    ((effect_stopLink f).comp ((effect_darken f).comp (effect_stopSupervisor f))) effect_same fun _ _ _ => Iff.rfl

theorem effect_faceGeometryEffect (h : HeadFields) (ws : List Word) : Effect [h.face] (faceGeometryEffect h ws) := by
  show Effect [h.face] fun s => State.updFace h.face _ s
  apply effect_updFace
  · intro x i; fin_cases i <;> rfl
  · intro x n; rfl

theorem effect_setZoneMap (f : Fin 4) (m : Face → Vector (Option (Fin 64)) 64) :
    Effect [f] (State.updFace f fun x => { x with zoneMap := m x }) := by
  apply effect_updFace
  · intro x i; fin_cases i <;> rfl
  · intro x n; rfl

theorem effect_faceZonemapEffect (h : HeadFields) (ws : List Word) : Effect [h.face] (faceZonemapEffect h ws) :=
  effect_setZoneMap h.face fun x => mapWithSlots x.zoneMap (zoneSlots x ws)

theorem effect_faceCurveEffect (h : HeadFields) (ws : List Word) : Effect [h.face] (faceCurveEffect h ws) := by
  show Effect [h.face] fun s => State.updFace h.face _ s
  apply effect_updFace
  · intro x i; fin_cases i <;> rfl
  · intro x n; rfl

theorem effect_faceLimitsEffect (h : HeadFields) (ws : List Word) : Effect [h.face] (faceLimitsEffect h ws) := by
  show Effect [h.face] fun s => setStallTimeout h.face (stallTimeoutOf ws) (State.updFace h.face _ s)
  refine (effect_setStallTimeout h.face (stallTimeoutOf ws)).comp ?_
  apply effect_updFace
  · intro x i; fin_cases i <;> rfl
  · intro x n; rfl

theorem effect_moduleClearEffect (h : HeadFields) (ws : List Word) : Effect [h.face] (moduleClearEffect h ws) := by
  unfold moduleClearEffect
  by_cases e : allSlotsForm ws
  · simp only [if_pos e]; exact effect_clearAllRecords _
  · simp only [if_neg e]; exact effect_clearRecord _ _

theorem effect_timingSetupEffect (h : HeadFields) (ws : List Word) : Effect [] (timingSetupEffect h ws) where
  path s := by constructor <;> rfl
  faces s x _ := rfl
  tracks s := by
    refine MarksExactly.tracks (marksExactly_of rfl fun w => ?_)
    exact shown_part (ws := []) rfl (fun i _ => by fin_cases i <;> rfl) (by simp)
  blind a b h := by obtain ⟨d, rfl⟩ := h.exists; rfl
  decoder s := rfl
  deaf a b h := by obtain ⟨d, e, rfl⟩ := h.exists; rfl

theorem pick_allDirty (w : ImageWord) : pick allDirty w = true := by simp [allDirty]

theorem tracks_allDirty {s t : State} (h : t.dirty = allDirty) : TracksImage s t := by
  intro w; rw [h, pick_allDirty]; exact ⟨fun _ => rfl, fun _ => rfl⟩

theorem effect_markAll : Effect [] markAll where
  path s := by constructor <;> rfl
  faces s x _ := rfl
  tracks s := tracks_allDirty rfl
  blind a b h := by obtain ⟨d, rfl⟩ := h.exists; rfl
  decoder s := rfl
  deaf a b h := by obtain ⟨d, e, rfl⟩ := h.exists; rfl

/-! Timebase: the blocks of every face. -/

theorem effect_tickPart (due : Bool) (p : TickPart) : Effect allFaces fun s => tickPart due s p := by
  have all : ∀ x : Fin 4, x ∈ allFaces := by decide
  unfold tickPart
  by_cases h : p.val < 4
  · simp only [if_pos h]; exact (effect_stallTick _).mono fun x _ => all x
  · simp only [if_neg h]
    by_cases e : due
    · simp only [if_pos e]; exact (effect_epochFace _).mono fun x _ => all x
    · simp only [if_neg e]; exact effect_same

end Sys2Proof.Machine
end

