-- ==== Sys2Proof/Laws/DecoderFrames.lean ====
section
/-! SUPPORT. The stream decoder's operations are confined to the faces of their commands; and what a row does to an IDLE decoder. -/

namespace Sys2Proof.Machine

variable {fs : List (Fin 4)}

theorem mem_allFaces (x : Fin 4) : x ∈ allFaces := by revert x; decide

theorem Confined.toAll {g : State → State} (h : Confined fs g) : Confined allFaces g := h.mono fun x _ => mem_allFaces x

theorem confined_setDecoder (st : DecoderState) (n : Nat) (cmd : Option HeadWord) (r : Option ResultCode) (b : List Word) :
    Confined [] (setDecoder st n cmd r b) := by
  apply confined_touch_part
  · intro s; constructor <;> rfl
  · intro s; rfl
  · intro a b h; obtain ⟨d, rfl⟩ := h.exists; rfl
  · intro s; rfl
  · intro s i hi
    match i with
    | 2 => exact absurd (by simp) hi
    | 0 | 1 | 3 | 4 | 5 | 6 | 7 => rfl

theorem confined_setResult (h : HeadWord) (r : ResultCode) : Confined [] (setResult h r) := by
  apply confined_touch_part
  · intro s; constructor <;> rfl
  · intro s; rfl
  · intro a b h; obtain ⟨d, rfl⟩ := h.exists; rfl
  · intro s; rfl
  · intro s i hi
    match i with
    | 1 => exact absurd (by simp) hi
    | 0 | 2 | 3 | 4 | 5 | 6 | 7 => rfl

theorem confined_postResult (h : HeadWord) (r : ResultCode) : Confined [] (postResult h r) := by
  unfold postResult
  dsimp only
  by_cases e : r = .done
  · simp only [if_pos e]; exact (confined_setDecoder _ _ _ _ _).comp (confined_setResult _ _)
  · simp only [if_neg e]
    exact (effect_raiseEvent _ _ _ _ _).confined.comp ((confined_setDecoder _ _ _ _ _).comp (confined_setResult _ _))

theorem confined_abandonCommand : Confined [] abandonCommand := by
  refine Confined.choose (c := fun s => s.decoder)
    (op := fun d s => match d.state, d.inProgress with
      | .idle, _ => s
      | _, none => s
      | _, some h =>
        raiseEvent .cmdAbandoned h.fields.face h.fields.slot (codeTagDetail h.code h.fields.tag) (plainDetail d.remaining) (setResult h .abandoned s))
    (fun d => ?_) fun _ _ => rfl
  obtain ⟨st, n, p, r, b, w⟩ := d
  cases st <;> cases p <;> first
    | exact confined_same
    | exact (effect_raiseEvent _ _ _ _ _).confined.comp (confined_setResult _ _)

theorem confined_conclude {g : State → State} (hg : Confined fs g) (h : HeadWord) {r : State → ResultCode}
    (hr : ∀ (s : State) d, r { s with dirty := d } = r s) : Confined fs fun s => conclude h (r s) g s := by
  refine Confined.choose (c := r) (op := fun r s => conclude h r g s) (fun r => ?_) hr
  unfold conclude
  by_cases e : r = .done
  · simp only [if_pos e]; exact (confined_postResult _ _).weaken.comp hg
  · simp only [if_neg e]; exact (confined_postResult _ _).weaken

theorem confined_partResetFace (f : Fin 4) : Blind (fun s => partResetFace s f) ∧ (∀ s, KeepsPath s (partResetFace s f)) :=
  ⟨(blind_updFace f Face.partReset).comp (effect_enterOff f).blind, fun s =>
    ((effect_enterOff f).path s).trans (by constructor <;> rfl)⟩

theorem keepsPath_partResetFaces (s : State) : KeepsPath s (allFaces.foldl partResetFace s) := by
  simp only [allFaces, List.foldl]
  exact (((confined_partResetFace 0).2 s).trans ((confined_partResetFace 1).2 _)).trans
    (((confined_partResetFace 2).2 _).trans ((confined_partResetFace 3).2 _))

theorem blind_partResetFaces : Blind fun s => allFaces.foldl partResetFace s := by
  simp only [allFaces, List.foldl]
  exact (confined_partResetFace 3).1.comp ((confined_partResetFace 2).1.comp ((confined_partResetFace 1).1.comp (confined_partResetFace 0).1))

/-- The reset of the part-wide owners at PART_RESET. -/
def partResetOwners (t : State) : State :=
  { resetJournalWriter t with
    epochSelect := resetEpochSelect
    epochTimer := resetEpochTimer
    attention := resetAttention
    dirty := allDirty
    generationOwed := false
    ownWriteErrors := 0 }

theorem partResetEffect_eq (s : State) : partResetEffect s = partResetOwners (allFaces.foldl partResetFace s) := rfl

theorem keepsPath_partResetOwners (t : State) : KeepsPath t (partResetOwners t) := by constructor <;> rfl

theorem blind_partResetOwners : Blind partResetOwners := by
  intro a b h; obtain ⟨d, rfl⟩ := h.exists; rfl

theorem confined_partResetEffect : Confined allFaces partResetEffect where
  path s := by
    rw [partResetEffect_eq]
    exact (keepsPath_partResetFaces s).trans (keepsPath_partResetOwners _)
  faces s x hx := absurd (mem_allFaces x) hx
  tracks s := by
    rw [partResetEffect_eq]
    exact tracks_allDirty rfl
  blind := blind_partResetOwners.comp blind_partResetFaces

/-- The faces a command of the stream decoder may change. -/
def Command.faces (c : Command) (h : HeadFields) : List (Fin 4) :=
  match c with
  | .partReset => allFaces
  | .attnConfig | .journalSetup | .timingSetup | .statusRefresh => []
  | _ => [h.face]

theorem confined_executeCommand (c : Command) (h : HeadWord) (ws : List Word) :
    Confined (c.faces h.fields) (executeCommand c h ws) := by
  cases c
  case faceGeometry => exact confined_conclude (effect_faceGeometryEffect h.fields ws).confined h fun _ _ => rfl
  case faceZonemap => exact confined_conclude (effect_faceZonemapEffect h.fields ws).confined h fun _ _ => rfl
  case faceCurve => exact confined_conclude (effect_faceCurveEffect h.fields ws).confined h fun _ _ => rfl
  case faceLimits => exact confined_conclude (effect_faceLimitsEffect h.fields ws).confined h (r := fun _ => .done) fun _ _ => rfl
  case faceStart => exact confined_conclude (effect_startFace h.fields.face).confined h fun _ _ => rfl
  case faceStop => exact confined_conclude (effect_enterOff h.fields.face).confined h (r := fun _ => .done) fun _ _ => rfl
  case faceHold => exact confined_conclude (effect_holdLevel h.fields.face _).confined h (r := fun _ => .done) fun _ _ => rfl
  case faceRelease => exact confined_conclude (effect_releaseLevel h.fields.face).confined h (r := fun _ => .done) fun _ _ => rfl
  case outputConfig => exact confined_conclude (effect_setOutputs h.fields.face _).confined h (r := fun _ => .done) fun _ _ => rfl
  case linkSetup => exact confined_conclude (effect_setLinkSetup h.fields.face _).confined h fun _ _ => rfl
  case moduleCommand => exact confined_conclude (effect_setMailbox h.fields.face _ _).confined h fun _ _ => rfl
  case moduleClear => exact confined_conclude (effect_moduleClearEffect h.fields ws).confined h fun _ _ => rfl
  case attnConfig => exact confined_conclude (effect_configureAttention ws).confined h (r := fun _ => .done) fun _ _ => rfl
  case journalSetup => exact confined_conclude (effect_setupJournal _ _ _).confined h fun _ _ => rfl
  case timingSetup => exact confined_conclude (effect_timingSetupEffect h.fields ws).confined h fun _ _ => rfl
  case statusRefresh => exact confined_conclude effect_markAll.confined h (r := fun _ => .done) fun _ _ => rfl
  case partReset => exact confined_conclude confined_partResetEffect h (r := fun _ => .done) fun _ _ => rfl

/-- The faces a HEAD word's command may change; one that names no command changes none. -/
def HeadWord.faces (h : HeadWord) : List (Fin 4) :=
  match commandOf h.code with
  | some c => c.faces h.fields
  | none => []

theorem confined_decodeHead (h : HeadWord) : Confined h.faces (decodeHead h) := by
  unfold decodeHead HeadWord.faces
  cases commandOf h.code with
  | none =>
    dsimp only
    split
    · exact confined_postResult _ _
    · exact confined_setDecoder _ _ _ _ _
  | some c =>
    dsimp only
    split
    · split
      · exact confined_executeCommand _ _ _
      · exact (confined_setDecoder _ _ _ _ _).weaken
    · split
      · exact (confined_postResult _ _).weaken
      · exact (confined_setDecoder _ _ _ _ _).weaken

theorem confined_takeHead (h : HeadWord) : Confined h.faces (takeHead h) :=
  (confined_decodeHead h).comp confined_abandonCommand.weaken

theorem confined_completeCommand (h : HeadWord) (ws : List Word) : Confined h.faces (completeCommand h ws) := by
  unfold completeCommand HeadWord.faces
  cases commandOf h.code with
  | none => exact confined_postResult _ _
  | some c => exact confined_executeCommand _ _ _

/-- What a BODY word does at a decoder found as it stands. -/
def bodyAt (d : Decoder) (w : Word) (s : State) : State :=
  match d.state with
  | .idle => raiseEvent .streamStray 0 0 w 0 s
  | .collecting =>
    if d.remaining ≤ 1 then completeCommand d.command (d.buffer ++ [w]) s
    else setDecoder .collecting (d.remaining - 1) d.inProgress d.refusal (d.buffer ++ [w]) s
  | .discarding =>
    if d.remaining ≤ 1 then postResult d.command (d.refusal.getD .unknown) s
    else setDecoder .discarding (d.remaining - 1) d.inProgress d.refusal d.buffer s

theorem takeBody_eq (w : Word) (s : State) : takeBody w s = bodyAt s.decoder w s := rfl

theorem confined_bodyAt (d : Decoder) (w : Word) : Confined d.command.faces (bodyAt d w) := by
  unfold bodyAt
  cases d.state <;> dsimp only
  · exact (effect_raiseEvent _ _ _ _ _).confined
  · split
    · exact confined_completeCommand _ _
    · exact (confined_setDecoder _ _ _ _ _).weaken
  · split
    · exact (confined_postResult _ _).weaken
    · exact (confined_setDecoder _ _ _ _ _).weaken

theorem confined_takeBody (w : Word) : Confined allFaces (takeBody w) :=
  Confined.choose (c := fun s => s.decoder) (op := fun d s => bodyAt d w s) (fun d => (confined_bodyAt d w).toAll) fun _ _ => rfl

theorem confined_takeBodies (ws : List Word) : Confined allFaces (takeBodies ws) :=
  Confined.foldl (op := fun s w => takeBody w s) (fun w => confined_takeBody w) ws

theorem confined_streamCommand (code : BitVec 8) (h : HeadFields) (ws : List Word) : Confined allFaces (streamCommand code h ws) :=
  (confined_takeBodies ws).comp (confined_takeHead _).toAll

end Sys2Proof.Machine
end

