-- ==== Sys2Proof/Laws/PathFrames.lean ====
section
/-! SUPPORT. What the operations of the request path, the journal, the status writer and the timebase keep and mark. -/

namespace Sys2Proof.Machine

/-! Changes that show in no image word. -/

/-- A change that keeps every part an image word is read from shows nowhere. -/
theorem shown_same {s t : State} (hf : t.faces = s.faces) (he : t.ownWriteErrors = s.ownWriteErrors)
    (hd : t.decoder = s.decoder) (ha : t.attention = s.attention) (hj : t.journal = s.journal)
    (hq : t.eventQueue = s.eventQueue) (w : ImageWord) : shown t w = shown s w := by
  apply shown_part (ws := []) hf _ (by simp)
  intro i _
  unfold partShown
  rw [he, hd, ha, hj, hq]

theorem tracks_same {s t : State} (hf : t.faces = s.faces) (he : t.ownWriteErrors = s.ownWriteErrors)
    (hd : t.decoder = s.decoder) (ha : t.attention = s.attention) (hj : t.journal = s.journal)
    (hq : t.eventQueue = s.eventQueue) (hk : t.dirty = s.dirty) : TracksImage s t :=
  (marksExactly_of hk (shown_same hf he hd ha hj hq)).tracks

/-! What every command but those that say so keeps. -/

/-- The two states have the same control window, reset line and queue of commands. -/
structure KeepsPins (s t : State) : Prop where
  porstAsserted : t.porstAsserted = s.porstAsserted
  windowBase : t.windowBase = s.windowBase
  pending : t.pending = s.pending

theorem KeepsPins.refl (s : State) : KeepsPins s s := ⟨rfl, rfl, rfl⟩

theorem KeepsPins.trans {s t u : State} (h : KeepsPins s t) (k : KeepsPins t u) : KeepsPins s u :=
  ⟨k.1.trans h.1, k.2.trans h.2, k.3.trans h.3⟩

theorem KeepsPath.pins {s t : State} (h : KeepsPath s t) : KeepsPins s t := ⟨h.porstAsserted, h.windowBase, h.pending⟩

/-- An operation of the part that keeps the pins and the time count, and marks what it shows in. -/
structure Accounted (g : State → State) : Prop where
  pins : ∀ s, KeepsPins s (g s)
  time : ∀ s, (g s).timeCount = s.timeCount
  tracks : ∀ s, TracksImage s (g s)

theorem Confined.accounted {fs : List (Fin 4)} {g : State → State} (h : Confined fs g) : Accounted g :=
  ⟨fun s => (h.path s).pins, fun s => (h.path s).timeCount, h.tracks⟩

theorem Accounted.comp {g k : State → State} (hg : Accounted g) (hk : Accounted k) : Accounted fun s => g (k s) :=
  ⟨fun s => (hk.pins s).trans (hg.pins _), fun s => (hg.time _).trans (hk.time s), fun s => (hk.tracks s).trans (hg.tracks _)⟩

theorem accounted_id : Accounted fun s => s := ⟨KeepsPins.refl, fun _ => rfl, TracksImage.refl⟩

/-- A change of the request path's lists alone. -/
theorem accounted_path {g : State → State} (hp : ∀ s, KeepsPins s (g s)) (ht : ∀ s, (g s).timeCount = s.timeCount)
    (hf : ∀ s, (g s).faces = s.faces) (he : ∀ s, (g s).ownWriteErrors = s.ownWriteErrors)
    (hd : ∀ s, (g s).decoder = s.decoder) (ha : ∀ s, (g s).attention = s.attention) (hj : ∀ s, (g s).journal = s.journal)
    (hq : ∀ s, (g s).eventQueue = s.eventQueue) (hk : ∀ s, (g s).dirty = s.dirty) : Accounted g :=
  ⟨hp, ht, fun s => tracks_same (hf s) (he s) (hd s) (ha s) (hj s) (hq s) (hk s)⟩

/-! Acceptance. -/

theorem confined_handWord (c : ControlWord) (w : Word) : Confined allFaces (handWord c w) := by
  cases c
  · exact (confined_takeHead _).toAll
  · exact confined_takeBody _
  · exact (effect_takeAck _ _ _).toAll
  · exact (effect_offerConsumed _).toAll

theorem confined_handOn (r : Request) (c : RequestClass) : Confined allFaces (handOn r c) := by
  cases c
  · exact confined_same
  · exact confined_handWord _ _
  · exact (effect_raiseEvent _ _ _ _ _).confined
  · exact confined_same
  · exact confined_same

theorem confined_latchIfFrameStart (c : RequestClass) : Confined allFaces (latchIfFrameStart c) := by
  unfold latchIfFrameStart
  split
  · exact (effect_latch _).toAll
  · exact confined_same

theorem confined_superviseIfFrameStart (c : RequestClass) : Confined allFaces (superviseIfFrameStart c) := by
  unfold superviseIfFrameStart
  split
  · exact (effect_superviseFrameStart _).toAll
  · exact confined_same

theorem accounted_enterRequest (r : Request) (c : RequestClass) (k : Option ScaleContext) : Accounted (enterRequest r c k) := by
  apply accounted_path <;> intro s
  · exact ⟨rfl, rfl, rfl⟩
  all_goals rfl

theorem accounted_acceptAs (r : Request) (c : RequestClass) (s : State) :
    KeepsPins s (acceptAs r c s) ∧ (acceptAs r c s).timeCount = s.timeCount ∧ TracksImage s (acceptAs r c s) := by
  unfold acceptAs
  dsimp only
  have a := (confined_latchIfFrameStart c).accounted
  have b := (confined_superviseIfFrameStart c).accounted
  have d := accounted_enterRequest r c (contextOf c (latchIfFrameStart c s))
  have e := (confined_handOn r c).accounted
  have k := e.comp (d.comp (b.comp a))
  exact ⟨k.pins s, k.time s, k.tracks s⟩

theorem accounted_acceptRequest (r : Request) : Accounted (acceptRequest r) :=
  ⟨fun s => (accounted_acceptAs r _ s).1, fun s => (accounted_acceptAs r _ s).2.1, fun s => (accounted_acceptAs r _ s).2.2⟩

theorem accounted_setWaiting (rs : List Request) : Accounted fun s => { s with cportWaiting := rs } := by
  apply accounted_path <;> intro s
  · exact ⟨rfl, rfl, rfl⟩
  all_goals rfl

theorem accounted_acceptFrom (rs : List Request) : Accounted (acceptFrom rs) := by
  induction rs with
  | nil => exact accounted_setWaiting []
  | cons r rest ih =>
    have a := ih.comp (accounted_acceptRequest r)
    have b := accounted_setWaiting (r :: rest)
    refine ⟨fun s => ?_, fun s => ?_, fun s => ?_⟩ <;> rw [acceptFrom] <;> split
    · exact a.pins s
    · exact b.pins s
    · exact a.time s
    · exact b.time s
    · exact a.tracks s
    · exact b.tracks s

theorem accounted_acceptWaiting : Accounted acceptWaiting :=
  ⟨fun s => (accounted_acceptFrom _).pins s, fun s => (accounted_acceptFrom _).time s, fun s => (accounted_acceptFrom _).tracks s⟩

theorem accounted_offerRequest (r : Request) : Accounted (offerRequest r) := by
  refine ⟨fun s => ?_, fun s => ?_, fun s => ?_⟩ <;> unfold offerRequest <;> split
  · exact accounted_id.pins s
  · exact (accounted_acceptFrom _).pins s
  · rfl
  · exact (accounted_acceptFrom _).time s
  · exact TracksImage.refl s
  · exact (accounted_acceptFrom _).tracks s

theorem accounted_takeResponse : Accounted takeResponse := by
  refine ⟨fun s => ?_, fun s => ?_, fun s => ?_⟩ <;> unfold takeResponse <;> split
  · exact KeepsPins.refl s
  · exact ⟨rfl, rfl, rfl⟩
  · rfl
  · rfl
  · exact TracksImage.refl s
  · exact tracks_same rfl rfl rfl rfl rfl rfl rfl

theorem accounted_issueGrant (g : Grant) : Accounted (issueGrant g) := by
  cases g
  · apply accounted_path <;> intro s
    · exact ⟨rfl, rfl, rfl⟩
    all_goals rfl
  · apply accounted_path <;> intro s
    · exact ⟨rfl, rfl, rfl⟩
    all_goals rfl
  · exact accounted_id

theorem accounted_grantBeat : Accounted grantBeat := by
  refine ⟨fun s => ?_, fun s => ?_, fun s => ?_⟩ <;> unfold grantBeat <;> split
  · exact (accounted_issueGrant _).pins s
  · exact KeepsPins.refl s
  · exact (accounted_issueGrant _).time s
  · rfl
  · exact (accounted_issueGrant _).tracks s
  · exact TracksImage.refl s

/-! Memory responses. -/

theorem confined_countOwnWriteError (st : Status) : Confined [] (countOwnWriteError st) := by
  cases st
  · exact confined_same
  · show Confined [] fun s => touch [generationWord] (fun s => { s with ownWriteErrors := satSucc Config.max16 s.ownWriteErrors }) s
    apply confined_touch_part
    · intro s; constructor <;> rfl
    · intro s; rfl
    · intro a b h; obtain ⟨d, rfl⟩ := h.exists; rfl
    · intro s; rfl
    · intro s i hi
      match i with
      | 0 => exact absurd (by simp [partWord, generationWord]) hi
      | 1 | 2 | 3 | 4 | 5 | 6 | 7 => rfl
  · exact confined_same

theorem confined_dropRecord : Confined [] fun s : State => { s with journal := { s.journal with inProgress := none } } where
  path s := by constructor <;> rfl
  faces s x _ := rfl
  tracks s := by
    refine MarksExactly.tracks (marksExactly_of rfl fun w => ?_)
    exact shown_part (ws := []) rfl (fun i _ => by fin_cases i <;> rfl) (by simp)
  blind a b h := by obtain ⟨d, rfl⟩ := h.exists; rfl

theorem confined_completeRecord (n : BitVec 16) : Confined [] (completeRecord n) := by
  refine Confined.choose (c := fun s => s.journal)
    (op := fun j s =>
      match j.inProgress with
      | none => s
      | some r =>
        if r.sequence = n then
          if r.superseded then { s with journal := { s.journal with inProgress := none } }
          else raiseThreshold j.fill (changeJournal (fun j => { j with inProgress := none, produced := j.produced + 1 }) s)
        else s)
    (fun j => ?_) fun _ _ => rfl
  cases j.inProgress with
  | none => exact confined_same
  | some r =>
    dsimp only
    by_cases h : r.sequence = n
    · simp only [if_pos h]
      by_cases e : r.superseded
      · simp only [if_pos e]; exact confined_dropRecord
      · simp only [if_neg e]; exact ((effect_raiseThreshold _).comp (effect_changeJournal _)).confined
    · simp only [if_neg h]; exact confined_same

theorem confined_completeOwnWrite (o : Origin) (st : Status) : Confined [] (completeOwnWrite o st) := by
  unfold completeOwnWrite
  cases o with
  | status w => exact confined_countOwnWriteError st
  | journal n header =>
    cases header
    · exact confined_countOwnWriteError st
    · exact (confined_completeRecord n).comp (confined_countOwnWriteError st)

theorem accounted_takeMemoryResponse (st : Status) (data : Word) : Accounted (takeMemoryResponse st data) := by
  refine ⟨fun s => ?_, fun s => ?_, fun s => ?_⟩ <;> unfold takeMemoryResponse <;> split
  · exact KeepsPins.refl s
  · exact ⟨rfl, rfl, rfl⟩
  · rename_i rest _; exact KeepsPins.trans (t := { s with inFlight := rest }) ⟨rfl, rfl, rfl⟩ ((confined_completeOwnWrite _ _).path _).pins
  · rfl
  · rfl
  · exact ((confined_completeOwnWrite _ _).path _).timeCount
  · exact TracksImage.refl s
  · exact tracks_same rfl rfl rfl rfl rfl rfl rfl
  · rename_i rest _; exact TracksImage.trans (t := { s with inFlight := rest }) (tracks_same rfl rfl rfl rfl rfl rfl rfl) ((confined_completeOwnWrite _ _).tracks _)

/-! The journal and the status writer. -/

theorem tracks_enqueueRecord (e : EventEntry) (s : State) : TracksImage s (enqueueRecord e s) := by
  refine (marksExactly_of rfl fun w => ?_).tracks
  exact shown_part (ws := []) rfl (fun i _ => by fin_cases i <;> rfl) (by simp)

theorem keepsPins_enqueueRecord (e : EventEntry) (s : State) : KeepsPins s (enqueueRecord e s) := ⟨rfl, rfl, rfl⟩

theorem tracks_dequeueEvent (rest : List EventEntry) (s : State) :
    TracksImage s (touch [partWord 7] (fun s => { s with eventQueue := rest }) s) := by
  refine (marksExactly_touch rfl fun w hw => ?_).tracks
  refine shown_part (s := s) (t := { s with eventQueue := rest }) rfl (fun i hi => ?_) hw
  match i with
  | 7 => exact absurd (by simp) hi
  | 0 | 1 | 2 | 3 | 4 | 5 | 6 => rfl

theorem accounted_journalEnqueue : Accounted journalEnqueue := by
  refine ⟨fun s => ?_, fun s => ?_, fun s => ?_⟩ <;> unfold journalEnqueue <;> split <;> try split
  · exact (keepsPins_enqueueRecord _ _).trans ((effect_changeJournal _).path _).pins
  · split
    · exact KeepsPins.refl s
    · rename_i e _ _; exact (keepsPins_enqueueRecord e s).trans ⟨rfl, rfl, rfl⟩
  · exact KeepsPins.refl s
  · rfl
  · split <;> rfl
  · rfl
  · exact (tracks_enqueueRecord _ s).trans ((effect_changeJournal _).tracks _)
  · split
    · exact TracksImage.refl s
    · exact (tracks_enqueueRecord _ s).trans (tracks_dequeueEvent _ _)
  · exact TracksImage.refl s

theorem shown_enqueueImageWord (v : ImageWord) (s : State) (w : ImageWord) : shown (enqueueImageWord v s) w = shown s w :=
  shown_same rfl rfl rfl rfl rfl rfl w

theorem shown_takeDirty (v : ImageWord) (s : State) (w : ImageWord) : shown (takeDirty v s) w = shown s w := by
  unfold takeDirty
  dsimp only
  split <;> exact shown_same rfl rfl rfl rfl rfl rfl w

theorem keepsPins_takeDirty (v : ImageWord) (s : State) : KeepsPins s (takeDirty v s) := by
  unfold takeDirty
  dsimp only
  split <;> exact ⟨rfl, rfl, rfl⟩

theorem takeDirty_timeCount (v : ImageWord) (s : State) : (takeDirty v s).timeCount = s.timeCount := by
  unfold takeDirty
  dsimp only
  split <;> rfl

/-- The status writer's turn shows in no image word: it changes the dirty set and the generation count alone. -/
theorem shown_statusEnqueue (s : State) (w : ImageWord) : shown (statusEnqueue s) w = shown s w := by
  unfold statusEnqueue
  split
  · split
    · exact shown_same rfl rfl rfl rfl rfl rfl w
    · split
      · rfl
      · exact (shown_enqueueImageWord _ _ w).trans (shown_takeDirty _ _ w)
  · rfl

theorem keepsPins_statusEnqueue (s : State) : KeepsPins s (statusEnqueue s) ∧ (statusEnqueue s).timeCount = s.timeCount := by
  unfold statusEnqueue
  split
  · split
    · exact ⟨⟨rfl, rfl, rfl⟩, rfl⟩
    · split
      · exact ⟨KeepsPins.refl s, rfl⟩
      · exact ⟨(keepsPins_takeDirty _ s).trans ⟨rfl, rfl, rfl⟩, takeDirty_timeCount _ s⟩
  · exact ⟨KeepsPins.refl s, rfl⟩

/-! The timebase. -/

/-- A fold of confined operations over a list of parts. -/
theorem confined_parts (due : Bool) (l : List TickPart) : Confined allFaces fun s => l.foldl (tickPart due) s :=
  Confined.foldl (fun p => (effect_tickPart due p).confined) l

theorem confined_epochFaces (l : List (Fin 4)) : Confined allFaces fun s => l.foldl (fun s f => epochFace f s) s :=
  Confined.foldl (op := fun s f => epochFace f s) (fun f => (effect_epochFace f).toAll) l

theorem accounted_runTick (order : List TickPart) : Accounted (runTick order) :=
  ⟨fun s => KeepsPins.trans (t := countTick s) ⟨rfl, rfl, rfl⟩ ((confined_parts _ _).path _).pins,
   fun _ => ((confined_parts _ _).path _).timeCount,
   fun s => TracksImage.trans (t := countTick s) (tracks_same rfl rfl rfl rfl rfl rfl rfl) ((confined_parts _ _).tracks _)⟩

theorem accounted_runEpoch (order : List (Fin 4)) : Accounted (runEpoch order) :=
  ⟨fun s => KeepsPins.trans (t := { s with epochTimer := epochPeriod s.epochSelect }) ⟨rfl, rfl, rfl⟩ ((confined_epochFaces _).path _).pins,
   fun _ => ((confined_epochFaces _).path _).timeCount,
   fun s => TracksImage.trans (t := { s with epochTimer := epochPeriod s.epochSelect }) (tracks_same rfl rfl rfl rfl rfl rfl rfl)
    ((confined_epochFaces _).tracks _)⟩

theorem runMillisecond_pins (order : List TickPart) (s : State) : KeepsPins s (runMillisecond order s) := by
  unfold runMillisecond
  dsimp only
  split
  · exact KeepsPins.trans (t := { s with timeCount := s.timeCount + 1 }) ⟨rfl, rfl, rfl⟩ ((accounted_runTick order).pins _)
  · exact ⟨rfl, rfl, rfl⟩

theorem runMillisecond_tracks (order : List TickPart) (s : State) : TracksImage s (runMillisecond order s) := by
  unfold runMillisecond
  dsimp only
  split
  · exact TracksImage.trans (t := { s with timeCount := s.timeCount + 1 }) (tracks_same rfl rfl rfl rfl rfl rfl rfl)
      ((accounted_runTick order).tracks _)
  · exact tracks_same rfl rfl rfl rfl rfl rfl rfl

end Sys2Proof.Machine
end

