-- ==== Sys2Proof/Laws/TimebaseLaws.lean ====
section
/-! SUPPORT. What a tick and an epoch leave at each face, whatever the order of the blocks. -/

namespace Sys2Proof.Machine

/-! The order of the blocks names each of them once. -/

theorem mem_firstOccurrences {n : Nat} (seen l : List (Fin n)) (x : Fin n) :
    x ∈ firstOccurrences seen l ↔ x ∈ l ∧ x ∉ seen := by
  induction l generalizing seen with
  | nil => simp [firstOccurrences]
  | cons a l ih =>
    unfold firstOccurrences
    split
    · rename_i ha
      rw [ih]
      constructor
      · rintro ⟨h1, h2⟩; exact ⟨List.mem_cons_of_mem _ h1, h2⟩
      · rintro ⟨h1, h2⟩
        refine ⟨?_, h2⟩
        rcases List.mem_cons.1 h1 with e | e
        · exact absurd (e ▸ ha) h2
        · exact e
    · rename_i ha
      rw [List.mem_cons, ih, List.mem_cons, List.mem_cons]
      by_cases e : x = a
      · subst e; simp [ha]
      · simp [e]

theorem nodup_firstOccurrences {n : Nat} (seen l : List (Fin n)) : (firstOccurrences seen l).Nodup := by
  induction l generalizing seen with
  | nil => simp [firstOccurrences]
  | cons a l ih =>
    unfold firstOccurrences
    split
    · exact ih _
    · rw [List.nodup_cons]
      exact ⟨by simp [mem_firstOccurrences], ih _⟩

/-- An order completed names every member. -/
theorem mem_completeOrder {n : Nat} (order : List (Fin n)) (x : Fin n) : x ∈ completeOrder order := by
  simp [completeOrder, mem_firstOccurrences]

/-- An order completed names no member twice. -/
theorem nodup_completeOrder {n : Nat} (order : List (Fin n)) : (completeOrder order).Nodup :=
  nodup_firstOccurrences _ _

/-! What each block does at its own face. -/

/-- The supervisor after a tick (R77, R78). -/
def Supervisor.ticked (p : Supervisor) : Supervisor :=
  if p.state.timed then
    if p.stallTimer ≤ 1 then { p with state := .stalled, stallTimer := 0, stallCount := satSucc Config.max16 p.stallCount }
    else { p with stallTimer := p.stallTimer - 1 }
  else p

/-- The level engine after an epoch (R20). -/
def Face.epochLevel (x : Face) : LevelEngine :=
  if x.sup.state.scanning then
    let e := x.level.adopted
    { e with sensor := e.sensor.tested e.limits.sensorLostEpochs }.computed
  else x.level.adopted

theorem face_stallExpiry (f : Fin 4) (s : State) :
    (stallExpiry f s).face f =
      if (s.face f).sup.state.timed then
        { s.face f with sup := { (s.face f).sup with state := .stalled, stallTimer := 0, stallCount := satSucc Config.max16 (s.face f).sup.stallCount } }
      else s.face f := by
  unfold stallExpiry
  dsimp only
  by_cases h : (s.face f).sup.state.timed
  · simp only [if_pos h, face_raiseEvent, face_touch, face_updFace_self]
  · simp only [if_neg h]

theorem face_stallTick (f : Fin 4) (s : State) : (stallTick f s).face f = { s.face f with sup := (s.face f).sup.ticked } := by
  unfold stallTick Supervisor.ticked
  dsimp only
  by_cases h : (s.face f).sup.state.timed
  · simp only [if_pos h]
    by_cases k : (s.face f).sup.stallTimer ≤ 1
    · simp only [if_pos k, face_stallExpiry, if_pos h]
    · simp only [if_neg k, face_updFace_self]
  · simp only [if_neg h]

theorem face_sensorTest (f : Fin 4) (s : State) :
    (sensorTest f s).face f =
      { s.face f with level := { (s.face f).level with sensor := (s.face f).level.sensor.tested (s.face f).level.limits.sensorLostEpochs } } := by
  unfold sensorTest
  dsimp only
  split <;> simp only [face_raiseEvent, face_touch, face_updFace_self]

theorem face_epochFace (f : Fin 4) (s : State) : (epochFace f s).face f = { s.face f with level := (s.face f).epochLevel } := by
  unfold epochFace Face.epochLevel
  dsimp only
  by_cases h : (s.face f).sup.state.scanning
  · simp only [if_pos h, computeLevel, face_touch, face_updFace_self, face_sensorTest, adoptStaged]
  · simp only [if_neg h, adoptStaged, face_updFace_self]

theorem ticked_scanning (p : Supervisor) : p.ticked.state.scanning = p.state.scanning := by
  obtain ⟨st, n, _, _, _⟩ := p
  unfold Supervisor.ticked
  cases st
  case off => rfl
  case stalled => rfl
  all_goals
    by_cases h : n ≤ 1
    · simp only [FaceState.timed, if_true, if_pos h]; rfl
    · simp only [FaceState.timed, if_true, if_neg h]

/-- A part of a tick at a face. -/
def Face.part (due : Bool) (f : Fin 4) (p : TickPart) (x : Face) : Face :=
  if p.val = f.val then { x with sup := x.sup.ticked }
  else if p.val = f.val + 4 ∧ due = true then { x with level := x.epochLevel }
  else x

theorem face_tickPart (due : Bool) (p : TickPart) (f : Fin 4) (s : State) :
    (tickPart due s p).face f = (s.face f).part due f p := by
  have hf := f.isLt
  have hp := p.isLt
  unfold tickPart Face.part
  by_cases h : p.val < 4
  · rw [if_pos h]
    by_cases e : p.val = f.val
    · have : Fin.ofNat 4 p.val = f := by apply Fin.ext; simp only [Fin.ofNat]; omega
      rw [if_pos e, this, face_stallTick]
    · have : f ∉ [Fin.ofNat 4 p.val] := by
        intro hm; rw [List.mem_singleton] at hm
        apply e; rw [hm]; simp only [Fin.ofNat]; omega
      rw [(effect_stallTick _).faces s f this, if_neg e, if_neg (by omega)]
  · have e0 : ¬p.val = f.val := by omega
    rw [if_neg h, if_neg e0]
    by_cases hd : due = true
    · rw [if_pos hd]
      by_cases e : p.val = f.val + 4
      · have k : Fin.ofNat 4 (p.val - 4) = f := by apply Fin.ext; simp only [Fin.ofNat]; omega
        rw [if_pos ⟨e, hd⟩, k, face_epochFace]
      · have : f ∉ [Fin.ofNat 4 (p.val - 4)] := by
          intro hm; rw [List.mem_singleton] at hm
          apply e; rw [hm]; simp only [Fin.ofNat]; omega
        rw [(effect_epochFace _).faces s f this, if_neg (fun h => e h.1)]
    · rw [if_neg hd, if_neg (fun h => hd h.2)]

/-- What some parts of a tick, each at most once, leave at a face. -/
theorem face_parts (due : Bool) (l : List TickPart) (hl : l.Nodup) (f : Fin 4) (s : State) :
    (l.foldl (tickPart due) s).face f =
      { s.face f with
        sup := if (⟨f.val, by omega⟩ : TickPart) ∈ l then (s.face f).sup.ticked else (s.face f).sup
        level := if (⟨f.val + 4, by omega⟩ : TickPart) ∈ l ∧ due = true then (s.face f).epochLevel else (s.face f).level } := by
  have hf := f.isLt
  induction l generalizing s with
  | nil => simp
  | cons p l ih =>
    rw [List.nodup_cons] at hl
    rw [List.foldl_cons, ih hl.2, face_tickPart]
    unfold Face.part
    by_cases e : p.val = f.val
    · have hp : (⟨f.val, by omega⟩ : TickPart) = p := Fin.ext e.symm
      have hq : ¬(⟨f.val + 4, by omega⟩ : TickPart) = p := fun h => by
        have := congrArg Fin.val h; simp at this; omega
      have hn : (⟨f.val, by omega⟩ : TickPart) ∉ l := by rw [hp]; exact hl.1
      simp only [if_pos e]
      simp only [List.mem_cons, hp, true_or, if_true, hl.1, if_false, hq, false_or]
      simp only [Face.epochLevel, ticked_scanning]
    · have hp : ¬(⟨f.val, by omega⟩ : TickPart) = p := fun h => e (congrArg Fin.val h).symm
      by_cases k : p.val = f.val + 4 ∧ due = true
      · have hq : (⟨f.val + 4, by omega⟩ : TickPart) = p := Fin.ext k.1.symm
        simp only [if_neg e, if_pos k]
        simp only [List.mem_cons, hp, false_or, hq, true_or, true_and, k.2, if_true, hl.1, if_false, false_and]
      · have hq : (((⟨f.val + 4, by omega⟩ : TickPart) = p ∨ (⟨f.val + 4, by omega⟩ : TickPart) ∈ l) ∧ due = true) = ((⟨f.val + 4, by omega⟩ : TickPart) ∈ l ∧ due = true) := by
          apply propext
          constructor
          · rintro ⟨h | h, hd⟩
            · exact absurd ⟨(congrArg Fin.val h).symm, hd⟩ k
            · exact ⟨h, hd⟩
          · rintro ⟨h, hd⟩; exact ⟨.inr h, hd⟩
        simp only [if_neg e, if_neg k]
        simp only [List.mem_cons, hq, hp, false_or]

/-- What a whole tick leaves at a face (R77, R20). -/
theorem face_runTick (order : List TickPart) (f : Fin 4) (s : State) :
    (runTick order s).face f =
      { s.face f with
        sup := (s.face f).sup.ticked
        level := if s.epochDue then (s.face f).epochLevel else (s.face f).level } := by
  unfold runTick
  rw [face_parts _ _ (nodup_completeOrder order)]
  simp only [mem_completeOrder, if_true, true_and]
  rfl

theorem face_epochs (l : List (Fin 4)) (hl : l.Nodup) (f : Fin 4) (s : State) :
    (l.foldl (fun s f => epochFace f s) s).face f =
      { s.face f with level := if f ∈ l then (s.face f).epochLevel else (s.face f).level } := by
  induction l generalizing s with
  | nil => simp
  | cons g l ih =>
    rw [List.nodup_cons] at hl
    rw [List.foldl_cons, ih hl.2]
    by_cases e : f = g
    · subst e
      simp only [face_epochFace, hl.1, if_false, List.mem_cons, true_or, if_true]
    · rw [(effect_epochFace g).faces s f (by simpa using e)]
      simp only [List.mem_cons, e, false_or]

/-- What a whole epoch leaves at a face (R20). -/
theorem face_runEpoch (order : List (Fin 4)) (f : Fin 4) (s : State) :
    (runEpoch order s).face f = { s.face f with level := (s.face f).epochLevel } := by
  unfold runEpoch
  rw [face_epochs _ (nodup_completeOrder order)]
  simp only [mem_completeOrder, if_true]
  rfl

end Sys2Proof.Machine
end

