-- ==== Sys2Proof/Laws/Events.lean ====
section
/-! SUPPORT. What raising an event does to the pending set, the event queue and the drop count, and which words it marks. -/

namespace Sys2Proof.Machine

/-! Sets of classes. -/

theorem hasClass_classBit (c d : Fin 8) : hasClass (classBit c) d = decide (d = c) := by revert c d; decide

theorem hasClass_addClass (s : Set8) (c d : Fin 8) : hasClass (addClass s c) d = (hasClass s d || decide (d = c)) := by
  rw [← hasClass_classBit]; simp [hasClass, addClass]

theorem hasClass_removeClass (s : Set8) (c d : Fin 8) : hasClass (removeClass s c) d = (hasClass s d && !decide (d = c)) := by
  rw [← hasClass_classBit]
  have := d.isLt
  simp [hasClass, removeClass]

/-- Two sets with the same classes are equal. -/
theorem set8_ext {s t : Set8} (h : ∀ c, hasClass s c = hasClass t c) : s = t := by
  apply BitVec.eq_of_getLsbD_eq
  intro i hi
  exact h ⟨i, hi⟩

/-! A class joins the pending set. -/

theorem raiseClass_same (c : Fin 8) (s : State) :
    SameBesidesDirty { s with attention := s.attention.joined c } (raiseClass c s) := rfl

/-! Where a change shows, and that it marks exactly there. -/

/-- A change marks exactly the words it shows in, and those are among some words. -/
structure Marks (ws : List ImageWord) (s t : State) : Prop where
  exactly : MarksExactly s t
  within : ∀ w, w ∉ ws → shown t w = shown s w

theorem Marks.refl (s : State) : Marks [] s s := ⟨marksExactly_refl s, fun _ _ => rfl⟩

theorem Marks.mono {ws vs : List ImageWord} {s t : State} (h : Marks ws s t) (hs : ∀ w ∈ ws, w ∈ vs) : Marks vs s t :=
  ⟨h.exactly, fun w hw => h.within w fun hm => hw (hs w hm)⟩

/-- Two changes in turn that show in no common word. -/
theorem Marks.trans {ws vs : List ImageWord} {s t u : State} (h : Marks ws s t) (k : Marks vs t u)
    (hd : ∀ w ∈ ws, w ∉ vs) : Marks (ws ++ vs) s u where
  exactly := h.exactly.trans_apart k.exactly fun w => by
    by_cases hw : w ∈ ws
    · exact .inl (k.within w (hd w hw))
    · exact .inr (h.within w hw)
  within w hw := by
    rw [List.mem_append, not_or] at hw
    exact (k.within w hw.2).trans (h.within w hw.1)

theorem marks_touch {ws : List ImageWord} {g : State → State} {s : State} (hd : (g s).dirty = s.dirty)
    (h : ∀ w, w ∉ ws → shown (g s) w = shown s w) : Marks ws s (touch ws g s) :=
  ⟨marksExactly_touch hd h, fun w hw => (shown_touch ws g s w).trans (h w hw)⟩

theorem marks_touch_part {ws : List ImageWord} {g : State → State} {s : State} (hf : (g s).faces = s.faces)
    (hd : (g s).dirty = s.dirty) (h : ∀ i, partWord i ∉ ws → partShown (g s) i = partShown s i) :
    Marks ws s (touch ws g s) :=
  marks_touch hd fun _ hw => shown_part hf h hw

theorem marks_touch_updFace {ws : List ImageWord} {f : Fin 4} {h : Face → Face} {s : State}
    (hf : ∀ i, faceWord f i ∉ ws → faceShown (h (s.face f)) i = faceShown (s.face f) i)
    (hm : ∀ n, moduleWord f n ∉ ws → moduleShown (pick (h (s.face f)).records n) (pick (h (s.face f)).mailboxes n) =
      moduleShown (pick (s.face f).records n) (pick (s.face f).mailboxes n)) :
    Marks ws s (touch ws (State.updFace f h) s) :=
  marks_touch rfl fun _ hw => shown_updFace hf hm hw

/-- A change of a face in fields no image word shows. -/
theorem marks_updFace {f : Fin 4} {h : Face → Face} {s : State}
    (hf : ∀ i, faceShown (h (s.face f)) i = faceShown (s.face f) i)
    (hm : ∀ n, moduleShown (pick (h (s.face f)).records n) (pick (h (s.face f)).mailboxes n) =
      moduleShown (pick (s.face f).records n) (pick (s.face f).mailboxes n)) : Marks [] s (s.updFace f h) := by
  have k : ∀ w, shown (s.updFace f h) w = shown s w := fun w =>
    shown_updFace (ws := []) (fun i _ => hf i) (fun n _ => hm n) (by simp)
  exact ⟨marksExactly_of rfl k, fun w _ => k w⟩

/-- A change no image word shows. -/
theorem marks_same {s t : State} (hf : t.faces = s.faces) (he : t.ownWriteErrors = s.ownWriteErrors)
    (hd : t.decoder = s.decoder) (ha : t.attention = s.attention) (hj : t.journal = s.journal)
    (hq : t.eventQueue = s.eventQueue) (hk : t.dirty = s.dirty) : Marks [] s t :=
  ⟨marksExactly_of hk (shown_same hf he hd ha hj hq), fun w _ => shown_same hf he hd ha hj hq w⟩

theorem marks_raiseClass (c : Fin 8) (s : State) : Marks [partWord 3] s (raiseClass c s) := by
  apply marks_touch_part
  · rfl
  · rfl
  · intro i hi
    match i with
    | 3 => exact absurd (by simp) hi
    | 0 | 1 | 2 | 4 | 5 | 6 | 7 => rfl

/-- The drop count rises, and the first drop sets class 7 pending (R147, R156). -/
theorem countDrop_same (s : State) :
    SameBesidesDirty
      { s with
        attention := if s.journal.drops = 0 then s.attention.joined 7 else s.attention
        journal := { s.journal with drops := min 65535 (s.journal.drops + 1) } } (countDrop s) := by
  unfold countDrop
  by_cases h : s.journal.drops = 0
  · simp only [if_pos h]; rfl
  · simp only [if_neg h]; rfl

@[simp] theorem partWord_inj (i j : Fin 8) : partWord i = partWord j ↔ i = j := by
  simp [partWord, Fin.ext_iff]

@[simp] theorem faceWord_inj (f g : Fin 4) (i j : Fin 8) : faceWord f i = faceWord g j ↔ f = g ∧ i = j := by
  have := i.isLt
  have := j.isLt
  simp only [faceWord, Fin.ext_iff]
  omega

@[simp] theorem moduleWord_inj (f g : Fin 4) (n m : Fin 64) : moduleWord f n = moduleWord g m ↔ f = g ∧ n = m := by
  have := n.isLt
  have := m.isLt
  simp only [moduleWord, Fin.ext_iff]
  omega

@[simp] theorem partWord_ne_faceWord (i : Fin 8) (f : Fin 4) (j : Fin 8) : partWord i ≠ faceWord f j := by
  have := i.isLt
  simp only [partWord, faceWord, ne_eq, Fin.ext_iff]
  omega

@[simp] theorem faceWord_ne_partWord (f : Fin 4) (j i : Fin 8) : faceWord f j ≠ partWord i :=
  (partWord_ne_faceWord i f j).symm

@[simp] theorem partWord_ne_moduleWord (i : Fin 8) (f : Fin 4) (n : Fin 64) : partWord i ≠ moduleWord f n := by
  have := i.isLt
  simp only [partWord, moduleWord, ne_eq, Fin.ext_iff]
  omega

@[simp] theorem moduleWord_ne_partWord (f : Fin 4) (n : Fin 64) (i : Fin 8) : moduleWord f n ≠ partWord i :=
  (partWord_ne_moduleWord i f n).symm

@[simp] theorem faceWord_ne_moduleWord' (f g : Fin 4) (i : Fin 8) (n : Fin 64) : faceWord f i ≠ moduleWord g n :=
  faceWord_ne_moduleWord f g i n

@[simp] theorem moduleWord_ne_faceWord (f g : Fin 4) (i : Fin 8) (n : Fin 64) : moduleWord f n ≠ faceWord g i :=
  (faceWord_ne_moduleWord g f i n).symm

theorem marks_drop (s : State) :
    Marks [partWord 6] s (touch [partWord 6] (fun s => { s with journal := { s.journal with drops := satSucc Config.max16 s.journal.drops } }) s) := by
  apply marks_touch_part
  · rfl
  · rfl
  · intro i hi
    match i with
    | 6 => exact absurd (by simp) hi
    | 0 | 1 | 2 | 3 | 4 | 5 | 7 => rfl

@[simp] theorem shown_partWord (s : State) (i : Fin 8) : shown s (partWord i) = partShown s i := by
  unfold shown; rw [imagePlace_partWord]

@[simp] theorem shown_faceWord (s : State) (f : Fin 4) (i : Fin 8) : shown s (faceWord f i) = faceShown (s.face f) i := by
  unfold shown; rw [imagePlace_faceWord]

@[simp] theorem shown_moduleWord (s : State) (f : Fin 4) (n : Fin 64) :
    shown s (moduleWord f n) = moduleShown (pick (s.face f).records n) (pick (s.face f).mailboxes n) := by
  unfold shown; rw [imagePlace_moduleWord]

theorem marks_countDrop (s : State) : Marks [partWord 6, partWord 3] s (countDrop s) := by
  unfold countDrop
  dsimp only
  split
  · exact (marks_drop s).trans (marks_raiseClass _ _) (by simp)
  · exact (marks_drop s).mono (by simp)

/-- A queue with room takes the entry; a full one counts a drop (R147). -/
theorem offerEvent_room (e : EventEntry) (s : State) (h : s.eventQueue.length < 32) :
    SameBesidesDirty { s with eventQueue := s.eventQueue ++ [e] } (offerEvent e s) := by
  unfold offerEvent
  rw [if_pos (by simpa [Config.eventQueueSize] using h)]
  rfl

theorem offerEvent_full (e : EventEntry) (s : State) (h : 32 ≤ s.eventQueue.length) : offerEvent e s = countDrop s := by
  unfold offerEvent
  rw [if_neg (by simpa [Config.eventQueueSize] using h)]

theorem marks_offerEvent (e : EventEntry) (s : State) : Marks [partWord 6, partWord 3, partWord 7] s (offerEvent e s) := by
  unfold offerEvent
  split
  · refine Marks.mono (ws := [partWord 7]) ?_ (by simp)
    apply marks_touch_part
    · rfl
    · rfl
    · intro i hi
      match i with
      | 7 => exact absurd (by simp) hi
      | 0 | 1 | 2 | 3 | 4 | 5 | 6 => rfl
  · exact (marks_countDrop s).mono (by simp)

/-! Marking by a whole event. -/

theorem addClass_eq_self {p q : Set8} {c d : Fin 8} (h : addClass (addClass p c) d = q) (e : q = p) : addClass p c = p := by
  subst e
  apply set8_ext
  intro k
  have := congrArg (hasClass · k) h
  simp only [hasClass_addClass] at this
  rw [hasClass_addClass]
  cases h1 : hasClass q k <;> cases h2 : decide (k = c) <;> simp_all

/-- Two states with the same sets, mask and base show the same attention word. -/
theorem partShown_three {s t : State} (h1 : t.attention.pending = s.attention.pending) (h2 : t.attention.mask = s.attention.mask)
    (h3 : t.attention.inService = s.attention.inService) (h4 : t.attention.base = s.attention.base) :
    partShown t 3 = partShown s 3 := by
  simp only [partShown, Attention.presented, h1, h2, h3, h4]

theorem pending_of_shown {s t : State} (h : partShown t 3 = partShown s 3) : t.attention.pending = s.attention.pending := by
  simp only [partShown, List.cons_append, List.cons.injEq] at h
  have := h.2.2.1
  exact BitVec.eq_of_toNat_eq (by exact_mod_cast this)

/-- A class joined and an entry offered mark exactly the words they show in. -/
theorem marks_raised (c : Fin 8) (e : EventEntry) (s : State) :
    Marks [partWord 6, partWord 3, partWord 7] s (offerEvent e (raiseClass c s)) := by
  have k := marks_raiseClass c s
  have l := marks_offerEvent e (raiseClass c s)
  refine ⟨k.exactly.trans l.exactly fun w hw => ?_, fun w hw => ?_⟩
  · by_cases h3 : w = partWord 3
    · subst h3
      rw [shown_partWord, shown_partWord] at hw
      rw [shown_partWord, shown_partWord]
      have hp := pending_of_shown hw
      have e1 : (raiseClass c s).attention.pending = addClass s.attention.pending c := rfl
      refine partShown_three (s := s) (t := raiseClass c s) ?_ rfl rfl rfl
      rw [e1]
      by_cases hq : (raiseClass c s).eventQueue.length < 32
      · obtain ⟨d, he⟩ := (offerEvent_room e _ hq).exists
        rw [he] at hp
        exact hp
      · rw [offerEvent_full _ _ (by omega)] at hp
        obtain ⟨d, he⟩ := (countDrop_same (raiseClass c s)).exists
        rw [he] at hp
        dsimp only at hp
        split at hp
        · exact addClass_eq_self hp rfl
        · exact hp
    · exact k.within w (by simpa using h3)
  · exact (l.within w hw).trans (k.within w fun hm => hw (by simp at hm; simp [hm]))

/-- A raised event marks exactly the words of the attention controller, the drop count and the event queue it
shows in. -/
theorem marks_raiseEvent (code : EventCode) (f : Fin 4) (n : Fin 64) (x y : Word) (s : State) :
    Marks [partWord 6, partWord 3, partWord 7] s (raiseEvent code f n x y s) := by
  unfold raiseEvent
  cases code.cls
  · exact marks_offerEvent _ _
  · exact marks_raised _ _ _

/-! What events change, whatever their number: the pending set and pulse, the event queue, the drop count. -/

/-- The second state is the first but for faces, pending set, pulse, event queue, drop count and dirty set. -/
def FacesAndEvents (s t : State) : Prop :=
  t = { s with
    faces := t.faces
    attention := { s.attention with pending := t.attention.pending, pulse := t.attention.pulse }
    eventQueue := t.eventQueue
    journal := { s.journal with drops := t.journal.drops }
    dirty := t.dirty }

theorem facesAndEvents_of {s t : State}
    (h : ∃ fs p pu q d di, t = { s with
      faces := fs
      attention := { s.attention with pending := p, pulse := pu }
      eventQueue := q
      journal := { s.journal with drops := d }
      dirty := di }) : FacesAndEvents s t := by
  obtain ⟨fs, p, pu, q, d, di, rfl⟩ := h; rfl

theorem FacesAndEvents.exists {s t : State} (h : FacesAndEvents s t) :
    ∃ fs p pu q d di, t = { s with
      faces := fs
      attention := { s.attention with pending := p, pulse := pu }
      eventQueue := q
      journal := { s.journal with drops := d }
      dirty := di } := ⟨_, _, _, _, _, _, h⟩

theorem FacesAndEvents.refl (s : State) : FacesAndEvents s s := rfl

theorem FacesAndEvents.trans {s t u : State} (h : FacesAndEvents s t) (k : FacesAndEvents t u) : FacesAndEvents s u := by
  obtain ⟨_, _, _, _, _, _, rfl⟩ := h.exists
  obtain ⟨_, _, _, _, _, _, rfl⟩ := k.exists
  rfl

theorem facesAndEvents_updFace (f : Fin 4) (g : Face → Face) (s : State) : FacesAndEvents s (s.updFace f g) := rfl

theorem facesAndEvents_touch (ws : List ImageWord) (f : Fin 4) (g : Face → Face) (s : State) :
    FacesAndEvents s (touch ws (State.updFace f g) s) := rfl

theorem facesAndEvents_raiseClass (c : Fin 8) (s : State) : FacesAndEvents s (raiseClass c s) := rfl

theorem facesAndEvents_countDrop (s : State) : FacesAndEvents s (countDrop s) := by
  unfold countDrop
  dsimp only
  split <;> rfl

theorem facesAndEvents_offerEvent (e : EventEntry) (s : State) : FacesAndEvents s (offerEvent e s) := by
  unfold offerEvent
  split
  · rfl
  · exact facesAndEvents_countDrop s

theorem facesAndEvents_raiseEvent (code : EventCode) (f : Fin 4) (n : Fin 64) (x y : Word) (s : State) :
    FacesAndEvents s (raiseEvent code f n x y s) := by
  unfold raiseEvent
  cases code.cls
  · exact facesAndEvents_offerEvent _ s
  · exact (facesAndEvents_raiseClass _ s).trans (facesAndEvents_offerEvent _ _)

/-- A class is pending after an event if it was, or is the event's, or is class 7 at the first drop. -/
theorem hasClass_raiseEvent (code : EventCode) (f : Fin 4) (n : Fin 64) (x y : Word) (s : State) (c : Fin 8) :
    hasClass (raiseEvent code f n x y s).attention.pending c =
      (hasClass s.attention.pending c || decide (code.cls = some c) ||
        (decide (32 ≤ s.eventQueue.length ∧ s.journal.drops = 0) && decide (c = 7))) := by
  unfold raiseEvent
  have h1 : ∀ k, hasClass (raiseClass? k s).attention.pending c = (hasClass s.attention.pending c || decide (k = some c)) := by
    intro k
    cases k with
    | none => simp [raiseClass?]
    | some k =>
      have : (raiseClass? (some k) s).attention.pending = addClass s.attention.pending k := rfl
      rw [this, hasClass_addClass]
      simp [eq_comm]
  rw [← h1]
  generalize hu : raiseClass? code.cls s = u
  have e1 : u.eventQueue = s.eventQueue := by rw [← hu]; simp
  have e2 : u.journal = s.journal := by rw [← hu]; simp
  rw [← e1, ← e2]
  by_cases hq : u.eventQueue.length < 32
  · obtain ⟨d, e⟩ := (offerEvent_room { code := code, face := f, slot := n, time := s.timeCount, detailA := x, detailB := y } u hq).exists
    rw [e]
    have : ¬(32 ≤ u.eventQueue.length ∧ u.journal.drops = 0) := fun h => absurd h.1 (by omega)
    simp [this]
  · rw [offerEvent_full _ _ (by omega)]
    obtain ⟨d, e⟩ := (countDrop_same u).exists
    rw [e]
    dsimp only
    by_cases hd : u.journal.drops = 0
    · have : (u.attention.joined 7).pending = addClass u.attention.pending 7 := rfl
      rw [if_pos hd, this, hasClass_addClass]
      simp [hd, not_lt.1 hq]
    · rw [if_neg hd]; simp [hd]

/-! Events raised by a tick or an epoch, whatever the order of the blocks. -/

/-- The second state is the first but for faces, tick divider, epoch timer and dirty set. -/
def SameEvents (a b : State) : Prop :=
  b = { a with faces := b.faces, tickDivider := b.tickDivider, epochTimer := b.epochTimer, dirty := b.dirty }

theorem sameEvents_of {a b : State}
    (h : ∃ fs n m d, b = { a with faces := fs, tickDivider := n, epochTimer := m, dirty := d }) : SameEvents a b := by
  obtain ⟨fs, n, m, d, rfl⟩ := h; rfl

theorem SameEvents.exists {a b : State} (h : SameEvents a b) :
    ∃ fs n m d, b = { a with faces := fs, tickDivider := n, epochTimer := m, dirty := d } := ⟨_, _, _, _, h⟩

theorem SameEvents.trans {a b c : State} (h : SameEvents a b) (k : SameEvents b c) : SameEvents a c := by
  obtain ⟨_, _, _, _, rfl⟩ := h.exists
  obtain ⟨_, _, _, _, rfl⟩ := k.exists
  rfl

/-- What an event changes does not depend on faces, tick divider, epoch timer or dirty set. -/
theorem sameEvents_raiseEvent (code : EventCode) (f : Fin 4) (n : Fin 64) (x y : Word) {a b : State} (h : SameEvents a b) :
    SameEvents (raiseEvent code f n x y a) (raiseEvent code f n x y b) := by
  have rc : ∀ (c : Option (Fin 8)) {a b : State}, SameEvents a b → SameEvents (raiseClass? c a) (raiseClass? c b) := by
    intro c a b h
    obtain ⟨_, _, _, _, rfl⟩ := h.exists
    cases c <;> rfl
  have cd : ∀ {a b : State}, SameEvents a b → SameEvents (countDrop a) (countDrop b) := by
    intro a b h
    obtain ⟨_, _, _, _, rfl⟩ := h.exists
    unfold countDrop
    dsimp only
    split <;> rfl
  have oe : ∀ (e : EventEntry) {a b : State}, SameEvents a b → SameEvents (offerEvent e a) (offerEvent e b) := by
    intro e a b h
    have hq : b.eventQueue = a.eventQueue := by obtain ⟨_, _, _, _, rfl⟩ := h.exists; rfl
    unfold offerEvent
    rw [hq]
    split
    · obtain ⟨_, _, _, _, rfl⟩ := h.exists; rfl
    · exact cd h
  have ht : b.timeCount = a.timeCount := by obtain ⟨_, _, _, _, rfl⟩ := h.exists; rfl
  unfold raiseEvent
  rw [ht]
  exact oe _ (rc _ h)

theorem sameEvents_raiseAll (es : List EventEntry) {a b : State} (h : SameEvents a b) :
    SameEvents (raiseAll es a) (raiseAll es b) := by
  unfold raiseAll
  induction es generalizing a b with
  | nil => exact h
  | cons e es ih => exact ih (sameEvents_raiseEvent _ _ _ _ _ h)

/-- A block of a list raises one event or none, which no other block of the list alters: the whole list raises the
events of its blocks in turn. -/
theorem sameEvents_fold {α : Type} (op : State → α → State) (ev : State → α → Option EventEntry)
    (hev : ∀ s p, SameEvents (raiseAll (ev s p).toList s) (op s p)) (hkeep : ∀ s p q, q ≠ p → ev (op s p) q = ev s q)
    (l : List α) (hl : l.Nodup) (s : State) : SameEvents (raiseAll (l.filterMap (ev s)) s) (l.foldl op s) := by
  induction l generalizing s with
  | nil => rfl
  | cons p l ih =>
    rw [List.nodup_cons] at hl
    have e : l.filterMap (ev (op s p)) = l.filterMap (ev s) :=
      List.filterMap_congr fun q hq => hkeep s p q fun h => hl.1 (h ▸ hq)
    have k := ih hl.2 (op s p)
    rw [e] at k
    refine SameEvents.trans ?_ k
    have m := sameEvents_raiseAll (l.filterMap (ev s)) (hev s p)
    have : raiseAll (l.filterMap (ev s)) (raiseAll (ev s p).toList s) = raiseAll ((p :: l).filterMap (ev s)) s := by
      unfold raiseAll
      rw [← List.foldl_append, List.filterMap_cons]
      cases ev s p <;> rfl
    rw [this] at m
    exact m

end Sys2Proof.Machine
end

