-- ==== Sys2Proof/Laws/FaceSteps.lean ====
section
/-! SUPPORT. Chains of changes of one face: the state after them is the state before with that face replaced, but for the dirty set. -/

namespace Sys2Proof.Machine

theorem put_put {α : Type} {n : Nat} (v : Vector α n) (i : Fin n) (a b : α) : put (put v i a) i b = put v i b := by
  simp [put]

theorem put_pick {α : Type} {n : Nat} (v : Vector α n) (i : Fin n) : put v i (pick v i) = v := by
  apply pick_ext
  intro j
  rw [pick_put]
  split
  · subst_vars; rfl
  · rfl

@[simp] theorem setFace_setFace (s : State) (f : Fin 4) (x y : Face) : (s.setFace f x).setFace f y = s.setFace f y := by
  simp only [State.setFace, put_put]

@[simp] theorem setFace_face (s : State) (f : Fin 4) : s.setFace f (s.face f) = s := by
  simp only [State.setFace, State.face, put_pick]

/-- The face is as found. -/
theorem faceAt_start (s : State) (f : Fin 4) : SameBesidesDirty (s.setFace f (s.face f)) s := by
  rw [setFace_face]; exact sameBesidesDirty_refl s

variable {s t : State} {f : Fin 4} {x : Face}

theorem faceAt_face (h : SameBesidesDirty (s.setFace f x) t) : t.face f = x := by
  obtain ⟨d, rfl⟩ := h.exists
  exact face_setFace_self s f x

/-- A change of the face that marks none. -/
theorem faceAt_updFace (h : SameBesidesDirty (s.setFace f x) t) (g : Face → Face) :
    SameBesidesDirty (s.setFace f (g x)) (t.updFace f g) := by
  obtain ⟨d, rfl⟩ := h.exists
  apply sameBesidesDirty_of
  refine ⟨d, ?_⟩
  show ({ s with faces := put (put s.faces f x) f (g (pick (put s.faces f x) f)), dirty := d } : State) = _
  rw [put_put, pick_put_self]; rfl

/-- A change of the face that marks words. -/
theorem faceAt_touch (h : SameBesidesDirty (s.setFace f x) t) (ws : List ImageWord) (g : Face → Face) :
    SameBesidesDirty (s.setFace f (g x)) (touch ws (State.updFace f g) t) :=
  (faceAt_updFace h g).trans (sameBesidesDirty_touch ws (State.updFace f g) t)

end Sys2Proof.Machine
end

