-- ==== Sys2Proof/Laws/Streams.lean ====
section
/-! SUPPORT. What a row of the stream decoder does to an IDLE decoder that it announces its whole payload to: the command's tests and effect on the state as found, and its result. -/

namespace Sys2Proof.Machine

theorem SameBesidesDirty.alike {a b : State} (h : SameBesidesDirty a b) : Alike a b := by
  obtain ⟨d, rfl⟩ := h.exists; rfl

theorem alike_refl (s : State) : Alike s s := rfl

theorem alike_setDecoder (st : DecoderState) (n : Nat) (cmd : Option HeadWord) (r : Option ResultCode) (b : List Word) (s : State) :
    Alike s (setDecoder st n cmd r b s) := rfl

/-- The tests of a command against a state: the result of the first that fails, or DONE (R167). -/
def Command.result (c : Command) (h : HeadFields) (ws : List Word) (s : State) : ResultCode :=
  match c with
  | .faceGeometry => faceGeometryResult h ws s
  | .faceZonemap => faceZonemapResult h ws s
  | .faceCurve => faceCurveResult h ws s
  | .faceLimits => .done
  | .faceStart => faceStartResult h ws s
  | .faceStop => .done
  | .faceHold => .done
  | .faceRelease => .done
  | .outputConfig => .done
  | .linkSetup => linkSetupResult h ws s
  | .moduleCommand => moduleCommandResult h ws s
  | .moduleClear => moduleClearResult h ws s
  | .attnConfig => .done
  | .journalSetup => journalSetupResult h ws s
  | .timingSetup => timingSetupResult h ws s
  | .statusRefresh => .done
  | .partReset => .done

/-- What a command does when every test passes. -/
def Command.effect (c : Command) (h : HeadFields) (ws : List Word) : State → State :=
  match c with
  | .faceGeometry => faceGeometryEffect h ws
  | .faceZonemap => faceZonemapEffect h ws
  | .faceCurve => faceCurveEffect h ws
  | .faceLimits => faceLimitsEffect h ws
  | .faceStart => startFace h.face
  | .faceStop => enterOff h.face
  | .faceHold => faceHoldEffect h ws
  | .faceRelease => releaseLevel h.face
  | .outputConfig => setOutputs h.face (outputsOf (payloadWord ws 0))
  | .linkSetup => linkSetupEffect h ws
  | .moduleCommand => moduleCommandEffect h ws
  | .moduleClear => moduleClearEffect h ws
  | .attnConfig => configureAttention ws
  | .journalSetup => journalSetupEffect h ws
  | .timingSetup => timingSetupEffect h ws
  | .statusRefresh => markAll
  | .partReset => partResetEffect

theorem executeCommand_eq (c : Command) (h : HeadWord) (ws : List Word) (s : State) :
    executeCommand c h ws s = conclude h (c.result h.fields ws s) (c.effect h.fields ws) s := by
  cases c <;> rfl

theorem exec_row (c : Command) (h : HeadFields) (ws : List Word) (s : State) :
    exec (c.row h ws) s = .next (streamCommand c.code h ws s) := by
  cases c <;> rfl

theorem commandOf_code (c : Command) : commandOf c.code = some c := by cases c <;> rfl

/-- The code of a command is the only one that names it. -/
theorem code_of_commandOf {code : BitVec 8} {c : Command} (h : commandOf code = some c) : c.code = code := by
  unfold commandOf at h
  split at h <;> first
    | (cases h; rename_i e; exact BitVec.eq_of_toNat_eq e.symm)
    | cases h

theorem alike_partResetFace (f : Fin 4) (a b : State) (h : Alike a b) : Alike (partResetFace a f) (partResetFace b f) := by
  have u : ∀ x y, Alike x y → Alike (State.updFace f Face.partReset x) (State.updFace f Face.partReset y) := by
    intro x y k; obtain ⟨d, e, rfl⟩ := k.exists; rfl
  exact u _ _ ((effect_enterOff f).deaf a b h)

theorem alike_partResetOwners (a b : State) (h : Alike a b) : Alike (partResetOwners a) (partResetOwners b) := by
  obtain ⟨d, e, rfl⟩ := h.exists; rfl

theorem alike_partResetEffect {a b : State} (h : Alike a b) : Alike (partResetEffect a) (partResetEffect b) := by
  rw [partResetEffect_eq, partResetEffect_eq]
  apply alike_partResetOwners
  simp only [allFaces, List.foldl]
  exact alike_partResetFace _ _ _ (alike_partResetFace _ _ _ (alike_partResetFace _ _ _ (alike_partResetFace _ _ _ h)))

theorem decoder_partResetFace (f : Fin 4) (s : State) : (partResetFace s f).decoder = s.decoder := (effect_enterOff f).decoder s

theorem decoder_partResetOwners (s : State) : (partResetOwners s).decoder = s.decoder := rfl

theorem effect_partResetEffect : Effect allFaces partResetEffect :=
  { confined_partResetEffect with
    decoder := fun s => by
      rw [partResetEffect_eq, decoder_partResetOwners]
      simp only [allFaces, List.foldl, decoder_partResetFace]
    deaf := fun _ _ h => alike_partResetEffect h }

/-- The effect of a command is confined to its faces and leaves the decoder. -/
theorem effect_command (c : Command) (h : HeadFields) (ws : List Word) : Effect (c.faces h) (c.effect h ws) := by
  cases c
  case faceGeometry => exact effect_faceGeometryEffect h ws
  case faceZonemap => exact effect_faceZonemapEffect h ws
  case faceCurve => exact effect_faceCurveEffect h ws
  case faceLimits => exact effect_faceLimitsEffect h ws
  case faceStart => exact effect_startFace h.face
  case faceStop => exact effect_enterOff h.face
  case faceHold => exact effect_holdLevel h.face _
  case faceRelease => exact effect_releaseLevel h.face
  case outputConfig => exact effect_setOutputs h.face _
  case linkSetup => exact effect_setLinkSetup h.face _
  case moduleCommand => exact effect_setMailbox h.face _ _
  case moduleClear => exact effect_moduleClearEffect h ws
  case attnConfig => exact effect_configureAttention ws
  case journalSetup => exact effect_setupJournal _ _ _
  case timingSetup => exact effect_timingSetupEffect h ws
  case statusRefresh => exact effect_markAll
  case partReset => exact effect_partResetEffect

theorem alike_effect (c : Command) (h : HeadFields) (ws : List Word) {a b : State} (k : Alike a b) :
    Alike (c.effect h ws a) (c.effect h ws b) := (effect_command c h ws).deaf a b k

theorem result_alike (c : Command) (h : HeadFields) (ws : List Word) {a b : State} (k : Alike a b) :
    c.result h ws b = c.result h ws a := by
  obtain ⟨d, e, rfl⟩ := k.exists
  cases c <;> rfl

/-! The decoder's end of a command. -/

/-- The state with a command ended with a result at the decoder. -/
def endedWith (h : HeadWord) (r : ResultCode) (s : State) : State := { s with decoder := endedDecoder h.code h.fields r }

theorem endedWith_alike (h : HeadWord) (r : ResultCode) {a b : State} (k : Alike a b) :
    SameBesidesDirty (endedWith h r a) (endedWith h r b) := by
  obtain ⟨d, e, rfl⟩ := k.exists; rfl

theorem endedWith_sets (h : HeadWord) (r : ResultCode) (s : State) :
    SameBesidesDirty (endedWith h r s) (setDecoder .idle 0 none none [] (setResult h r s)) := rfl

/-- The state after a command ended with a result, with CMD_REFUSED raised for every result but DONE (R168). -/
def afterResult (h : HeadWord) (r : ResultCode) (s : State) : State :=
  if r = .done then endedWith h r s
  else raiseEvent .cmdRefused h.fields.face h.fields.slot (codeTagDetail h.code h.fields.tag) (place r.code 0 4) (endedWith h r s)

theorem afterResult_alike (h : HeadWord) (r : ResultCode) {a b : State} (k : Alike a b) :
    SameBesidesDirty (afterResult h r a) (afterResult h r b) := by
  unfold afterResult
  split
  · exact endedWith_alike h r k
  · exact blind_raiseEvent _ _ _ _ _ _ _ (endedWith_alike h r k)

theorem postResult_same (h : HeadWord) (r : ResultCode) {a b : State} (k : Alike a b) :
    SameBesidesDirty (afterResult h r a) (postResult h r b) := by
  refine (afterResult_alike h r k).trans ?_
  unfold afterResult postResult
  split
  · exact endedWith_sets h r b
  · exact blind_raiseEvent _ _ _ _ _ _ _ (endedWith_sets h r b)

/-- A command executed on a state with its tests and effect (R167, R168). -/
def Command.executed (c : Command) (h : HeadWord) (ws : List Word) (s : State) : State :=
  afterResult h (c.result h.fields ws s) (if c.result h.fields ws s = .done then c.effect h.fields ws s else s)

theorem executeCommand_same (c : Command) (h : HeadWord) (ws : List Word) {a b : State} (k : Alike a b) :
    SameBesidesDirty (c.executed h ws a) (executeCommand c h ws b) := by
  rw [executeCommand_eq]
  unfold conclude Command.executed
  rw [result_alike c h.fields ws k]
  apply postResult_same
  split
  · exact alike_effect c _ _ k
  · exact k

theorem completeCommand_same (c : Command) (h : HeadWord) (hc : commandOf h.code = some c) (ws : List Word) {a b : State}
    (k : Alike a b) : SameBesidesDirty (c.executed h ws a) (completeCommand h ws b) := by
  unfold completeCommand
  rw [hc]
  exact executeCommand_same c h ws k

/-! The whole of a command. -/

theorem takeBodies_cons (w : Word) (ws : List Word) (s : State) : takeBodies (w :: ws) s = takeBodies ws (takeBody w s) := rfl

/-- A COLLECTING decoder given exactly the words it waits for executes its command against its whole payload. -/
theorem takeBodies_collecting (c : Command) (h : HeadWord) (hc : commandOf h.code = some c) (s : State) (ws : List Word) (t : State)
    (k : Alike s t) (hs : t.decoder.state = .collecting) (hn : t.decoder.remaining = ws.length) (hw : ws ≠ [])
    (hp : t.decoder.inProgress = some h) :
    SameBesidesDirty (c.executed h (t.decoder.buffer ++ ws) s) (takeBodies ws t) := by
  induction ws generalizing t with
  | nil => exact absurd rfl hw
  | cons w ws ih =>
    rw [takeBodies_cons, takeBody_eq]
    unfold bodyAt
    rw [hs]
    by_cases e : ws = []
    · subst e
      have : t.decoder.remaining ≤ 1 := by rw [hn]; simp
      simp only [if_pos this]
      have hcmd : t.decoder.command = h := by simp [Decoder.command, hp]
      rw [hcmd]
      exact completeCommand_same c h hc _ k
    · have hl : 0 < ws.length := List.length_pos_iff.2 e
      have : ¬t.decoder.remaining ≤ 1 := by rw [hn]; simp; omega
      simp only [if_neg this]
      have := ih (setDecoder .collecting (t.decoder.remaining - 1) t.decoder.inProgress t.decoder.refusal (t.decoder.buffer ++ [w]) t)
        (k.trans (alike_setDecoder _ _ _ _ _ _)) rfl (by show t.decoder.remaining - 1 = _; rw [hn]; simp) e hp
      have eb : (setDecoder .collecting (t.decoder.remaining - 1) t.decoder.inProgress t.decoder.refusal (t.decoder.buffer ++ [w]) t).decoder.buffer
          ++ ws = t.decoder.buffer ++ w :: ws := by
        show (t.decoder.buffer ++ [w]) ++ ws = _
        simp
      rw [eb] at this
      exact this

/-- A DISCARDING decoder given exactly the words it drops ends with its pending refusal. -/
theorem takeBodies_discarding (h : HeadWord) (r : ResultCode) (s : State) (ws : List Word) (t : State)
    (k : Alike s t) (hs : t.decoder.state = .discarding) (hn : t.decoder.remaining = ws.length) (hw : ws ≠ [])
    (hp : t.decoder.inProgress = some h) (hr : t.decoder.refusal = some r) :
    SameBesidesDirty (afterResult h r s) (takeBodies ws t) := by
  induction ws generalizing t with
  | nil => exact absurd rfl hw
  | cons w ws ih =>
    rw [takeBodies_cons, takeBody_eq]
    unfold bodyAt
    rw [hs]
    by_cases e : ws = []
    · subst e
      have : t.decoder.remaining ≤ 1 := by rw [hn]; simp
      simp only [if_pos this]
      have hcmd : t.decoder.command = h := by simp [Decoder.command, hp]
      rw [hcmd, hr]
      exact postResult_same h r k
    · have hl : 0 < ws.length := List.length_pos_iff.2 e
      have : ¬t.decoder.remaining ≤ 1 := by rw [hn]; simp; omega
      simp only [if_neg this]
      exact ih (setDecoder .discarding (t.decoder.remaining - 1) t.decoder.inProgress t.decoder.refusal t.decoder.buffer t)
        (k.trans (alike_setDecoder _ _ _ _ _ _)) rfl (by show t.decoder.remaining - 1 = _; rw [hn]; simp) e hp hr

theorem abandon_idle {s : State} (h : s.decoder.state = .idle) : abandonCommand s = s := by
  unfold abandonCommand; rw [h]

/-- A row whose command allows its payload count, taken by a decoder that abandons nothing. -/
theorem streamCommand_taken (c : Command) (h : HeadFields) (ws : List Word) (s : State)
    (hi : s.decoder.state = .idle) (hn : ws.length = h.count.toNat) (ha : c.allows ws.length = true) :
    SameBesidesDirty (c.executed { code := c.code, fields := h } ws s) (streamCommand c.code h ws s) := by
  unfold streamCommand takeHead decodeHead
  rw [abandon_idle hi]
  simp only [commandOf_code, ← hn, ha, if_true]
  by_cases e : ws = []
  · subst e
    exact executeCommand_same c _ [] (alike_refl s)
  · have hl : ws.length ≠ 0 := fun k => e (List.length_eq_zero_iff.1 k)
    simp only [if_neg hl]
    exact takeBodies_collecting c { code := c.code, fields := h } (commandOf_code c) s ws
      (setDecoder .collecting ws.length (some { code := c.code, fields := h }) none [] s) (alike_setDecoder _ _ _ _ _ s) rfl rfl e rfl

theorem exec_taken {c : Command} {h : HeadFields} {ws : List Word} {s : State} (k : Taken c h ws s) :
    ∃ t, exec (c.row h ws) s = .next t ∧ SameBesidesDirty (c.executed { code := c.code, fields := h } ws s) t :=
  ⟨_, exec_row c h ws s, streamCommand_taken c h ws s k.idle k.whole k.allowed⟩

/-- A row that its tests pass does its effect and ends DONE. -/
theorem exec_done {c : Command} {h : HeadFields} {ws : List Word} {s u : State} (k : Taken c h ws s)
    (hr : c.result h ws s = .done) (hu : Alike (c.effect h ws s) u) :
    ∃ t, exec (c.row h ws) s = .next t ∧ SameBesidesDirty (doneWith c h u) t := by
  obtain ⟨t, ht, hs⟩ := exec_taken k
  refine ⟨t, ht, SameBesidesDirty.trans ?_ hs⟩
  unfold Command.executed afterResult
  simp only [hr, if_true]
  exact endedWith_alike { code := c.code, fields := h } .done hu.symm

/-- The posted result code of a refusal lies in the low bits of detail B. -/
theorem place_code (r : ResultCode) : place r.code 0 4 = plainDetail r.code := by cases r <;> rfl

/-! Tests in order, as propositions and as a computed result. -/

/-- One more test at the front: what is left need agree only where that test passes. -/
theorem firstFailing_cons {P : Prop} {b : Bool} (hb : b = true ↔ P) (q : ResultCode) {ts : List (Prop × ResultCode)}
    {ps : List (Bool × ResultCode)} {r : ResultCode} (h : P → (FirstFailing ts r ↔ firstFailure ps = r)) :
    FirstFailing ((P, q) :: ts) r ↔ firstFailure ((b, q) :: ps) = r := by
  by_cases hp : P
  · simp only [FirstFailing, hp, true_implies, not_true, false_implies, and_true, firstFailure, hb.2 hp, if_true]
    exact h hp
  · have hf : b = false := by simpa using fun k => hp (hb.1 k)
    simp only [FirstFailing, hp, false_implies, not_false_iff, true_implies, true_and, firstFailure, hf]
    exact eq_comm

theorem firstFailing_nil (r : ResultCode) : FirstFailing [] r ↔ firstFailure [] = r := eq_comm

/-- A row whose tests give a result other than DONE is refused with it. -/
theorem exec_refused {c : Command} {h : HeadFields} {ws : List Word} {s : State} {r : ResultCode} (k : Taken c h ws s)
    (hr : c.result h ws s = r) (hne : r ≠ .done) : Refused c h ws s r := by
  obtain ⟨t, ht, hs⟩ := exec_taken k
  refine ⟨t, ht, ?_⟩
  unfold Command.executed afterResult at hs
  simp only [hr, if_neg hne, place_code] at hs
  exact hs

end Sys2Proof.Machine
end

