-- ==== Sys2Proof/Laws/Atoms.lean ====
section
/-! SUPPORT. Every step is a chain of the named operations, each with what its caller has tested; so an invariant that each of them keeps is one that every step keeps. -/

namespace Sys2Proof.Machine

/-- One named operation that a step is made of, with the tests its caller has made. -/
inductive Atom : State → State → Prop
  | event (code : EventCode) (f : Fin 4) (n : Fin 64) (x y : Word) (s : State) : Atom s (raiseEvent code f n x y s)
  | decoder (st : DecoderState) (n : Nat) (cmd : Option HeadWord) (r : Option ResultCode) (b : List Word) (s : State)
      (sound : DecoderSound s.decoder →
        DecoderSound { s.decoder with state := st, remaining := n, inProgress := cmd, refusal := r, buffer := b }) :
      Atom s (setDecoder st n cmd r b s)
  | result (h : HeadWord) (r : ResultCode) (s : State) : Atom s (setResult h r s)
  | command (c : Command) (h : HeadFields) (ws : List Word) (s : State) (done : c.result h ws s = .done)
      (allowed : DecoderSound s.decoder → c.allows ws.length = true) : Atom s (c.effect h ws s)
  | ack (code : BitVec 4) (rotate : Bool) (c : Fin 8) (s : State) : Atom s (takeAck code rotate c s)
  | consumed (v : BitVec 16) (s : State) : Atom s (offerConsumed v s)
  | frameStart (f : Fin 4) (s : State) (scanning : (s.face f).sup.state ≠ .off) : Atom s (superviseFrameStart f (latch f s))
  | enter (r : Request) (c : RequestClass) (k : Option ScaleContext) (s : State) (order : s.orderList.length < 16)
      (queue : c ≠ .localWrite → s.forwardQueue.length < 8) (localKind : c = .localWrite → r.kind = .write)
      (scanKind : k.isSome = true → r.kind = .read) (context : k.isSome = true ↔ c.kept = .forwardScale) :
      Atom s (enterRequest r c k s)
  | waiting (rs : List Request) (s : State) : Atom s { s with cportWaiting := rs }
  | response (s : State) : Atom s (takeResponse s)
  | grant (s : State) : Atom s (grantBeat s)
  | memory (st : Status) (data : Word) (s : State) (kept : st ≠ .discarded) : Atom s (takeMemoryResponse st data s)
  | journal (s : State) : Atom s (journalEnqueue s)
  | status (s : State) : Atom s (statusEnqueue s)
  | millisecond (s : State) : Atom s { s with timeCount := s.timeCount + 1 }
  | divider (s : State) (below : s.tickDivider < 9) : Atom s { s with tickDivider := s.tickDivider + 1 }
  | tick (s : State) : Atom s (countTick s)
  | reload (s : State) : Atom s { s with epochTimer := epochPeriod s.epochSelect }
  | stallTick (f : Fin 4) (s : State) : Atom s (stallTick f s)
  | stallExpiry (f : Fin 4) (s : State) : Atom s (stallExpiry f s)
  | epoch (f : Fin 4) (s : State) : Atom s (epochFace f s)
  | sync (f : Fin 4) (s : State) : Atom s (linkSync f s)
  | slotStart (f : Fin 4) (n : Fin 64) (s : State) : Atom s (slotStart f n s)
  | slotEnd (f : Fin 4) (n : Fin 64) (w : LinkWord) (s : State) : Atom s (slotEnd f n w s)
  | drainEnd (f : Fin 4) (s : State) : Atom s (drainEnd f s)
  | pulseEnd (s : State) : Atom s (endPulse s)
  | reset (wsel : BitVec 2) (s : State) : Atom s (powerOn wsel s)
  | assertion (s : State) : Atom s { s with porstAsserted := true }
  | command_taken (cs : List Instr) (s : State) : Atom s { s with pending := cs }

/-- A chain of named operations. -/
abbrev Chain : State → State → Prop := Relation.ReflTransGen Atom

theorem Chain.one {s t : State} (h : Atom s t) : Chain s t := .single h

theorem chain_foldl {α : Type} {op : State → α → State} (h : ∀ s a, Chain s (op s a)) (l : List α) (s : State) : Chain s (l.foldl op s) := by
  induction l generalizing s with
  | nil => exact .refl
  | cons a l ih => exact (h s a).trans (ih _)

/-! The stream decoder. -/

theorem decoderSound_idle (r : ResultWord) :
    DecoderSound { state := .idle, remaining := 0, inProgress := none, refusal := none, buffer := [], result := r } :=
  ⟨fun _ => ⟨rfl, rfl, rfl, rfl⟩, fun h => (by cases h), fun h => (by cases h), by simp⟩

theorem chain_postResult (h : HeadWord) (r : ResultCode) (s : State) : Chain s (postResult h r s) := by
  have k : Chain s (setDecoder .idle 0 none none [] (setResult h r s)) :=
    (Chain.one (.result h r s)).tail (.decoder _ _ _ _ _ _ fun _ => decoderSound_idle _)
  unfold postResult
  dsimp only
  split
  · exact k
  · exact k.tail (.event _ _ _ _ _ _)

theorem chain_abandonCommand (s : State) : Chain s (abandonCommand s) := by
  unfold abandonCommand
  split
  · exact .refl
  · exact .refl
  · exact (Chain.one (.result _ _ s)).tail (.event _ _ _ _ _ _)

theorem chain_executeCommand (c : Command) (h : HeadWord) (ws : List Word) (s : State)
    (ha : DecoderSound s.decoder → c.allows ws.length = true) : Chain s (executeCommand c h ws s) := by
  rw [executeCommand_eq]
  unfold conclude
  refine Relation.ReflTransGen.trans ?_ (chain_postResult _ _ _)
  split
  · exact Chain.one (.command c h.fields ws s ‹_› ha)
  · exact .refl

theorem allows_le (c : Command) (n : Nat) (h : c.allows n = true) : n ≤ 16 := by
  cases c <;> simp [Command.allows] at h <;> omega

theorem chain_decodeHead (h : HeadWord) (s : State) : Chain s (decodeHead h s) := by
  unfold decodeHead
  cases hc : commandOf h.code with
  | none =>
    dsimp only
    split
    · exact chain_postResult _ _ _
    · refine .one (.decoder _ _ _ _ _ _ fun _ => ⟨fun h => (by cases h), fun h => (by cases h), fun _ => ⟨h, rfl, rfl, ?_, Nat.le_refl _, ?_⟩, by simp⟩)
      · show 1 ≤ h.fields.count.toNat; omega
      · simp [hc]
  | some c =>
    dsimp only
    split
    · split
      · rename_i ha hz
        exact chain_executeCommand c h [] s fun _ => by rw [hz] at ha; exact ha
      · rename_i ha hz
        exact .one (.decoder _ _ _ _ _ _ fun _ =>
          ⟨fun h => (by cases h), fun _ => ⟨h, c, rfl, hc, ha, rfl, by show 1 ≤ h.fields.count.toNat; omega, by simp⟩,
            fun h => (by cases h), by simp⟩)
    · split
      · exact chain_postResult _ _ _
      · refine .one (.decoder _ _ _ _ _ _ fun _ => ⟨fun h => (by cases h), fun h => (by cases h), fun _ => ⟨h, rfl, rfl, ?_, Nat.le_refl _, ?_⟩, by simp⟩)
        · show 1 ≤ h.fields.count.toNat; omega
        · simp [hc]

theorem chain_takeHead (h : HeadWord) (s : State) : Chain s (takeHead h s) :=
  (chain_abandonCommand s).trans (chain_decodeHead h _)

theorem chain_takeBody (w : Word) (s : State) : Chain s (takeBody w s) := by
  rw [takeBody_eq]
  unfold bodyAt
  cases hs : s.decoder.state <;> dsimp only
  · exact .one (.event _ _ _ _ _ _)
  · split
    · rename_i hr
      unfold completeCommand
      cases hc : commandOf s.decoder.command.code with
      | none => exact chain_postResult _ _ _
      | some c =>
        refine chain_executeCommand c _ _ s fun hd => ?_
        obtain ⟨h, c', hp, hc', ha, -, h1, hn⟩ := hd.collecting hs
        have : s.decoder.command = h := by simp [Decoder.command, hp]
        rw [this, hc'] at hc
        cases hc
        have e : (s.decoder.buffer ++ [w]).length = h.fields.count.toNat := by simp; omega
        rw [e]; exact ha
    · rename_i hr
      refine .one (.decoder _ _ _ _ _ _ fun hd => ?_)
      obtain ⟨h, c', hp, hc', ha, hre, h1, hn⟩ := hd.collecting hs
      have := allows_le c' _ ha
      exact ⟨fun h => (by cases h),
        fun _ => ⟨h, c', hp, hc', ha, hre, by show 1 ≤ s.decoder.remaining - 1; omega,
          by show (s.decoder.buffer ++ [w]).length + (s.decoder.remaining - 1) = _; simp; omega⟩,
        fun h => (by cases h), by show (s.decoder.buffer ++ [w]).length ≤ 16; simp; omega⟩
  · split
    · exact chain_postResult _ _ _
    · rename_i hr
      refine .one (.decoder _ _ _ _ _ _ fun hd => ?_)
      obtain ⟨h, hp, hb, h1, hn, hre⟩ := hd.discarding hs
      exact ⟨fun h => (by cases h), fun h => (by cases h),
        fun _ => ⟨h, hp, hb, by show 1 ≤ s.decoder.remaining - 1; omega, by show s.decoder.remaining - 1 ≤ _; omega, hre⟩,
        hd.buffer⟩

theorem chain_takeBodies (ws : List Word) (s : State) : Chain s (takeBodies ws s) :=
  chain_foldl (op := fun s w => takeBody w s) (fun s w => chain_takeBody w s) ws s

theorem chain_streamCommand (code : BitVec 8) (h : HeadFields) (ws : List Word) (s : State) : Chain s (streamCommand code h ws s) :=
  (chain_takeHead _ s).trans (chain_takeBodies ws _)

/-! The request path. -/

theorem chain_handOn (r : Request) (c : RequestClass) (s : State) : Chain s (handOn r c s) := by
  cases c
  · exact .refl
  · rename_i w
    cases w
    · exact chain_takeHead _ s
    · exact chain_takeBody _ s
    · exact .one (.ack _ _ _ s)
    · exact .one (.consumed _ s)
  · exact .one (.event _ _ _ _ _ _)
  · exact .refl
  · exact .refl

theorem scanFace_scanning {s : State} {r : Request} {f : Fin 4} (h : scanFace s r = some f) :
    r.kind = .read ∧ (s.face f).sup.state ≠ .off := by
  have := List.find?_some h
  simp only [isScanRead, Bool.and_eq_true, beq_iff_eq] at this
  refine ⟨this.1.1.1, fun e => ?_⟩
  rw [e] at this
  exact absurd this.2 (by decide)

theorem classify_scan {s : State} {r : Request} {f : Fin 4} {z : Fin 64} {b : Bool} (h : classify s r = .scan f z b) :
    r.kind = .read ∧ (s.face f).sup.state ≠ .off := by
  unfold classify at h
  cases hk : r.kind with
  | write =>
    rw [hk] at h
    cases hw : s.windowOffset r.addr with
    | none => rw [hw] at h; cases h
    | some o =>
      rw [hw] at h
      simp only [classifyWindowWrite] at h
      split at h
      · cases h
      · split at h
        · cases h
        · split at h <;> cases h
  | read =>
    rw [hk] at h
    simp only [classifyScan] at h
    cases hf : scanFace s r with
    | none => rw [hf] at h; cases h
    | some g =>
      rw [hf] at h
      simp only [] at h
      split at h
      · cases h
      · cases h
        exact ⟨rfl, (scanFace_scanning hf).2⟩

theorem classify_local {s : State} {r : Request} (h : classify s r = .localWrite) : r.kind = .write := by
  cases hk : r.kind with
  | write => rfl
  | read =>
    unfold classify at h
    rw [hk] at h
    simp only [classifyScan] at h
    cases hf : scanFace s r with
    | none => rw [hf] at h; cases h
    | some g =>
      rw [hf] at h
      simp only [] at h
      split at h <;> cases h

theorem room_of_canAccept {s : State} {r : Request} (h : canAccept s r = true) :
    s.orderList.length < 16 ∧ (classify s r ≠ .localWrite → s.forwardQueue.length < 8) := by
  simp only [canAccept, Bool.and_eq_true, Bool.or_eq_true, decide_eq_true_eq, beq_iff_eq] at h
  exact ⟨h.1.2, fun e => h.2.resolve_left e⟩

theorem chain_acceptRequest (r : Request) (s : State) (h : canAccept s r = true) : Chain s (acceptRequest r s) := by
  obtain ⟨ho, hq⟩ := room_of_canAccept h
  unfold acceptRequest acceptAs
  dsimp only
  refine Relation.ReflTransGen.trans ?_ (chain_handOn _ _ _)
  have key : Chain s (superviseIfFrameStart (classify s r) (latchIfFrameStart (classify s r) s)) := by
    cases hc : classify s r with
    | scan f z b =>
      cases b
      · exact .refl
      · exact .one (.frameStart f s (classify_scan hc).2)
    | _ => exact .refl
  have kp : KeepsPath s (superviseIfFrameStart (classify s r) (latchIfFrameStart (classify s r) s)) :=
    ((confined_latchIfFrameStart _).path s).trans ((confined_superviseIfFrameStart _).path _)
  refine key.tail (.enter r _ _ _ ?_ ?_ ?_ ?_ ?_)
  · rw [kp.orderList]; exact ho
  · rw [kp.forwardQueue]; exact hq
  · exact classify_local
  · intro hk
    cases hc : classify s r with
    | scan f z b => exact (classify_scan hc).1
    | _ => rw [hc] at hk; cases hk
  · cases classify s r <;> simp [contextOf, RequestClass.kept]

theorem chain_acceptFrom (rs : List Request) (s : State) : Chain s (acceptFrom rs s) := by
  induction rs generalizing s with
  | nil => exact .one (.waiting _ s)
  | cons r rest ih =>
    unfold acceptFrom
    split
    · exact (chain_acceptRequest r s ‹_›).trans (ih _)
    · exact .one (.waiting _ s)

/-! The timebase. -/

theorem chain_tickPart (due : Bool) (s : State) (p : TickPart) : Chain s (tickPart due s p) := by
  unfold tickPart
  split
  · exact .one (.stallTick _ s)
  · split
    · exact .one (.epoch _ s)
    · exact .refl

theorem chain_runTick (order : List TickPart) (s : State) : Chain s (runTick order s) :=
  Relation.ReflTransGen.head (.tick s) (chain_foldl (fun s p => chain_tickPart _ s p) _ _)

theorem chain_runMillisecond (order : List TickPart) (s : State) : Chain s (runMillisecond order s) := by
  unfold runMillisecond
  dsimp only
  split
  · exact .head (.millisecond s) (chain_runTick order _)
  · rename_i h
    have : s.tickDivider < 9 := by simp only [Config.tickDividerPeriod] at h; omega
    exact .head (.millisecond s) (Chain.one (.divider { s with timeCount := s.timeCount + 1 } this))

theorem chain_runEpoch (order : List (Fin 4)) (s : State) : Chain s (runEpoch order s) :=
  .head (.reload s) (chain_foldl (op := fun s f => epochFace f s) (fun s f => .one (.epoch f s)) _ _)

/-! Every step. -/

theorem chain_exec (c : Instr) (s t : State) (h : exec c s = .next t) : Chain s t := by
  cases c with
  | powerOnReset w => cases h; exact .one (.reset w s)
  | millisecondIncrement o => cases h; exact chain_runMillisecond o s
  | tick o => cases h; exact chain_runTick o s
  | epoch o => cases h; exact chain_runEpoch o s
  | stallExpiry f => cases h; exact .one (.stallExpiry f s)
  | cportRequestAccept r =>
    cases h; unfold offerRequest; split
    exacts [.refl, chain_acceptFrom _ _]
  | localWrite w l b d t i =>
    cases h; unfold offerRequest; split
    exacts [.refl, chain_acceptFrom _ _]
  | cportResponseTaken => cases h; exact .head (.response s) (chain_acceptFrom _ _)
  | mportGrant => cases h; exact .head (.grant s) (chain_acceptFrom _ _)
  | memoryResponse st d =>
    cases h
    refine .one (.memory _ d s ?_)
    unfold memoryStatusOf; split <;> simp
  | journalRecordEnqueue => cases h; exact .one (.journal s)
  | statusWordEnqueue => cases h; exact .one (.status s)
  | linkSync f => cases h; exact .one (.sync f s)
  | slotStart f n => cases h; exact .one (.slotStart f n s)
  | slotEnd f n w => cases h; exact .one (.slotEnd f n w s)
  | drainEnd f => cases h; exact .one (.drainEnd f s)
  | attnPulseEnd => cases h; exact .one (.pulseEnd s)
  | bodyWord w => cases h; exact chain_takeBody w s
  | take => cases h; exact .one (.ack 1 false 0 s)
  | finishTop b => cases h; exact .one (.ack 2 b 0 s)
  | finish b c => cases h; exact .one (.ack 3 b c s)
  | setLowest c => cases h; exact .one (.ack 4 false c s)
  | ackInvalid o => cases h; exact .one (.ack o false 0 s)
  | consumedWrite w => cases h; exact .one (.consumed _ s)
  | porstNAssertion => cases h; exact .one (.assertion s)
  | unknownCommand code h ws => cases h; exact chain_streamCommand _ _ _ s
  | _ => cases h; exact chain_streamCommand _ _ _ s

theorem chain_step (s t : State) (h : step s = .next t) : Chain s t := by
  unfold step at h
  split at h
  · cases h; exact .refl
  · exact .head (.command_taken _ s) (chain_exec _ _ _ h)

/-- An invariant that every named operation keeps is one that every step keeps. -/
theorem kept_by_steps {P : State → Prop} (hp : ∀ s t, P s → Atom s t → P t) {s t : State} (hs : P s) (h : step s = .next t) : P t := by
  have := chain_step s t h
  clear h
  induction this with
  | refl => exact hs
  | tail _ a ih => exact hp _ _ ih a

end Sys2Proof.Machine
end

