-- ==== Sys2Proof/Laws/CommandTests.lean ====
section
/-! SUPPORT. The tests of the commands as propositions, and the payload fields they read, for statements that name the tests in the spec's terms. -/

namespace Sys2Proof.Machine

/-! Lists of tests. -/

/-- A list of tests gives DONE exactly when every one of them passes. -/
theorem firstFailure_done_iff (l : List (Bool × ResultCode)) (hl : ∀ p ∈ l, p.2 ≠ .done) :
    firstFailure l = .done ↔ ∀ p ∈ l, p.1 = true := by
  induction l with
  | nil => simp [firstFailure]
  | cons p l ih =>
    obtain ⟨b, r⟩ := p
    have ih := ih fun q hq => hl q (List.mem_cons_of_mem _ hq)
    cases b with
    | true => simp [firstFailure, ih]
    | false =>
      have := hl (false, r) (by simp)
      simp [firstFailure]
      exact this

/-! Payload fields. -/

/-- The fields of words that carry two each. -/
theorem flatMap_two_get (g h : Word → Nat) (ws : List Word) (i : Nat) :
    (ws.flatMap fun w => [g w, h w])[i]? = (ws[i/2]?).map (if i % 2 = 0 then g else h) := by
  induction ws generalizing i with
  | nil => simp
  | cons w ws ih =>
    rw [List.flatMap_cons]
    match i with
    | 0 => simp
    | 1 => simp
    | n+2 =>
      have : (n+2)/2 = n/2 + 1 := by omega
      rw [this]
      show (ws.flatMap fun w => [g w, h w])[n]? = _
      rw [ih]
      simp

/-- The fields of words that carry four each. -/
theorem flatMap_four_get (a b c d : Word → Nat) (ws : List Word) (i : Nat) :
    (ws.flatMap fun w => [a w, b w, c w, d w])[i]? = (ws[i/4]?).map (match i % 4 with | 0 => a | 1 => b | 2 => c | _ => d) := by
  induction ws generalizing i with
  | nil => simp
  | cons w ws ih =>
    rw [List.flatMap_cons]
    match i with
    | 0 => simp
    | 1 => simp
    | 2 => simp
    | 3 => simp
    | n+4 =>
      have : (n+4)/4 = n/4 + 1 := by omega
      rw [this]
      show (ws.flatMap fun w => [a w, b w, c w, d w])[n]? = _
      rw [ih]
      simp

theorem flatMap_boundaryFields_length (ws : List Word) : (ws.flatMap boundaryFields).length = 2 * ws.length := by
  induction ws with
  | nil => rfl
  | cons w ws ih => rw [List.flatMap_cons, List.length_append, ih]; simp [boundaryFields]; omega

theorem flatMap_slotFields_length (ws : List Word) : (ws.flatMap slotFields).length = 4 * ws.length := by
  induction ws with
  | nil => rfl
  | cons w ws ih => rw [List.flatMap_cons, List.length_append, ih]; simp [slotFields]; omega

theorem boundaries_get (ws : List Word) (k n i b : Nat) (h : (boundaries (ws.drop k) n)[i]? = some b) :
    b = (payloadWord ws (k + i / 2)).toNat / 2 ^ (16 * (i % 2)) % 2 ^ 16 := by
  unfold boundaries at h
  rw [List.getElem?_take] at h
  split at h
  · have := flatMap_two_get (fun w => field w 0 16) (fun w => field w 16 16) (ws.drop k) i
    rw [show (ws.drop k).flatMap boundaryFields = (ws.drop k).flatMap fun w => [field w 0 16, field w 16 16] from rfl, this] at h
    rw [List.getElem?_drop] at h
    unfold payloadWord
    rw [List.getD_eq_getElem?_getD]
    cases hw : ws[k + i/2]? with
    | none => rw [hw] at h; simp at h
    | some w =>
      rw [hw] at h
      simp only [Option.map_some, Option.some.injEq] at h
      subst h
      simp only [Option.getD_some]
      rcases Nat.mod_two_eq_zero_or_one i with e | e <;> simp [e, field]
  · cases h

/-- The boundaries of a list whose words the payload carries, field by field (R169). -/
theorem boundaries_eq (ws : List Word) (k n : Nat) (h : n ≤ 2 * (ws.length - k)) :
    boundaries (ws.drop k) n = (List.range n).map fun i => payloadHalf ws (2 * k + i) := by
  have hl : (boundaries (ws.drop k) n).length = n := by
    simp only [boundaries, List.length_take, flatMap_boundaryFields_length, List.length_drop]; omega
  apply List.ext_getElem (by simp [hl])
  intro i h1 h2
  have := boundaries_get ws k n i ((boundaries (ws.drop k) n)[i]) (List.getElem?_eq_getElem h1)
  rw [this, List.getElem_map, List.getElem_range, payloadHalf, show (2 * k + i) / 2 = k + i / 2 by omega,
    show (2 * k + i) % 2 = i % 2 by omega]

/-- A base field is word-aligned (R169, R180). -/
theorem baseField_toNat (w : Word) : (baseField w).toNat = w.toNat % 2 ^ 28 / 4 * 4 := by
  simp only [baseField, field, BitVec.toNat_ofNat]; omega

/-- The high half of a word. -/
theorem field_high (w : Word) : field w 16 16 = w.toNat / 2 ^ 16 := by
  have := w.isLt
  unfold field; apply Nat.mod_eq_of_lt; omega

/-- The boundaries of a plane whose payload has the derived count (R169). -/
theorem planeOf_bounds (ws : List Word)
    (hl : ws.length = 3 + (columnBandField ws - 1 + 1) / 2 + (rowBandField ws - 1 + 1) / 2) :
    (planeOf ws).colBounds = columnBounds ws (columnBandField ws) ∧
      (planeOf ws).rowBounds = rowBounds ws (columnBandField ws) (rowBandField ws) := by
  constructor
  · show boundaries (ws.drop 3) _ = _
    rw [boundaries_eq _ _ _ (by omega)]; rfl
  · show boundaries (ws.drop (3 + halfUp (columnBandField ws - 1))) _ = _
    unfold halfUp
    rw [boundaries_eq _ _ _ (by omega)]
    apply List.map_congr_left
    intro i _
    rw [show 2 * (3 + (columnBandField ws - 1 + 1) / 2) + i = 6 + (columnBandField ws - 1 + 1) / 2 * 2 + i by omega]

/-- The slots of the zones in use, for a payload of the count a zone map needs (R170). -/
theorem zoneSlots_eq (x : Face) (ws : List Word) (hl : ws.length = (x.plane.zoneCount + 3) / 4) :
    zoneSlots x ws = (List.range x.plane.zoneCount).map (payloadByte ws) := by
  have hll : (zoneSlots x ws).length = x.plane.zoneCount := by
    unfold zoneSlots; rw [List.length_take, flatMap_slotFields_length]; omega
  apply List.ext_getElem (by simp [hll])
  intro z h1 h2
  have e := flatMap_four_get (fun w => field w 0 8) (fun w => field w 8 8) (fun w => field w 16 8) (fun w => field w 24 8) ws z
  have hz4 : z / 4 < ws.length := by omega
  have hz : (zoneSlots x ws)[z]? = some (payloadByte ws z) := by
    unfold zoneSlots
    rw [List.getElem?_take, if_pos (by omega)]
    rw [show ws.flatMap slotFields = ws.flatMap fun w => [field w 0 8, field w 8 8, field w 16 8, field w 24 8] from rfl, e]
    unfold payloadByte payloadWord
    rw [List.getD_eq_getElem?_getD, List.getElem?_eq_getElem hz4]
    simp only [Option.map_some, Option.getD_some, Option.some.injEq]
    have : z % 4 < 4 := Nat.mod_lt _ (by decide)
    rcases (by omega : z % 4 = 0 ∨ z % 4 = 1 ∨ z % 4 = 2 ∨ z % 4 = 3) with q | q | q | q <;> simp [q, field]
  rw [List.getElem?_eq_getElem h1] at hz
  rw [Option.some.inj hz, List.getElem_map, List.getElem_range]

/-! Each test as a proposition (R167). -/

theorem face_isOff_iff (x : Face) : x.isOff = true ↔ x.sup.state = .off := by unfold Face.isOff; exact beq_iff_eq

/-- Two ranges overlap in no byte exactly when one ends before the other begins. -/
theorem not_rangesOverlap_iff (a la b lb : Nat) : (!rangesOverlap a la b lb) = true ↔ Apart a la b lb := by
  unfold rangesOverlap Apart
  rw [Bool.not_eq_true', Bool.and_eq_false_iff, decide_eq_false_iff_not, decide_eq_false_iff_not]
  omega

theorem clearOfWindow_iff (s : State) (a la : Nat) :
    clearOfWindow s a la = true ↔ Apart a la s.windowBase.toNat 4096 := not_rangesOverlap_iff _ _ _ _

theorem clearOfPlane_iff (s : State) (f : Fin 4) (a la : Nat) :
    clearOfPlane (s.face f) a la = true ↔ ClearOfPlane s f a la := by
  unfold clearOfPlane ClearOfPlane
  cases (s.face f).plane.valid with
  | false => simp
  | true => rw [Bool.true_and, not_rangesOverlap_iff]; simp [PlaneRecord.bytes, PlaneRecord.stride]

theorem clearOfRing_iff (j : Journal) (a la : Nat) :
    clearOfRing j a la = true ↔ (j.configured = true → Apart a la j.base.toNat (j.capacity * 16)) := by
  unfold clearOfRing
  cases j.configured with
  | false => simp
  | true => rw [Bool.true_and, not_rangesOverlap_iff]; simp [Config.recordBytes]

theorem clearOfSuperseded_iff (j : Journal) (a la : Nat) :
    clearOfSuperseded j a la = true ↔ ∀ r, j.inProgress = some r → r.superseded = true → Apart a la r.addr.toNat 16 := by
  unfold clearOfSuperseded
  cases j.inProgress with
  | none => simp
  | some r =>
    dsimp only
    cases h : r.superseded with
    | false => simp [h]
    | true => rw [Bool.true_and, not_rangesOverlap_iff]; simp [h, Config.recordBytes]

theorem allFaces_all_iff (p : Fin 4 → Bool) : allFaces.all p = true ↔ ∀ g, p g = true := by
  rw [List.all_eq_true]
  exact ⟨fun h g => h g (by fin_cases g <;> simp [allFaces]), fun h g _ => h g⟩

theorem strictlyAscending_iff (l : List Nat) : strictlyAscending l = true ↔ l.Pairwise (· < ·) := by
  induction l with
  | nil => simp [strictlyAscending]
  | cons a l ih =>
    cases l with
    | nil => simp [strictlyAscending]
    | cons b l =>
      simp only [strictlyAscending, Bool.and_eq_true, decide_eq_true_eq, ih, List.pairwise_cons]
      refine ⟨fun ⟨h1, h2⟩ => ⟨fun c hc => ?_, h2⟩, fun ⟨h1, h2⟩ => ⟨h1 b (by simp), h2⟩⟩
      rcases List.mem_cons.1 hc with e | e
      · rw [e]; exact h1
      · exact Nat.lt_trans h1 (h2.1 c e)

theorem boundsOrdered_iff (l : List Nat) (e : Nat) : boundsOrdered l e = true ↔ BoundsInOrder l e := by
  unfold boundsOrdered inRange BoundsInOrder
  rw [Bool.and_eq_true, strictlyAscending_iff, List.all_eq_true]
  simp only [Bool.and_eq_true, decide_eq_true_eq]

theorem notDraining_iff (x : Face) : x.notDraining = true ↔ x.link.state ≠ .draining := by
  unfold Face.notDraining; rw [bne_iff_ne]

theorem enables_iff (l : LinkSetup) (n : Fin 64) : l.enables n = true ↔ Enabled l n := by
  unfold LinkSetup.enables Enabled; rw [Bool.and_eq_true, decide_eq_true_eq]

theorem isModuleSlot_iff (l : LinkSetup) (n : Fin 64) : l.isModuleSlot n = true ↔ Enabled l n ∧ l.sensorSlot ≠ some n := by
  unfold LinkSetup.isModuleSlot; rw [Bool.and_eq_true, enables_iff, Bool.not_eq_true', beq_eq_false_iff_ne]

theorem mem_allSlots (n : Fin 64) : n ∈ allSlots := List.mem_finRange n

/-! The link setup a payload carries, field by field (R91, R176). -/

/-- A bit of two words joined is a bit of one of them. -/
theorem getLsbD_pair (ws : List Word) (p : Nat) (hp : p < 64) :
    (payloadWord ws 1 ++ payloadWord ws 0 : BitVec 64).getLsbD p = (payloadWord ws (p / 32)).getLsbD (p % 32) := by
  rw [BitVec.getLsbD_append]
  by_cases h : p < 32
  · rw [show p / 32 = 0 by omega, Nat.mod_eq_of_lt h]; simp [h]
  · rw [show p / 32 = 1 by omega, show p % 32 = p - 32 by omega]; simp [h]

theorem linkSetupOf_slotCount (ws : List Word) : (linkSetupOf ws).slotCount = (payloadWord ws 2).toNat % 2 ^ 7 := by
  simp [linkSetupOf, field]

theorem linkSetupOf_lostCount (ws : List Word) : (linkSetupOf ws).lostCount = (payloadWord ws 3).toNat % 2 ^ 8 := by
  simp [linkSetupOf, field]

theorem linkSetupOf_sensorSlot (ws : List Word) :
    (linkSetupOf ws).sensorSlot =
      if (payloadWord ws 2).getLsbD 15 = true then
        some ⟨(payloadWord ws 2).toNat / 2 ^ 16 % 2 ^ 6, Nat.mod_lt _ (by decide)⟩
      else none := by
  simp only [linkSetupOf]
  split
  · congr 1; apply Fin.ext; simp only [Fin.ofNat, field]; exact Nat.mod_eq_of_lt (Nat.mod_lt _ (by decide))
  · rfl

theorem linkSetupOf_thresholds (ws : List Word) :
    (linkSetupOf ws).thresholds =
      if (payloadWord ws 2).getLsbD 8 = true then
        some
          { warm := ((payloadWord ws 4).toNat % 2 ^ 8 : Nat) - 40
            hot := ((payloadWord ws 4).toNat / 2 ^ 8 % 2 ^ 8 : Nat) - 40
            critical := ((payloadWord ws 4).toNat / 2 ^ 16 % 2 ^ 8 : Nat) - 40
            hysteresis := (payloadWord ws 4).toNat / 2 ^ 24 % 2 ^ 4 }
      else none := by
  simp only [linkSetupOf, wordLengthOf]
  by_cases e : (payloadWord ws 2).getLsbD 8 = true
  · rw [if_pos e, if_pos e]; simp [thresholdsOf, field]
  · rw [if_neg e, if_neg e]

/-! The table of each command against its computed result (R167). -/

theorem firstFailing_geometry (h : HeadFields) (ws : List Word) (s : State) (r : ResultCode) :
    FirstFailing (geometryTests h ws s) r ↔ faceGeometryResult h ws s = r := by
  have hk : (planeOf ws).strideExp = (payloadWord ws 1).toNat % 2 ^ 4 := by simp [planeOf, field]
  have hbytes : (planeOf ws).bytes = (payloadWord ws 1).toNat / 2 ^ 15 % 2 ^ 11 * 2 ^ ((payloadWord ws 1).toNat % 2 ^ 4) * 4 := by
    unfold PlaneRecord.bytes PlaneRecord.stride; rw [hk]; rfl
  have hbase : (planeOf ws).base.toNat = (payloadWord ws 0).toNat % 2 ^ 28 / 4 * 4 := baseField_toNat _
  refine firstFailing_cons (face_isOff_iff _) _ fun _ => ?_
  refine firstFailing_cons ?_ _ fun _ => ?_
  · simp only [inRange, Bool.and_eq_true, decide_eq_true_eq]; rfl
  refine firstFailing_cons ?_ _ fun hl => ?_
  · rw [beq_iff_eq]; rfl
  refine firstFailing_cons ?_ _ fun _ => ?_
  · unfold planeInRange PlaneRecord.stride inRange
    rw [hk, hbase, hbytes]
    simp only [Bool.and_eq_true, decide_eq_true_eq, Bool.not_eq_true', Bool.and_eq_false_iff, beq_eq_false_iff_ne,
      Option.isSome_eq_false_iff, Option.isNone_iff_eq_none, and_assoc]
    refine and_congr Iff.rfl (and_congr Iff.rfl (and_congr Iff.rfl (and_congr Iff.rfl (and_congr Iff.rfl (and_congr Iff.rfl
      (and_congr Iff.rfl (and_congr Iff.rfl (and_congr ?_ Iff.rfl))))))))
    exact imp_iff_not_or.symm
  obtain ⟨e1, e2⟩ := planeOf_bounds ws hl
  refine firstFailing_cons ?_ _ fun _ => ?_
  · rw [Bool.and_eq_true, boundsOrdered_iff, boundsOrdered_iff, e1, e2]; rfl
  refine firstFailing_cons ?_ _ fun _ => firstFailing_nil r
  unfold planeClear
  rw [hbase, hbytes]
  simp only [Bool.and_eq_true, clearOfWindow_iff, allFaces_all_iff, clearOfRing_iff, clearOfSuperseded_iff, and_assoc,
    Bool.or_eq_true, beq_iff_eq, clearOfPlane_iff]
  exact and_congr Iff.rfl (and_congr (forall_congr' fun g => or_iff_not_imp_left) Iff.rfl)

theorem firstFailing_zonemap (h : HeadFields) (ws : List Word) (s : State) (r : ResultCode) :
    FirstFailing (zonemapTests h ws s) r ↔ faceZonemapResult h ws s = r := by
  refine firstFailing_cons (face_isOff_iff _) _ fun _ => ?_
  refine firstFailing_cons Iff.rfl _ fun _ => ?_
  refine firstFailing_cons (by rw [beq_iff_eq]) _ fun hl => ?_
  refine firstFailing_cons ?_ _ fun _ => firstFailing_nil r
  unfold zoneSlotsValid
  rw [zoneSlots_eq _ _ hl, Bool.and_eq_true, Bool.and_eq_true, List.all_eq_true, decide_eq_true_eq, and_assoc]
  refine and_congr ?_ (and_congr ?_ ?_)
  · simp only [List.mem_map, List.mem_range, decide_eq_true_eq]
    exact ⟨fun q z hz => q _ ⟨z, hz, rfl⟩, fun q n ⟨z, hz, e⟩ => e ▸ q z hz⟩
  · rw [List.nodup_map_iff_inj_on List.nodup_range]
    simp only [List.mem_range]
    exact ⟨fun q z y hz hy e => q z hz y hy e, fun q z hz y hy e => q z y hz hy e⟩
  · rw [Bool.not_eq_true', List.any_eq_false]
    simp only [List.mem_map, List.mem_range, beq_iff_eq, Option.map_eq_some_iff]
    constructor
    · exact fun q z hz n hn e => q _ ⟨z, hz, rfl⟩ ⟨n, hn, e.symm⟩
    · rintro q n ⟨z, hz, e⟩ ⟨m, hm, hv⟩
      exact q z hz m hm (e.trans hv.symm)

theorem firstFailing_curve (h : HeadFields) (ws : List Word) (s : State) (r : ResultCode) :
    FirstFailing (curveTests ws) r ↔ faceCurveResult h ws s = r := by
  have e : ∀ w : Word, (curvePointOf w).ambient = w.toNat / 2 ^ 16 := field_high
  refine firstFailing_cons ?_ _ fun _ => firstFailing_cons ?_ _ fun _ => firstFailing_nil r
  · simp only [List.all_eq_true, List.forall_mem_map, decide_eq_true_eq, e]; rfl
  · rw [strictlyAscending_iff, List.map_map]
    exact iff_of_eq (congrArg _ (congrArg (List.map · ws) (funext e)))

theorem firstFailing_start (h : HeadFields) (ws : List Word) (s : State) (r : ResultCode) :
    FirstFailing (startTests h s) r ↔ faceStartResult h ws s = r := by
  refine firstFailing_cons (face_isOff_iff _) _ fun _ => ?_
  refine firstFailing_cons (notDraining_iff _) _ fun _ => ?_
  refine firstFailing_cons (Bool.and_eq_true _ _).to_iff _ fun _ => ?_
  refine firstFailing_cons ?_ _ fun _ => firstFailing_nil r
  simp only [Face.zonesServed, List.all_eq_true, mem_allSlots, true_implies, Bool.or_eq_true, decide_eq_true_eq]
  refine forall_congr' fun z => ?_
  rw [or_iff_not_imp_left, Nat.not_le]
  refine imp_congr_right fun _ => ?_
  cases pick (s.face h.face).zoneMap z <;> simp [isModuleSlot_iff]

theorem firstFailing_linkSetup (h : HeadFields) (ws : List Word) (s : State) (r : ResultCode) :
    FirstFailing (linkSetupTests h ws s) r ↔ linkSetupResult h ws s = r := by
  refine firstFailing_cons (face_isOff_iff _) _ fun _ => ?_
  refine firstFailing_cons (notDraining_iff _) _ fun _ => ?_
  refine firstFailing_cons ?_ _ fun _ => ?_
  · rw [beq_iff_eq, show (linkSetupOf ws).wordLength = if (payloadWord ws 2).getLsbD 8 = true then .w24 else .w16 from rfl]
    by_cases e : (payloadWord ws 2).getLsbD 8 = true
    · rw [if_pos e]; exact ⟨fun q => .inl ⟨q, e⟩, fun q => (q.resolve_right fun k => k.2 e).1⟩
    · rw [if_neg e]; exact ⟨fun q => .inr ⟨q, e⟩, fun q => (q.resolve_left fun k => e k.2).1⟩
  refine firstFailing_cons ?_ _ fun _ => ?_
  · unfold inRange
    rw [linkSetupOf_slotCount, linkSetupOf_lostCount]
    simp only [Bool.and_eq_true, decide_eq_true_eq, and_assoc]; rfl
  refine firstFailing_cons ?_ _ fun _ => ?_
  · rw [linkSetupOf_sensorSlot]
    by_cases e : (payloadWord ws 2).getLsbD 15 = true
    · rw [if_pos e]
      simp only [e, true_implies, enables_iff, Enabled, linkSetupOf_slotCount]
      refine and_congr Iff.rfl ?_
      rw [show (linkSetupOf ws).mask = payloadWord ws 1 ++ payloadWord ws 0 from rfl, getLsbD_pair _ _ (Nat.lt_of_lt_of_le (Nat.mod_lt _ (by decide)) (by decide))]
    · rw [if_neg e]; exact ⟨fun _ q => absurd q e, fun _ => rfl⟩
  refine firstFailing_cons ?_ _ fun _ => ?_
  · rw [linkSetupOf_sensorSlot]
    by_cases e : (payloadWord ws 2).getLsbD 15 = true
    · rw [if_pos e]
      simp only [e, true_implies, Face.slotUnmapped, List.all_eq_true, mem_allSlots, Bool.or_eq_true, decide_eq_true_eq,
        Bool.not_eq_true', beq_eq_false_iff_ne, or_iff_not_imp_left, Nat.not_le]
      refine forall_congr' fun z => ?_
      constructor
      · exact fun q n hz hn he => q hz (hn.trans (congrArg some (Fin.ext he)))
      · exact fun q hz g => q _ hz g rfl
    · rw [if_neg e]; exact ⟨fun _ q => absurd q e, fun _ => rfl⟩
  refine firstFailing_cons ?_ _ fun _ => firstFailing_nil r
  rw [linkSetupOf_thresholds]
  by_cases e : (payloadWord ws 2).getLsbD 8 = true
  · rw [if_pos e]; simp only [e, true_implies, Bool.and_eq_true, decide_eq_true_eq]; omega
  · rw [if_neg e]; exact ⟨fun _ q => absurd q e, fun _ => rfl⟩

theorem firstFailing_moduleCommand (h : HeadFields) (ws : List Word) (s : State) (r : ResultCode) :
    FirstFailing (moduleCommandTests h ws s) r ↔ moduleCommandResult h ws s = r :=
  firstFailing_cons (scanning_iff _) _ fun _ => firstFailing_cons (enables_iff _ _) _ fun _ =>
    firstFailing_cons (Bool.or_eq_true _ _).to_iff _ fun _ =>
      firstFailing_cons Option.isNone_iff_eq_none _ fun _ => firstFailing_nil r

theorem allSlotsForm_iff {ws : List Word} (hl : Command.moduleClear.allows ws.length = true) :
    allSlotsForm ws = true ↔ AllSlotsForm ws := by
  rcases ws with _ | ⟨w, _ | ⟨v, ws⟩⟩
  · simp [allSlotsForm, AllSlotsForm]
  · exact ⟨fun q => ⟨w, rfl, q⟩, fun ⟨v, e, q⟩ => by cases e; exact q⟩
  · simp [Command.allows] at hl

theorem firstFailing_moduleClear (h : HeadFields) {ws : List Word} (hl : Command.moduleClear.allows ws.length = true) (s : State)
    (r : ResultCode) : FirstFailing (moduleClearTests h ws s) r ↔ moduleClearResult h ws s = r := by
  refine firstFailing_cons (scanning_iff _) _ fun _ => firstFailing_cons ?_ _ fun _ => firstFailing_nil r
  rw [Bool.or_eq_true, allSlotsForm_iff hl, isModuleSlot_iff, or_iff_not_imp_left]

theorem firstFailing_journalSetup (h : HeadFields) (ws : List Word) (s : State) (r : ResultCode) :
    FirstFailing (journalSetupTests ws s) r ↔ journalSetupResult h ws s = r := by
  have e1 : capacityField ws = (payloadWord ws 1).toNat % 2 ^ 16 := by simp [capacityField, field]
  have e2 : thresholdField ws = (payloadWord ws 1).toNat / 2 ^ 16 := field_high _
  have e3 := baseField_toNat (payloadWord ws 0)
  refine firstFailing_cons ?_ _ fun _ => firstFailing_cons ?_ _ fun _ => firstFailing_cons ?_ _ fun _ =>
    firstFailing_cons ?_ _ fun _ => firstFailing_nil r
  · rw [e1, List.contains_iff_mem]; rfl
  · unfold inRange; rw [e1, e2, Bool.and_eq_true, decide_eq_true_eq, decide_eq_true_eq]
  · rw [e1, e3, decide_eq_true_eq]; rfl
  · rw [e1, e3, Bool.and_eq_true, clearOfWindow_iff, allFaces_all_iff]
    exact and_congr Iff.rfl (forall_congr' fun g => clearOfPlane_iff _ _ _ _)

/-- The table of a command gives the result that the command computes. -/
theorem firstFailing_tests {c : Command} (h : HeadFields) {ws : List Word} (hl : c.allows ws.length = true) (s : State)
    (r : ResultCode) : FirstFailing (c.tests h ws s) r ↔ c.result h ws s = r := by
  cases c
  case faceGeometry => exact firstFailing_geometry h ws s r
  case faceZonemap => exact firstFailing_zonemap h ws s r
  case faceCurve => exact firstFailing_curve h ws s r
  case faceStart => exact firstFailing_start h ws s r
  case linkSetup => exact firstFailing_linkSetup h ws s r
  case moduleCommand => exact firstFailing_moduleCommand h ws s r
  case moduleClear => exact firstFailing_moduleClear h hl s r
  case journalSetup => exact firstFailing_journalSetup h ws s r
  case timingSetup =>
    refine firstFailing_cons ?_ _ fun _ => firstFailing_nil r
    simp [epochSelectField, field]
  all_goals exact firstFailing_nil r

/-- Every test of a command passes exactly when its computed result is DONE. -/
theorem passes_iff {c : Command} (h : HeadFields) {ws : List Word} (hl : c.allows ws.length = true) (s : State) :
    Passes c h ws s ↔ c.result h ws s = .done := by
  rw [← firstFailing_tests h hl]
  have key : ∀ l : List (Prop × ResultCode), (∀ p ∈ l, p.2 ≠ .done) → ((∀ p ∈ l, p.1) ↔ FirstFailing l .done) := by
    intro l
    induction l with
    | nil => simp [FirstFailing]
    | cons p l ih =>
      intro hl
      have ih := ih fun q hq => hl q (List.mem_cons_of_mem _ hq)
      have hp := hl p (List.mem_cons_self)
      rw [List.forall_mem_cons]
      by_cases q : p.1
      · exact ⟨fun k => ⟨fun _ => ih.1 k.2, fun n => absurd q n⟩, fun k => ⟨q, ih.2 (k.1 q)⟩⟩
      · exact ⟨fun k => absurd k.1 q, fun k => absurd (k.2 q).symm hp⟩
  exact key _ (by
    cases c <;>
      simp [Command.tests, geometryTests, zonemapTests, curveTests, startTests, linkSetupTests, moduleCommandTests,
        moduleClearTests, journalSetupTests])

end Sys2Proof.Machine
end

