-- ==== Sys2Proof/Laws/Curve.lean ====
section
/-! SUPPORT. The value of a curve is the one the table of R28 gives. -/

namespace Sys2Proof.Machine

/-- A quotient of the steps of a segment lies between 0 and the rise of its level, so the value is no negative
number (R28). -/
theorem interpolate_eq (p q : CurvePoint) (a : Nat) (h : p.ambient ≤ a) (k : a < q.ambient) :
    (interpolate p q a : Int) =
      p.level + (((a : Int) - p.ambient) * ((q.level : Int) - p.level)).tdiv ((q.ambient : Int) - p.ambient) := by
  unfold interpolate
  rw [Int.toNat_of_nonneg]
  have hx : 0 ≤ (a : Int) - p.ambient := by omega
  have hd : 0 < (q.ambient : Int) - p.ambient := by omega
  have hxd : (a : Int) - p.ambient ≤ (q.ambient : Int) - p.ambient := by omega
  generalize (a : Int) - p.ambient = x at *
  generalize (q.ambient : Int) - p.ambient = d at *
  by_cases hy : 0 ≤ (q.level : Int) - p.level
  · have := Int.tdiv_nonneg (mul_nonneg hx hy) hd.le
    omega
  · have hy' : 0 ≤ (p.level : Int) - q.level := by omega
    have e : x * ((q.level : Int) - p.level) = -(x * ((p.level : Int) - q.level)) := by ring
    rw [e, Int.neg_tdiv]
    have : (x * ((p.level : Int) - q.level)).tdiv d ≤ (p.level : Int) - q.level := by
      rw [Int.tdiv_eq_ediv_of_nonneg (mul_nonneg hx hy')]
      apply Int.ediv_le_of_le_mul hd
      rw [mul_comm ((p.level : Int) - q.level)]
      exact mul_le_mul_of_nonneg_right hxd hy'
    omega

/-- The value of a curve above its first point: the segment that holds the ambient, or the last point. -/
theorem curveFrom_gives (p : CurvePoint) (rest : List CurvePoint) (a : Nat) (h : p.ambient ≤ a)
    (hs : (p :: rest).Pairwise fun p q => p.ambient < q.ambient) :
    (∀ l, (p :: rest).getLast? = some l → l.ambient ≤ a → curveFrom (p :: rest) a = l.level) ∧
    ∀ i u v, (p :: rest)[i]? = some u → (p :: rest)[i + 1]? = some v → u.ambient ≤ a → a < v.ambient →
      curveFrom (p :: rest) a = interpolate u v a := by
  induction rest generalizing p with
  | nil =>
    refine ⟨fun l hl _ => ?_, fun i u v _ hv => by simp at hv⟩
    simp at hl; subst hl; rfl
  | cons q rest ih =>
    have hs' := (List.pairwise_cons.1 hs).2
    have first := (List.pairwise_cons.1 hs).1
    by_cases ha : a < q.ambient
    · have tail : ∀ x ∈ q :: rest, a < x.ambient := by
        intro x hx
        rcases List.mem_cons.1 hx with rfl | hx
        · exact ha
        · have := (List.pairwise_cons.1 hs').1 x hx; omega
      have hc : curveFrom (p :: q :: rest) a = interpolate p q a := by simp [curveFrom, ha]
      refine ⟨fun l hl hle => ?_, fun i u v hu hv h1 h2 => ?_⟩
      · rw [List.getLast?_cons_cons] at hl
        have := tail l (List.mem_of_getLast? hl); omega
      · match i with
        | 0 => simp at hu hv; subst hu hv; exact hc
        | j + 1 =>
          rw [List.getElem?_cons_succ] at hu
          have := tail u (List.mem_of_getElem? hu); omega
    · have hc : curveFrom (p :: q :: rest) a = curveFrom (q :: rest) a := by simp [curveFrom, ha]
      obtain ⟨i1, i2⟩ := ih q (by omega) hs'
      refine ⟨fun l hl hle => ?_, fun i u v hu hv h1 h2 => ?_⟩
      · rw [hc]; rw [List.getLast?_cons_cons] at hl; exact i1 l hl hle
      · match i with
        | 0 => simp at hv; subst hv; omega
        | j + 1 =>
          rw [List.getElem?_cons_succ] at hu hv
          rw [hc]; exact i2 j u v hu hv h1 h2

/-- The value of an ascending curve is the one of R28. -/
theorem curveValue_gives (curve : List CurvePoint) (ceiling a : Nat)
    (hs : curve.Pairwise fun p q => p.ambient < q.ambient) : CurveGives curve ceiling a (curveValue curve ceiling a) := by
  cases curve with
  | nil => constructor <;> simp [curveValue]
  | cons p rest =>
    by_cases h : a ≤ p.ambient
    · have hv : curveValue (p :: rest) ceiling a = p.level := by simp [curveValue, h]
      have from_p : ∀ u ∈ p :: rest, u.ambient ≤ a → u = p ∧ p.ambient = a := by
        intro u hu hle
        rcases List.mem_cons.1 hu with rfl | hu
        · exact ⟨rfl, by omega⟩
        · have := (List.pairwise_cons.1 hs).1 u hu; omega
      refine ⟨fun e => (by cases e), fun q e => ?_, fun q r e _ => ?_, fun q hq hle => ?_, fun i u v hu hv' h1 h2 => ?_⟩
      · cases e; exact hv
      · cases e; exact hv
      · rw [hv, (from_p q (List.mem_of_getLast? hq) hle).1]
      · obtain ⟨e, k⟩ := from_p u (List.mem_of_getElem? hu) h1
        subst e
        rw [hv, ← k]; simp
    · have hv : curveValue (p :: rest) ceiling a = curveFrom (p :: rest) a := by simp [curveValue, h]
      obtain ⟨i1, i2⟩ := curveFrom_gives p rest a (by omega) hs
      refine ⟨fun e => (by cases e), fun q e => ?_, fun q r e hle => ?_, fun q hq hle => ?_, fun i u v hu hv' h1 h2 => ?_⟩
      · cases e; rw [hv]; rfl
      · cases e; omega
      · rw [hv]; exact i1 q hq hle
      · rw [hv, i2 i u v hu hv' h1 h2]; exact interpolate_eq u v a h1 h2

end Sys2Proof.Machine
end

