-- ==== Sys2Proof/Laws/FaceAtoms.lean ====
section
/-! SUPPORT. What each named operation does to one face: an invariant of a face that each of these changes keeps is one that every step keeps. -/

namespace Sys2Proof.Machine

/-! The faces that the compound operations leave. -/

/-- A face whose link reached IDLE (R97, R128). -/
def Face.linkIdled (x : Face) : Face :=
  { x with link := { x.link with state := .idle, frameSetup := none, line := .idle }, mailboxes := emptyMailboxes, records := resetRecords }

/-- A face that entered OFF (R40, R80, R96). -/
def Face.offed (x : Face) : Face :=
  if x.sup.state = .off then x
  else
    let y := { x with sup := { x.sup with state := .off, stallTimer := 0 }, applied := darkForm }
    if x.link.state = .running then
      if x.link.frameSetup ≠ none then { y with link := { x.link with state := .draining } } else y.linkIdled
    else y

/-- A face that started (R75). -/
def Face.started (x : Face) : Face :=
  { x with
    sup := { x.sup with state := .starting, stallTimer := x.sup.stallTimeout }
    level := { x.level with level := 0, sensor := sensorAfterSetup x.link.setup.sensorSlot x.level.sensor }
    records := Vector.ofFn fun n => if x.link.setup.isModuleSlot n then unseenRecord else pick x.records n
    link := { x.link with state := .running } }

/-- A face at a frame start (R37, R76). -/
def Face.framed (x : Face) : Face :=
  { x with applied := latchedSet x, sup := { x.sup with state := .live, stallTimer := x.sup.stallTimeout } }

/-- A face whose slot ended, before the outcome is handed on (R107). -/
def Face.counted (x : Face) (n : Fin 64) (c : ReceivedClass) : Face :=
  { x with
    link := { x.link with
      line := x.link.line.afterSlot n
      silent := if c = .silent then satSucc Config.max16 x.link.silent else x.link.silent
      garbled := if c = .garbled then satSucc Config.max16 x.link.garbled else x.link.garbled } }

/-- A face whose link sent a sync (R95). -/
def Face.synced (x : Face) : Face :=
  { x with link := { x.link with frameSetup := some x.link.setup.frameSetup, frameCount := x.link.frameCount + 1, line := .sync } }

/-- What a command's effect makes of its face, given that its tests passed (R169 to R178). -/
def Command.faceAfter (c : Command) (h : HeadFields) (ws : List Word) (x : Face) : Face :=
  match c with
  | .faceGeometry => { x with plane := planeOf ws, zoneMap := defaultMap (planeOf ws).zoneCount x.link.setup.sensorSlot }
  | .faceZonemap => { x with zoneMap := mapWithSlots x.zoneMap (zoneSlots x ws) }
  | .faceCurve => { x with level := { x.level with stagedCurve := some (ws.map fun w => (curvePointOf w).clamped) } }
  | .faceLimits =>
    { x with
      level := { x.level with stagedLimits := some (limitsOf ws) }
      sup := { x.sup with stallTimeout := stallTimeoutOf ws } }
  | .faceStart => x.started
  | .faceStop => x.offed
  | .faceHold =>
    { x with
      level := { x.level with
        hold := true
        level :=
          match ws.head?.map forcedLevelField with
          | none => x.level.level
          | some v => min (min v Config.fullLevel) x.level.limits.ceiling } }
  | .faceRelease => { x with level := { x.level with hold := false } }
  | .outputConfig => { x with sup := { x.sup with outputs := outputsOf (payloadWord ws 0) } }
  | .linkSetup =>
    { x with
      link := { x.link with setup := linkSetupOf ws, setUp := true, frameCount := 0, garbled := 0, silent := 0 }
      level := { x.level with sensor := sensorAfterSetup (linkSetupOf ws).sensorSlot x.level.sensor } }
  | .moduleCommand => { x with mailboxes := put x.mailboxes h.slot (some (oneShotOf (payloadWord ws 0))) }
  | .moduleClear =>
    if allSlotsForm ws then { x with records := x.records.map ModuleRecord.cleared }
    else { x with records := put x.records h.slot (pick x.records h.slot).cleared }
  | .partReset => x.offed.partReset
  | .attnConfig => x
  | .journalSetup => x
  | .timingSetup => x
  | .statusRefresh => x

theorem stopLink_eq (f : Fin 4) (s : State) :
    stopLink f s =
      if (s.face f).link.state = .running then
        if (s.face f).link.frameSetup ≠ none then
          touch [faceWord f 4] (State.updFace f fun x => { x with link := { x.link with state := .draining } }) s
        else linkIdle f s
      else s := by
  unfold stopLink
  cases hf : (s.face f).link.frameSetup <;> simp [hf]

theorem face_linkIdle (f : Fin 4) (s : State) : (linkIdle f s).face f = (s.face f).linkIdled := by
  simp only [linkIdle, setRecords, emptyAllMailboxes, face_touch, face_updFace_self]; rfl

theorem face_enterOff (f : Fin 4) (s : State) : (enterOff f s).face f = (s.face f).offed := by
  unfold enterOff Face.offed
  by_cases h : (s.face f).sup.state = .off
  · rw [if_neg (by simp [h, FaceState.scanning]), if_pos h]
  · rw [if_pos ((scanning_iff _).2 h), if_neg h, stopLink_eq]
    have e : (darken f (stopSupervisor f s)).face f =
        { s.face f with sup := { (s.face f).sup with state := .off, stallTimer := 0 }, applied := darkForm } := by
      simp only [darken, stopSupervisor, face_touch, face_updFace_self]
    by_cases hr : (s.face f).link.state = .running
    · by_cases hf : (s.face f).link.frameSetup ≠ none
      · simp only [e, if_pos hr, if_pos hf, face_touch, face_updFace_self]
      · simp only [e, if_pos hr, if_neg hf, face_linkIdle]
    · simp only [e, if_neg hr]

theorem face_startFace (f : Fin 4) (s : State) : (startFace f s).face f = (s.face f).started := by
  simp only [startFace, startLink, startRecords, setRecords, startLevel, startSupervisor, face_touch, face_updFace_self]; rfl

theorem face_partResetFace (s : State) (f g : Fin 4) :
    (partResetFace s f).face g = if f = g then (s.face f).offed.partReset else s.face g := by
  unfold partResetFace
  by_cases h : f = g
  · subst h; rw [if_pos rfl, face_updFace_self, face_enterOff]
  · rw [if_neg h, face_updFace_ne _ _ _ _ h]
    exact (effect_enterOff f).faces s g (by simpa using Ne.symm h)

theorem face_partResetOwners (s : State) (f : Fin 4) : (partResetOwners s).face f = s.face f := rfl

theorem face_partResetEffect (s : State) (f : Fin 4) : (partResetEffect s).face f = (s.face f).offed.partReset := by
  rw [partResetEffect_eq, face_partResetOwners]
  simp only [allFaces, List.foldl, face_partResetFace]
  fin_cases f <;> simp

/-- Whether a command's effect is a part-wide one that changes no face, one of its own face, or PART_RESET. -/
theorem face_command (c : Command) (h : HeadFields) (ws : List Word) (s : State) (f : Fin 4) :
    (c.effect h ws s).face f = if f ∈ c.faces h then c.faceAfter h ws (s.face f) else s.face f := by
  by_cases hf : f ∈ c.faces h
  · rw [if_pos hf]
    cases c
    case partReset => exact face_partResetEffect s f
    case attnConfig => exact absurd hf (by simp [Command.faces])
    case journalSetup => exact absurd hf (by simp [Command.faces])
    case timingSetup => exact absurd hf (by simp [Command.faces])
    case statusRefresh => exact absurd hf (by simp [Command.faces])
    all_goals
      have e : f = h.face := by simpa [Command.faces] using hf
      subst e
    case faceStart => exact face_startFace _ s
    case faceStop => exact face_enterOff _ s
    case faceGeometry => exact face_updFace_self _ _ _
    case faceZonemap => exact face_updFace_self _ _ _
    case faceCurve => exact face_updFace_self _ _ _
    case faceLimits =>
      show (faceLimitsEffect h ws s).face h.face = _
      simp only [faceLimitsEffect, setStallTimeout, face_updFace_self]; rfl
    case faceHold =>
      show (holdLevel h.face _ s).face h.face = _
      simp only [holdLevel, face_touch, face_updFace_self]; rfl
    case faceRelease =>
      show (releaseLevel h.face s).face h.face = _
      simp only [releaseLevel, face_touch, face_updFace_self]; rfl
    case outputConfig => exact face_updFace_self _ _ _
    case linkSetup =>
      show (setLinkSetup h.face _ s).face h.face = _
      simp only [setLinkSetup, face_touch, face_updFace_self]; rfl
    case moduleCommand =>
      show (setMailbox h.face _ _ s).face h.face = _
      simp only [setMailbox, face_touch, face_updFace_self]; rfl
    case moduleClear =>
      show (moduleClearEffect h ws s).face h.face = _
      unfold moduleClearEffect Command.faceAfter
      by_cases ha : allSlotsForm ws
      · simp only [if_pos ha, clearAllRecords, setRecords, face_touch, face_updFace_self]
      · simp only [if_neg ha, clearRecord, setRecord, face_touch, face_updFace_self]
  · rw [if_neg hf]
    exact (effect_command c h ws).faces s f hf

/-! The changes of one face. -/

/-- One change of a face by a named operation, with what the operation has tested; that a payload is as long as its
command allows rests on a decoder that is sound. -/
inductive FaceAtom (sound : Prop) : Face → Face → Prop
  | same (x : Face) : FaceAtom sound x x
  | reset (x : Face) : FaceAtom sound x resetFace
  | ticked (x : Face) : FaceAtom sound x { x with sup := x.sup.ticked }
  | expired (x : Face) (timed : x.sup.state.timed = true) :
      FaceAtom sound x { x with sup := { x.sup with state := .stalled, stallTimer := 0, stallCount := satSucc Config.max16 x.sup.stallCount } }
  | epoch (x : Face) : FaceAtom sound x { x with level := x.epochLevel }
  | framed (x : Face) (scanning : x.sup.state ≠ .off) : FaceAtom sound x x.framed
  | synced (x : Face) (running : x.link.state = .running) : FaceAtom sound x x.synced
  | slotStarted (x : Face) (n : Fin 64) (w : LinkWord) : FaceAtom sound x { x with link := { x.link with line := .word n w } }
  | slotTaken (x : Face) (n : Fin 64) (w : LinkWord) :
      FaceAtom sound x { x with link := { x.link with line := .word n w }, mailboxes := put x.mailboxes n none }
  | counted (x : Face) (n : Fin 64) (c : ReceivedClass) : FaceAtom sound x (x.counted n c)
  | sampled (x : Face) (n : Fin 64) (fs : FrameSetup) (a : Nat) (setup : x.link.frameSetup = some fs)
      (slot : fs.sensorSlot = some n) (scanning : x.sup.state ≠ .off) :
      FaceAtom sound x { x.counted n .valid with level := { x.level with sensor := x.level.sensor.fresh a } }
  | outcome (x : Face) (n : Fin 64) (len : WordLength) (c : ReceivedClass) (w : LinkWord) (scanning : x.sup.state ≠ .off)
      (live : (pick x.records n).state ≠ .disabled) :
      FaceAtom sound x { x.counted n c with
        records := put x.records n ((pick x.records n).taken x.link.setup (moduleOutcomeOf len c w)).1 }
  | drained (x : Face) (draining : x.link.state = .draining) : FaceAtom sound x x.linkIdled
  | command (c : Command) (h : HeadFields) (ws : List Word) (s : State) (f : Fin 4) (done : c.result h ws s = .done)
      (allowed : sound → c.allows ws.length = true) (own : f ∈ c.faces h) :
      FaceAtom sound (s.face f) (c.faceAfter h ws (s.face f))

theorem faceAtom_of_ne {d : Prop} {s t : State} {f g : Fin 4} {k : State → State} (h : Effect [f] k) (ht : t = k s) (ne : g ≠ f) :
    FaceAtom d (s.face g) (t.face g) := by
  rw [ht, h.faces s g (by simpa using ne)]; exact .same _

theorem exchange_some {l : LinkChannel} {n : Fin 64} {fs : FrameSetup} (h : l.exchange n = some fs) :
    l.state ≠ .idle ∧ l.frameSetup = some fs ∧ fs.enables n = true := by
  unfold LinkChannel.exchange at h
  cases hs : l.state <;> cases hf : l.frameSetup <;> rw [hs, hf] at h <;> simp only [] at h
  all_goals first
    | cases h
    | (split at h
       · cases h; exact ⟨by simp, rfl, ‹_›⟩
       · cases h)

theorem face_countOutcome (f : Fin 4) (n : Fin 64) (c : ReceivedClass) (s : State) :
    (countOutcome f c (s.updFace f fun x => { x with link := { x.link with line := x.link.line.afterSlot n } })).face f =
      (s.face f).counted n c := by
  simp only [countOutcome, face_touch, face_updFace_self]
  cases c <;> rfl

theorem faceAtom_receiveSlot {d : Prop} (f : Fin 4) (n : Fin 64) (w : LinkWord) (s : State) :
    FaceAtom d (s.face f) ((receiveSlot f n w s).face f) := by
  unfold receiveSlot
  cases hx : (s.face f).link.exchange n with
  | none => exact .same _
  | some fs =>
    obtain ⟨-, hfs, -⟩ := exchange_some hx
    dsimp only
    generalize lineOrder fs.wordLength fs.bitOrder w = v
    generalize hcls : classifyReceived fs.wordLength v = c
    have hk := face_countOutcome f n c s
    generalize countOutcome f c (s.updFace f fun x => { x with link := { x.link with line := x.link.line.afterSlot n } }) = t at *
    by_cases hs : fs.sensorSlot = some n
    · rw [if_pos hs]
      unfold sensorOutcome
      rw [hk]
      by_cases hsc : (s.face f).sup.state.scanning = true
      · rw [if_pos (show ((s.face f).counted n c).sup.state.scanning = true from hsc)]
        cases c with
        | silent => dsimp only; rw [hk]; exact .counted _ _ _
        | garbled => dsimp only; rw [hk]; exact .counted _ _ _
        | valid =>
          dsimp only
          split
          · have : (takeSample f (sensorAmbient fs.wordLength v) t).face f =
                { (s.face f).counted n .valid with level := { (s.face f).level with sensor := (s.face f).level.sensor.fresh (sensorAmbient fs.wordLength v) } } := by
              unfold takeSample
              dsimp only
              split <;> simp only [face_raiseEvent, face_touch, face_updFace_self, hk] <;> rfl
            rw [this]
            exact .sampled _ n fs _ hfs hs ((scanning_iff _).1 hsc)
          · rw [hk]; exact .counted _ _ _
      · rw [if_neg (show ¬((s.face f).counted n c).sup.state.scanning = true from hsc), hk]; exact .counted _ _ _
    · rw [if_neg hs]
      unfold recordOutcome
      simp only [hk]
      split
      · rename_i hg
        rw [Bool.and_eq_true, scanning_iff] at hg
        have hset : (setRecord f n ((pick (s.face f).records n).taken (s.face f).link.setup (moduleOutcomeOf fs.wordLength c v)).1 t).face f =
            { (s.face f).counted n c with
              records := put (s.face f).records n ((pick (s.face f).records n).taken (s.face f).link.setup (moduleOutcomeOf fs.wordLength c v)).1 } := by
          simp only [setRecord, face_touch, face_updFace_self, hk]; rfl
        have atom := FaceAtom.outcome (sound := d) (s.face f) n fs.wordLength c v hg.1 (bne_iff_ne.1 hg.2)
        rw [← hset] at atom
        split
        · exact atom
        · rw [face_raiseEvent]; exact atom
      · rw [hk]; exact .counted _ _ _

theorem faceAtom_slotEnd {d : Prop} (f : Fin 4) (n : Fin 64) (w : LinkWord) (s : State) :
    FaceAtom d (s.face f) ((slotEnd f n w s).face f) := by
  unfold slotEnd
  split
  · exact .same _
  · exact faceAtom_receiveSlot f n w s

theorem atom_face {s t : State} (a : Atom s t) (g : Fin 4) : FaceAtom (DecoderSound s.decoder) (s.face g) (t.face g) := by
  have same : ∀ {k : State → State}, Effect [] k → FaceAtom (DecoderSound s.decoder) (s.face g) ((k s).face g) := fun h => by
    rw [h.faces s g (by simp)]; exact .same _
  cases a with
  | event => exact same (effect_raiseEvent _ _ _ _ _)
  | decoder => exact .same _
  | result => exact .same _
  | command c h ws _ done allowed =>
    rw [face_command]
    split
    · exact .command c h ws s g done allowed ‹_›
    · exact .same _
  | ack => exact same (effect_takeAck _ _ _)
  | consumed => exact same (effect_offerConsumed _)
  | frameStart f _ sc =>
    by_cases e : g = f
    · subst e
      have : (superviseFrameStart g (latch g s)).face g = (s.face g).framed := by
        have hl : (latch g s).face g = { s.face g with applied := latchedSet (s.face g) } := by
          simp only [latch, face_touch, face_updFace_self]
        unfold superviseFrameStart
        simp only [hl]
        rw [if_pos ((scanning_iff _).2 sc)]
        split <;> simp only [face_raiseEvent, face_touch, face_updFace_self, hl] <;> rfl
      rw [this]; exact .framed _ sc
    · exact faceAtom_of_ne ((effect_superviseFrameStart f).comp (effect_latch f)) rfl e
  | enter => exact .same _
  | waiting => exact .same _
  | response => unfold takeResponse; split <;> exact .same _
  | grant =>
    unfold grantBeat; split
    · unfold issueGrant; split <;> exact .same _
    · exact .same _
  | memory st d =>
    have e : ∀ o u, (completeOwnWrite o st u).face g = u.face g := fun o u => (confined_completeOwnWrite o st).faces u g (by simp)
    unfold takeMemoryResponse
    split
    · exact .same _
    · exact .same _
    · rw [e]; exact .same _
  | journal =>
    unfold journalEnqueue; split
    · split
      · exact .same _
      · split <;> exact .same _
    · exact .same _
  | status =>
    unfold statusEnqueue; split
    · split
      · exact .same _
      · split
        · exact .same _
        · unfold takeDirty; dsimp only; split <;> exact .same _
    · exact .same _
  | millisecond => exact .same _
  | divider => exact .same _
  | tick => exact .same _
  | reload => exact .same _
  | stallTick f =>
    by_cases e : g = f
    · subst e; rw [face_stallTick]; exact .ticked _
    · exact faceAtom_of_ne (effect_stallTick f) rfl e
  | stallExpiry f =>
    by_cases e : g = f
    · subst e; rw [face_stallExpiry]
      split
      · exact .expired _ ‹_›
      · exact .same _
    · exact faceAtom_of_ne (effect_stallExpiry f) rfl e
  | epoch f =>
    by_cases e : g = f
    · subst e; rw [face_epochFace]; exact .epoch _
    · exact faceAtom_of_ne (effect_epochFace f) rfl e
  | sync f =>
    by_cases e : g = f
    · subst e
      unfold linkSync
      split
      · rw [face_touch, face_updFace_self]; exact .synced _ ‹_›
      · exact .same _
    · exact faceAtom_of_ne (effect_linkSync f) rfl e
  | slotStart f n =>
    by_cases e : g = f
    · subst e
      unfold slotStart
      dsimp only
      split
      · exact .same _
      · split
        · simp only [setMailbox, face_touch, face_updFace_self]; exact .slotTaken _ _ _
        · simp only [face_updFace_self]; exact .slotStarted _ _ _
    · exact faceAtom_of_ne (effect_slotStart f n) rfl e
  | slotEnd f n w =>
    by_cases e : g = f
    · subst e; exact faceAtom_slotEnd g n w s
    · exact faceAtom_of_ne (effect_slotEnd f n w) rfl e
  | drainEnd f =>
    by_cases e : g = f
    · subst e
      unfold drainEnd
      split
      · rw [face_linkIdle]; exact .drained _ ‹_›
      · exact .same _
    · exact faceAtom_of_ne (effect_drainEnd f) rfl e
  | pulseEnd => exact .same _
  | reset w =>
    have : (powerOn w s).face g = resetFace := by show pick (Vector.replicate 4 resetFace) g = _; simp
    rw [this]; exact .reset _
  | assertion => exact .same _
  | command_taken => exact .same _

end Sys2Proof.Machine
end

