-- ==== Sys2Proof/Laws/Layouts.lean ====
section
/-! SUPPORT. What a word built of placed fields holds, once for every layout. -/

namespace Sys2Proof.Machine

/-- The bits of a placed field. -/
theorem place_getLsbD (value lo len i : Nat) :
    (place value lo len).getLsbD i = (decide (i < 32) && decide (lo ≤ i) && decide (i < lo + len) && value.testBit (i - lo)) := by
  unfold place
  rw [BitVec.getLsbD_ofNat, Nat.testBit_mul_two_pow, Nat.testBit_mod_two_pow]
  by_cases h : lo ≤ i
  · have : decide (i - lo < len) = decide (i < lo + len) := by simp only [decide_eq_decide]; omega
    simp [h, this, Bool.and_assoc]
  · simp [h]

/-- Some fields placed in one word. -/
def placed (fs : List BitField) : Word := fs.foldr (fun p v => place p.value p.lo (p.hi + 1 - p.lo) ||| v) 0

theorem placed_getLsbD (fs : List BitField) (i : Nat) :
    (placed fs).getLsbD i = fs.any fun p => (place p.value p.lo (p.hi + 1 - p.lo)).getLsbD i := by
  induction fs with
  | nil => simp [placed]
  | cons p fs ih =>
    rw [List.any_cons, ← ih]
    exact BitVec.getLsbD_or

/-- Fields that share no bit of a word stand in it side by side. -/
theorem laid_placed (fs : List BitField) (inWord : ∀ p ∈ fs, p.lo ≤ p.hi ∧ p.hi < 32)
    (apart : fs.Pairwise fun p q => p.hi < q.lo ∨ q.hi < p.lo) : Laid (placed fs) fs := by
  have other : ∀ (p : BitField) (i : Nat), p.lo ≤ p.hi → i < p.lo ∨ p.hi < i →
      (place p.value p.lo (p.hi + 1 - p.lo)).getLsbD i = false := by
    intro p i h k
    rw [place_getLsbD]
    rcases k with k | k
    · simp [show ¬p.lo ≤ i by omega]
    · simp [show ¬i < p.lo + (p.hi + 1 - p.lo) by omega]
  have both : Std.Symm fun p q : BitField => p.hi < q.lo ∨ q.hi < p.lo := ⟨fun _ _ h => h.symm⟩
  constructor
  · intro p hp
    apply Nat.eq_of_testBit_eq
    intro i
    rw [Nat.testBit_mod_two_pow, Nat.testBit_mod_two_pow]
    by_cases hi : i < p.hi + 1 - p.lo
    · obtain ⟨h1, h2⟩ := inWord p hp
      rw [Nat.testBit_div_two_pow, Nat.add_comm i p.lo]
      congr 1
      show (placed fs).getLsbD (p.lo + i) = _
      rw [placed_getLsbD]
      have own : (place p.value p.lo (p.hi + 1 - p.lo)).getLsbD (p.lo + i) = p.value.testBit i := by
        rw [place_getLsbD]
        simp [show p.lo + i < 32 by omega, hi]
      rw [← own]
      apply Bool.eq_iff_iff.2
      rw [List.any_eq_true]
      refine ⟨?_, fun h => ⟨p, hp, h⟩⟩
      rintro ⟨q, hq, h⟩
      by_cases e : q = p
      · rw [← e]; rw [e] at h ⊢; exact h
      · exfalso
        have far := apart.forall hp hq fun h => e h.symm
        rw [other q _ (inWord q hq).1 (by omega)] at h
        cases h
    · simp [hi]
  · intro i _ h
    rw [placed_getLsbD, List.any_eq_false]
    intro p hp
    rw [other p i (inWord p hp).1 (h p hp)]
    decide

/-- The count of records that a face's block shows (R132). -/
theorem recordsIn_eq (x : Face) (st : RecordState) : recordsIn x st = countRecords x.records st := by
  unfold recordsIn countRecords
  have : x.records.toList = (List.finRange 64).map fun n => pick x.records n := by
    apply List.ext_getElem
    · simp
    · intro i _ _; simp [pick]
  rw [this, List.countP_map]; rfl

end Sys2Proof.Machine
end

