-- ==== Sys2Proof/WellFormed.lean ====
section
/-! DEFINITION. Well-formed commands: the checks on operands that the types do not make. -/

namespace Sys2Proof

open Machine

/-- A row of the stream decoder carries no more BODY words than its HEAD word announces (R165, log 2). -/
def HeadFields.carries (h : HeadFields) (payload : List Word) : Bool := decide (payload.length ≤ h.count.toNat)

/-- A code that names no command (R165, 11.4). -/
def isUnknownCode (code : BitVec 8) : Bool := (commandOf code).isNone

/-- An ACK operation code that names no operation (R140, 11.4). -/
def isInvalidAck (operation : BitVec 4) : Bool := (ackOperationOf operation).isNone

/-- Well-formedness of a command. -/
def Instr.wf (i : Instr) : Bool :=
  match i with
  | .powerOnReset _ => true
  | .millisecondIncrement _ => true
  | .tick _ => true
  | .epoch _ => true
  | .stallExpiry _ => true
  | .cportRequestAccept _ => true
  | .localWrite _ _ _ _ _ _ => true
  | .cportResponseTaken => true
  | .mportGrant => true
  | .memoryResponse _ _ => true
  | .journalRecordEnqueue => true
  | .statusWordEnqueue => true
  | .linkSync _ => true
  | .slotStart _ _ => true
  | .slotEnd _ _ _ => true
  | .drainEnd _ => true
  | .attnPulseEnd => true
  | .bodyWord _ => true
  | .unknownCommand code h ws => isUnknownCode code && h.carries ws
  | .faceGeometry h ws => h.carries ws
  | .faceZonemap h ws => h.carries ws
  | .faceCurve h ws => h.carries ws
  | .faceLimits h ws => h.carries ws
  | .faceStart h ws => h.carries ws
  | .faceStop h ws => h.carries ws
  | .faceHold h ws => h.carries ws
  | .faceRelease h ws => h.carries ws
  | .outputConfig h ws => h.carries ws
  | .linkSetup h ws => h.carries ws
  | .moduleCommand h ws => h.carries ws
  | .moduleClear h ws => h.carries ws
  | .attnConfig h ws => h.carries ws
  | .journalSetup h ws => h.carries ws
  | .timingSetup h ws => h.carries ws
  | .statusRefresh h ws => h.carries ws
  | .partReset h ws => h.carries ws
  | .take => true
  | .finishTop _ => true
  | .finish _ _ => true
  | .setLowest _ => true
  | .ackInvalid operation => isInvalidAck operation
  | .consumedWrite _ => true
  | .porstNAssertion => true

end Sys2Proof
end

