-- ==== Sys2Proof/Tests/Slice0.lean ====
section
/-! SUPPORT. Tests on one command each, with results taken from the spec's worked examples, and a state that meets the hypotheses of each statement. -/

open Sys2Proof Sys2Proof.Machine

namespace Sys2Proof.Tests

set_option maxRecDepth 8000

/-! The states the tests start from. -/

/-- The state after a command. -/
def after (c : Instr) (s : State) : State :=
  match exec c s with
  | .next t => t
  | .fault _ => s
  | .refused _ => s

/-- The fields of a HEAD word. -/
def head (face : Fin 4) (slot : Fin 64) (count tag : BitVec 8) : HeadFields := ⟨face, slot, count, tag⟩

/-- The part after reset, with every image word clean. -/
def quiet : State := { State.reset with dirty := Vector.replicate 296 false }

/-- The link setup of 10.11: 40 slots enabled but for slot 20, sensor slot 0; with the record counts of 7.11. -/
def linkA : LinkSetup where
  slotCount := 40
  mask := 0xFFFFEFFFFF
  wordLength := .w16
  bitOrder := .msbFirst
  bitRate := .mhz1
  sensorSlot := some 0
  lostCount := 3
  confirmCount := 2
  clearCount := 2
  stuckLimit := 3
  thresholds := none

/-- The plane of 1.10. -/
def planeA : PlaneRecord where
  valid := true
  base := 0x1000000
  strideExp := 9
  width := 480
  height := 160
  scanTags := 4
  colBounds := [160, 320]
  rowBounds := [80]

/-- The curve of 2.11. -/
def curveA : List CurvePoint := [⟨0, 300⟩, ⟨400, 900⟩, ⟨2000, 2600⟩, ⟨8000, 4096⟩]

/-- The limits of 2.11. -/
def limitsA : Limits := ⟨3000, 0, 128, 256, 1024, 20⟩

/-- A record that is OK at step 0. -/
def okRecord : ModuleRecord := { resetRecord with state := .ok, lastSequence := some 0, stuckRun := 1 }

/-- The records of a started face of linkA. -/
def okRecords : Vector ModuleRecord 64 := Vector.ofFn fun n => if linkA.isModuleSlot n then okRecord else resetRecord

/-- An OFF face with the link of 10.11, its plane record invalid. -/
def setUpFace : Face :=
  { resetFace with
    level := { resetLevel with sensor := { state := .waiting, sample := 0, count := 0 } }
    link := { resetLink with setUp := true, setup := linkA } }

/-- The same with the plane of 1.10. -/
def readyFace : Face := { setUpFace with plane := planeA, zoneMap := defaultMap 6 (some 0) }

/-- The face of 1.10, LIVE, with the level engine of 2.11. -/
def liveFace : Face :=
  { readyFace with
    level := { resetLevel with curve := curveA, limits := limitsA, sensor := { state := .valid, sample := 1200, count := 0 }, level := 1500 }
    applied := { level := 1628, floor := 1400, steps := Vector.replicate 64 1 }
    sup := { resetSupervisor with state := .live, stallTimer := 50 }
    link := { resetLink with setUp := true, setup := linkA, state := .running, frameSetup := some linkA.frameSetup }
    records := okRecords }

/-- Face 1 is some face. -/
def withFace (x : Face) : State := quiet.setFace 1 x

/-- Face 1 is LIVE. -/
def live : State := withFace liveFace

/-- A read of the plane of face 1 with the scan tag. -/
def scanRead (a : Addr) : Request := ⟨.read, a, 15, 0, 2, 1⟩

/-- A write. -/
def write (a : Addr) (be : BitVec 4) (data : Word) : Request := ⟨.write, a, be, data, 0, 4⟩

/-- An order-list entry that awaits memory. -/
def awaitingEntry : OrderEntry := ⟨.read, 1, .forward, none, .awaitingMemory⟩

/-- The journal of 9.9. -/
def journalA : Journal where
  configured := true
  base := 0x800000
  capacity := 16
  threshold := 14
  produced := 40
  consumed := 28
  drops := 3
  sequence := 1000
  inProgress := none

/-- A module event. -/
def eventA : EventEntry := ⟨.moduleSeen, 1, 6, 77, 1, 0⟩

/-- The event queue of 9.9 is full. -/
def overflow : State := { live with journal := journalA, eventQueue := List.replicate 32 eventA }

/-- The record of 9.9, step 4, in progress. -/
def recordA : RecordProgress := ⟨false, 0x800080, 1000⟩

/-- The own writes of a record whose header is still queued. -/
def wordsA : List OwnWrite := [⟨0x800084, 77, .journal 1000 false⟩, ⟨0x800080, 5, .journal 1000 true⟩]

/-- A part with traffic on both ports, a record in progress and a command being collected. -/
def busy : State :=
  { live with
    orderList :=
      [⟨.read, 1, .forwardScale, some ⟨1, 5, 1221, false, 1400⟩, .awaitingMemory⟩, ⟨.write, 3, .localWrite, none, .ready .discarded 0⟩,
       ⟨.write, 4, .forwardSnoop, none, .awaitingMemory⟩]
    forwardQueue := [write 0xFFC0000 15 0x01400522]
    inFlight := [.forwarded, .own (.status 3)]
    ownWrites := wordsA
    arbiterCount := 4
    journal := { journalA with sequence := 1001, drops := 1, inProgress := some recordA }
    eventQueue := List.replicate 32 eventA
    decoder :=
      { state := .collecting, remaining := 2, inProgress := some ⟨0x01, head 1 0 5 0x23⟩, refusal := none,
        buffer := [0x01000000, 0x00501E09, 0x00020304], result := resetResult } }

/-! Operands the checks refuse. -/

theorem test_wf_refuses_words_past_the_count : (Instr.faceHold (head 0 0 0 0) [5]).wf = false := by decide
theorem test_wf_accepts_words_up_to_the_count : (Instr.faceHold (head 0 0 1 0) [5]).wf = true := by decide
theorem test_wf_refuses_a_known_code : (Instr.unknownCommand 0x1F (head 0 0 0 0) []).wf = false := by decide
theorem test_wf_refuses_an_unknown_code_with_words_past_the_count : (Instr.unknownCommand 0x00 (head 0 0 0 0) [1]).wf = false := by decide
theorem test_wf_refuses_a_named_operation : (Instr.ackInvalid 4).wf = false := by decide
theorem test_wf_accepts_an_unused_operation : (Instr.ackInvalid 5).wf = true := by decide
theorem test_no_word_spells_a_command : decodeTableWord 32 0x05000000 = none := by decide

/-! The words of 11.4, bit by bit: a HEAD word and an ACK word written on CPORT. -/

theorem test_head_word_fields : headOf 0x01400522 = ⟨0x01, head 1 0 5 0x22⟩ := by decide
theorem test_ack_word_fields : (ackCode 0x30000103, ackRotate 0x30000103, ackClassField 0x30000103) = (3, true, 3) := by decide

/-! Reset, time and the level engines. -/

/-- R55: WSEL 3 gives 0x0FFF_0000. -/
theorem test_power_on_reset_window : (after (.powerOnReset 3) live).windowBase = 0xFFF0000 := by decide
theorem test_porst_holds_the_pins : (after .porstNAssertion live).attnHigh = true ∧ (after .porstNAssertion live).porstAsserted = true := by decide
/-- R17, R18: the tenth millisecond brings the tick. -/
theorem test_millisecond_brings_tick :
    ((after (.millisecondIncrement []) { live with tickDivider := 9 }).face 1).sup.stallTimer = 49 := by decide
/-- 5.10: the tick of 4,500. -/
theorem test_tick_expires_the_stall_timer :
    let t := after (.tick []) (withFace { liveFace with sup := { liveFace.sup with stallTimer := 1, stallTimeout := 20, stallCount := 3 } })
    ((t.face 1).sup.state, (t.face 1).sup.stallCount, t.eventQueue.map fun e => (e.code, e.detailA, e.detailB)) =
      (.stalled, 4, [(.frameStall, 2, 20)]) := by decide
/-- 2.11, epoch 1. -/
theorem test_epoch_slews :
    ((after (.epoch []) live).face 1).level.level = 1628 ∧ ((after (.epoch []) live).face 1).level.target = 1750 := by decide
/-- 2.11, epoch 25. -/
theorem test_epoch_loses_the_sensor :
    let t := after (.epoch [1]) (withFace { liveFace with level := { liveFace.level with sensor := ⟨.valid, 8191, 20⟩ } })
    ((t.face 1).level.sensor, (t.face 1).level.ambient, t.eventQueue.map fun e => (e.code, e.detailB)) =
      (⟨.lost, 8191, 21⟩, 1024, [(.sensorLost, 20)]) := by decide
theorem test_stall_expiry_blanks : oeALit ((after (.stallExpiry 1) live).face 1).sup.state = false := by decide
/-- 2.12. -/
theorem test_falling_segment :
    [500, 1000, 1001, 1002, 2500, 3999, 4000, 6000].map (curveValue [⟨1000, 3000⟩, ⟨4000, 1000⟩] 4096) =
      [3000, 3000, 3000, 2999, 2000, 1001, 1000, 1000] := by decide

/-! The request path. -/

/-- 1.10 and 3.10: read P. -/
theorem test_scan_read_captures :
    (after (.cportRequestAccept (scanRead 0x1032578)) live).orderList.map (fun e => e.context) = [some ⟨1, 5, 1221, false, 1400⟩] := by decide
/-- 1.10: the other addresses. -/
theorem test_classification_of_the_worked_reads :
    [0x1000000, 0x1000003, 0x10007D0, 0x1000280, 0x100027C, 0x104FF7C, 0x1050000].map (fun a => classify live (scanRead a)) =
      [.scan 1 0 true, .scan 1 0 true, .forward, .scan 1 1 false, .scan 1 0 false, .scan 1 5 false, .forward] := by decide
/-- 4.10: request B. -/
theorem test_local_write_is_discarded :
    (after (.localWrite 8 0 15 7 0 3) live).orderList = [⟨.write, 3, .localWrite, none, .ready .discarded 0⟩] := by decide
/-- 11.8: the codes of CRSP_STATUS. -/
theorem test_response_status_codes :
    [Status.okay, .error, .discarded].map
        (fun st => ({ live with orderList := [⟨.read, 3, .forward, none, .ready st 0⟩] } : State).crspStatus) =
      [some 0, some 1, some 2] := by decide
theorem test_response_taken :
    (after .cportResponseTaken { live with orderList := [⟨.write, 3, .localWrite, none, .ready .discarded 0⟩] }).cportLast =
      some ⟨.write, 3, .discarded, 0⟩ := by decide
/-- 4.11: grants 4 and 5. -/
theorem test_grants :
    let s := fun n => after .mportGrant { live with forwardQueue := [scanRead 0], ownWrites := wordsA, arbiterCount := n }
    ((s 3).arbiterCount, (s 3).inFlight, (s 4).arbiterCount, (s 4).inFlight) =
      (4, [.forwarded], 0, [.own (.journal 1000 false)]) := by decide
/-- 3.10: the classes of read P, red 1000, green 512, blue 3. -/
theorem test_scaling_of_the_worked_pixel :
    let word := fun c r g b => BitVec.ofNat 32 (c * 2 ^ 30 + r * 2 ^ 20 + g * 2 ^ 10 + b)
    [0, 1, 2, 3].map (fun c => scaleWord ⟨1, 5, 1221, false, 1400⟩ (word c 1000 512 3)) =
      [word 0 298 153 1, word 1 342 175 1, word 2 0 0 0, word 3 1000 512 3] := by decide
/-- R67: an ERROR response to a write. -/
theorem test_memory_error_on_a_write :
    (after (.memoryResponse 2 9) { live with inFlight := [.forwarded], orderList := [{ awaitingEntry with kind := .write }] }).orderList.map
      (fun e => e.completion) = [.ready .error 0] := by decide

/-! The links and the records. -/

theorem test_sync_counts_and_marks :
    let t := after (.linkSync 1) live
    (t.face 1).link.frameCount = 1 ∧ pick t.dirty (faceWord 1 4) = true := by decide
/-- 6.11: the word of slot 6, with the mailbox taken. -/
theorem test_command_word :
    let t := after (.slotStart 1 6)
      (withFace
        { liveFace with
          link := { liveFace.link with frameCount := 4660 }
          records := put okRecords 6 { okRecord with tempLevel := .hot }
          mailboxes := put emptyMailboxes 6 (some ⟨true, false⟩) })
    (t.face 1).link.line = .word 6 0x9A0D ∧ pick (t.face 1).mailboxes 6 = none := by decide
/-- R98: TLSYNC is high for the sync's bit time alone, and TLIN is ignored while PORST_N is asserted. -/
theorem test_sync_pins_and_held_line :
    let t := after (.linkSync 1) live
    [0, 1, 16].map (t.tlsync 1) = [true, false, false] ∧
      (let u := after .porstNAssertion live; after (.slotEnd 1 6 0x00CB) u = u) := by decide
/-- 6.12: slots 3, 4, 5, 7 and 8. -/
theorem test_received_words :
    [0, 0x930B, 0x930A, 0xFFFF, 0xC001].map (classifyReceived .w16) = [.silent, .valid, .garbled, .garbled, .valid] := by decide
/-- 7.11, frame 6: marker, open, HOT and sequence 3, 0xD300, on an MSB-first link. -/
theorem test_slot_end_suspects :
    let t := after (.slotEnd 1 6 0x00CB) (withFace { liveFace with records := put okRecords 6 { okRecord with tempLevel := .hot, lastSequence := some 2, silentRun := 2 } })
    ((pick (t.face 1).records 6).state, (pick (t.face 1).records 6).confirmRun, (pick (t.face 1).records 6).silentRun, t.eventQueue.map fun e => e.code) =
      (.suspect, 1, 0, [.moduleSuspect]) := by decide
/-- 6.12, slot 39: marker, fresh, 1200 and parity, at the sensor slot. -/
theorem test_slot_end_of_the_sensor :
    ((after (.slotEnd 1 0 (lineOrder .w16 .msbFirst 0xC961)) live).face 1).level.sensor = ⟨.valid, 1200, 0⟩ := by decide
/-- 6.13: the end of the gap. -/
theorem test_drain_end :
    let t := after (.drainEnd 1) (withFace { liveFace with link := { liveFace.link with state := .draining } })
    (t.face 1).link.state = .idle ∧ (t.face 1).records = resetRecords := by decide
/-- 7.12: the temperatures in turn, from the level each word finds. -/
theorem test_temperature_levels :
    [(TempLevel.normal, 61), (.warm, 76), (.hot, 72), (.hot, 69), (.warm, 92), (.critical, 54)].map
        (fun p => Thresholds.levelAfter ⟨60, 75, 90, 5⟩ p.1 p.2) =
      [.warm, .hot, .hot, .warm, .critical, .normal] := by decide

/-! The attention controller. -/

/-- A pending set, an in-service set and a base. -/
def attention (p m i : Set8) (b : Fin 8) : Attention := { resetAttention with pending := p, mask := m, inService := i, base := b }

/-- The sets, the base, the presented class and the ack result. -/
def attentionView (s : State) : Set8 × Set8 × Fin 8 × Option (Fin 8) × AckResult × Option (Fin 8) :=
  (s.attention.pending, s.attention.inService, s.attention.base, s.attention.presented, s.attention.ackResult, s.attention.ackClass)

/-- 8.9, step 3. -/
theorem test_take : attentionView (after .take { quiet with attention := attention 0x48 0x40 0 0 }) = (0x40, 0x08, 0, none, .done, some 3) := by decide
/-- 8.10, step 1. -/
theorem test_take_finishes_at_once :
    attentionView (after .take { quiet with attention := { attention 0x26 0 0 0 with autoFinish := true, rotateOnAuto := true } }) =
      (0x24, 0, 2, some 2, .done, some 1) := by decide
/-- 8.9, step 7. -/
theorem test_finish_top :
    attentionView (after (.finishTop false) { quiet with attention := attention 0x48 0x40 0x0A 0 }) = (0x48, 0x08, 0, none, .done, some 1) := by decide
/-- 8.9, steps 8 and 9. -/
theorem test_finish :
    attentionView (after (.finish true 3) { quiet with attention := attention 0x48 0x40 0x08 0 }) = (0x48, 0, 4, some 3, .done, some 3) := by decide
theorem test_finish_of_a_class_not_in_service :
    attentionView (after (.finish true 3) { quiet with attention := attention 0x48 0x40 0 4 }) = (0x48, 0, 4, some 3, .none, some 3) := by decide
/-- R143: class 2 ranks lowest. -/
theorem test_set_lowest : attentionView (after (.setLowest 2) { quiet with attention := attention 0x0C 0 0 0 }) = (0x0C, 0, 3, some 3, .done, some 2) := by decide
/-- 8.9, step 12. -/
theorem test_ack_invalid :
    attentionView (after (.ackInvalid 9) { quiet with attention := attention 0x48 0x40 0x10 4 }) = (0x48, 0x10, 4, none, .invalid, none) := by decide
/-- 8.11: a new presented class begins a pulse, whose end drives ATTN_N high. -/
theorem test_pulse :
    let s := raiseEvent .moduleSeen 0 0 0 0 { quiet with attention := { resetAttention with mode := .pulse } }
    s.attnHigh = false ∧ (after .attnPulseEnd s).attnHigh = true := by decide

/-! The journal and the status writer. -/

/-- 9.9, step 4. -/
theorem test_summary_goes_first :
    let t := after .journalRecordEnqueue overflow
    (t.ownWrites, t.journal.drops, t.eventQueue.length) =
      ([⟨0x800088, 3, .journal 1000 false⟩, ⟨0x80008C, 32, .journal 1000 false⟩, ⟨0x800084, 0, .journal 1000 false⟩,
        ⟨0x800080, 0x03E8FF00, .journal 1000 true⟩], 0, 32) := by decide
/-- 9.9, step 8: the header completes and the fill reaches the threshold. -/
theorem test_header_completes :
    let t := after (.memoryResponse 0 0)
      { live with inFlight := [.own (.journal 1001 true)], journal := { journalA with produced := 41, inProgress := some ⟨false, 0x800090, 1001⟩ } }
    (t.journal.produced, t.journal.fill, t.journal.inProgress, hasClass t.attention.pending 7) = (42, 14, none, true) := by decide
/-- 9.9, step 3. -/
theorem test_consumed_accepted : (after (.consumedWrite 28) { overflow with journal := { journalA with consumed := 24 } }).journal.fill = 12 := by decide
/-- 9.9, step 13. -/
theorem test_consumed_rejected :
    (after (.consumedWrite 50) { live with journal := { journalA with produced := 44 } }).eventQueue.map (fun e => (e.code, e.detailA, e.detailB)) =
      [(.indexRejected, 50, 44)] := by decide
/-- 9.10: the turn that ends the pass, and the owed word after it. -/
theorem test_status_writer_turns :
    let t := after .statusWordEnqueue { quiet with dirty := put quiet.dirty 6 true, generation := 7 }
    (t.ownWrites.map (fun w => w.addr), t.generation, t.generationOwed, (after .statusWordEnqueue t).ownWrites.map fun w => w.origin) =
      ([0xFFC0058], 8, true, [.status 6, .status 0]) := by decide
/-- 11.7, by hand: the attention word of 8.9, step 4, and the fill word of 9.9, step 3. -/
theorem test_part_image_words :
    imageValue { quiet with attention := attention 0x42 0x40 0x08 0 } (partWord 3) = 0x09084042 ∧
    imageValue overflow (partWord 6) = 0x100C0003 := by decide
/-- 11.7, by hand: state, levels and record counts of the LIVE face, and a HOT module's word. -/
theorem test_face_and_module_image_words :
    [faceWord 1 0, faceWord 1 1, faceWord 1 6, moduleWord 1 6].map
        (imageValue (withFace { liveFace with records := put okRecords 6 { okRecord with tempLevel := .hot } })) =
      [0x00000002, 0x065C05DC, 0x00000026, 0x00000092] := by decide

/-! The stream decoder. -/

/-- The result word as tag, code and result, and the events' codes. -/
def resultView (s : State) : BitVec 8 × BitVec 8 × ResultCode × List EventCode :=
  (s.decoder.result.tag, s.decoder.result.code, s.decoder.result.result, s.eventQueue.map fun e => e.code)

/-- The payload of FACE_GEOMETRY in 10.11. -/
def geometryA : List Word := [0x01000000, 0x00501E09, 0x00020304, 0x014000A0, 0xFFFF0050]

/-- 10.11, row 7. -/
theorem test_stray_word : (after (.bodyWord 80) quiet).eventQueue.map (fun e => (e.code, e.detailA)) = [(.streamStray, 80)] := by decide
/-- 10.11, rows 4 and 5. -/
theorem test_collected_word :
    let t := after (.bodyWord 5) busy
    (t.decoder.state, t.decoder.remaining, t.decoder.buffer.length) = (.collecting, 1, 4) := by decide
/-- 10.11, row 12. -/
theorem test_new_head_abandons :
    let t := after (.unknownCommand 0x24 (head 0 0 2 0x24) []) { live with decoder := busy.decoder }
    resultView t = (0x23, 0x01, .abandoned, [.cmdAbandoned]) ∧ t.eventQueue.map (fun e => e.detailB) = [2] ∧
      (t.decoder.state, t.decoder.remaining) = (.discarding, 2) := by decide
/-- 10.11, rows 12 to 14. -/
theorem test_unknown_command_consumes_its_words :
    resultView (after (.unknownCommand 0x24 (head 0 0 2 0x24) [1, 2]) quiet) = (0x24, 0x24, .unknown, [.cmdRefused]) := by decide
/-- 10.11, row 17. -/
theorem test_geometry :
    let t := after (.faceGeometry (head 1 0 5 0x25) geometryA) (withFace setUpFace)
    resultView t = (0x25, 0x01, .done, []) ∧ (t.face 1).plane = planeA ∧
      [0, 1, 2, 3, 4, 5, 6].map (pick (t.face 1).zoneMap) = [some 1, some 2, some 3, some 4, some 5, some 6, none] := by decide
/-- 10.11, rows 2 to 7. -/
theorem test_geometry_count :
    let t := after (.faceGeometry (head 1 0 4 0x22) geometryA) (withFace setUpFace)
    resultView t = (0x22, 0x01, .count, [.cmdRefused, .streamStray]) ∧ (t.face 1).plane.valid = false := by decide
/-- R170, by hand: six zones in two words, the last two fields ignored. -/
theorem test_zone_map :
    [0, 1, 4, 5, 6].map (pick ((after (.faceZonemap (head 1 0 2 1) [0x0C0B0A09, 0xFFFF0D0E]) (withFace readyFace)).face 1).zoneMap) =
      [some 9, some 10, some 14, some 13, none] := by decide
/-- 10.12. -/
theorem test_curve_clamps :
    ((after (.faceCurve (head 1 0 3 0x41) [0x00001388, 0x1F401000, 0x1FFF1770]) live).face 1).level.stagedCurve =
      some [⟨0, 4096⟩, ⟨8000, 4096⟩, ⟨8191, 4096⟩] := by decide
/-- 10.12, with the third ambient 8192 and 8000. -/
theorem test_curve_refusals :
    [0x20001770, 0x1F401770].map (fun w => resultView (after (.faceCurve (head 1 0 3 0x41) [0x00001388, 0x1F401000, w]) live)) =
      [(0x41, 0x03, .value, [.cmdRefused]), (0x41, 0x03, .order, [.cmdRefused])] := by decide
/-- 10.12. -/
theorem test_limits_clamp :
    let x := (after (.faceLimits (head 1 0 3 0x40) [0x10681388, 0x23280000, 0x00002328]) live).face 1
    x.level.stagedLimits = some ⟨4096, 4096, 1, 4096, 8191, 1⟩ ∧ x.sup.stallTimeout = 1 := by decide
/-- 10.11, row 1. -/
theorem test_start_refused :
    let t := after (.faceStart (head 1 0 0 0x21) []) (withFace setUpFace)
    resultView t = (0x21, 0x05, .state, [.cmdRefused]) ∧
      t.eventQueue.map (fun e => (e.face, e.detailA, e.detailB)) = [(1, 0x0521, 2)] := by decide
/-- 10.11, row 21. -/
theorem test_start :
    let x := (after (.faceStart (head 1 0 0 0x27) []) (withFace readyFace)).face 1
    (x.sup.state, x.link.state, (pick x.records 6).state, (pick x.records 20).state, x.sup.stallTimer) =
      (.starting, .running, .unseen, .disabled, 50) := by decide
/-- 5.12. -/
theorem test_stop_drains :
    let x := (after (.faceStop (head 1 0 0 1) []) live).face 1
    (x.sup.state, x.link.state, x.applied) = (.off, .draining, darkForm) := by decide
/-- 5.12: the start against a draining link. -/
theorem test_start_busy :
    resultView (after (.faceStart (head 1 0 0 2) []) (withFace { readyFace with link := { liveFace.link with state := .draining } })) =
      (2, 0x05, .busy, [.cmdRefused]) := by decide
/-- R32, by hand: the field clamps to 4096, then to the ceiling of 3000. -/
theorem test_hold_forces_the_level :
    let x := (after (.faceHold (head 1 0 1 1) [0x0000FFFF]) live).face 1
    (x.level.hold, x.level.level) = (true, 3000) := by decide
theorem test_release :
    ((after (.faceRelease (head 1 0 0 1) []) (withFace { liveFace with level := { liveFace.level with hold := true } })).face 1).level.hold = false := by decide
/-- 5.11: configuration X in LIVE and in OFF. -/
theorem test_output_configuration_x :
    let pins := fun x => let t := after (.outputConfig (head 1 0 1 1) [0x00000023]) (withFace x); (t.oeA 1, t.oeB 1)
    pins liveFace = (.drivenLow, .drivenHigh) ∧ pins readyFace = (.highImpedance, .drivenLow) := by decide
/-- 5.11: configuration Y in LIVE and in STALLED. -/
theorem test_output_configuration_y :
    let pins := fun x => let t := after (.outputConfig (head 1 0 1 1) [0x00000090]) (withFace x); (t.oeA 1, t.oeB 1)
    pins liveFace = (.drivenHigh, .drivenHigh) ∧
      pins { liveFace with sup := { liveFace.sup with state := .stalled } } = (.drivenLow, .highImpedance) := by decide
/-- 10.11: the link setup before row 0, with the record counts of 7.11. -/
theorem test_link_setup :
    ((after (.linkSetup (head 1 0 4 0x20) [0xFFEFFFFF, 0x000000FF, 0x00008428, 0x00032203]) quiet).face 1).link.setup = linkA := by decide
theorem test_module_command :
    pick ((after (.moduleCommand (head 1 6 1 1) [1]) live).face 1).mailboxes 6 = some ⟨true, false⟩ ∧
    resultView (after (.moduleCommand (head 1 20 1 2) [1]) live) = (2, 0x0B, .value, [.cmdRefused]) := by decide
/-- 7.11, the row of the clear. -/
theorem test_module_clear :
    let r := pick ((after (.moduleClear (head 1 6 0 1) [])
      (withFace { liveFace with records := put okRecords 6 { okRecord with state := .faulted, confirmRun := 2, lastSequence := some 3 } })).face 1).records 6
    (r.state, r.confirmRun, r.lastSequence, r.stuckRun) = (.unseen, 0, none, 0) := by decide
/-- R144, by hand: mask {6}, PULSE, auto-finish on, rotate-on-auto off, pending classes 0 to 3 cleared. -/
theorem test_attention_configuration :
    (after (.attnConfig (head 0 0 2 1) [0x00000340, 0x0000000F]) { quiet with attention := attention 0x19 0 0 0 }).attention =
      { attention 0x10 0x40 0 0 with mode := .pulse, autoFinish := true } := by decide
/-- R150, by hand. -/
theorem test_journal_setup :
    let t := after (.journalSetup (head 0 0 2 1) [0x00800000, 0x000E0010]) busy
    ((t.journal.base, t.journal.capacity, t.journal.threshold), (t.journal.produced, t.journal.fill), t.journal.inProgress) =
      ((0x800000, 16, 14), (0, 0), some { recordA with superseded := true }) := by decide
/-- R180, by hand: a ring over the plane of face 1. -/
theorem test_journal_setup_overlap :
    resultView (after (.journalSetup (head 0 0 2 1) [0x0104FFF0, 0x000E0010]) live) = (1, 0x11, .overlap, [.cmdRefused]) := by decide
/-- 10.11, row 20. -/
theorem test_timing_setup :
    let t := after (.timingSetup (head 0 0 1 0x26) [1]) quiet
    (t.epochSelect, t.epochTimer, resultView t) = (1, 5, (0x26, 0x12, .done, [])) := by decide
theorem test_status_refresh : pick (after (.statusRefresh (head 0 0 0 1) []) live).dirty 295 = true := by decide
/-- R182. -/
theorem test_part_reset :
    let t := after (.partReset (head 0 0 0 9) []) busy
    ((t.orderList.length, t.eventQueue.length, (t.face 1).link.state), resultView t) = ((3, 0, .draining), (9, 0x1F, .done, [])) := by decide
/-- 10.11, row 19: a partial BODY write is forwarded, and the decoder is left. -/
theorem test_partial_write :
    let t := after (.cportRequestAccept (write 0xFFC0004 3 1)) { live with decoder := busy.decoder }
    (t.decoder.remaining, t.forwardQueue.length, t.eventQueue.map fun e => (e.code, e.detailA, e.detailB)) =
      (2, 1, [(.streamPartial, 4, 3)]) := by decide

/-! States and operands that meet the hypotheses of the statements; where a statement has clauses over a range, one at the edge of each. -/

/-- A command is taken: the three conditions. -/
theorem taken_of {c : Command} {h : HeadFields} {ws : List Word} {s : State}
    (hyp : s.decoder.state = .idle ∧ ws.length = h.count.toNat ∧ c.allows ws.length = true) : Taken c h ws s :=
  ⟨hyp.1, hyp.2.1, hyp.2.2⟩

/-- A command's tests all pass, by its computed result. -/
theorem passes_of {c : Command} {h : HeadFields} {ws : List Word} {s : State}
    (hyp : c.allows ws.length = true ∧ c.result h ws s = .done) : Passes c h ws s := (passes_iff h hyp.1 s).2 hyp.2

/-- A command's tests give a result, by its computed result. -/
theorem fails_of {c : Command} {h : HeadFields} {ws : List Word} {s : State} {r : ResultCode}
    (hyp : c.allows ws.length = true ∧ c.result h ws s = r) : FirstFailing (c.tests h ws s) r :=
  (firstFailing_tests h hyp.1 s r).2 hyp.2

/-- The room of a state to forward. -/
theorem room_of {s : State}
    (hyp : s.porstAsserted = false ∧ s.cportWaiting = [] ∧ s.orderList.length < 16 ∧ s.forwardQueue.length < 8) : RoomToForward s :=
  ⟨hyp.1, hyp.2.1, hyp.2.2.1, hyp.2.2.2⟩

/-- A scan read of face 1 of the LIVE state. -/
theorem scanRead_of {a : Addr}
    (hyp : 0x1000000 ≤ a.toNat / 4 * 4 ∧ a.toNat / 4 * 4 < 0x1000000 + 160 * 2 ^ 9 * 4) : ScanReadOf live 1 (scanRead a) :=
  have tags : (live.face 1).plane.scanTags.getLsbD 2 = true := by decide
  ⟨rfl, by decide, hyp.1, hyp.2, tags, by decide⟩

theorem witness_StepRunsFrontCommand : busy.pending = [] := by decide

theorem witness_EveryCommandCompletes :
    (∀ w, Instr.take ≠ .powerOnReset w) ∧ (∀ order, Instr.take ≠ .millisecondIncrement order) ∧ Instr.take ≠ .porstNAssertion := by
  refine ⟨fun _ => ?_, fun _ => ?_, ?_⟩ <;> simp

theorem witness_MillisecondsBringTicks : ({ live with tickDivider := 8 } : State).tickDivider < 9 ∧ 9 ≤ ({ live with tickDivider := 9 } : State).tickDivider := by
  decide

/-- The last tick of a stall timer, and the one before it; a sensor count at the sensor-lost epochs. -/
theorem witness_TickReachesEveryFace_events :
    let s := withFace { liveFace with sup := { liveFace.sup with stallTimer := 1 }, level := { liveFace.level with sensor := ⟨.valid, 8191, 20⟩ } }
    Expires s 1 ∧ ¬Expires (withFace { liveFace with sup := { liveFace.sup with stallTimer := 2 } }) 1 ∧ LosesSensor s 1 := by
  refine ⟨⟨by decide, by decide⟩, fun h => absurd h.2 (by decide), by decide, by decide, by decide⟩

theorem witness_TickReachesEveryFace :
    (live.face 0).sup.state = .off ∧ (live.face 1).sup.state = .live ∧ 1 < ({ live with epochTimer := 2 } : State).epochTimer ∧
      ({ live with epochTimer := 1 } : State).epochTimer ≤ 1 := by decide

/-- The sensor test at its edge: the count equals the sensor-lost epochs. -/
theorem witness_EpochAtTheLevelEngines :
    let s := withFace { liveFace with level := { liveFace.level with sensor := ⟨.valid, 8191, 20⟩ } }
    ((∀ g, g ≠ 1 → (s.face g).sup.state = .off) ∧ (s.face 1).sup.state ≠ .off) ∧ (s.face 1).level.sensor.state = .valid ∧
      ((s.face 1).level.stagedLimits.getD (s.face 1).level.limits).sensorLostEpochs = (s.face 1).level.sensor.count ∧
      (s.face 1).link.setup.sensorSlot = some 0 ∧ s.eventQueue.length < 32 := by decide

/-- A curve of two points in force at a face that scans: an ambient at the first point, the last of the segment, and at
the last point. -/
theorem witness_EpochAtTheLevelEngines_curve :
    let curve : List CurvePoint := [⟨100, 200⟩, ⟨300, 50⟩]
    let s := withFace { liveFace with level := { liveFace.level with stagedCurve := some curve } }
    (s.face 1).level.stagedCurve.getD (s.face 1).level.curve = curve ∧ (s.face 1).sup.state ≠ .off ∧
      (curve.Pairwise fun p q => p.ambient < q.ambient) ∧
      (curve[0]? = some ⟨100, 200⟩ ∧ curve[0 + 1]? = some ⟨300, 50⟩ ∧ curve.getLast? = some ⟨300, 50⟩) ∧
      (100 ≤ 100 ∧ 100 < 300) ∧ (100 ≤ 299 ∧ 299 < 300) ∧ 300 ≤ 300 := by decide

theorem witness_StallExpiryStalls : (live.face 1).sup.state = .live ∧ (live.face 0).sup.state = .off := by decide

/-- The edges of the image windows, the control words and the offsets between them, and addresses just outside
the window. -/
theorem witness_ClassificationFollowsTheTable_writes :
    let at_ := fun (a : Addr) (o : Nat) => o < 0x1000 ∧ a.toNat / 4 * 4 = live.windowBase.toNat + o
    (at_ 0xFFC0040 0x040 ∧ at_ 0xFFC00DF 0x0DC ∧ at_ 0xFFC0400 0x400 ∧ at_ 0xFFC07FF 0x7FC) ∧
    (at_ 0xFFC0010 0x010 ∧ at_ 0xFFC003F 0x03C ∧ at_ 0xFFC00E0 0x0E0 ∧ at_ 0xFFC03FF 0x3FC ∧ at_ 0xFFC0800 0x800 ∧ at_ 0xFFC0FFF 0xFFC) ∧
    (at_ 0xFFC0000 0x000 ∧ at_ 0xFFC0004 0x004 ∧ at_ 0xFFC0008 0x008 ∧ at_ 0xFFC000F 0x00C) ∧
    ((0xFFBFFFF : Addr).toNat / 4 * 4 < live.windowBase.toNat ∧ live.windowBase.toNat + 0x1000 ≤ (0xFFC1000 : Addr).toNat / 4 * 4) := by decide

/-- The last word of a line and the padding word after it; and a read by another tag. -/
theorem witness_ClassificationFollowsTheTable_reads :
    ScanReadOf live 1 (scanRead 0x100077C) ∧ ScanReadOf live 1 (scanRead 0x1000780) ∧
    (∀ f, ¬ScanReadOf live f { scanRead 0x1000000 with tag := 0 }) ∧ (∀ g, g ≠ 1 → ¬ScanReadOf live g (scanRead 0x100077C)) := by
  refine ⟨scanRead_of (by decide), scanRead_of (by decide), fun f h => ?_, fun g hg h => ?_⟩
  · have out : ∀ f, (live.face f).plane.scanTags.getLsbD 0 = false := by decide
    exact absurd h.tag (by simpa using out f)
  · have out : ∀ g, g ≠ 1 → (live.face g).plane.valid = false := by decide
    exact absurd h.valid (by simp [out g hg])

/-- 15 and 16 order entries, 7 and 8 forwarded requests. -/
theorem witness_ForwardedRequestsJoinOrWait :
    RoomToForward { live with orderList := List.replicate 15 awaitingEntry, forwardQueue := List.replicate 7 (scanRead 0) } ∧
    classify { live with orderList := List.replicate 15 awaitingEntry, forwardQueue := List.replicate 7 (scanRead 0) } (write 0x10 15 0) = .forward ∧
    16 ≤ ({ live with orderList := List.replicate 16 awaitingEntry } : State).orderList.length ∧
    (classify { live with forwardQueue := List.replicate 8 (scanRead 0) } (write 0x10 15 0) ≠ .localWrite ∧
      8 ≤ ({ live with forwardQueue := List.replicate 8 (scanRead 0) } : State).forwardQueue.length) :=
  ⟨room_of (by decide), by decide, by decide, by decide⟩

/-- The first word and the next, of a LIVE face and of a STALLED one. -/
theorem witness_ScanReadsCaptureContexts :
    RoomToForward live ∧ classify live (scanRead 0x1000004) = .scan 1 0 false ∧ classify live (scanRead 0x1000000) = .scan 1 0 true ∧
    (5 < (live.face 1).plane.zoneCount ∧ pick (live.face 1).zoneMap 5 = some 6 ∧ (live.face 1).plane.zoneCount ≤ 6) ∧
    ((withFace { liveFace with sup := { liveFace.sup with state := .stalled } }).face 1).sup.state = .stalled ∧
    classify (withFace { liveFace with sup := { liveFace.sup with state := .stalled } }) (scanRead 0x1000000) = .scan 1 0 true :=
  ⟨room_of (by decide), by decide, by decide, by decide, by decide, by decide⟩

theorem witness_ControlWordsReachTheirReceivers :
    RoomToForward live ∧ classify live (write 0xFFC0000 15 0x05400021) = .snoop .head ∧
      classify live (write 0xFFC000C 14 28) = .partialWrite .consumed :=
  ⟨room_of (by decide), by decide, by decide⟩

theorem witness_LocalWriteIsDiscarded :
    classify live (write 0xFFC07FF 0 5) = .localWrite ∧ (live.windowBase.toNat = 0x0FFC0000 + (0 : BitVec 2).toNat * 0x10000 ∧ live.porstAsserted = false ∧ live.cportWaiting = []) ∧
    ({ live with orderList := List.replicate 15 awaitingEntry } : State).orderList.length < 16 ∧
    16 ≤ ({ live with orderList := List.replicate 16 awaitingEntry } : State).orderList.length := by decide

/-- A READY head with the order list full, a request waiting behind it; and an awaiting head. -/
theorem witness_TakenResponseFreesItsEntry :
    let e : OrderEntry := ⟨.read, 1, .forward, none, .ready .okay 5⟩
    let s := { live with orderList := e :: List.replicate 15 awaitingEntry, cportWaiting := [scanRead 0x10], forwardQueue := List.replicate 7 (scanRead 0) }
    (s.porstAsserted = false ∧ (List.replicate 15 awaitingEntry).length < 16 ∧ s.forwardQueue.length < 8 ∧ classify s (scanRead 0x10) = .forward) ∧
      awaitingEntry.completion = .awaitingMemory ∧ live.cportWaiting = [] := by decide

/-- 23 and 24 beats in flight; the count at 3 and at 4. -/
theorem witness_ArbiterGrantsByTheTable :
    (live.porstAsserted = false ∧ live.cportWaiting = []) ∧
    24 ≤ ({ live with inFlight := List.replicate 24 .forwarded } : State).inFlight.length ∧
    (live.forwardQueue = [] ∧ live.ownWrites = []) ∧
    (({ live with inFlight := List.replicate 23 .forwarded } : State).inFlight.length < 24 ∧
      ({ busy with arbiterCount := 3 } : State).arbiterCount < 4 ∧ busy.forwardQueue = write 0xFFC0000 15 0x01400522 :: []) ∧
    (busy.ownWrites = wordsA ∧ 4 ≤ busy.arbiterCount) := by decide

/-- A full forward queue with a request behind it, 15 order entries, 23 beats in flight, and the count at 3. -/
theorem witness_ArbiterGrantsByTheTable_waiting :
    let s := { live with
      forwardQueue := List.replicate 8 (scanRead 0), orderList := List.replicate 15 awaitingEntry, ownWrites := wordsA
      inFlight := List.replicate 23 .forwarded, arbiterCount := 3, cportWaiting := [scanRead 0x10] }
    (s.porstAsserted = false ∧ s.inFlight.length < 24 ∧ s.forwardQueue = scanRead 0 :: List.replicate 7 (scanRead 0)) ∧
      (s.arbiterCount < 4 ∧ s.cportWaiting = [scanRead 0x10] ∧ s.orderList.length < 16) ∧
      (List.replicate 7 (scanRead 0)).length < 8 ∧ classify s (scanRead 0x10) = .forward := by decide

theorem witness_OwnWriteIssuedWithinFiveGrants :
    let s := { busy with arbiterCount := 0, forwardQueue := List.replicate 8 (scanRead 0), inFlight := List.replicate 19 .forwarded, pending := List.replicate 5 .mportGrant }
    s.ownWrites = ⟨0x800084, 77, .journal 1000 false⟩ :: [⟨0x800080, 5, .journal 1000 true⟩] ∧ s.arbiterCount ≤ 4 ∧ s.porstAsserted = false ∧
      s.cportWaiting = [] ∧ s.inFlight.length + 5 ≤ 24 ∧ s.pending = List.replicate 5 .mportGrant := by decide

/-- A READY entry stands before the oldest that awaits. -/
theorem witness_ResponseAnswersOldestAwaiting :
    let before : List OrderEntry := [⟨.write, 3, .localWrite, none, .ready .discarded 0⟩]
    let s := { live with inFlight := [.forwarded], orderList := before ++ awaitingEntry :: [awaitingEntry] }
    live.inFlight = [] ∧ s.inFlight = .forwarded :: [] ∧ s.orderList = before ++ awaitingEntry :: [awaitingEntry] ∧
      (∀ x ∈ before, x.completion ≠ .awaitingMemory) ∧ awaitingEntry.completion = .awaitingMemory := by decide

theorem witness_OwnWriteCompletions :
    let s := { live with inFlight := [.own (.journal 1000 true)], journal := { journalA with inProgress := some recordA } }
    s.inFlight = .own (.journal 1000 true) :: [] ∧ s.journal.inProgress = some recordA ∧ recordA.sequence = 1000 ∧ recordA.superseded = false ∧
      (s.journal.fill < 13 ∧ 13 ≤ { s.journal with inProgress := none, produced := s.journal.produced + 1 }.fill) := by decide

theorem witness_AcceptedRequestsKeepTheirEntries :
    exec .attnPulseEnd busy = .next (after .attnPulseEnd busy) ∧ (∀ w, Instr.attnPulseEnd ≠ .powerOnReset w) ∧ Instr.attnPulseEnd ≠ .cportResponseTaken ∧
      busy.orderList.length = 3 :=
  ⟨rfl, fun _ => by simp, by simp, by decide⟩

/-- The four steps, and the largest level. -/
theorem witness_BaseGainByZoneStep :
    let a := { darkForm with level := 4096, steps := put (put (put darkForm.steps 0 0) 1 1) 2 2 }
    (pick a.steps 0 = 0 ∧ pick a.steps 1 = 1 ∧ pick a.steps 2 = 2 ∧ pick a.steps 3 = 3) ∧ a.level ≤ 4096 := by decide

theorem witness_ScaledWordsAreNeverBrighter :
    let c : ScaleContext := ⟨1, 5, 4096, false, 4096⟩
    let b : ScaleContext := ⟨1, 5, 0, true, 4096⟩
    (c.gain ≤ 4096 ∧ c.floor ≤ 4096 ∧ (c.blanked = true → c.gain = 0)) ∧ (b.gain ≤ 4096 ∧ b.floor ≤ 4096 ∧ (b.blanked = true → b.gain = 0)) ∧
      field 0xBFFFFFFF 30 2 = 2 ∧ field 0xFFFFFFFF 30 2 = 3 := by decide

theorem witness_PinsFollowStateAndConfiguration :
    let x := fun m => withFace { liveFace with sup := { liveFace.sup with outputs := { resetOutputs with bMode := m } } }
    live.porstAsserted = false ∧
      [BMode.off, .track, .antivalent, .manual].map (fun m => ((x m).face 1).sup.outputs.bMode) = [.off, .track, .antivalent, .manual] := by decide

/-- The face of the worked decode, its link DRAINING. -/
def draining : State := withFace { readyFace with link := { liveFace.link with state := .draining } }

theorem witness_SyncAndDrainEnd :
    (live.face 1).link.state = .running ∧ live.porstAsserted = false ∧ (live.face 0).link.state ≠ .running ∧ (draining.face 1).link.state = .draining ∧
      (live.face 1).link.state ≠ .draining := by decide

/-- The last slot of the frame and the one after it; a slot that is not enabled; a link that is IDLE. -/
theorem witness_SlotStartSendsTheCommandWord :
    ((live.face 1).link.state ≠ .idle ∧ (live.face 1).link.frameSetup = some linkA.frameSetup ∧ 39 < linkA.frameSetup.slotCount ∧
      linkA.frameSetup.enabled.getLsbD 39 = true) ∧
    live.porstAsserted = false ∧ (linkA.frameSetup.slotCount ≤ 40 ∧ linkA.frameSetup.enabled.getLsbD 20 = false) ∧ (live.face 0).link.state = .idle := by decide

/-- A word of each class in each length. -/
theorem witness_LinkWordsInBothDirections :
    ((0x007FFF : LinkWord).getLsbD 15 = false ∧ (0x7FFFFF : LinkWord).getLsbD 23 = false) ∧
    ((0x008001 : LinkWord).getLsbD 15 = true ∧ onesCount 0x008001 % 2 = 0) ∧ ((0x800000 : LinkWord).getLsbD 23 = true ∧ onesCount 0x800000 % 2 = 1) := by
  decide

/-- A clean word that brings an UNSEEN record to OK, and a silence that changes no state, at the last slot. -/
theorem witness_SlotEndReachesTheRecord :
    let s := withFace { liveFace with records := put okRecords 39 unseenRecord }
    let r := pick (s.face 1).records 39
    let clean := r.taken linkA (.valid (moduleReportOf .w16 0x8000))
    (s.porstAsserted = false ∧ (after .porstNAssertion s).porstAsserted = true) ∧
    ((s.face 1).link.state ≠ .idle ∧ (s.face 1).link.frameSetup = some linkA.frameSetup ∧ 39 < linkA.frameSetup.slotCount) ∧
    (linkA.frameSetup.enabled.getLsbD 39 = true ∧ linkA.frameSetup.sensorSlot ≠ some 39) ∧
    ((s.face 1).sup.state ≠ .off ∧ r.state ≠ .disabled ∧ (recordEvent r clean.1 clean.2).isSome = true) ∧
    recordEvent r (r.taken linkA .silence).1 (r.taken linkA .silence).2 = none ∧ (draining.face 1).sup.state = .off := by decide

/-- A fresh word from LOST and from VALID; a word that is not fresh. -/
theorem witness_SlotEndReachesTheSensor :
    let lost := withFace { liveFace with level := { liveFace.level with sensor := ⟨.lost, 8191, 255⟩ } }
    (live.porstAsserted = false ∧ (after .porstNAssertion live).porstAsserted = true) ∧
    ((live.face 1).link.state ≠ .idle ∧ (live.face 1).link.frameSetup = some linkA.frameSetup ∧ 0 < linkA.frameSetup.slotCount) ∧
    (linkA.frameSetup.enabled.getLsbD 0 = true ∧ linkA.frameSetup.sensorSlot = some 0 ∧ (live.face 1).sup.state ≠ .off) ∧
    (classifyReceived .w16 0xC961 = .valid ∧ (0xC961 : LinkWord).getLsbD 14 = true) ∧
    ((live.face 1).level.sensor.state ≠ .lost ∧ (lost.face 1).level.sensor.state = .lost) ∧
    (classifyReceived .w16 0x8961 = .garbled ∧ (0x8960 : LinkWord).getLsbD 14 = false) := by decide

/-- A word that is faulty by its flag, one that is faulty by the stuck limit, and one that is not, in SUSPECT; a temperature at a threshold. -/
theorem witness_RecordTakesOutcomes :
    let w : ModuleReport := ⟨false, false, .normal, false, 1, 0, none⟩
    let r := { okRecord with state := .suspect, lastSequence := some 1, stuckRun := 2 }
    (r.state = .suspect ∧ linkA.stuckLimit ≤ (r.reported linkA.thresholds w).stuckRun) ∧ (judge linkA okRecord { w with openFault := true }).faulty = true ∧
      (judge linkA okRecord w).faulty = false ∧ w.measuredTemp = none ∧ { w with measuredTemp := some 75 }.measuredTemp = some 75 := by decide

theorem witness_DerateStepOfRecord : resetRecord.state = .disabled ∧ unseenRecord.state = .unseen ∧ okRecord.state = .ok := by decide

theorem witness_RecordEventsFollowTransitions :
    let st := fun s : RecordState => { okRecord with state := s }
    ((st .ok).state = .ok ∧ (st .ok).derateStep ≠ { okRecord with tempLevel := .hot }.derateStep) ∧ (st .unseen).state = .unseen ∧
      ((st .lost).state ≠ .suspect ∧ (st .suspect).state = .suspect) ∧ (st .faulted).state = .faulted ∧ ((st .ok).state ≠ .lost ∧ (st .lost).state = .lost) := by
  decide

theorem witness_PresentedClassRanksHighest : (attention 0x48 0x40 0 0).presented = some 3 := by decide

theorem witness_TakeServesThePresentedClass :
    quiet.attention.presented = none ∧ ({ quiet with attention := attention 0x80 0 0 0 } : State).attention.presented = some 7 := by decide

theorem witness_FinishOperations :
    let s := { quiet with attention := attention 0 0 0x8A 4 }
    quiet.attention.inService = 0 ∧
    (hasClass s.attention.inService 7 = true ∧
      ∀ d, hasClass s.attention.inService d = true → rankOf s.attention.base 7 ≤ rankOf s.attention.base d) ∧
    hasClass s.attention.inService 0 = false ∧ 5 ≤ (5 : BitVec 4).toNat := by decide

theorem witness_AttentionLine :
    (quiet.porstAsserted = false ∧ quiet.attention.mode = .level) ∧
      ({ quiet with attention := { resetAttention with mode := .pulse } } : State).attention.mode = .pulse := by decide

/-- 31 and 32 entries queued. -/
theorem witness_RaisedEventsAreQueuedOrCounted :
    (7 : Fin 8).val ≠ 8 ∧ (6 : Fin 8).val = 6 ∧ (List.replicate 31 eventA).length < 32 ∧ 32 ≤ overflow.eventQueue.length ∧ overflow.journal.drops ≠ 0 ∧
      live.journal.drops = 0 := by decide

/-- A summary and a queued event, with 4 and 5 own writes queued; and a record not ready. -/
theorem witness_ReadyRecordIsEnqueuedWhole :
    let queued := { overflow with journal := { journalA with drops := 0 }, ownWrites := wordsA ++ wordsA }
    (overflow.journal.configured = true ∧ overflow.journal.inProgress = none ∧ overflow.journal.fill < overflow.journal.capacity ∧ overflow.journal.drops ≠ 0) ∧
    (queued.ownWrites.length ≤ 4 ∧ queued.journal.drops = 0 ∧ queued.eventQueue = eventA :: List.replicate 31 eventA) ∧
    4 < (wordsA ++ wordsA ++ wordsA.take 1).length ∧ live.journal.configured = false := by decide

/-- 7 and 8 own writes queued; an owed word; no dirty word; a dirty word with another above it, and the last. -/
theorem witness_StatusWriterTakesLowestDirtyWord :
    let s := { quiet with ownWrites := List.replicate 7 ⟨0, 0, .status 0⟩, dirty := put (put quiet.dirty 6 true) 295 true }
    (s.ownWrites.length < 8 ∧ s.journal.configured = false) ∧ ¬(List.replicate 8 (0 : Nat)).length < 8 ∧
    ({ s with generationOwed := true } : State).generationOwed = true ∧ (s.generationOwed = false ∧ pick s.dirty 6 = true ∧ pick s.dirty 295 = true) ∧
    (∀ v : Fin 6, pick s.dirty (Fin.castLE (by omega) v) = false) := by decide

/-- The consumed index at the capacity behind the write index, and one past it. -/
theorem witness_ConsumedIndexIsTested :
    let j := { journalA with inProgress := some recordA }
    (j.inProgress = some recordA ∧ recordA.superseded = false ∧ journalA.inProgress = none) ∧
    ((j.produced + 1 - 25).toNat = 16 ∧ (j.produced - 25).toNat ≤ 16) ∧ 16 < (j.produced + 1 - 24).toNat := by decide

/-- The last word and the one before it, in both states that take words. -/
theorem witness_BodyWordByDecoderState :
    let d : Decoder := ⟨.discarding, 1, some ⟨0x24, head 0 0 2 0x24⟩, some .unknown, [], resetResult⟩
    let e : Decoder := { busy.decoder with remaining := 1, buffer := geometryA.take 4 }
    live.decoder.state = .idle ∧ (busy.decoder.state = .collecting ∧ 2 ≤ busy.decoder.remaining) ∧
    ((e.state = .collecting ∧ e.remaining = 1 ∧ e.inProgress = some ⟨0x01, head 1 0 5 0x23⟩ ∧ commandOf 0x01 = some .faceGeometry) ∧
      Command.allows .faceGeometry (head 1 0 5 0x23).count.toNat = true ∧ e.buffer.length + 1 = (head 1 0 5 0x23).count.toNat) ∧
    ({ d with remaining := 2 }.state = .discarding ∧ 2 ≤ { d with remaining := 2 }.remaining) ∧
    (d.state = .discarding ∧ d.remaining = 1 ∧ d.inProgress = some ⟨0x24, head 0 0 2 0x24⟩ ∧ d.refusal = some .unknown ∧ ResultCode.unknown ≠ .done) := by decide

/-- An unused code with no words, with all of its words and with none of them; a count not allowed, 0 and not 0. -/
theorem witness_RefusalsChangeNothing :
    (live.decoder.state = .idle ∧ commandOf 0x00 = none ∧ commandOf 0xFF = none ∧ ([] : List Word).length = (head 0 0 0 0).count.toNat) ∧
    ((head 0 0 255 0).count ≠ 0 ∧ ([1, 2] : List Word).length = (head 0 0 2 0).count.toNat) ∧
    (Command.allows .faceGeometry (head 0 0 2 0).count.toNat = false ∧ Command.allows .faceGeometry (head 0 0 0 0).count.toNat = false) := by
  decide

/-- The rows of the tables of FACE_GEOMETRY, a value just past each range, on faces and journals that meet the tests before. -/
theorem witness_RefusalsChangeNothing_geometry :
    let tests := fun (ws : List Word) (x : Face) (j : Journal) =>
      geometryTests (head 1 0 5 1) ws { withFace x with journal := j }
    FirstFailing (tests geometryA liveFace resetJournal) .state ∧ FirstFailing (tests [0, 0, 0x00021104, 0, 0] setUpFace resetJournal) .value ∧
    FirstFailing (tests (geometryA.take 4) setUpFace resetJournal) .count ∧
    FirstFailing (tests (geometryA.set 0 0xFFC0000) setUpFace resetJournal) .value ∧
    FirstFailing (tests (geometryA.set 3 0x01E000A0) setUpFace resetJournal) .order ∧
    FirstFailing (tests geometryA setUpFace { journalA with base := 0x104FFFC }) .overlap ∧
    FirstFailing (tests geometryA setUpFace { journalA with base := 0x1050000 }) .done := by
  refine ⟨?_, ?_, ?_, ?_, ?_, ?_, ?_⟩ <;> exact (firstFailing_geometry _ _ _ _).2 (by decide)

/-- The rows of the other tables: a slot named twice, 64 and the sensor slot; a link that drains; the counts and
thresholds of a setup; a mailbox that is full; a ring past the address space. -/
theorem witness_RefusalsChangeNothing_tables :
    let ready := withFace readyFace
    ([0x0C0B0A09, 0xFFFF0909].map fun w => faceZonemapResult (head 1 0 2 1) [0x0C0B0A09, w] ready) = [.value, .value] ∧
    FirstFailing (zonemapTests (head 1 0 2 1) [0x0C0B0A09, 0xFFFF0D40] ready) .value ∧
    FirstFailing (zonemapTests (head 1 0 2 1) [0x0C0B0A00, 0xFFFF0D0E] ready) .value ∧
    FirstFailing (startTests (head 1 0 0 1) draining) .busy ∧ FirstFailing (startTests (head 1 0 0 1) (withFace setUpFace)) .state ∧
    FirstFailing (linkSetupTests (head 1 0 5 1) [0xFFFFFFFF, 0xFFFFFFFF, 0x00000041, 0x000FFFFF, 0] quiet) .count ∧
    FirstFailing (linkSetupTests (head 1 0 4 1) [0xFFFFFFFF, 0xFFFFFFFF, 0x00000041, 0x000FFFFF] quiet) .value ∧
    FirstFailing (linkSetupTests (head 1 0 5 1) [0xFFFFFFFF, 0xFFFFFFFF, 0x00000F40, 0x000FFFFF, 0x05828264] quiet) .value ∧
    FirstFailing (linkSetupTests (head 1 0 4 1) [0xFFEFFFFF, 0x000000FF, 0x00018428, 0x00032203] ready) .value ∧
    FirstFailing (moduleCommandTests (head 1 6 1 1) [3] (withFace { liveFace with mailboxes := put emptyMailboxes 6 (some ⟨true, false⟩) })) .mailbox ∧
    FirstFailing (moduleClearTests (head 1 0 0 1) [] live) .value ∧ FirstFailing (moduleClearTests (head 1 0 1 1) [1] live) .done ∧
    FirstFailing (journalSetupTests [0x0FFFFF04, 0x00100010] quiet) .value ∧ FirstFailing (journalSetupTests [0x0FFC0FFC, 0x00100010] quiet) .overlap ∧
    FirstFailing (Command.tests .timingSetup (head 0 0 1 1) [4] quiet) .value := by
  refine ⟨by decide, (firstFailing_zonemap _ _ _ _).2 (by decide), (firstFailing_zonemap _ _ _ _).2 (by decide), (firstFailing_start _ [] _ _).2 (by decide),
    (firstFailing_start _ [] _ _).2 (by decide), (firstFailing_linkSetup _ _ _ _).2 (by decide), (firstFailing_linkSetup _ _ _ _).2 (by decide),
    (firstFailing_linkSetup _ _ _ _).2 (by decide), (firstFailing_linkSetup _ _ _ _).2 (by decide), (firstFailing_moduleCommand _ _ _ _).2 (by decide),
    (firstFailing_moduleClear _ (by decide) _ _).2 (by decide), (firstFailing_moduleClear _ (by decide) _ _).2 (by decide),
    (firstFailing_journalSetup (head 0 0 2 1) _ _ _).2 (by decide), (firstFailing_journalSetup (head 0 0 2 1) _ _ _).2 (by decide), fails_of (by decide)⟩

theorem witness_NewHeadAbandonsTheOld :
    busy.decoder.state ≠ .idle ∧ busy.decoder.inProgress = some ⟨0x01, head 1 0 5 0x23⟩ ∧
      (Instr.unknownCommand 0x24 (head 0 0 2 0x24) [] = .unknownCommand 0x24 (head 0 0 2 0x24) [] ∧
        Instr.faceStop (head 1 0 0 1) [] = Command.row .faceStop (head 1 0 0 1) []) := by decide

/-- Geometry with a sensor slot in the default map, and one with none; the last zone in use and the one after it. -/
theorem witness_GeometryAndZoneMapWrite :
    (Taken .faceGeometry (head 1 0 5 0x25) geometryA (withFace setUpFace) ∧ Passes .faceGeometry (head 1 0 5 0x25) geometryA (withFace setUpFace)) ∧
    (Taken .faceGeometry (head 1 0 5 0x25) geometryA quiet ∧ Passes .faceGeometry (head 1 0 5 0x25) geometryA quiet) ∧
    (Taken .faceZonemap (head 1 0 2 1) [0x0C0B0A09, 0xFFFF0D0E] (withFace readyFace) ∧
      Passes .faceZonemap (head 1 0 2 1) [0x0C0B0A09, 0xFFFF0D0E] (withFace readyFace)) ∧
    (((withFace setUpFace).face 1).link.setup.sensorSlot = some 0 ∧ (quiet.face 1).link.setup.sensorSlot = none) ∧
    ((withFace readyFace).face 1).plane.zoneCount = 6 :=
  ⟨⟨taken_of (by decide), passes_of (by decide)⟩, ⟨taken_of (by decide), passes_of (by decide)⟩,
    ⟨taken_of (by decide), passes_of (by decide)⟩, by decide, by decide⟩

/-- The largest ambient, and ambients that ascend by one. -/
theorem witness_LevelCommands :
    (Taken .faceCurve (head 1 0 2 1) [0x1FFE0000, 0x1FFFFFFF] live ∧ Passes .faceCurve (head 1 0 2 1) [0x1FFE0000, 0x1FFFFFFF] live) ∧
    Taken .faceLimits (head 1 0 3 1) [0xFFFFFFFF, 0, 0] live ∧ Taken .faceHold (head 1 0 0 1) [] live ∧ Taken .faceHold (head 1 0 1 1) [0xFFFFFFFF] live ∧
    Taken .faceRelease (head 1 0 0 1) [] live :=
  ⟨⟨taken_of (by decide), passes_of (by decide)⟩, taken_of (by decide), taken_of (by decide), taken_of (by decide), taken_of (by decide)⟩

/-- A face ready to start; a stop of a face that is OFF, of one that has sent a sync, and of one that has not. -/
theorem witness_FaceStartAndStop :
    let fresh := (withFace { liveFace with link := { liveFace.link with frameSetup := none } }).face 1
    (Taken .faceStart (head 1 0 0 1) [] (withFace readyFace) ∧ Passes .faceStart (head 1 0 0 1) [] (withFace readyFace)) ∧
    (Taken .faceStop (head 1 0 0 1) [] live ∧ (quiet.face 1).sup.state = .off) ∧
    ((live.face 1).sup.state ≠ .off ∧ (live.face 1).link.state = .running ∧ (live.face 1).link.frameSetup ≠ none) ∧
    (fresh.sup.state ≠ .off ∧ fresh.link.state = .running ∧ fresh.link.frameSetup = none) :=
  ⟨⟨taken_of (by decide), passes_of (by decide)⟩, ⟨taken_of (by decide), by decide⟩, by decide, by decide⟩

theorem witness_OutputConfigWritesAsOneUnit : Taken .outputConfig (head 1 0 1 1) [0x000001FF] live := taken_of (by decide)

/-- A setup in each word length. -/
theorem witness_LinkSetupWritesAsOneUnit :
    (Taken .linkSetup (head 1 0 4 1) [0xFFEFFFFF, 0x000000FF, 0x00008428, 0x00032203] quiet ∧
      Passes .linkSetup (head 1 0 4 1) [0xFFEFFFFF, 0x000000FF, 0x00008428, 0x00032203] quiet) ∧
    (Taken .linkSetup (head 1 0 5 1) [0xFFFFFFFF, 0xFFFFFFFF, 0x00000F40, 0x000FFFFF, 0x05827364] quiet ∧
      Passes .linkSetup (head 1 0 5 1) [0xFFFFFFFF, 0xFFFFFFFF, 0x00000F40, 0x000FFFFF, 0x05827364] quiet) :=
  ⟨⟨taken_of (by decide), passes_of (by decide)⟩, taken_of (by decide), passes_of (by decide)⟩

/-- The last enabled slot; both forms of the clear. -/
theorem witness_ModuleCommandAndClear :
    (Taken .moduleCommand (head 1 39 1 1) [2] live ∧ Passes .moduleCommand (head 1 39 1 1) [2] live) ∧
    (Taken .moduleClear (head 1 39 0 1) [] live ∧ Passes .moduleClear (head 1 39 0 1) [] live ∧ ¬AllSlotsForm []) ∧
    (Taken .moduleClear (head 1 39 1 1) [0xFFFFFFFE] live ∧ Passes .moduleClear (head 1 39 1 1) [0xFFFFFFFE] live) ∧
    (Taken .moduleClear (head 1 0 1 1) [1] live ∧ Passes .moduleClear (head 1 0 1 1) [1] live ∧ AllSlotsForm [1]) :=
  ⟨⟨taken_of (by decide), passes_of (by decide)⟩, ⟨taken_of (by decide), passes_of (by decide), fun ⟨_, h, _⟩ => by cases h⟩,
    ⟨taken_of (by decide), passes_of (by decide)⟩, taken_of (by decide), passes_of (by decide), 1, rfl, by decide⟩

theorem witness_AttnConfigWritesAsOneUnit :
    Taken .attnConfig (head 0 0 1 1) [0x00000740] live ∧ Taken .attnConfig (head 0 0 2 1) [0x00000040, 0xFF] live :=
  ⟨taken_of (by decide), taken_of (by decide)⟩

/-- The largest ring and the largest epoch select. -/
theorem witness_PartWideSetups :
    (Taken .journalSetup (head 0 0 2 1) [0x00800000, 0x04000400] live ∧ Passes .journalSetup (head 0 0 2 1) [0x00800000, 0x04000400] live) ∧
    (Taken .timingSetup (head 0 0 1 1) [3] live ∧ Passes .timingSetup (head 0 0 1 1) [3] live) ∧ Taken .statusRefresh (head 0 0 0 1) [] live :=
  ⟨⟨taken_of (by decide), passes_of (by decide)⟩, ⟨taken_of (by decide), passes_of (by decide)⟩, taken_of (by decide)⟩

theorem witness_PartResetValues : (head 0 0 0 9).count = 0 := by decide

/-! A state with traffic, a record in progress, a command being collected and a face LIVE meets every invariant. -/

theorem witness_RequestPathStaysSound : PathSound busy ∧ (∀ e ∈ busy.orderList, EntrySound e) ∧ RecordUnderWay busy := by
  refine ⟨by constructor <;> decide, ?_, by unfold RecordUnderWay; decide⟩
  have each : ∀ e ∈ busy.orderList, (e.context.isSome = true ↔ e.cls = .forwardScale) ∧ (e.cls = .forwardScale → e.kind = .read) ∧
      (e.cls = .localWrite → e.kind = .write ∧ e.completion = .ready .discarded 0) := by decide
  intro e he
  refine ⟨(each e he).1, (each e he).2.1, (each e he).2.2, ?_, ?_⟩ <;>
  · revert e
    simp [busy]

theorem witness_JournalFillStaysWithinCapacity : JournalSound busy.journal := by constructor <;> decide

theorem witness_RegionsStayApart : RegionsApart busy := by
  have only : ∀ f : Fin 4, (busy.face f).plane.valid = true → f = 1 := by decide
  constructor
  · intro f g hfg hf hg
    exact absurd ((only f hf).trans (only g hg).symm) hfg
  · intro f hf
    obtain rfl := only f hf
    exact Or.inl (by decide)
  · intro f hf _
    obtain rfl := only f hf
    exact Or.inr (by decide)
  · intro f r hf hr
    obtain rfl := only f hf
    obtain rfl : recordA = r := Option.some.inj hr
    exact Or.inr (by decide)
  · intro _
    exact Or.inl (by decide)
  · decide
  · intro r hr _
    obtain rfl : recordA = r := Option.some.inj hr
    decide
  · decide

theorem witness_ZoneMapsStayDistinct : PlaneSound liveFace := by
  have six : liveFace.plane.zoneCount = 6 := by decide
  have entries : ∀ z : Fin 64, z.val < 6 → pick liveFace.zoneMap z = some (z + 1) := by decide
  constructor
  case mapped =>
    intro z hz
    have nonzero : ∀ z : Fin 64, z.val < 6 → some (0 : Fin 64) ≠ some (z + 1) := by decide
    exact ⟨_, entries z (six ▸ hz), nonzero z (six ▸ hz)⟩
  case distinct =>
    intro z y hz hy h
    rw [entries z (six ▸ hz), entries y (six ▸ hy)] at h
    exact add_right_cancel (Option.some.inj h)
  all_goals decide

theorem witness_LevelsStayInRange : LevelSound liveFace := by
  constructor
  case limits => constructor <;> decide
  case stagedLimits => intro l h; cases h
  case curve => constructor <;> simp [liveFace, curveA]
  case stagedCurve => intro c h; cases h
  case frame => intro _ fs h; cases h; rfl
  all_goals decide

theorem recordSound_liveFace (n : Fin 64) : RecordSound (pick liveFace.records n) := by
  have ok : RecordSound okRecord := by
    constructor
    case measured => intro t h; cases h
    all_goals decide
  have off : RecordSound resetRecord := by
    constructor
    case measured => intro t h; cases h
    all_goals decide
  have each : pick liveFace.records n = if linkA.isModuleSlot n then okRecord else resetRecord := pick_ofFn _ n
  rw [each]
  split <;> assumption

theorem witness_FacesStaySound : FaceSound liveFace := by
  constructor
  case moduleSlots =>
    intro _ n
    have each : pick liveFace.records n = if linkA.isModuleSlot n then okRecord else resetRecord := pick_ofFn _ n
    rw [each]
    by_cases h : linkA.isModuleSlot n = true
    · simp [h, okRecord, liveFace]
    · simp only [Bool.not_eq_true] at h
      simp [h, resetRecord, liveFace]
  case requests => intro n o h; simp [liveFace, readyFace, setUpFace, resetFace, emptyMailboxes] at h
  case idleRecords => intro h; cases h
  case idleMailboxes => intro h; cases h
  case setup =>
    constructor
    case sensor => intro n h; cases h; decide
    case ascending => intro th h; cases h
    all_goals decide
  case records => exact recordSound_liveFace
  all_goals decide

theorem witness_DecoderAndCountsStaySound : DecoderSound busy.decoder ∧ CountsSound busy := by
  constructor
  · constructor
    case collecting => intro _; exact ⟨_, .faceGeometry, rfl, by decide⟩
    case discarding => intro h; cases h
    all_goals decide
  · constructor <;> decide

theorem witness_InvariantsHoldAtReset : exec (.powerOnReset 3) busy = .next (after (.powerOnReset 3) busy) := rfl

/-- A sync changes the word of its face's link, and the status writer may be the command. -/
theorem witness_ImageWordsAreMarked :
    exec (.linkSync 1) live = .next (after (.linkSync 1) live) ∧ Instr.linkSync 1 ≠ .statusWordEnqueue ∧
      (shown (after (.linkSync 1) live) (faceWord 1 4) ≠ shown live (faceWord 1 4) ∧
        imageValue (after (.linkSync 1) live) (faceWord 1 4) ≠ imageValue live (faceWord 1 4)) :=
  ⟨rfl, by simp, by decide, by decide⟩

/-- The first and the last word of the part, of the face blocks and of the module image. -/
theorem witness_ImageWordsAreMarked_places :
    ((0 : ImageWord).val = 0 ∧ (1 : ImageWord).val = 1 ∧ (7 : ImageWord).val = 7) ∧
    ((8 : ImageWord).val = 8 + 8 * (0 : Fin 4).val + 0 ∧ (39 : ImageWord).val = 8 + 8 * (3 : Fin 4).val + 7) ∧
    ((40 : ImageWord).val = 40 + 64 * (0 : Fin 4).val + (0 : Fin 64).val ∧ (295 : ImageWord).val = 40 + 64 * (3 : Fin 4).val + (63 : Fin 64).val) := by
  decide

theorem witness_FacesAreIsolated :
    faceOf (.faceStop (head 1 0 0 1) []) = some 1 ∧ (0 : Fin 4) ≠ 1 ∧ exec (.faceStop (head 1 0 0 1) []) live = .next (after (.faceStop (head 1 0 0 1) []) live) :=
  ⟨rfl, by decide, rfl⟩

end Sys2Proof.Tests
end

/-! PROOFS. Pixel scaling and the applied set: the base gain (R42), the gain of a class (R45), the scaling of a channel and of a word (R46). -/

section
namespace Sys2Proof.Machine

/-! The base gain (R41, R42). -/

theorem zoneFactor_le_full (step : Fin 4) : zoneFactor step ≤ 4096 := by
  revert step; decide

/-- A zone factor is at most 1, so a zone is driven at no more than the applied level. -/
theorem baseGain_le_level (level : Nat) (step : Fin 4) : baseGain level step ≤ level :=
  Nat.div_le_of_le_mul <| calc
    level * zoneFactor step ≤ level * 4096 := Nat.mul_le_mul_left level (zoneFactor_le_full step)
    _ = 4096 * level := Nat.mul_comm ..

/-- Settles O19: the four zone factors are R41's table, and none is above 1. -/
theorem baseGainByZoneStep : Obligations.BaseGainByZoneStep := by
  intro f a z
  refine ⟨rfl, ?_, ?_, ?_, ?_, fun level_le => (baseGain_le_level _ _).trans level_le⟩
  all_goals
    intro step_eq
    rw [step_eq]
    rfl

/-! The gain of a class (R45). -/

theorem field_lt (w : Word) (lo len : Nat) : field w lo len < 2 ^ len :=
  Nat.mod_lt _ (Nat.two_pow_pos len)

/-- The class table of R45, read off the class field of a word. -/
theorem gainOf_pixelClassOf (c : ScaleContext) (w : Word) :
    gainOf (pixelClassOf w) c =
      match field w 30 2 with
      | 0 => c.gain
      | 1 => if c.blanked then 0 else max c.gain c.floor
      | 2 => 0
      | _ => if c.blanked then 0 else 4096 := by
  have := field_lt w 30 2
  obtain code | code | code | code :
      field w 30 2 = 0 ∨ field w 30 2 = 1 ∨ field w 30 2 = 2 ∨ field w 30 2 = 3 := by omega
  all_goals simp [pixelClassOf, gainOf, code]

theorem gainOf_le_full {c : ScaleContext} (gain_le : c.gain ≤ 4096) (floor_le : c.floor ≤ 4096)
    (cls : PixelClass) : gainOf cls c ≤ 4096 := by
  cases cls with
  | standard => exact gain_le
  | priority => simp only [gainOf]; split <;> omega
  | dark => exact Nat.zero_le _
  | fixed => simp only [gainOf]; split <;> omega

/-- A blanked zone is black in every class. -/
theorem gainOf_of_blanked {c : ScaleContext} (blanked : c.blanked = true) (gain_zero : c.gain = 0)
    (cls : PixelClass) : gainOf cls c = 0 := by
  cases cls with
  | standard => exact gain_zero
  | priority => simp [gainOf, blanked]
  | dark => rfl
  | fixed => simp [gainOf, blanked]

theorem gainOf_dark_word (c : ScaleContext) {w : Word} (dark : field w 30 2 = 2) :
    gainOf (pixelClassOf w) c = 0 := by
  simp [gainOf_pixelClassOf, dark]

theorem gainOf_fixed_word {c : ScaleContext} {w : Word} (fixed : field w 30 2 = 3)
    (lit : c.blanked = false) : gainOf (pixelClassOf w) c = 4096 := by
  simp [gainOf_pixelClassOf, fixed, lit]

/-! A scaled channel (R46). -/

/-- Rounding half up does not lift a channel above its stored value while the gain is at most 1. -/
theorem scaleChannel_le {g : Nat} (gain_le : g ≤ 4096) (ch : Nat) : scaleChannel ch g ≤ ch := by
  have : ch * g ≤ ch * 4096 := Nat.mul_le_mul_left ch gain_le
  unfold scaleChannel
  omega

@[simp] theorem scaleChannel_zero (ch : Nat) : scaleChannel ch 0 = 0 := by
  simp [scaleChannel]

@[simp] theorem scaleChannel_full (ch : Nat) : scaleChannel ch 4096 = ch := by
  unfold scaleChannel
  omega

/-! Pixel words (11.2). -/

/-- The pixel word of a class and three channels. -/
def pixelWord (cls red green blue : Nat) : Word :=
  BitVec.ofNat 32 (cls * 2 ^ 30 + red * 2 ^ 20 + green * 2 ^ 10 + blue)

theorem scaleWord_eq_pixelWord (c : ScaleContext) (w : Word) :
    scaleWord c w =
      pixelWord (field w 30 2) (scaleChannel (field w 20 10) (gainOf (pixelClassOf w) c))
        (scaleChannel (field w 10 10) (gainOf (pixelClassOf w) c))
        (scaleChannel (field w 0 10) (gainOf (pixelClassOf w) c)) := rfl

/-- Every word is the pixel word of its fields. -/
theorem pixelWord_fields (w : Word) :
    pixelWord (field w 30 2) (field w 20 10) (field w 10 10) (field w 0 10) = w := by
  apply BitVec.eq_of_toNat_eq
  have := w.isLt
  simp only [pixelWord, field, BitVec.toNat_ofNat]
  omega

/-- A class and channels that fit their fields are read back from the word. -/
theorem field_pixelWord {cls red green blue : Nat} (cls_lt : cls < 4) (red_lt : red < 1024)
    (green_lt : green < 1024) (blue_lt : blue < 1024) :
    field (pixelWord cls red green blue) 30 2 = cls ∧
      field (pixelWord cls red green blue) 20 10 = red ∧
      field (pixelWord cls red green blue) 10 10 = green ∧
      field (pixelWord cls red green blue) 0 10 = blue := by
  simp only [pixelWord, field, BitVec.toNat_ofNat]
  omega

/-- While the gain is at most 1, no scaled channel leaves its field, so each is read back from the scaled word. -/
theorem field_scaleWord {c : ScaleContext} {w : Word} (gain_le : gainOf (pixelClassOf w) c ≤ 4096) :
    field (scaleWord c w) 30 2 = field w 30 2 ∧
      field (scaleWord c w) 20 10 = scaleChannel (field w 20 10) (gainOf (pixelClassOf w) c) ∧
      field (scaleWord c w) 10 10 = scaleChannel (field w 10 10) (gainOf (pixelClassOf w) c) ∧
      field (scaleWord c w) 0 10 = scaleChannel (field w 0 10) (gainOf (pixelClassOf w) c) := by
  have fits : ∀ lo, scaleChannel (field w lo 10) (gainOf (pixelClassOf w) c) < 1024 := fun lo =>
    (scaleChannel_le gain_le _).trans_lt (field_lt w lo 10)
  rw [scaleWord_eq_pixelWord]
  exact field_pixelWord (field_lt w 30 2) (fits 20) (fits 10) (fits 0)

/-- At full gain a word is as stored. -/
theorem scaleWord_of_full {c : ScaleContext} {w : Word} (full : gainOf (pixelClassOf w) c = 4096) :
    scaleWord c w = w := by
  simp only [scaleWord_eq_pixelWord, full, scaleChannel_full, pixelWord_fields]

/-- Settles O20: the gain of every class is at most 1, so each scaled channel stays in its field and at or below the
stored one; at gain 0 it is black, at gain 1 as stored. -/
theorem scaledWordsAreNeverBrighter : Obligations.ScaledWordsAreNeverBrighter := by
  intro c w gain_le floor_le blanked_gain g v
  have class_gain : gainOf (pixelClassOf w) c = g := gainOf_pixelClassOf c w
  have full_gain := gainOf_le_full gain_le floor_le (pixelClassOf w)
  obtain ⟨cls, red, green, blue⟩ := field_scaleWord full_gain
  have dimmer : ∀ ch, scaleChannel ch g ≤ ch := scaleChannel_le (class_gain ▸ full_gain)
  rw [class_gain] at red green blue
  refine ⟨cls, red, green, blue, red.trans_le (dimmer _), green.trans_le (dimmer _),
    blue.trans_le (dimmer _), fun black => ?_, fun fixed lit => ?_⟩
  · have gain_zero : g = 0 := by
      rcases black with dark | blanked
      · exact class_gain.symm.trans (gainOf_dark_word c dark)
      · exact class_gain.symm.trans (gainOf_of_blanked blanked (blanked_gain blanked) _)
    rw [gain_zero, scaleChannel_zero] at red green blue
    exact ⟨red, green, blue⟩
  · exact scaleWord_of_full (gainOf_fixed_word fixed lit)

end Sys2Proof.Machine
end

/-! PROOFS. The blanking outputs: the logical levels (R85, R88), the polarity (R86), the drive mode (R87) and the pins while PORST_N is released. -/

section
namespace Sys2Proof.Machine

/-! From a logical level to a pin (R85 to R87). -/

theorem oeALit_eq_decide_live (st : FaceState) : oeALit st = decide (st = .live) := by
  cases st <;> rfl

theorem electrical_eq_ite (p : Polarity) (lit : Bool) :
    electrical p lit = if p = .high then lit else !lit := by
  cases p <;> rfl

/-- R87 by the level a drive mode drives: PUSH_PULL and SOURCE drive high, PUSH_PULL and SINK drive low, and every
other level is released. -/
theorem drivePin_eq_ite (d : DriveMode) (high : Bool) :
    drivePin d high =
      if (d = .pushPull ∨ d = .source) ∧ high = true then .drivenHigh
      else if (d = .pushPull ∨ d = .sink) ∧ high = false then .drivenLow
      else .highImpedance := by
  cases d <;> cases high <;> rfl

/-! OE_B has a logical level in every B mode but OFF (R88). -/

theorem Supervisor.oeB_of_no_level {p : Supervisor} (none_lit : oeBLit p.outputs p.state = none) :
    p.oeB = .highImpedance := by
  rw [Supervisor.oeB, none_lit]

theorem Supervisor.oeB_of_level {p : Supervisor} {lit : Bool} (some_lit : oeBLit p.outputs p.state = some lit) :
    p.oeB = drivePin p.outputs.bDrive (electrical p.outputs.polarity lit) := by
  rw [Supervisor.oeB, some_lit]

theorem oeBLit_off {o : OutputSettings} (st : FaceState) (mode : o.bMode = .off) : oeBLit o st = none := by
  rw [oeBLit, mode]

theorem oeBLit_track {o : OutputSettings} (st : FaceState) (mode : o.bMode = .track) :
    oeBLit o st = some (oeALit st) := by
  rw [oeBLit, mode]

theorem oeBLit_antivalent {o : OutputSettings} (st : FaceState) (mode : o.bMode = .antivalent) :
    oeBLit o st = some (!oeALit st) := by
  rw [oeBLit, mode]

theorem oeBLit_manual {o : OutputSettings} (st : FaceState) (mode : o.bMode = .manual) :
    oeBLit o st = some o.bManualLit := by
  rw [oeBLit, mode]

/-! PORST_N released: the pins are the supervisor's. -/

theorem State.oeA_of_released {s : State} (released : s.porstAsserted = false) (f : Fin 4) :
    s.oeA f = (s.face f).sup.oeA := by
  simp [State.oeA, released]

theorem State.oeB_of_released {s : State} (released : s.porstAsserted = false) (f : Fin 4) :
    s.oeB f = (s.face f).sup.oeB := by
  simp [State.oeB, released]

/-- Settles O21: one rule turns a logical level into a pin for both outputs (`pin_eq`), so it is left to read the
level of OE_A off the face state and that of OE_B off its B mode. -/
theorem pinsFollowStateAndConfiguration : Obligations.PinsFollowStateAndConfiguration := by
  intro f s released o lit pin
  have pin_eq : ∀ d l, drivePin d (electrical o.polarity l) = pin d l := fun d l => by
    rw [electrical_eq_ite, drivePin_eq_ite]
  have lit_eq : oeALit (s.face f).sup.state = lit := oeALit_eq_decide_live _
  rw [State.oeA_of_released released, State.oeB_of_released released]
  refine ⟨?oeA, fun off => ?off, fun track => ?track, fun antivalent => ?antivalent, fun manual => ?manual⟩
  case oeA => rw [Supervisor.oeA, lit_eq, pin_eq]
  case off => exact Supervisor.oeB_of_no_level (oeBLit_off _ off)
  case track => rw [Supervisor.oeB_of_level (oeBLit_track _ track), lit_eq, pin_eq]
  case antivalent => rw [Supervisor.oeB_of_level (oeBLit_antivalent _ antivalent), lit_eq, pin_eq]
  case manual => rw [Supervisor.oeB_of_level (oeBLit_manual _ manual), pin_eq]

end Sys2Proof.Machine
end

/-! PROOFS. Module records and fault handling: the derate step of a record (R126). -/

section
namespace Sys2Proof.Machine

theorem ModuleRecord.derateStep_of_not_reporting {r : ModuleRecord}
    (st : r.state = .disabled ∨ r.state = .unseen ∨ r.state = .faulted ∨ r.state = .lost) : r.derateStep = 3 := by
  rcases st with st | st | st | st <;> rw [derateStep, st]

theorem ModuleRecord.derateStep_of_ok_or_suspect {r : ModuleRecord} (st : r.state = .ok ∨ r.state = .suspect) :
    r.derateStep = max r.tempLevel.step (if r.supplyLow then 1 else 0) := by
  rcases st with st | st <;> rw [derateStep, st]

/-- The larger of two steps is the larger of their numbers: the supply step is 0 or 1 in either reading. -/
theorem val_max_supplyStep (temp : Fin 4) (supplyLow : Bool) :
    (max temp (if supplyLow then 1 else 0)).val = max temp.val (if supplyLow then 1 else 0) := by
  rw [Fin.coe_max]
  cases supplyLow <;> rfl

/-- Settles O28: OK and SUSPECT share one equation, the other states another; in the first the larger step is that of
the numbers, and the number of the temperature step is read off the level. -/
theorem derateStepOfRecord : Obligations.DerateStepOfRecord := by
  intro r
  refine ⟨ModuleRecord.derateStep_of_not_reporting, fun reporting => ?_⟩
  rw [ModuleRecord.derateStep_of_ok_or_suspect reporting, val_max_supplyStep]
  cases r.tempLevel <;> rfl

end Sys2Proof.Machine
end

/-! PROOFS. The attention controller: TAKE (R141), FINISH_TOP and FINISH (R142), SET_LOWEST (R143) and the unused operation codes (R140). -/

section
namespace Sys2Proof.Machine

/-! The ranking of the classes (R135). -/

theorem mem_ranking (base c : Fin 8) : c ∈ ranking base := by
  revert base c; decide

theorem pairwise_ranking (base : Fin 8) : (ranking base).Pairwise (rankOf base · < rankOf base ·) := by
  revert base; decide

/-- The first class of the ranking that meets a condition is the one of least rank. -/
theorem find?_ranking_of_least {base c : Fin 8} {fits : Fin 8 → Bool} (fits_c : fits c = true)
    (least : ∀ d, fits d = true → rankOf base c ≤ rankOf base d) : (ranking base).find? fits = some c := by
  obtain ⟨before, after, ranking_eq⟩ := List.append_of_mem (mem_ranking base c)
  have sorted := pairwise_ranking base
  rw [ranking_eq, List.pairwise_append] at sorted
  obtain ⟨-, -, before_lt⟩ := sorted
  refine List.find?_eq_some_iff_append.2 ⟨fits_c, before, after, ranking_eq, fun d d_before => ?_⟩
  have d_lt : rankOf base d < rankOf base c := before_lt d d_before c List.mem_cons_self
  simpa using fun fits_d => (least d fits_d).not_gt d_lt

/-- The class below the base ranks lowest. -/
theorem rankOf_succ_self (c : Fin 8) : rankOf (c + 1) c = 7 := by
  revert c; decide

theorem rankOf_le (base c : Fin 8) : rankOf base c ≤ 7 :=
  Nat.le_of_lt_succ (c - base).isLt

/-! Classes in service. -/

theorem removeClass_of_not_mem {p : Set8} {c : Fin 8} (absent : hasClass p c = false) : removeClass p c = p := by
  apply set8_ext
  intro d
  rw [hasClass_removeClass]
  by_cases d_eq : d = c
  · simp [d_eq, absent]
  · simp [d_eq]

/-- A presented class ranks above every class in service, so it is not one of them (R136). -/
theorem Attention.not_inService_of_presented {a : Attention} {c : Fin 8} (presented : a.presented = some c) :
    hasClass a.inService c = false := by
  have fits := List.find?_some presented
  simp only [Bool.and_eq_true] at fits
  obtain ⟨-, above⟩ := fits
  simpa using List.all_eq_true.1 above c (mem_ranking a.base c)

theorem Attention.topInService_of_empty {a : Attention} (empty : a.inService = 0) : a.topInService = none := by
  rw [topInService, empty, List.find?_eq_none]
  simp [hasClass]

theorem Attention.topInService_of_least {a : Attention} {c : Fin 8} (c_in : hasClass a.inService c = true)
    (least : ∀ d, hasClass a.inService d = true → rankOf a.base c ≤ rankOf a.base d) : a.topInService = some c :=
  find?_ranking_of_least c_in least

/-- Under auto-finish a class taken leaves the in-service set as it is (R141). -/
theorem Attention.took_inService {a : Attention} {c : Fin 8} (presented : a.presented = some c) :
    (a.took c).inService = if a.autoFinish then a.inService else addClass a.inService c := by
  rw [took, removeClass_of_not_mem (not_inService_of_presented presented)]

/-! The last ack result and a change of the controller: what they leave, and that they mark the words they show in
(R140, R159). -/

theorem partShown_four {s t : State} (result : t.attention.ackResult = s.attention.ackResult)
    (cls : t.attention.ackClass = s.attention.ackClass) (base : t.attention.base = s.attention.base) :
    partShown t 4 = partShown s 4 := by
  simp only [partShown, result, cls, base]

theorem base_of_shown {s t : State} (same : partShown t 4 = partShown s 4) : t.attention.base = s.attention.base := by
  simp only [partShown, List.cons_append, List.cons.injEq] at same
  obtain ⟨-, base_eq, -⟩ := same
  exact Fin.ext (by exact_mod_cast base_eq)

theorem marks_setAck (r : AckResult) (c : Option (Fin 8)) (s : State) : Marks [partWord 4] s (setAck r c s) :=
  marks_touch_part rfl rfl fun i outside =>
    match i with
    | 4 => absurd List.mem_cons_self outside
    | 0 | 1 | 2 | 3 | 5 | 6 | 7 => rfl

theorem marks_changeAttention (g : Attention → Attention) (s : State) :
    Marks [partWord 3, partWord 4] s (changeAttention g s) :=
  marks_touch_part rfl rfl fun i outside =>
    match i with
    | 3 | 4 => absurd (by simp) outside
    | 0 | 1 | 2 | 5 | 6 | 7 => rfl

theorem setAck_same (r : AckResult) (c : Option (Fin 8)) (s : State) :
    SameBesidesDirty { s with attention := { s.attention with ackResult := r, ackClass := c } } (setAck r c s) := rfl

theorem setAck_changeAttention_same (r : AckResult) (c : Option (Fin 8)) (g : Attention → Attention) (s : State) :
    SameBesidesDirty { s with attention := { s.attention.change g with ackResult := r, ackClass := c } }
      (setAck r c (changeAttention g s)) := rfl

/-- A change of the controller and its ack result share a word, but the change writes the base alone in it and the
result leaves the base, so the second does not take that word back to what it showed. -/
theorem marksExactly_setAck_changeAttention {g : Attention → Attention} {s : State} (r : AckResult)
    (c : Option (Fin 8)) (result_kept : (g s.attention).ackResult = s.attention.ackResult)
    (class_kept : (g s.attention).ackClass = s.attention.ackClass) :
    MarksExactly s (setAck r c (changeAttention g s)) := by
  have changed := marks_changeAttention g s
  have answered := marks_setAck r c (changeAttention g s)
  refine changed.exactly.trans answered.exactly fun w back => ?_
  by_cases w_eq : w = partWord 4
  · rw [w_eq, shown_partWord, shown_partWord] at back ⊢
    have base_kept := base_of_shown back
    exact partShown_four result_kept class_kept base_kept
  · exact (answered.within w (by simpa using w_eq)).symm.trans back

/-! The operations, case by case. -/

theorem takeClass_of_none {s : State} (presented : s.attention.presented = none) :
    takeClass s = setAck .none none s := by
  rw [takeClass, presented]

theorem takeClass_of_some {s : State} {c : Fin 8} (presented : s.attention.presented = some c) :
    takeClass s = setAck .done (some c) (changeAttention (Attention.took c) s) := by
  rw [takeClass, presented]

theorem finishTopClass_of_none {s : State} (rotate : Bool) (top : s.attention.topInService = none) :
    finishTopClass rotate s = setAck .none none s := by
  rw [finishTopClass, top]

theorem finishTopClass_of_some {s : State} {c : Fin 8} (rotate : Bool) (top : s.attention.topInService = some c) :
    finishTopClass rotate s = setAck .done (some c) (changeAttention (Attention.finished rotate c) s) := by
  rw [finishTopClass, top]

theorem finishClass_of_inService {s : State} {c : Fin 8} (rotate : Bool)
    (c_in : hasClass s.attention.inService c = true) :
    finishClass rotate c s = setAck .done (some c) (changeAttention (Attention.finished rotate c) s) :=
  if_pos c_in

theorem finishClass_of_not_inService {s : State} {c : Fin 8} (rotate : Bool)
    (c_out : hasClass s.attention.inService c = false) : finishClass rotate c s = setAck .none (some c) s :=
  if_neg (by simp [c_out])

theorem ackOperationOf_of_unused {op : BitVec 4} (unused : op = 0 ∨ 5 ≤ op.toNat) : ackOperationOf op = none := by
  revert op; decide

theorem takeAck_of_unused {op : BitVec 4} (unused : op = 0 ∨ 5 ≤ op.toNat) (rotate : Bool) (c : Fin 8) (s : State) :
    takeAck op rotate c s = setAck .invalid none s := by
  rw [takeAck, ackOperationOf_of_unused unused, invalidAck]

theorem marksExactly_takeClass (s : State) : MarksExactly s (takeClass s) := by
  cases presented : s.attention.presented with
  | none => rw [takeClass_of_none presented]; exact (marks_setAck _ _ _).exactly
  | some c => rw [takeClass_of_some presented]; exact marksExactly_setAck_changeAttention _ _ rfl rfl

theorem marksExactly_finishTopClass (rotate : Bool) (s : State) : MarksExactly s (finishTopClass rotate s) := by
  cases top : s.attention.topInService with
  | none => rw [finishTopClass_of_none rotate top]; exact (marks_setAck _ _ _).exactly
  | some c => rw [finishTopClass_of_some rotate top]; exact marksExactly_setAck_changeAttention _ _ rfl rfl

theorem marksExactly_finishClass (rotate : Bool) (c : Fin 8) (s : State) :
    MarksExactly s (finishClass rotate c s) := by
  cases c_in : hasClass s.attention.inService c with
  | false => rw [finishClass_of_not_inService rotate c_in]; exact (marks_setAck _ _ _).exactly
  | true => rw [finishClass_of_inService rotate c_in]; exact marksExactly_setAck_changeAttention _ _ rfl rfl

/-- Settles O31: a presented class is never in service, so TAKE under auto-finish leaves the in-service set as it is. -/
theorem takeServesThePresentedClass : Obligations.TakeServesThePresentedClass := by
  intro s
  refine ⟨takeClass s, rfl, marksExactly_takeClass s, fun presented => ?idle, fun c presented => ?taken⟩
  case idle =>
    rw [takeClass_of_none presented]
    exact setAck_same _ _ s
  case taken =>
    rw [takeClass_of_some presented, ← Attention.took_inService presented, ← presented]
    exact setAck_changeAttention_same _ _ _ s

/-- Settles O32: the class of least rank in service is the top one, and each operation is then its case. -/
theorem finishOperations : Obligations.FinishOperations := by
  intro rotate s fin answer
  have finished : ∀ c,
      SameBesidesDirty (fin c) (setAck .done (some c) (changeAttention (Attention.finished rotate c) s)) :=
    fun c => setAck_changeAttention_same _ _ _ s
  refine ⟨⟨finishTopClass rotate s, rfl, marksExactly_finishTopClass rotate s, fun empty => ?none_top,
      fun c c_in least => ?top⟩,
    fun c => ⟨finishClass rotate c s, rfl, marksExactly_finishClass rotate c s, fun c_in => ?named,
      fun c_out => ?none_named⟩,
    fun op unused => ⟨takeAck op false 0 s, rfl, ?invalid⟩⟩
  case none_top =>
    rw [finishTopClass_of_none rotate (Attention.topInService_of_empty empty)]
    exact setAck_same _ _ s
  case top =>
    rw [finishTopClass_of_some rotate (Attention.topInService_of_least c_in least)]
    exact finished c
  case named =>
    rw [finishClass_of_inService rotate c_in]
    exact finished c
  case none_named =>
    rw [finishClass_of_not_inService rotate c_out]
    exact setAck_same _ _ s
  case invalid =>
    rw [takeAck_of_unused unused]
    exact ⟨(marks_setAck _ _ s).exactly, setAck_same _ _ s⟩

/-- Settles O33: under the base c + 1 class c has rank 7, and no rank is greater. -/
theorem setLowestMovesTheBase : Obligations.SetLowestMovesTheBase := by
  intro c s
  have lowest : ∀ d, rankOf (c + 1) d ≤ rankOf (c + 1) c := fun d =>
    (rankOf_le _ d).trans_eq (rankOf_succ_self c).symm
  exact ⟨setLowestClass c s, rfl, marksExactly_setAck_changeAttention _ _ rfl rfl, lowest,
    setAck_changeAttention_same _ _ _ s⟩

end Sys2Proof.Machine
end

/-! PROOFS. The level commands: the fields and clamps of their payloads (R171 to R173) and what each makes of its face. -/

section
namespace Sys2Proof.Machine

/-! Clamped fields of the payloads. -/

theorem field_low_half (w : Word) : field w 0 16 = w.toNat % 2 ^ 16 := by
  rw [field, Nat.pow_zero, Nat.div_one]

/-- The high byte of a word. -/
theorem field_high_byte (w : Word) : field w 24 8 = w.toNat / 2 ^ 24 :=
  Nat.mod_eq_of_lt (Nat.div_lt_of_lt_mul w.isLt)

theorem clamp_zero (hi v : Nat) : clamp 0 hi v = min v hi := Nat.zero_max _

theorem clamp_of_le {hi v : Nat} (lo : Nat) (v_le : v ≤ hi) : clamp lo hi v = max lo v := by
  rw [clamp, Nat.min_eq_left v_le]

/-- A byte field is within the upper bound 255 of its clamp. -/
theorem field_byte_le (w : Word) (lo : Nat) : field w lo 8 ≤ 255 := Nat.le_of_lt_succ (field_lt w lo 8)

theorem curvePointOf_clamped (w : Word) :
    (curvePointOf w).clamped = { ambient := w.toNat / 2 ^ 16, level := min (w.toNat % 2 ^ 16) 4096 } := by
  rw [CurvePoint.clamped, curvePointOf, field_high, field_low_half]
  rfl

theorem limitsOf_eq (ws : List Word) :
    limitsOf ws =
      { ceiling := min ((payloadWord ws 0).toNat % 2 ^ 16) 4096
        floor := min ((payloadWord ws 0).toNat / 2 ^ 16) 4096
        riseStep := max 1 (min ((payloadWord ws 1).toNat % 2 ^ 16) 4096)
        fallStep := max 1 (min ((payloadWord ws 1).toNat / 2 ^ 16) 4096)
        fallbackAmbient := min ((payloadWord ws 2).toNat % 2 ^ 16) 8191
        sensorLostEpochs := max 1 ((payloadWord ws 2).toNat / 2 ^ 16 % 2 ^ 8) } := by
  simp only [limitsOf, field_high, field_low_half, clamp_zero, clamp_of_le 1 (field_byte_le _ 16)]
  rfl

theorem stallTimeoutOf_eq (ws : List Word) : stallTimeoutOf ws = max 1 ((payloadWord ws 2).toNat / 2 ^ 24) := by
  rw [stallTimeoutOf, clamp_of_le 1 (field_byte_le _ 24), field_high_byte]

/-! A level command changes its own face and nothing else. -/

/-- The commands of 10.6 that act on the level engine (R171 to R173). -/
def Command.IsLevel (c : Command) : Prop := c = .faceCurve ∨ c = .faceLimits ∨ c = .faceHold ∨ c = .faceRelease

theorem levelEffect_same {c : Command} (level : c.IsLevel) (h : HeadFields) (ws : List Word) (s : State) :
    SameBesidesDirty (s.setFace h.face (c.faceAfter h ws (s.face h.face))) (c.effect h ws s) := by
  have start := faceAt_start s h.face
  rcases level with rfl | rfl | rfl | rfl
  · exact faceAt_updFace start _
  · rw [Command.effect, faceLimitsEffect, setStallTimeout]
    exact faceAt_updFace (faceAt_updFace start _) _
  · exact faceAt_touch start _ _
  · exact faceAt_touch start _ _

/-- A level command that its tests pass ends DONE with its face as its effect makes it. -/
theorem exec_level_done {c : Command} {h : HeadFields} {ws : List Word} {s : State} {x : Face} (level : c.IsLevel)
    (taken : Taken c h ws s) (passes : Passes c h ws s) (after : c.faceAfter h ws (s.face h.face) = x) :
    ∃ t, exec (c.row h ws) s = .next t ∧ SameBesidesDirty (doneWith c h (s.setFace h.face x)) t :=
  exec_done taken ((passes_iff h taken.allowed s).1 passes) (after ▸ levelEffect_same level h ws s).symm.alike

theorem passes_of_no_tests {c : Command} {h : HeadFields} {ws : List Word} {s : State} (none : c.tests h ws s = []) :
    Passes c h ws s := by
  rw [Passes, none]
  exact List.forall_mem_nil _

/-! The face after each level command, in the terms of its payload. -/

theorem faceAfter_faceCurve (h : HeadFields) (ws : List Word) (x : Face) :
    Command.faceCurve.faceAfter h ws x =
      { x with
        level := { x.level with
          stagedCurve := some (ws.map fun w => { ambient := w.toNat / 2 ^ 16, level := min (w.toNat % 2 ^ 16) 4096 }) } } := by
  simp only [Command.faceAfter, curvePointOf_clamped]

theorem faceAfter_faceLimits (h : HeadFields) (ws : List Word) (x : Face) :
    Command.faceLimits.faceAfter h ws x =
      { x with
        level := { x.level with
          stagedLimits := some
            { ceiling := min ((payloadWord ws 0).toNat % 2 ^ 16) 4096
              floor := min ((payloadWord ws 0).toNat / 2 ^ 16) 4096
              riseStep := max 1 (min ((payloadWord ws 1).toNat % 2 ^ 16) 4096)
              fallStep := max 1 (min ((payloadWord ws 1).toNat / 2 ^ 16) 4096)
              fallbackAmbient := min ((payloadWord ws 2).toNat % 2 ^ 16) 8191
              sensorLostEpochs := max 1 ((payloadWord ws 2).toNat / 2 ^ 16 % 2 ^ 8) } }
        sup := { x.sup with stallTimeout := max 1 ((payloadWord ws 2).toNat / 2 ^ 24) } } := by
  simp only [Command.faceAfter, limitsOf_eq, stallTimeoutOf_eq]

theorem faceAfter_faceHold (h : HeadFields) (ws : List Word) (x : Face) :
    Command.faceHold.faceAfter h ws x =
      { x with
        level := { x.level with
          hold := true
          level :=
            match ws with
            | [] => x.level.level
            | w :: _ => min (min (w.toNat % 2 ^ 16) 4096) x.level.limits.ceiling } } := by
  cases ws with
  | nil => rfl
  | cons w ws => simp only [Command.faceAfter, List.head?_cons, Option.map_some, forcedLevelField, field_low_half]; rfl

/-- Settles O43: each level command changes its own face alone, and the clamps of its payload are those of R171 to
R173. -/
theorem levelCommands : Obligations.LevelCommands := by
  refine ⟨fun h ws s => ⟨fun taken passes => ?curve, fun taken => ?limits⟩,
    fun h ws s => ⟨fun taken => ?hold, fun taken => ?release⟩⟩
  case curve => exact exec_level_done (.inl rfl) taken passes (faceAfter_faceCurve h ws _)
  case limits =>
    exact exec_level_done (.inr (.inl rfl)) taken (passes_of_no_tests rfl) (faceAfter_faceLimits h ws _)
  case hold =>
    exact exec_level_done (.inr (.inr (.inl rfl))) taken (passes_of_no_tests rfl) (faceAfter_faceHold h ws _)
  case release => exact exec_level_done (.inr (.inr (.inr rfl))) taken (passes_of_no_tests rfl) rfl

end Sys2Proof.Machine
end

/-! PROOFS. What each step does to the part outside its faces: every named operation is a chain of changes of the faces
alone, events, and a few changes of one owner each; an invariant of the part that each of these keeps is one that every
step keeps. -/

section
namespace Sys2Proof.Machine

/-! Changes of the faces alone. -/

/-- Nothing but the faces and the dirty set changes. -/
def FacesOnly (s t : State) : Prop := t = { s with faces := t.faces, dirty := t.dirty }

theorem FacesOnly.refl (s : State) : FacesOnly s s := rfl

theorem FacesOnly.exists {s t : State} (h : FacesOnly s t) : ∃ fs d, t = { s with faces := fs, dirty := d } := ⟨_, _, h⟩

theorem facesOnly_of {s t : State} (h : ∃ fs d, t = { s with faces := fs, dirty := d }) : FacesOnly s t := by
  obtain ⟨fs, d, rfl⟩ := h; rfl

theorem FacesOnly.trans {s t u : State} (h : FacesOnly s t) (k : FacesOnly t u) : FacesOnly s u := by
  obtain ⟨fs, d, rfl⟩ := h.exists
  obtain ⟨gs, e, rfl⟩ := k.exists
  rfl

theorem facesOnly_updFace (f : Fin 4) (g : Face → Face) (s : State) : FacesOnly s (s.updFace f g) := rfl

theorem facesOnly_touch (ws : List ImageWord) (f : Fin 4) (g : Face → Face) (s : State) :
    FacesOnly s (touch ws (State.updFace f g) s) := rfl

theorem facesOnly_linkIdle (f : Fin 4) (s : State) : FacesOnly s (linkIdle f s) :=
  (facesOnly_touch _ f _ s).trans ((facesOnly_touch _ f _ _).trans (facesOnly_touch _ f _ _))

theorem facesOnly_stopLink (f : Fin 4) (s : State) : FacesOnly s (stopLink f s) := by
  rw [stopLink_eq]
  split
  · split
    · exact facesOnly_touch _ f _ s
    · exact facesOnly_linkIdle f s
  · exact .refl s

theorem facesOnly_enterOff (f : Fin 4) (s : State) : FacesOnly s (enterOff f s) := by
  unfold enterOff
  split
  · exact ((facesOnly_touch _ f _ s).trans (facesOnly_touch _ f _ _)).trans (facesOnly_stopLink f _)
  · exact .refl s

theorem facesOnly_partResetFaces (fs : List (Fin 4)) (s : State) : FacesOnly s (fs.foldl partResetFace s) := by
  induction fs generalizing s with
  | nil => exact .refl s
  | cons f fs ih => exact ((facesOnly_enterOff f s).trans (facesOnly_updFace f _ _)).trans (ih _)

/-! The changes outside the faces. -/

/-- The journal after the completion of an own write of an origin (R155). -/
def Journal.completed (j : Journal) (o : Origin) : Journal :=
  match o, j.inProgress with
  | .journal n true, some r =>
    if r.sequence = n then
      if r.superseded then { j with inProgress := none }
      else { j with inProgress := none, produced := j.produced + 1 }
    else j
  | _, _ => j

/-- The journal after a record was placed whole into the own-write queue (R153, R154). -/
def Journal.started (j : Journal) (drops : Nat) : Journal :=
  { j with
    drops := drops
    sequence := j.sequence + 1
    inProgress := some { superseded := false, addr := j.nextAddr, sequence := j.sequence } }

/-- The journal after JOURNAL_SETUP (R150). -/
def Journal.setUp (j : Journal) (base : Addr) (capacity threshold : Nat) : Journal :=
  { j with
    configured := true
    base := base
    capacity := capacity
    threshold := threshold
    produced := 0
    consumed := 0
    inProgress := j.superseded }

/-- One change of the part by a step: of the faces alone, or of one owner outside them, with what its caller has
tested. -/
inductive PartAtom : State → State → Prop
  | faces (s t : State) (same : FacesOnly s t) (planes : ∀ f, (t.face f).plane = (s.face f).plane) : PartAtom s t
  | geometry (h : HeadFields) (ws : List Word) (s : State) (done : faceGeometryResult h ws s = .done) :
      PartAtom s (faceGeometryEffect h ws s)
  | attention (a : Attention) (d : Vector Bool 296) (s : State)
      (pulse : (s.attention.mode = .level → s.attention.pulse = false) → a.mode = .level → a.pulse = false) :
      PartAtom s { s with attention := a, dirty := d }
  | queued (e : EventEntry) (d : Vector Bool 296) (s : State) (room : s.eventQueue.length < 32) :
      PartAtom s { s with eventQueue := s.eventQueue ++ [e], dirty := d }
  | dropped (d : Vector Bool 296) (s : State) :
      PartAtom s { s with journal := { s.journal with drops := satSucc Config.max16 s.journal.drops }, dirty := d }
  | decoder (e : Decoder) (d : Vector Bool 296) (s : State) (sound : DecoderSound s.decoder → DecoderSound e) :
      PartAtom s { s with decoder := e, dirty := d }
  | journalSetup (h : HeadFields) (ws : List Word) (d : Vector Bool 296) (s : State)
      (done : journalSetupResult h ws s = .done) :
      PartAtom s
        { s with journal := s.journal.setUp (baseField (payloadWord ws 0)) (capacityField ws) (thresholdField ws), dirty := d }
  | consumed (v : BitVec 16) (d : Vector Bool 296) (s : State) (accepted : s.journal.accepts v = true) :
      PartAtom s { s with journal := { s.journal with consumed := v }, dirty := d }
  | timing (k : Fin 4) (s : State) : PartAtom s { s with epochSelect := k, epochTimer := epochPeriod k }
  | partReset (s t : State)
      (same : t = { s with
        faces := t.faces
        epochSelect := resetEpochSelect
        epochTimer := resetEpochTimer
        attention := resetAttention
        eventQueue := []
        journal := { resetJournal with inProgress := s.journal.superseded }
        dirty := t.dirty
        generationOwed := false
        ownWriteErrors := 0 })
      (planes : ∀ f, (t.face f).plane.valid = false) : PartAtom s t
  | enter (r : Request) (c : RequestClass) (k : Option ScaleContext) (s : State) (order : s.orderList.length < 16)
      (queue : c ≠ .localWrite → s.forwardQueue.length < 8) (localKind : c = .localWrite → r.kind = .write)
      (scanKind : k.isSome = true → r.kind = .read) (context : k.isSome = true ↔ c.kept = .forwardScale) :
      PartAtom s (enterRequest r c k s)
  | waiting (rs : List Request) (s : State) : PartAtom s { s with cportWaiting := rs }
  | response (s : State) : PartAtom s (takeResponse s)
  | grant (s : State) : PartAtom s (grantBeat s)
  | answer (st : Status) (data : Word) (rest : List InFlight) (s : State) (kept : st ≠ .discarded)
      (head : s.inFlight = .forwarded :: rest) :
      PartAtom s { s with inFlight := rest, orderList := answerOldest st data s.orderList }
  | completion (o : Origin) (n : Nat) (d : Vector Bool 296) (rest : List InFlight) (s : State)
      (errors : n = s.ownWriteErrors ∨ n = satSucc Config.max16 s.ownWriteErrors) (head : s.inFlight = .own o :: rest) :
      PartAtom s { s with inFlight := rest, ownWriteErrors := n, journal := s.journal.completed o, dirty := d }
  | record (e : EventEntry) (drops : Nat) (queue : List EventEntry) (d : Vector Bool 296) (s : State)
      (ready : s.recordReady = true) (room : s.roomForRecord = true) (fewer : drops ≤ s.journal.drops)
      (shorter : queue.length ≤ s.eventQueue.length) :
      PartAtom s { s with
        ownWrites := s.ownWrites ++ recordWrites s.journal.nextAddr s.journal.sequence e
        journal := s.journal.started drops
        eventQueue := queue
        dirty := d }
  | image (w : ImageWord) (a : Addr) (v : Word) (g : BitVec 16) (owed : Bool) (d : Vector Bool 296) (s : State)
      (room : s.ownWrites.length < 8) :
      PartAtom s { s with
        ownWrites := s.ownWrites ++ [{ addr := a, data := v, origin := .status w }]
        generation := g
        generationOwed := owed
        dirty := d }
  | millisecond (s : State) : PartAtom s { s with timeCount := s.timeCount + 1 }
  | divider (s : State) (below : s.tickDivider < 9) : PartAtom s { s with tickDivider := s.tickDivider + 1 }
  | tick (s : State) : PartAtom s (countTick s)
  | reset (wsel : BitVec 2) (s : State) : PartAtom s (powerOn wsel s)
  | assertion (s : State) : PartAtom s { s with porstAsserted := true }
  | command_taken (cs : List Instr) (s : State) : PartAtom s { s with pending := cs }

/-- A chain of changes of the part. -/
abbrev PartChain : State → State → Prop := Relation.ReflTransGen PartAtom

/-! Changes of faces that keep the planes. -/

theorem partAtom_updFace {f : Fin 4} {g : Face → Face} (s : State) (planes : ∀ x, (g x).plane = x.plane := by intro; rfl) :
    PartAtom s (s.updFace f g) :=
  .faces _ _ rfl fun e => by rw [face_updFace]; split <;> simp_all

theorem partAtom_touch {f : Fin 4} {g : Face → Face} (ws : List ImageWord) (s : State)
    (planes : ∀ x, (g x).plane = x.plane := by intro; rfl) :
    PartAtom s (touch ws (State.updFace f g) s) :=
  .faces _ _ rfl fun e => by rw [face_touch, face_updFace]; split <;> simp_all

/-! Events. -/

/-- A change of the sets or the base leaves no pulse in LEVEL mode (R138). -/
theorem Attention.change_pulse {g : Attention → Attention} {a : Attention} (mode : (g a).mode = a.mode)
    (pulse : (g a).pulse = a.pulse) (h : a.mode = .level → a.pulse = false) :
    (a.change g).mode = .level → (a.change g).pulse = false := by
  intro hm
  have level : (g a).mode = .level := hm
  have quiet : a.pulse = false := h (mode ▸ level)
  simp only [Attention.change, pulse, quiet, level]
  rfl

theorem partAtom_raiseClass (c : Fin 8) (s : State) : PartAtom s (raiseClass c s) :=
  .attention (s.attention.change fun a => { a with pending := addClass a.pending c }) _ s
    (Attention.change_pulse rfl rfl)

theorem partChain_countDrop (s : State) : PartChain s (countDrop s) := by
  have dropped : PartChain s (touch [partWord 6]
      (fun s => { s with journal := { s.journal with drops := satSucc Config.max16 s.journal.drops } }) s) :=
    .single (.dropped _ s)
  unfold countDrop
  dsimp only
  split
  · exact dropped.tail (partAtom_raiseClass _ _)
  · exact dropped

theorem partChain_raiseEvent (code : EventCode) (f : Fin 4) (n : Fin 64) (x y : Word) (s : State) :
    PartChain s (raiseEvent code f n x y s) := by
  have raised : PartChain s (raiseClass? code.cls s) := by
    cases code.cls with
    | none => exact .refl
    | some c => exact .single (partAtom_raiseClass c s)
  rw [raiseEvent]
  refine raised.trans ?_
  unfold offerEvent
  split
  · rename_i room
    exact .single (.queued _ _ _ room)
  · exact partChain_countDrop _

/-! The named operations of a face. -/

theorem partChain_stallExpiry (f : Fin 4) (s : State) : PartChain s (stallExpiry f s) := by
  unfold stallExpiry
  dsimp only
  split
  · exact .head (partAtom_touch _ s) (partChain_raiseEvent _ _ _ _ _ _)
  · exact .refl

theorem partChain_stallTick (f : Fin 4) (s : State) : PartChain s (stallTick f s) := by
  unfold stallTick
  dsimp only
  split
  · split
    · exact partChain_stallExpiry f s
    · exact .single (partAtom_updFace s)
  · exact .refl

theorem partChain_sensorTest (f : Fin 4) (s : State) : PartChain s (sensorTest f s) := by
  have tested := partAtom_touch (f := f) [faceWord f 3]
    (g := fun x => { x with level := { x.level with sensor := x.level.sensor.tested x.level.limits.sensorLostEpochs } })
    s
  unfold sensorTest
  dsimp only
  split
  · exact .head tested (partChain_raiseEvent _ _ _ _ _ _)
  · exact .single tested

theorem partChain_epochFace (f : Fin 4) (s : State) : PartChain s (epochFace f s) := by
  have adopted : PartChain s (adoptStaged f s) := .single (partAtom_updFace s)
  unfold epochFace
  dsimp only
  split
  · rw [computeLevel]
    exact (adopted.trans (partChain_sensorTest f _)).tail (partAtom_touch _ _)
  · exact adopted

theorem partChain_frameStart (f : Fin 4) (s : State) : PartChain s (superviseFrameStart f (latch f s)) := by
  have latched : PartChain s (latch f s) := .single (partAtom_touch _ s)
  unfold superviseFrameStart
  dsimp only
  split
  · have live := latched.tail (partAtom_touch (f := f) [faceWord f 0]
      (g := fun x => { x with sup := { x.sup with state := .live, stallTimer := x.sup.stallTimeout } }) _)
    split
    · exact live.trans (partChain_raiseEvent _ _ _ _ _ _)
    · exact live
  · exact latched

theorem partChain_linkSync (f : Fin 4) (s : State) : PartChain s (linkSync f s) := by
  unfold linkSync
  split
  · exact .single (partAtom_touch _ s)
  · exact .refl

theorem partChain_slotStart (f : Fin 4) (n : Fin 64) (s : State) : PartChain s (slotStart f n s) := by
  unfold slotStart
  dsimp only
  split
  · exact .refl
  · split
    · exact .head (partAtom_updFace s) (.single (partAtom_touch _ _))
    · exact .single (partAtom_updFace s)

theorem partChain_sensorOutcome (f : Fin 4) (len : WordLength) (c : ReceivedClass) (w : LinkWord) (s : State) :
    PartChain s (sensorOutcome f len c w s) := by
  unfold sensorOutcome
  split
  · cases c with
    | silent => exact .refl
    | garbled => exact .refl
    | valid =>
      dsimp only
      split
      · have stored := partAtom_touch (f := f) [faceWord f 3]
          (g := fun x => { x with level := { x.level with sensor := x.level.sensor.fresh (sensorAmbient len w) } })
          s
        unfold takeSample
        dsimp only
        split
        · exact .head stored (partChain_raiseEvent _ _ _ _ _ _)
        · exact .single stored
      · exact .refl
  · exact .refl

theorem partChain_recordOutcome (f : Fin 4) (n : Fin 64) (o : ModuleOutcome) (s : State) :
    PartChain s (recordOutcome f n o s) := by
  unfold recordOutcome
  dsimp only
  split
  · have written : ∀ r, PartChain s (setRecord f n r s) := fun r => by
      rw [setRecord]; exact .single (partAtom_touch _ s)
    split
    · exact written _
    · exact (written _).trans (partChain_raiseEvent _ _ _ _ _ _)
  · exact .refl

theorem partChain_slotEnd (f : Fin 4) (n : Fin 64) (w : LinkWord) (s : State) : PartChain s (slotEnd f n w s) := by
  unfold slotEnd
  split
  · exact .refl
  · unfold receiveSlot
    split
    · exact .refl
    · rename_i fs _
      have counted : PartChain s (countOutcome f (classifyReceived fs.wordLength (lineOrder fs.wordLength fs.bitOrder w))
          (s.updFace f fun x => { x with link := { x.link with line := x.link.line.afterSlot n } })) :=
        .head (partAtom_updFace s) (.single (partAtom_touch _ _))
      dsimp only
      split
      · exact counted.trans (partChain_sensorOutcome _ _ _ _ _)
      · exact counted.trans (partChain_recordOutcome _ _ _ _)

theorem linkIdled_plane (x : Face) : x.linkIdled.plane = x.plane := rfl

theorem offed_plane (x : Face) : x.offed.plane = x.plane := by
  unfold Face.offed
  split
  · rfl
  · dsimp only
    split
    · split <;> rfl
    · rfl

/-- An operation confined to a face that changes the faces alone and keeps that face's plane. -/
theorem partAtom_of_effect {f : Fin 4} {g : State → State} (confined : Effect [f] g) {s : State}
    (same : FacesOnly s (g s)) (plane : ((g s).face f).plane = (s.face f).plane) : PartAtom s (g s) :=
  .faces _ _ same fun e => by
    by_cases h : e = f
    · rw [h, plane]
    · rw [confined.faces s e (by simpa using h)]

theorem partChain_drainEnd (f : Fin 4) (s : State) : PartChain s (drainEnd f s) := by
  unfold drainEnd
  split
  · exact .single (partAtom_of_effect (effect_linkIdle f) (facesOnly_linkIdle f s) (by rw [face_linkIdle]; rfl))
  · exact .refl

/-! The attention controller. -/

theorem partAtom_setAck (r : AckResult) (c : Option (Fin 8)) (s : State) : PartAtom s (setAck r c s) :=
  .attention { s.attention with ackResult := r, ackClass := c } _ s id

theorem partAtom_changeAttention {g : Attention → Attention} {s : State} (mode : (g s.attention).mode = s.attention.mode)
    (pulse : (g s.attention).pulse = s.attention.pulse) : PartAtom s (changeAttention g s) :=
  .attention (s.attention.change g) _ s (Attention.change_pulse mode pulse)

theorem partChain_takeAck (code : BitVec 4) (rotate : Bool) (c : Fin 8) (s : State) : PartChain s (takeAck code rotate c s) := by
  have answered : ∀ (r : AckResult) (d : Option (Fin 8)) {g : Attention → Attention},
      (g s.attention).mode = s.attention.mode → (g s.attention).pulse = s.attention.pulse →
      PartChain s (setAck r d (changeAttention g s)) := fun r d _ mode pulse =>
    .head (partAtom_changeAttention mode pulse) (.single (partAtom_setAck r d _))
  have refused : ∀ (r : AckResult) (d : Option (Fin 8)), PartChain s (setAck r d s) := fun r d => .single (partAtom_setAck r d s)
  unfold takeAck
  split
  · unfold takeClass
    split
    · exact refused _ _
    · exact answered _ _ rfl rfl
  · unfold finishTopClass
    split
    · exact refused _ _
    · exact answered _ _ rfl rfl
  · unfold finishClass
    split
    · exact answered _ _ rfl rfl
    · exact refused _ _
  · exact answered _ _ rfl rfl
  · exact refused _ _

theorem reconfigured_pulse (ws : List Word) (a : Attention) (h : a.mode = .level → a.pulse = false) :
    (a.reconfigured ws).mode = .level → (a.reconfigured ws).pulse = false := by
  unfold Attention.reconfigured
  split
  · exact Attention.change_pulse ‹_› rfl h
  · intro _; rfl

/-! The journal. -/

theorem partChain_raiseThreshold (before : Nat) (s : State) : PartChain s (raiseThreshold before s) := by
  unfold raiseThreshold
  split
  · exact .single (partAtom_raiseClass _ s)
  · exact .refl

theorem partChain_offerConsumed (v : BitVec 16) (s : State) : PartChain s (offerConsumed v s) := by
  unfold offerConsumed
  split
  · exact .head (.consumed v _ s ‹_›) (partChain_raiseThreshold _ _)
  · exact partChain_raiseEvent _ _ _ _ _ _

theorem partChain_journalEnqueue (s : State) : PartChain s (journalEnqueue s) := by
  unfold journalEnqueue
  split
  · rename_i h
    obtain ⟨ready, room⟩ := Bool.and_eq_true_iff.1 h
    split
    · exact .single (.record (droppedSummary s) 0 s.eventQueue _ s ready room (Nat.zero_le _) (Nat.le_refl _))
    · split
      · exact .refl
      · rename_i e rest queue
        exact .single (.record e s.journal.drops rest _ s ready room (Nat.le_refl _) (by rw [queue]; simp))
  · exact .refl

theorem partChain_statusEnqueue (s : State) : PartChain s (statusEnqueue s) := by
  unfold statusEnqueue
  split
  · rename_i h
    have room : s.ownWrites.length < 8 := of_decide_eq_true (Bool.and_eq_true_iff.1 h).1
    split
    · exact .single (.image generationWord _ _ s.generation false _ s room)
    · split
      · exact .refl
      · rename_i w _
        unfold takeDirty
        dsimp only
        split
        · exact .single (.image w _ _ (s.generation + 1) _ _ s room)
        · exact .single (.image w _ _ s.generation s.generationOwed _ s room)
  · exact .refl

/-! Memory responses. -/

theorem completed_status (j : Journal) (w : ImageWord) : j.completed (.status w) = j := rfl

theorem completed_word (j : Journal) (n : BitVec 16) : j.completed (.journal n false) = j := rfl

theorem completed_none {j : Journal} (h : j.inProgress = none) (o : Origin) : j.completed o = j := by
  unfold Journal.completed
  rw [h]
  split
  · rename_i e; cases e
  · rfl

theorem completed_header {j : Journal} {r : RecordProgress} (h : j.inProgress = some r) (n : BitVec 16) :
    j.completed (.journal n true) =
      if r.sequence = n then
        if r.superseded then { j with inProgress := none } else { j with inProgress := none, produced := j.produced + 1 }
      else j := by
  unfold Journal.completed
  rw [h]

theorem completeRecord_eq (n : BitVec 16) (s : State) :
    ∃ d, PartChain { s with journal := s.journal.completed (.journal n true), dirty := d } (completeRecord n s) := by
  unfold completeRecord
  split
  · rename_i h
    rw [completed_none h]; exact ⟨s.dirty, .refl⟩
  · rename_i r h
    rw [completed_header h]
    split
    · split
      · exact ⟨s.dirty, .refl⟩
      · exact ⟨_, partChain_raiseThreshold _ _⟩
    · exact ⟨s.dirty, .refl⟩

theorem countOwnWriteError_eq (st : Status) (s : State) :
    ∃ n d, (n = s.ownWriteErrors ∨ n = satSucc Config.max16 s.ownWriteErrors) ∧
      countOwnWriteError st s = { s with ownWriteErrors := n, dirty := d } := by
  cases st with
  | okay => exact ⟨_, _, .inl rfl, rfl⟩
  | error => exact ⟨_, _, .inr rfl, rfl⟩
  | discarded => exact ⟨_, _, .inl rfl, rfl⟩

theorem partChain_takeMemoryResponse (st : Status) (data : Word) (s : State) (kept : st ≠ .discarded) :
    PartChain s (takeMemoryResponse st data s) := by
  unfold takeMemoryResponse
  split
  · exact .refl
  · exact .single (.answer st data _ s kept ‹_›)
  · rename_i o rest head
    obtain ⟨n, d, errors, counted⟩ := countOwnWriteError_eq st { s with inFlight := rest }
    unfold completeOwnWrite
    rw [counted]
    cases o with
    | status w => exact .single (.completion (.status w) n d rest s errors head)
    | journal k header =>
      cases header with
      | false => exact .single (.completion (.journal k false) n d rest s errors head)
      | true =>
        obtain ⟨e, chain⟩ := completeRecord_eq k { s with inFlight := rest, ownWriteErrors := n, dirty := d }
        exact .head (.completion (.journal k true) n e rest s errors head) chain

/-! The commands. -/

theorem partResetEffect_same (s : State) :
    partResetEffect s =
      { s with
        faces := (partResetEffect s).faces
        epochSelect := resetEpochSelect
        epochTimer := resetEpochTimer
        attention := resetAttention
        eventQueue := []
        journal := { resetJournal with inProgress := s.journal.superseded }
        dirty := allDirty
        generationOwed := false
        ownWriteErrors := 0 } := by
  rw [partResetEffect_eq]
  obtain ⟨fs, d, h⟩ := (facesOnly_partResetFaces allFaces s).exists
  rw [h]; rfl

theorem partAtom_partReset (s : State) : PartAtom s (partResetEffect s) :=
  .partReset _ _ (partResetEffect_same s) fun f => by rw [face_partResetEffect]; rfl

theorem partChain_command (c : Command) (h : HeadFields) (ws : List Word) (s : State) (done : c.result h ws s = .done) :
    PartChain s (c.effect h ws s) := by
  cases c with
  | faceGeometry => exact .single (.geometry h ws s done)
  | faceZonemap => rw [Command.effect, faceZonemapEffect]; exact .single (partAtom_updFace s)
  | faceCurve => rw [Command.effect, faceCurveEffect]; exact .single (partAtom_updFace s)
  | faceLimits =>
    rw [Command.effect, faceLimitsEffect, setStallTimeout]
    exact .head (partAtom_updFace s) (.single (partAtom_updFace _))
  | faceStart =>
    exact .single (partAtom_of_effect (effect_startFace h.face)
      (((facesOnly_touch _ _ _ s).trans (facesOnly_touch _ _ _ _)).trans
        ((facesOnly_touch _ _ _ _).trans (facesOnly_touch _ _ _ _)))
      (by rw [face_startFace]; rfl))
  | faceStop =>
    exact .single (partAtom_of_effect (effect_enterOff h.face) (facesOnly_enterOff h.face s)
      (by rw [face_enterOff, offed_plane]))
  | faceHold => exact .single (partAtom_touch _ s)
  | faceRelease => exact .single (partAtom_touch _ s)
  | outputConfig => rw [Command.effect, setOutputs]; exact .single (partAtom_updFace s)
  | linkSetup => exact .single (partAtom_touch _ s)
  | moduleCommand => exact .single (partAtom_touch _ s)
  | moduleClear =>
    show PartChain s (moduleClearEffect h ws s)
    unfold moduleClearEffect
    split
    · exact .single (partAtom_touch _ s)
    · exact .single (partAtom_touch _ s)
  | attnConfig => exact .single (.attention (s.attention.reconfigured ws) _ s (reconfigured_pulse ws _))
  | journalSetup => exact .single (.journalSetup h ws _ s done)
  | timingSetup => exact .single (.timing _ s)
  | statusRefresh => exact .single (.faces _ _ rfl fun _ => rfl)
  | partReset => exact .single (partAtom_partReset s)

/-! Every step. -/

theorem partChain_atom {s t : State} (a : Atom s t) : PartChain s t := by
  cases a with
  | event => exact partChain_raiseEvent _ _ _ _ _ _
  | decoder st n cmd r b _ sound => exact .single (.decoder _ _ s sound)
  | result => exact .single (.decoder _ _ s fun h => ⟨h.idle, h.collecting, h.discarding, h.buffer⟩)
  | command c h ws _ done _ => exact partChain_command c h ws s done
  | ack => exact partChain_takeAck _ _ _ s
  | consumed => exact partChain_offerConsumed _ s
  | frameStart => exact partChain_frameStart _ s
  | enter r c k _ order queue localKind scanKind context => exact .single (.enter r c k s order queue localKind scanKind context)
  | waiting => exact .single (.waiting _ s)
  | response => exact .single (.response s)
  | grant => exact .single (.grant s)
  | memory st data _ kept => exact partChain_takeMemoryResponse st data s kept
  | journal => exact partChain_journalEnqueue s
  | status => exact partChain_statusEnqueue s
  | millisecond => exact .single (.millisecond s)
  | divider _ below => exact .single (.divider s below)
  | tick => exact .single (.tick s)
  | reload => exact .single (.timing s.epochSelect s)
  | stallTick => exact partChain_stallTick _ s
  | stallExpiry => exact partChain_stallExpiry _ s
  | epoch => exact partChain_epochFace _ s
  | sync => exact partChain_linkSync _ s
  | slotStart => exact partChain_slotStart _ _ s
  | slotEnd => exact partChain_slotEnd _ _ _ s
  | drainEnd => exact partChain_drainEnd _ s
  | pulseEnd => exact .single (.attention { s.attention with pulse := false } s.dirty s fun _ _ => rfl)
  | reset => exact .single (.reset _ s)
  | assertion => exact .single (.assertion s)
  | command_taken => exact .single (.command_taken _ s)

/-- An invariant that every change of the part keeps is one that every step keeps. -/
theorem kept_by_parts {P : State → Prop} (kept : ∀ s t, P s → PartAtom s t → P t) {s t : State} (hs : P s)
    (h : step s = .next t) : P t :=
  kept_by_steps (fun u _ hu a => by
    have chain := partChain_atom a
    clear a
    induction chain with
    | refl => exact hu
    | tail _ b ih => exact kept _ _ ih b) hs h

end Sys2Proof.Machine
end

/-! PROOFS. The request path: the bounds of its lists, the entries of the order list, the record under way (R53, R62 to
R65, R68, R70, R147, R149). -/

section
namespace Sys2Proof.Machine

/-! Answers and responses. -/

theorem answerOldest_length (st : Status) (data : Word) (l : List OrderEntry) : (answerOldest st data l).length = l.length := by
  induction l with
  | nil => rfl
  | cons e l ih => unfold answerOldest; split <;> simp [ih]

theorem answered_not_awaiting (e : OrderEntry) (st : Status) (data : Word) : (e.answered st data).awaiting = false := rfl

/-- An answer makes one awaiting entry READY, if there is one. -/
theorem countP_answerOldest (st : Status) (data : Word) (l : List OrderEntry) :
    (answerOldest st data l).countP OrderEntry.awaiting = l.countP OrderEntry.awaiting - 1 := by
  induction l with
  | nil => rfl
  | cons e l ih =>
    unfold answerOldest
    by_cases h : e.awaiting = true
    · simp [h, answered_not_awaiting]
    · simp [h, ih]

theorem mem_answerOldest {st : Status} {data : Word} {l : List OrderEntry} {e : OrderEntry}
    (h : e ∈ answerOldest st data l) : e ∈ l ∨ ∃ a ∈ l, a.awaiting = true ∧ e = a.answered st data := by
  induction l with
  | nil => cases h
  | cons b l ih =>
    unfold answerOldest at h
    split at h
    · rename_i hb
      rcases List.mem_cons.1 h with rfl | h
      · exact .inr ⟨b, List.mem_cons_self, hb, rfl⟩
      · exact .inl (List.mem_cons_of_mem _ h)
    · rcases List.mem_cons.1 h with rfl | h
      · exact .inl List.mem_cons_self
      · rcases ih h with h | ⟨a, ha, hw, rfl⟩
        · exact .inl (List.mem_cons_of_mem _ h)
        · exact .inr ⟨a, List.mem_cons_of_mem _ ha, hw, rfl⟩

/-- The taking of a response leaves the part as it is, or removes a READY head. -/
theorem takeResponse_cases (s : State) :
    takeResponse s = s ∨
      ∃ e rest b, s.orderList = e :: rest ∧ e.awaiting = false ∧ takeResponse s = { s with orderList := rest, cportLast := some b } := by
  unfold takeResponse State.cportOffer
  cases ho : s.orderList with
  | nil => exact .inl rfl
  | cons e rest =>
    cases hc : e.completion with
    | awaitingMemory => simp [hc]
    | ready st d =>
      refine .inr ⟨e, rest, { kind := e.kind, id := e.id, status := st, data := d }, rfl, ?_, ?_⟩
      · simp [OrderEntry.awaiting, hc]
      · simp [hc]

/-! Grants. -/

/-- A grant leaves the part as it is, or moves the head of one queue to the in-flight list (R70). -/
theorem grantBeat_cases (s : State) :
    grantBeat s = s ∨
      (∃ r rest n b, s.inFlight.length < 24 ∧ s.forwardQueue = r :: rest ∧ (s.ownWrites = [] → n = 0) ∧ n ≤ 4 ∧
        grantBeat s = { s with forwardQueue := rest, inFlight := s.inFlight ++ [.forwarded], arbiterCount := n, mportLast := b }) ∨
      ∃ w rest b, s.inFlight.length < 24 ∧ s.ownWrites = w :: rest ∧
        grantBeat s = { s with ownWrites := rest, inFlight := s.inFlight ++ [.own w.origin], arbiterCount := 0, mportLast := b } := by
  unfold grantBeat
  split
  · rename_i issue
    simp only [State.canIssue, Bool.and_eq_true, decide_eq_true_eq] at issue
    obtain ⟨-, room⟩ := issue
    replace room : s.inFlight.length < 24 := room
    cases hf : s.forwardQueue with
    | nil =>
      cases hw : s.ownWrites with
      | nil => exact .inl rfl
      | cons w rest => exact .inr (.inr ⟨w, rest, some (ownBeat w), room, rfl, by simp only [arbitrate, issueGrant, hw, List.tail_cons, hf]⟩)
    | cons r queue =>
      cases hw : s.ownWrites with
      | nil =>
        exact .inr (.inl ⟨r, queue, 0, some { own := false, request := r }, room, rfl, fun _ => rfl, by omega,
          by simp only [arbitrate, issueGrant, hf, List.tail_cons, hw]⟩)
      | cons w rest =>
        by_cases below : s.arbiterCount < Config.maxForwardGrants
        · refine .inr (.inl ⟨r, queue, s.arbiterCount + 1, some { own := false, request := r }, room, rfl, nofun, ?_, ?_⟩)
          · simp only [Config.maxForwardGrants] at below; omega
          · simp only [arbitrate, if_pos below, issueGrant, hf, List.tail_cons, hw]
        · exact .inr (.inr ⟨w, rest, some (ownBeat w), room, rfl,
            by simp only [arbitrate, if_neg below, issueGrant, hw, List.tail_cons, hf]⟩)
  · exact .inl rfl

/-! The bounds of the path's lists. -/

/-- The path stays sound when it is left as it is and the event queue keeps its bound. -/
theorem PathSound.of_same {s t : State} (h : PathSound s) (order : t.orderList = s.orderList)
    (queue : t.forwardQueue = s.forwardQueue) (flight : t.inFlight = s.inFlight) (own : t.ownWrites = s.ownWrites)
    (count : t.arbiterCount = s.arbiterCount) (events : t.eventQueue.length ≤ 32) : PathSound t where
  orderRoom := order ▸ h.orderRoom
  forwardRoom := queue ▸ h.forwardRoom
  flightRoom := flight ▸ h.flightRoom
  ownRoom := own ▸ h.ownRoom
  eventRoom := events
  grants := count ▸ h.grants
  noOwn := by rw [own, count]; exact h.noOwn
  awaiting := by rw [order, queue, flight]; exact h.awaiting

theorem entryOf_awaiting (r : Request) (c : RequestClass) (k : Option ScaleContext) :
    (entryOf r c k).awaiting = !decide (c = .localWrite) := by
  unfold entryOf OrderEntry.awaiting
  by_cases h : c = .localWrite <;> simp [h]

theorem pathSound_enter {s : State} (h : PathSound s) (r : Request) (c : RequestClass) (k : Option ScaleContext)
    (order : s.orderList.length < 16) (queue : c ≠ .localWrite → s.forwardQueue.length < 8) :
    PathSound (enterRequest r c k s) where
  orderRoom := by simp only [enterRequest, List.length_append, List.length_singleton]; omega
  forwardRoom := by
    have := h.forwardRoom
    by_cases hc : c = .localWrite
    · simpa [enterRequest, hc] using this
    · have := queue hc
      simp only [enterRequest, hc, if_false, List.length_append, List.length_singleton]; omega
  flightRoom := h.flightRoom
  ownRoom := h.ownRoom
  eventRoom := h.eventRoom
  grants := h.grants
  noOwn := h.noOwn
  awaiting := by
    have := h.awaiting
    simp only [enterRequest, List.countP_append, List.countP_singleton, entryOf_awaiting]
    by_cases hc : c = .localWrite
    · simp [hc, this]
    · simp [hc, this]; omega

theorem pathSound_response {s : State} (h : PathSound s) : PathSound (takeResponse s) := by
  rcases takeResponse_cases s with same | ⟨e, rest, b, order, ready, taken⟩
  · rw [same]; exact h
  · have awaiting := h.awaiting
    have room := h.orderRoom
    rw [order] at awaiting room
    rw [List.countP_cons_of_neg (by simp [ready])] at awaiting
    rw [taken]
    exact { h with orderRoom := (Nat.le_of_succ_le room), awaiting := awaiting }

theorem pathSound_grant {s : State} (h : PathSound s) : PathSound (grantBeat s) := by
  have forward := h.forwardRoom
  have awaiting := h.awaiting
  rcases grantBeat_cases s with same | ⟨r, rest, n, b, room, queue, none_own, le, granted⟩ | ⟨w, rest, b, room, own, granted⟩
  · rw [same]; exact h
  · rw [queue] at forward awaiting
    rw [granted]
    refine { h with forwardRoom := ?_, flightRoom := ?_, grants := le, noOwn := none_own, awaiting := ?_ }
    · exact Nat.le_of_succ_le forward
    · show (s.inFlight ++ [InFlight.forwarded]).length ≤ 24
      simp; omega
    · show s.orderList.countP OrderEntry.awaiting = rest.length + (s.inFlight ++ [InFlight.forwarded]).countP InFlight.isForwarded
      rw [awaiting]
      simp [InFlight.isForwarded]; omega
  · have ownRoom := h.ownRoom
    rw [own] at ownRoom
    rw [granted]
    refine { h with flightRoom := ?_, ownRoom := Nat.le_of_succ_le ownRoom, grants := Nat.zero_le _, noOwn := fun _ => rfl, awaiting := ?_ }
    · show (s.inFlight ++ [InFlight.own w.origin]).length ≤ 24
      simp; omega
    · show s.orderList.countP OrderEntry.awaiting =
        s.forwardQueue.length + (s.inFlight ++ [InFlight.own w.origin]).countP InFlight.isForwarded
      rw [awaiting]
      simp [InFlight.isForwarded]

theorem pathSound_answer {s : State} (h : PathSound s) (st : Status) (data : Word) {rest : List InFlight}
    (head : s.inFlight = .forwarded :: rest) :
    PathSound { s with inFlight := rest, orderList := answerOldest st data s.orderList } := by
  have flight := h.flightRoom
  have awaiting := h.awaiting
  rw [head] at flight awaiting
  rw [List.countP_cons_of_pos rfl] at awaiting
  refine { h with orderRoom := ?_, flightRoom := Nat.le_of_succ_le flight, awaiting := ?_ }
  · rw [answerOldest_length]; exact h.orderRoom
  · show (answerOldest st data s.orderList).countP OrderEntry.awaiting = s.forwardQueue.length + rest.countP InFlight.isForwarded
    rw [countP_answerOldest, awaiting]; omega

theorem pathSound_completion {s t : State} (h : PathSound s) {o : Origin} {rest : List InFlight}
    (head : s.inFlight = .own o :: rest) (same : PathSound { s with inFlight := rest } → PathSound t) : PathSound t := by
  have flight := h.flightRoom
  have awaiting := h.awaiting
  rw [head] at flight awaiting
  rw [List.countP_cons_of_neg (by simp [InFlight.isForwarded])] at awaiting
  exact same { h with flightRoom := Nat.le_of_succ_le flight, awaiting := awaiting }

theorem PathSound.of_ownWrites {s t : State} (h : PathSound s) (ws : List OwnWrite) (nonempty : ws ≠ [])
    (room : s.ownWrites.length + ws.length ≤ 8) (own : t.ownWrites = s.ownWrites ++ ws) (order : t.orderList = s.orderList)
    (queue : t.forwardQueue = s.forwardQueue) (flight : t.inFlight = s.inFlight) (count : t.arbiterCount = s.arbiterCount)
    (events : t.eventQueue.length ≤ 32) : PathSound t where
  orderRoom := order ▸ h.orderRoom
  forwardRoom := queue ▸ h.forwardRoom
  flightRoom := flight ▸ h.flightRoom
  ownRoom := by rw [own, List.length_append]; exact room
  eventRoom := events
  grants := count ▸ h.grants
  noOwn := by rw [own]; intro e; exact absurd (List.append_eq_nil_iff.1 e).2 nonempty
  awaiting := by rw [order, queue, flight]; exact h.awaiting

theorem pathSound_powerOn (w : BitVec 2) (s : State) : PathSound (powerOn w s) := by
  constructor <;> simp [powerOn, State.reset]

theorem pathSound_part {s t : State} (h : PathSound s) (a : PartAtom s t) : PathSound t := by
  have events := h.eventRoom
  cases a with
  | faces _ _ same _ => rw [same]; exact h.of_same rfl rfl rfl rfl rfl events
  | partReset _ _ same _ => rw [same]; exact h.of_same rfl rfl rfl rfl rfl (Nat.zero_le _)
  | queued e d _ room =>
    refine h.of_same rfl rfl rfl rfl rfl ?_
    show (s.eventQueue ++ [e]).length ≤ 32
    simp; omega
  | enter r c k _ order queue _ _ _ => exact pathSound_enter h r c k order queue
  | response => exact pathSound_response h
  | grant => exact pathSound_grant h
  | answer st data rest _ _ head => exact pathSound_answer h st data head
  | completion o n d rest _ _ head => exact pathSound_completion h head fun k => k.of_same rfl rfl rfl rfl rfl events
  | record e drops queue d _ _ room _ shorter =>
    refine h.of_ownWrites (recordWrites s.journal.nextAddr s.journal.sequence e) nofun ?_ rfl rfl rfl rfl rfl (shorter.trans events)
    exact of_decide_eq_true room
  | image w a v g owed d _ room => exact h.of_ownWrites [_] nofun room rfl rfl rfl rfl rfl events
  | reset w => exact pathSound_powerOn w s
  | _ => exact h.of_same rfl rfl rfl rfl rfl events

/-! The entries of the order list. -/

theorem entrySound_answered {e : OrderEntry} (h : EntrySound e) (awaits : e.awaiting = true) {st : Status}
    (kept : st ≠ .discarded) (data : Word) : EntrySound (e.answered st data) where
  context := h.context
  scaleReads := h.scaleReads
  local_ hl := by
    obtain ⟨-, ready⟩ := h.local_ hl
    simp [OrderEntry.awaiting, ready] at awaits
  discarded d hd := by
    simp only [OrderEntry.answered, Completion.ready.injEq] at hd
    exact absurd hd.1 kept
  writeData st' d hk hd := by
    have kind : e.kind = .write := hk
    simp only [OrderEntry.answered, kind, Completion.ready.injEq] at hd
    exact hd.2.symm

theorem kept_localWrite {c : RequestClass} (h : c.kept = .localWrite) : c = .localWrite := by
  cases c <;> simp [RequestClass.kept] at h ⊢

theorem entrySound_entryOf {r : Request} {c : RequestClass} {k : Option ScaleContext}
    (localKind : c = .localWrite → r.kind = .write) (scanKind : k.isSome = true → r.kind = .read)
    (context : k.isSome = true ↔ c.kept = .forwardScale) : EntrySound (entryOf r c k) where
  context := context
  scaleReads h := scanKind (context.2 h)
  local_ h := ⟨localKind (kept_localWrite h), if_pos (kept_localWrite h)⟩
  discarded d h := by
    by_cases hc : c = .localWrite
    · rw [hc]; rfl
    · simp [entryOf, hc] at h
  writeData st d _ h := by
    by_cases hc : c = .localWrite
    · simp only [entryOf, hc, if_true, Completion.ready.injEq] at h
      exact h.2.symm
    · simp [entryOf, hc] at h

/-- Every entry of the order list is as R53 and R62 give it. -/
def EntriesSound (s : State) : Prop := ∀ e ∈ s.orderList, EntrySound e

theorem EntriesSound.of_same {s t : State} (h : EntriesSound s) (order : t.orderList = s.orderList) : EntriesSound t := by
  unfold EntriesSound; rw [order]; exact h

theorem entriesSound_part {s t : State} (h : EntriesSound s) (a : PartAtom s t) : EntriesSound t := by
  cases a with
  | faces _ _ same _ => rw [same]; exact h.of_same rfl
  | partReset _ _ same _ => rw [same]; exact h.of_same rfl
  | enter r c k _ _ _ localKind scanKind context =>
    intro e he
    rcases List.mem_append.1 he with he | he
    · exact h e he
    · rw [List.mem_singleton.1 he]; exact entrySound_entryOf localKind scanKind context
  | response =>
    rcases takeResponse_cases s with same | ⟨e, rest, b, order, -, taken⟩
    · rw [same]; exact h
    · rw [taken]; exact fun x hx => h x (order ▸ List.mem_cons_of_mem _ hx)
  | grant =>
    rcases grantBeat_cases s with same | ⟨_, _, _, _, _, _, _, _, granted⟩ | ⟨_, _, _, _, _, granted⟩
    · rw [same]; exact h
    · rw [granted]; exact h.of_same rfl
    · rw [granted]; exact h.of_same rfl
  | answer st data rest _ kept _ =>
    intro e he
    rcases mem_answerOldest he with he | ⟨a, ha, awaits, rfl⟩
    · exact h e he
    · exact entrySound_answered (h a ha) awaits kept data
  | reset w => exact fun e he => absurd he List.not_mem_nil
  | _ => exact h.of_same rfl

/-! The record under way. -/

theorem header?_word (n : BitVec 16) : (Origin.journal n false).header? = none := rfl

theorem header?_header (n : BitVec 16) : (Origin.journal n true).header? = some n := rfl

theorem header?_status (w : ImageWord) : (Origin.status w).header? = none := rfl

/-- The header of an in-flight entry, if it is one of a journal record. -/
def InFlight.header? : InFlight → Option (BitVec 16)
  | .forwarded => none
  | .own o => o.header?

theorem recordWrites_headers (a : Addr) (n : BitVec 16) (e : EventEntry) :
    (recordWrites a n e).filterMap (fun w => w.origin.header?) = [n] := rfl

theorem headersUnderWay_eq (s : State) :
    headersUnderWay s = s.inFlight.filterMap InFlight.header? ++ s.ownWrites.filterMap fun w => w.origin.header? := by
  unfold headersUnderWay
  congr 2

theorem RecordUnderWay.of_same {s t : State} (h : RecordUnderWay s) (headers : headersUnderWay t = headersUnderWay s)
    (sequence : t.journal.inProgress.map RecordProgress.sequence = s.journal.inProgress.map RecordProgress.sequence) :
    RecordUnderWay t := by
  unfold RecordUnderWay; rw [headers, sequence]; exact h

theorem superseded_sequence (j : Journal) :
    j.superseded.map RecordProgress.sequence = j.inProgress.map RecordProgress.sequence := by
  unfold Journal.superseded
  cases j.inProgress <;> rfl

theorem headersUnderWay_grant (s : State) : headersUnderWay (grantBeat s) = headersUnderWay s := by
  rcases grantBeat_cases s with same | ⟨r, rest, n, b, _, _, _, _, granted⟩ | ⟨w, rest, b, _, own, granted⟩
  · rw [same]
  · rw [granted, headersUnderWay_eq, headersUnderWay_eq]
    simp [InFlight.header?]
  · rw [granted, headersUnderWay_eq, headersUnderWay_eq, own]
    cases hw : w.origin.header? <;> simp [InFlight.header?, hw]

theorem journal_grant (s : State) : (grantBeat s).journal = s.journal := by
  rcases grantBeat_cases s with same | ⟨_, _, _, _, _, _, _, _, granted⟩ | ⟨_, _, _, _, _, granted⟩
  · rw [same]
  · rw [granted]
  · rw [granted]

/-- The own write that completes is the header of the record in progress, or no header. -/
theorem recordUnderWay_completion {s t : State} (h : RecordUnderWay s) {o : Origin} {rest : List InFlight}
    (head : s.inFlight = .own o :: rest) (flight : t.inFlight = rest) (own : t.ownWrites = s.ownWrites)
    (journal : t.journal = s.journal.completed o) : RecordUnderWay t := by
  unfold RecordUnderWay at h ⊢
  rw [headersUnderWay_eq] at h ⊢
  rw [head] at h
  rw [flight, own, journal]
  cases o with
  | status w => exact h
  | journal n header =>
    cases header with
    | false => exact h
    | true =>
      cases progress : s.journal.inProgress with
      | none => rw [progress] at h; simp [InFlight.header?, header?_header] at h
      | some r =>
        rw [progress] at h
        simp only [List.filterMap_cons, InFlight.header?, header?_header, List.cons_append, Option.map_some,
          Option.toList_some, List.cons.injEq] at h
        obtain ⟨sequence, none_left⟩ := h
        rw [none_left, completed_header progress, if_pos sequence.symm]
        split <;> rfl

theorem recordUnderWay_part {s t : State} (h : RecordUnderWay s) (a : PartAtom s t) : RecordUnderWay t := by
  cases a with
  | faces _ _ same _ => rw [same]; exact h.of_same rfl rfl
  | partReset _ _ same _ => rw [same]; exact h.of_same rfl (superseded_sequence _)
  | journalSetup => exact h.of_same rfl (superseded_sequence _)
  | response =>
    rcases takeResponse_cases s with same | ⟨_, _, _, _, _, taken⟩
    · rw [same]; exact h
    · rw [taken]; exact h.of_same rfl rfl
  | grant => exact h.of_same (headersUnderWay_grant s) (by rw [journal_grant])
  | answer st data rest _ _ head =>
    refine h.of_same ?_ rfl
    rw [headersUnderWay_eq, headersUnderWay_eq, head]
    rfl
  | completion o n d rest _ _ head => exact recordUnderWay_completion h head rfl rfl rfl
  | record e drops queue d _ ready _ _ _ =>
    have none_yet : s.journal.inProgress = none := by
      simp only [State.recordReady, Bool.and_eq_true, Option.isNone_iff_eq_none] at ready
      exact ready.1.1.2
    unfold RecordUnderWay at h ⊢
    rw [none_yet, headersUnderWay_eq] at h
    obtain ⟨flight, own⟩ := List.append_eq_nil_iff.1 h
    rw [headersUnderWay_eq]
    simp [flight, own, recordWrites_headers, Journal.started]
  | image w a v g owed d _ _ =>
    refine h.of_same ?_ rfl
    rw [headersUnderWay_eq, headersUnderWay_eq]
    simp [header?_status]
  | reset w => rfl
  | _ => exact h.of_same rfl rfl

/-- Settles O52: each change of the part keeps the bounds and the match of awaiting entries, the entries of the order
list, and the record under way. -/
theorem requestPathStaysSound : Obligations.RequestPathStaysSound :=
  ⟨fun _ _ sound next => kept_by_parts (fun _ _ => pathSound_part) sound next,
    fun _ _ next => ⟨fun entries => kept_by_parts (P := EntriesSound) (fun _ _ => entriesSound_part) entries next,
      fun underWay => kept_by_parts (fun _ _ => recordUnderWay_part) underWay next⟩⟩

end Sys2Proof.Machine
end

/-! PROOFS. The journal's fill and settings (R149, R151), and the regions of the frame store (R2). -/

section
namespace Sys2Proof.Machine

/-! Tests passed. -/

theorem journalSetup_passed {h : HeadFields} {ws : List Word} {s : State} (done : journalSetupResult h ws s = .done) :
    capacityField ws ∈ ringCapacities ∧ (1 ≤ thresholdField ws ∧ thresholdField ws ≤ capacityField ws) ∧
      (baseField (payloadWord ws 0)).toNat + capacityField ws * 16 ≤ 0x10000000 ∧
      Apart (baseField (payloadWord ws 0)).toNat (capacityField ws * 16) s.windowBase.toNat 4096 ∧
      ∀ g, ClearOfPlane s g (baseField (payloadWord ws 0)).toNat (capacityField ws * 16) := by
  unfold journalSetupResult at done
  rw [firstFailure_done_iff _ (by simp)] at done
  simp only [List.mem_cons, List.not_mem_nil, or_false, forall_eq_or_imp, forall_eq, List.contains_iff_mem, inRange,
    Bool.and_eq_true, decide_eq_true_eq, clearOfWindow_iff, allFaces_all_iff, clearOfPlane_iff] at done
  obtain ⟨capacity, threshold, top, window, planes⟩ := done
  exact ⟨capacity, threshold, top, window, planes⟩

theorem faceGeometry_clear {h : HeadFields} {ws : List Word} {s : State} (done : faceGeometryResult h ws s = .done) :
    planeClear s h.face (planeOf ws) = true := by
  unfold faceGeometryResult at done
  rw [firstFailure_done_iff _ (by simp)] at done
  exact done (planeClear s h.face (planeOf ws), .overlap) (by simp)

theorem ringCapacities_bounds {n : Nat} (h : n ∈ ringCapacities) : 16 ≤ n ∧ n ≤ 1024 := by
  simp only [ringCapacities, List.mem_cons, List.not_mem_nil, or_false] at h
  omega

/-! The journal. -/

theorem JournalSound.of_same {j k : Journal} (h : JournalSound j) (configured : k.configured = j.configured)
    (capacity : k.capacity = j.capacity) (threshold : k.threshold = j.threshold) (produced : k.produced = j.produced)
    (consumed : k.consumed = j.consumed) (current : k.hasCurrent = true → j.hasCurrent = true) (drops : k.drops ≤ 65535) :
    JournalSound k where
  capacity := capacity ▸ h.capacity
  threshold := by rw [threshold, capacity]; exact h.threshold
  fill := by unfold Journal.fill; rw [produced, consumed, capacity]; exact h.fill
  unconfigured hc := by
    obtain ⟨p, c, none⟩ := h.unconfigured (configured ▸ hc)
    exact ⟨produced.trans p, consumed.trans c, Bool.eq_false_iff.2 fun hk => by simp [current hk] at none⟩
  current hc := by unfold Journal.fill; rw [produced, consumed, capacity]; exact h.current (current hc)
  drops := drops

theorem JournalSound.configured_of_current {j : Journal} (h : JournalSound j) (current : j.hasCurrent = true) :
    j.configured = true := by
  by_contra unconfigured
  obtain ⟨-, -, none⟩ := h.unconfigured (by simpa using unconfigured)
  simp [current] at none

theorem hasCurrent_superseded (j k : Journal) (h : k.inProgress = j.superseded) : k.hasCurrent = false := by
  unfold Journal.hasCurrent
  rw [h, Journal.superseded]
  cases j.inProgress <;> rfl

theorem journalSound_setUp {j : Journal} (h : JournalSound j) (base : Addr) {capacity threshold : Nat}
    (ring : capacity ∈ ringCapacities) (range : 1 ≤ threshold ∧ threshold ≤ capacity) :
    JournalSound (j.setUp base capacity threshold) where
  capacity := ring
  threshold := range
  fill := by show (0 - 0 : BitVec 16).toNat ≤ capacity; simp
  unconfigured := nofun
  current hc := absurd hc (by rw [hasCurrent_superseded j _ rfl]; decide)
  drops := h.drops

theorem journalSound_reset (p : Option RecordProgress) (idle : ({ resetJournal with inProgress := p }).hasCurrent = false) :
    JournalSound { resetJournal with inProgress := p } where
  capacity := show 16 ∈ ringCapacities by decide
  threshold := show 1 ≤ 16 ∧ 16 ≤ 16 by decide
  fill := show (0 - 0 : BitVec 16).toNat ≤ 16 by decide
  unconfigured _ := ⟨rfl, rfl, idle⟩
  current hc := by rw [idle] at hc; cases hc
  drops := show 0 ≤ 65535 by decide

/-- An index that rises by one within the capacity raises the fill by one. -/
theorem toNat_succ_sub {p c : BitVec 16} (below : (p - c).toNat < 65535) : (p + 1 - c).toNat = (p - c).toNat + 1 := by
  bv_omega

/-- An accepted index leaves room for a CURRENT record: the write index is one past the produced index (R151, R152). -/
theorem journalSound_consumed {j : Journal} (h : JournalSound j) {v : BitVec 16} (accepted : j.accepts v = true) :
    JournalSound { j with consumed := v } := by
  obtain ⟨-, cap_le⟩ := ringCapacities_bounds h.capacity
  simp only [Journal.accepts, Bool.and_eq_true, decide_eq_true_eq] at accepted
  obtain ⟨write, produced⟩ := accepted
  have in_force : j.configured = true → j.capacityInForce = j.capacity := fun hc => if_pos hc
  have none_in_force : j.configured = false → j.capacityInForce = 0 := fun hc => by simp [Journal.capacityInForce, hc]
  refine ⟨h.capacity, h.threshold, ?fill, ?unconfigured, ?current, h.drops⟩
  case fill =>
    show (j.produced - v).toNat ≤ j.capacity
    cases hc : j.configured with
    | true => rw [← in_force hc]; exact produced
    | false => rw [none_in_force hc] at produced; omega
  case unconfigured =>
    intro hc
    obtain ⟨p, -, none⟩ := h.unconfigured hc
    rw [none_in_force hc, p] at produced
    exact ⟨p, by show v = 0; bv_omega, none⟩
  case current =>
    intro current
    show (j.produced - v).toNat < j.capacity
    have current : j.hasCurrent = true := current
    rw [in_force (h.configured_of_current current)] at write produced
    rw [Journal.writeIndex, if_pos current, toNat_succ_sub (by omega)] at write
    exact write

theorem journalSound_completed {j : Journal} (h : JournalSound j) (o : Origin) : JournalSound (j.completed o) := by
  obtain ⟨-, cap_le⟩ := ringCapacities_bounds h.capacity
  cases o with
  | status w => exact h
  | journal n header =>
    cases header with
    | false => exact h
    | true =>
      cases progress : j.inProgress with
      | none => rw [completed_none progress]; exact h
      | some r =>
        rw [completed_header progress]
        split
        · split
          · exact h.of_same rfl rfl rfl rfl rfl nofun h.drops
          · rename_i current
            have current : j.hasCurrent = true := by simp [Journal.hasCurrent, progress, current]
            have below : (j.produced - j.consumed).toNat < j.capacity := h.current current
            refine ⟨h.capacity, h.threshold, ?_, fun hc => ?_, nofun, h.drops⟩
            · show (j.produced + 1 - j.consumed).toNat ≤ j.capacity
              rw [toNat_succ_sub (by omega)]; exact below
            · have configured : j.configured = false := hc
              rw [h.configured_of_current current] at configured; cases configured
        · exact h

theorem journalSound_part {s t : State} (h : JournalSound s.journal) (a : PartAtom s t) : JournalSound t.journal := by
  cases a with
  | faces _ _ same _ => rw [same]; exact h
  | dropped => exact h.of_same rfl rfl rfl rfl rfl id (Nat.min_le_left _ _)
  | journalSetup k ws d _ done =>
    obtain ⟨capacity, threshold, -⟩ := journalSetup_passed done
    exact journalSound_setUp h _ capacity threshold
  | consumed v d _ accepted => exact journalSound_consumed h accepted
  | partReset _ _ same _ => rw [same]; exact journalSound_reset _ (hasCurrent_superseded s.journal _ rfl)
  | response =>
    rcases takeResponse_cases s with same | ⟨_, _, _, _, _, taken⟩
    · rw [same]; exact h
    · rw [taken]; exact h
  | grant => rw [journal_grant]; exact h
  | completion o n d rest _ _ _ => exact journalSound_completed h o
  | record e drops queue d _ ready _ fewer _ =>
    simp only [State.recordReady, Bool.and_eq_true, decide_eq_true_eq] at ready
    obtain ⟨⟨⟨configured, -⟩, below⟩, -⟩ := ready
    refine ⟨h.capacity, h.threshold, h.fill, fun hc => ?_, fun _ => below, fewer.trans h.drops⟩
    rw [show s.journal.configured = false from hc] at configured
    cases configured
  | reset w => exact journalSound_reset none rfl
  | _ => exact h

/-- Settles O53: the fill rises only when a CURRENT record ends, and a CURRENT record always has room for one. -/
theorem journalFillStaysWithinCapacity : Obligations.JournalFillStaysWithinCapacity := fun _ _ sound next =>
  kept_by_parts (P := fun s => JournalSound s.journal) (fun _ _ => journalSound_part) sound next

/-! The regions of the frame store. -/

theorem Apart.symm {a la b lb : Nat} (h : Apart a la b lb) : Apart b lb a la := Or.symm h

/-- A range inside a region is clear of what the region is clear of. -/
theorem Apart.inside {a la b lb c lc : Nat} (h : Apart a la b lb) (from_ : b ≤ c) (upto : c + lc ≤ b + lb) : Apart a la c lc := by
  unfold Apart at *; omega

theorem RegionsApart.of_same {s t : State} (h : RegionsApart s) (window : t.windowBase = s.windowBase)
    (planes : ∀ f, (t.face f).plane = (s.face f).plane) (configured : t.journal.configured = s.journal.configured)
    (base : t.journal.base = s.journal.base) (capacity : t.journal.capacity = s.journal.capacity)
    (progress : t.journal.inProgress = s.journal.inProgress ∨ t.journal.inProgress = none) : RegionsApart t := by
  have same : ∀ r, t.journal.inProgress = some r → s.journal.inProgress = some r := fun r hr => by
    rcases progress with e | e
    · rw [← e]; exact hr
    · rw [e] at hr; cases hr
  constructor
  · intro f g; rw [planes f, planes g]; exact h.planes f g
  · intro f; rw [planes f, window]; exact h.window f
  · intro f; rw [planes f, configured, base, capacity]; exact h.ring f
  · intro f r; rw [planes f]; exact fun hv hr => h.record f r hv (same r hr)
  · rw [configured, base, capacity, window]; exact h.ringWindow
  · rw [configured, base, capacity]; exact h.ringEnd
  · rw [configured, base, capacity]; exact fun r hr => h.current r (same r hr)
  · rw [capacity]; exact h.capacity

/-- Without a valid plane or a CONFIGURED journal, only SUPERSEDED records are left, and nothing is near them. -/
theorem regionsApart_bare {s : State} (planes : ∀ f, (s.face f).plane.valid = false) (unconfigured : s.journal.configured = false)
    (superseded : s.journal.hasCurrent = false) (capacity : 0 < s.journal.capacity) : RegionsApart s := by
  constructor
  · intro f g _ hv; rw [planes f] at hv; cases hv
  · intro f hv; rw [planes f] at hv; cases hv
  · intro f hv; rw [planes f] at hv; cases hv
  · intro f r hv; rw [planes f] at hv; cases hv
  · intro hc; rw [unconfigured] at hc; cases hc
  · intro hc; rw [unconfigured] at hc; cases hc
  · intro r hr hs; simp [Journal.hasCurrent, hr, hs] at superseded
  · exact capacity

theorem regionsApart_geometry {s : State} (h : RegionsApart s) {k : HeadFields} {ws : List Word}
    (done : faceGeometryResult k ws s = .done) : RegionsApart (faceGeometryEffect k ws s) := by
  have clear := faceGeometry_clear done
  simp only [planeClear, Bool.and_eq_true, clearOfWindow_iff, allFaces_all_iff, Bool.or_eq_true, beq_iff_eq,
    clearOfPlane_iff, clearOfRing_iff, clearOfSuperseded_iff] at clear
  obtain ⟨⟨⟨window, planes⟩, ring⟩, superseded⟩ := clear
  have face : ∀ f, ((faceGeometryEffect k ws s).face f).plane = if k.face = f then planeOf ws else (s.face f).plane := fun f => by
    unfold faceGeometryEffect
    rw [face_updFace]
    split <;> rfl
  have other : ∀ g, k.face ≠ g → (s.face g).plane.valid = true →
      Apart (planeOf ws).base.toNat (planeOf ws).bytes (s.face g).plane.base.toNat (s.face g).plane.bytes := fun g ne hv =>
    (planes g).resolve_left (Ne.symm ne) hv
  have written : ∀ r, s.journal.inProgress = some r → Apart (planeOf ws).base.toNat (planeOf ws).bytes r.addr.toNat 16 := fun r hr => by
    cases hs : r.superseded with
    | true => exact superseded r hr hs
    | false =>
      obtain ⟨configured, from_, upto⟩ := h.current r hr hs
      exact (ring configured).inside from_ upto
  constructor
  · intro f g ne
    rw [face f, face g]
    split
    · rename_i hf
      rw [if_neg (by rw [hf]; exact ne)]
      exact fun _ hv => other g (by rw [hf]; exact ne) hv
    · rename_i hf
      split
      · exact fun hv _ => (other f hf hv).symm
      · exact h.planes f g ne
  · intro f
    rw [face f]
    split
    · exact fun _ => window
    · exact h.window f
  · intro f
    rw [face f]
    split
    · exact fun _ hc => ring hc
    · exact h.ring f
  · intro f r
    rw [face f]
    split
    · exact fun _ hr => written r hr
    · exact h.record f r
  · exact h.ringWindow
  · exact h.ringEnd
  · exact h.current
  · exact h.capacity

theorem regionsApart_journalSetup {s t : State} (h : RegionsApart s) {k : HeadFields} {ws : List Word}
    (done : journalSetupResult k ws s = .done) (window : t.windowBase = s.windowBase) (faces : t.faces = s.faces)
    (journal : t.journal = s.journal.setUp (baseField (payloadWord ws 0)) (capacityField ws) (thresholdField ws)) :
    RegionsApart t := by
  obtain ⟨capacity, -, top, clear, planes⟩ := journalSetup_passed done
  have face : ∀ f, t.face f = s.face f := fun f => by unfold State.face; rw [faces]
  have progress : ∀ r, t.journal.inProgress = some r → ∃ q, s.journal.inProgress = some q ∧ r = { q with superseded := true } := by
    intro r hr
    rw [journal] at hr
    obtain ⟨q, hq, rfl⟩ := Option.map_eq_some_iff.1 hr
    exact ⟨q, hq, rfl⟩
  constructor
  · intro f g; rw [face f, face g]; exact h.planes f g
  · intro f; rw [face f, window]; exact h.window f
  · intro f hv _
    rw [face f] at hv ⊢
    rw [journal]
    exact (planes f hv).symm
  · intro f r hv hr
    obtain ⟨q, hq, rfl⟩ := progress r hr
    rw [face f] at hv ⊢
    exact h.record f q hv hq
  · intro _; rw [journal, window]; exact clear
  · intro _; rw [journal]; exact top
  · intro r hr hs
    obtain ⟨q, -, rfl⟩ := progress r hr
    cases hs
  · rw [journal]
    have := (ringCapacities_bounds capacity).1
    show 0 < capacityField ws
    omega

/-- The ring slot of the next record lies in the ring (R153). -/
theorem nextAddr_inside {j : Journal} (capacity : 0 < j.capacity) (top : j.base.toNat + j.capacity * 16 ≤ 0x10000000) :
    j.base.toNat ≤ j.nextAddr.toNat ∧ j.nextAddr.toNat + 16 ≤ j.base.toNat + j.capacity * 16 := by
  have slot := Nat.mod_lt j.produced.toNat capacity
  generalize hk : j.produced.toNat % j.capacity = k at slot
  have fits : k * 16 < 2 ^ 28 := by omega
  unfold Journal.nextAddr
  rw [BitVec.toNat_add, BitVec.toNat_ofNat]
  simp only [Config.recordBytes, hk]
  rw [Nat.mod_eq_of_lt fits, Nat.mod_eq_of_lt (by omega)]
  omega

theorem regionsApart_record {s t : State} (h : RegionsApart s) (ready : s.recordReady = true)
    (window : t.windowBase = s.windowBase) (faces : t.faces = s.faces) {drops : Nat} (journal : t.journal = s.journal.started drops) :
    RegionsApart t := by
  simp only [State.recordReady, Bool.and_eq_true] at ready
  obtain ⟨⟨⟨configured, -⟩, -⟩, -⟩ := ready
  obtain ⟨from_, upto⟩ := nextAddr_inside h.capacity (h.ringEnd configured)
  have face : ∀ f, t.face f = s.face f := fun f => by unfold State.face; rw [faces]
  have addr : ∀ r, t.journal.inProgress = some r → r.addr = s.journal.nextAddr := by
    intro r hr
    rw [journal] at hr
    cases hr
    rfl
  constructor
  · intro f g; rw [face f, face g]; exact h.planes f g
  · intro f; rw [face f, window]; exact h.window f
  · intro f; rw [face f, journal]; exact h.ring f
  · intro f r hv hr
    rw [face f] at hv ⊢
    rw [addr r hr]
    exact (h.ring f hv configured).inside from_ upto
  · rw [journal, window]; exact h.ringWindow
  · rw [journal]; exact h.ringEnd
  · intro r hr _
    rw [addr r hr, journal]
    exact ⟨configured, from_, upto⟩
  · rw [journal]; exact h.capacity

theorem completed_region (j : Journal) (o : Origin) :
    (j.completed o).configured = j.configured ∧ (j.completed o).base = j.base ∧ (j.completed o).capacity = j.capacity ∧
      ((j.completed o).inProgress = j.inProgress ∨ (j.completed o).inProgress = none) := by
  unfold Journal.completed
  split
  · split
    · split
      · exact ⟨rfl, rfl, rfl, .inr rfl⟩
      · exact ⟨rfl, rfl, rfl, .inr rfl⟩
    · exact ⟨rfl, rfl, rfl, .inl rfl⟩
  · exact ⟨rfl, rfl, rfl, .inl rfl⟩

theorem regionsApart_part {s t : State} (h : RegionsApart s) (a : PartAtom s t) : RegionsApart t := by
  cases a with
  | faces _ _ same planes => exact h.of_same (by rw [same]) planes (by rw [same]) (by rw [same]) (by rw [same]) (by rw [same]; exact .inl rfl)
  | geometry k ws _ done => exact regionsApart_geometry h done
  | journalSetup k ws d _ done => exact regionsApart_journalSetup h done rfl rfl rfl
  | partReset _ _ same planes =>
    refine regionsApart_bare planes (by rw [same]; rfl) ?_ (by rw [same]; exact Nat.zero_lt_succ 15)
    exact hasCurrent_superseded s.journal _ (by rw [same])
  | response =>
    rcases takeResponse_cases s with same | ⟨_, _, _, _, _, taken⟩
    · rw [same]; exact h
    · rw [taken]; exact h.of_same rfl (fun _ => rfl) rfl rfl rfl (.inl rfl)
  | grant =>
    rcases grantBeat_cases s with same | ⟨_, _, _, _, _, _, _, _, granted⟩ | ⟨_, _, _, _, _, granted⟩
    · rw [same]; exact h
    · rw [granted]; exact h.of_same rfl (fun _ => rfl) rfl rfl rfl (.inl rfl)
    · rw [granted]; exact h.of_same rfl (fun _ => rfl) rfl rfl rfl (.inl rfl)
  | completion o n d rest _ _ _ =>
    obtain ⟨configured, base, capacity, progress⟩ := completed_region s.journal o
    exact h.of_same rfl (fun _ => rfl) configured base capacity progress
  | record e drops queue d _ ready _ _ _ => exact regionsApart_record h ready rfl rfl rfl
  | reset w =>
    refine regionsApart_bare (fun f => ?_) rfl rfl (Nat.zero_lt_succ 15)
    show (pick (Vector.replicate 4 resetFace) f).plane.valid = false
    rw [pick_replicate]; rfl
  | _ => exact h.of_same rfl (fun _ => rfl) rfl rfl rfl (.inl rfl)

/-- Settles O54: planes come from FACE_GEOMETRY and the ring from JOURNAL_SETUP, each tested against the other regions,
and a record lies in the ring it was begun in. -/
theorem regionsStayApart : Obligations.RegionsStayApart := fun _ _ apart next =>
  kept_by_parts (fun _ _ => regionsApart_part) apart next

end Sys2Proof.Machine
end

/-! PROOFS. The planes and zone maps of the faces (R1, R5, R7, R8). -/

section
namespace Sys2Proof.Machine

/-- An invariant of every face that each change of a face keeps is one that every step keeps. -/
theorem faces_kept_by_steps {P : Face → Prop} (kept : ∀ {d : Prop} x y, P x → FaceAtom d x y → P y) {s t : State}
    (hs : ∀ f, P (s.face f)) (h : step s = .next t) : ∀ f, P (t.face f) :=
  kept_by_steps (P := fun s => ∀ f, P (s.face f)) (fun _ _ hu a f => kept _ _ (hu f) (atom_face a f)) hs h

/-! What the tests of the commands say of a face. -/

theorem faceGeometry_passed {h : HeadFields} {ws : List Word} {s : State} (done : faceGeometryResult h ws s = .done) :
    (s.face h.face).sup.state = .off ∧ (1 ≤ columnBandField ws ∧ columnBandField ws ≤ 16) ∧
      (1 ≤ rowBandField ws ∧ rowBandField ws ≤ 8) ∧ ws.length = derivedCount ws ∧
      planeInRange (planeOf ws) (columnBandField ws) (rowBandField ws) (s.face h.face).link.setup.sensorSlot = true ∧
      BoundsInOrder (planeOf ws).colBounds (planeOf ws).width ∧ BoundsInOrder (planeOf ws).rowBounds (planeOf ws).height := by
  unfold faceGeometryResult at done
  rw [firstFailure_done_iff _ (by simp)] at done
  simp only [List.mem_cons, List.not_mem_nil, or_false, forall_eq_or_imp, forall_eq, face_isOff_iff, Bool.and_eq_true, inRange,
    decide_eq_true_eq, beq_iff_eq, boundsOrdered_iff] at done
  obtain ⟨off, ⟨columns, rows⟩, count, range, ⟨colOrder, rowOrder⟩, -⟩ := done
  exact ⟨off, columns, rows, count, range, colOrder, rowOrder⟩

theorem faceZonemap_passed {h : HeadFields} {ws : List Word} {s : State} (done : faceZonemapResult h ws s = .done) :
    (s.face h.face).sup.state = .off ∧ (s.face h.face).plane.valid = true ∧
      ws.length = ((s.face h.face).plane.zoneCount + 3) / 4 ∧
      (∀ n ∈ zoneSlots (s.face h.face) ws, n ≤ 63) ∧ (zoneSlots (s.face h.face) ws).Nodup ∧
      ∀ n ∈ zoneSlots (s.face h.face) ws, (s.face h.face).link.setup.sensorSlot.map Fin.val ≠ some n := by
  unfold faceZonemapResult at done
  rw [firstFailure_done_iff _ (by simp)] at done
  simp only [List.mem_cons, List.not_mem_nil, or_false, forall_eq_or_imp, forall_eq, face_isOff_iff, beq_iff_eq, zoneSlotsValid,
    Bool.and_eq_true, List.all_eq_true, decide_eq_true_eq, Bool.not_eq_true', List.any_eq_false] at done
  obtain ⟨off, valid, count, ⟨⟨small, nodup⟩, sensor⟩⟩ := done
  exact ⟨off, valid, count, small, nodup, sensor⟩

theorem linkSetup_passed {h : HeadFields} {ws : List Word} {s : State} (done : linkSetupResult h ws s = .done) :
    (s.face h.face).sup.state = .off ∧ (s.face h.face).link.state ≠ .draining ∧
      (inRange 1 64 (linkSetupOf ws).slotCount && inRange 1 255 (linkSetupOf ws).lostCount &&
        inRange 1 15 (linkSetupOf ws).confirmCount && inRange 1 15 (linkSetupOf ws).clearCount &&
        inRange 2 15 (linkSetupOf ws).stuckLimit) = true ∧
      (∀ n, (linkSetupOf ws).sensorSlot = some n → (linkSetupOf ws).enables n = true ∧ (s.face h.face).slotUnmapped n = true) ∧
      ∀ th, (linkSetupOf ws).thresholds = some th → th.warm < th.hot ∧ th.hot < th.critical := by
  unfold linkSetupResult at done
  rw [firstFailure_done_iff _ (by simp)] at done
  simp only [List.mem_cons, List.not_mem_nil, or_false, forall_eq_or_imp, forall_eq, face_isOff_iff, notDraining_iff] at done
  obtain ⟨off, link, -, ranges, sensor, unmapped, thresholds⟩ := done
  refine ⟨off, link, ranges, fun n hn => ?_, fun th ht => ?_⟩
  · rw [hn] at sensor unmapped; exact ⟨sensor, unmapped⟩
  · rw [ht] at thresholds; simpa using thresholds

theorem slotUnmapped_iff (x : Face) (n : Fin 64) :
    x.slotUnmapped n = true ↔ ∀ z : Fin 64, z.val < x.plane.zoneCount → pick x.zoneMap z ≠ some n := by
  simp only [Face.slotUnmapped, List.all_eq_true, mem_allSlots, forall_const, Bool.or_eq_true, decide_eq_true_eq, Bool.not_eq_true',
    beq_eq_false_iff_ne]
  exact forall_congr' fun z => by rw [← Nat.not_lt]; exact imp_iff_not_or.symm

/-! The default zone map (R7). -/

/-- The slot the default zone map gives a zone in use: the zone's own, or the next past a sensor slot in use. -/
theorem pick_defaultMap {zones : Nat} {sensor : Option (Fin 64)} (room : sensor.isSome = true → zones < 64) {z : Fin 64}
    (inUse : z.val < zones) :
    ∃ n, pick (defaultMap zones sensor) z = some n ∧ (sensor = none → n = z) ∧
      ∀ k, sensor = some k → n.val = if k.val < zones ∧ k ≤ z then z.val + 1 else z.val := by
  simp only [defaultMap, pick_ofFn, if_pos inUse]
  cases sensor with
  | none => exact ⟨z, rfl, fun _ => rfl, nofun⟩
  | some k =>
    have := room rfl
    by_cases past : k.val < zones ∧ k ≤ z
    · refine ⟨Fin.ofNat 64 (z.val + 1), by simp [past], nofun, fun k' hk => ?_⟩
      cases hk
      rw [if_pos past]
      exact Nat.mod_eq_of_lt (by omega)
    · refine ⟨z, ?_, nofun, fun k' hk => ?_⟩
      · simp only [Bool.and_eq_true, decide_eq_true_eq, if_neg past]
      · cases hk; rw [if_neg past]

theorem pick_defaultMap_unused {zones : Nat} {sensor : Option (Fin 64)} {z : Fin 64} (unused : zones ≤ z.val) :
    pick (defaultMap zones sensor) z = none := by
  simp only [defaultMap, pick_ofFn, if_neg (Nat.not_lt.2 unused)]

/-! The plane a payload carries (R169). -/

theorem columnBounds_length (ws : List Word) (n : Nat) : (columnBounds ws n).length = n - 1 := by
  simp [columnBounds]

theorem rowBounds_length (ws : List Word) (n m : Nat) : (rowBounds ws n m).length = m - 1 := by
  simp [rowBounds]

/-- The band counts of a plane whose payload is of the derived count are those of its fields. -/
theorem planeOf_bands {ws : List Word} (count : ws.length = derivedCount ws) (columns : 1 ≤ columnBandField ws)
    (rows : 1 ≤ rowBandField ws) :
    (planeOf ws).columnBands = columnBandField ws ∧ (planeOf ws).rowBands = rowBandField ws ∧
      (planeOf ws).zoneCount = columnBandField ws * rowBandField ws := by
  obtain ⟨cols, rws⟩ := planeOf_bounds ws count
  have c : (planeOf ws).columnBands = columnBandField ws := by
    rw [PlaneRecord.columnBands, cols, columnBounds_length]; omega
  have r : (planeOf ws).rowBands = rowBandField ws := by
    rw [PlaneRecord.rowBands, rws, rowBounds_length]; omega
  exact ⟨c, r, by rw [PlaneRecord.zoneCount, c, r]; rfl⟩

theorem planeInRange_iff (p : PlaneRecord) (nc nr : Nat) (sensor : Option (Fin 64)) :
    planeInRange p nc nr sensor = true ↔
      (6 ≤ p.strideExp ∧ p.strideExp ≤ 11) ∧ (1 ≤ p.width ∧ p.width ≤ 1024) ∧ (1 ≤ p.height ∧ p.height ≤ 1024) ∧
        p.width ≤ p.stride ∧ nc * nr ≤ 64 ∧ (sensor.isSome = true → nc * nr ≠ 64) ∧ p.base.toNat + p.bytes ≤ Config.addressSpace := by
  simp only [planeInRange, inRange, Bool.and_eq_true, decide_eq_true_eq, Bool.not_eq_true', Bool.and_eq_false_iff, beq_eq_false_iff_ne,
    and_assoc]
  cases sensor <;> simp

/-! Plane records and zone maps stay sound. -/

theorem PlaneSound.of_same {x y : Face} (h : PlaneSound x) (plane : y.plane = x.plane) (map : y.zoneMap = x.zoneMap)
    (setup : y.link.setup.sensorSlot = x.link.setup.sensorSlot) : PlaneSound y := by
  constructor
  all_goals simp only [plane, map, setup]
  exacts [h.strideExp, h.width, h.height, h.base, h.columns, h.rows, h.zones, h.mapped, h.distinct]

theorem planeSound_invalid {x : Face} (invalid : x.plane.valid = false) : PlaneSound x := by
  have zones : x.plane.zoneCount = 0 := by simp [PlaneRecord.zoneCount, invalid]
  constructor <;> simp [invalid, zones]

theorem boundsInOrder_below {bounds : List Nat} {extent : Nat} (h : BoundsInOrder bounds extent) (extended : 1 ≤ extent) :
    bounds.Pairwise (· < ·) ∧ ∀ b ∈ bounds, 1 ≤ b ∧ b < extent := by
  obtain ⟨order, range⟩ := h
  exact ⟨order, fun b hb => by have := range b hb; omega⟩

theorem baseField_aligned (w : Word) : (baseField w).toNat % 4 = 0 := by
  rw [baseField_toNat]; omega

theorem planeSound_geometry {h : HeadFields} {ws : List Word} {s : State} (done : faceGeometryResult h ws s = .done) :
    PlaneSound (Command.faceGeometry.faceAfter h ws (s.face h.face)) := by
  obtain ⟨-, ⟨c1, c16⟩, ⟨r1, r8⟩, count, range, colOrder, rowOrder⟩ := faceGeometry_passed done
  obtain ⟨columns, rows, zones⟩ := planeOf_bands count c1 r1
  obtain ⟨stride, width, height, within, few, spare, top⟩ := (planeInRange_iff _ _ _ _).1 range
  have room : (s.face h.face).link.setup.sensorSlot.isSome = true → (planeOf ws).zoneCount < 64 := fun hs => by
    have := spare hs; omega
  have served : ∀ z : Fin 64, z.val < (planeOf ws).zoneCount → _ := fun z hz => pick_defaultMap room hz
  refine ⟨fun _ => stride, fun _ => ⟨width.1, width.2, within⟩, fun _ => height, fun _ => ⟨baseField_aligned _, top⟩,
    fun _ => ⟨columns ▸ c16, boundsInOrder_below colOrder width.1⟩, fun _ => ⟨rows ▸ r8, boundsInOrder_below rowOrder height.1⟩,
    ?zones, fun z hz => ?mapped, fun z y hz hy same => ?distinct⟩
  case zones => exact zones ▸ few
  case mapped =>
    obtain ⟨n, picked, -, next⟩ := served z hz
    refine ⟨n, picked, fun sensor => ?_⟩
    have := next n sensor
    have zone : z.val < (planeOf ws).zoneCount := hz
    have le : n ≤ z ↔ n.val ≤ z.val := Iff.rfl
    split at this <;> omega
  case distinct =>
    obtain ⟨n, pz, plain, nz⟩ := served z hz
    obtain ⟨m, py, plain', my⟩ := served y hy
    have e : some n = some m := pz.symm.trans (Eq.trans same py)
    cases e
    cases sensor : (s.face h.face).link.setup.sensorSlot with
    | none => rw [← plain sensor, ← plain' sensor]
    | some k =>
      have a := nz k sensor
      have b := my k sensor
      have kz : k ≤ z ↔ k.val ≤ z.val := Iff.rfl
      have ky : k ≤ y ↔ k.val ≤ y.val := Iff.rfl
      apply Fin.ext
      split at a <;> split at b <;> omega

theorem zoneSlots_length {x : Face} {ws : List Word} (count : ws.length = (x.plane.zoneCount + 3) / 4) :
    (zoneSlots x ws).length = x.plane.zoneCount := by
  rw [zoneSlots_eq x ws count]; simp

/-- The entry of a zone in use after FACE_ZONEMAP: the slot its payload byte gives. -/
theorem pick_mapWithSlots {m : Vector (Option (Fin 64)) 64} {slots : List Nat} (small : ∀ n ∈ slots, n ≤ 63) {z : Fin 64}
    (inUse : z.val < slots.length) : ∃ n, pick (mapWithSlots m slots) z = some n ∧ n.val = slots[z.val] := by
  refine ⟨Fin.ofNat 64 slots[z.val], ?_, ?_⟩
  · simp only [mapWithSlots, pick_ofFn, List.getElem?_eq_getElem inUse]
  · have := small _ (List.getElem_mem inUse)
    exact Nat.mod_eq_of_lt (by omega)

theorem pick_mapWithSlots_unused {m : Vector (Option (Fin 64)) 64} {slots : List Nat} {z : Fin 64} (unused : slots.length ≤ z.val) :
    pick (mapWithSlots m slots) z = pick m z := by
  simp only [mapWithSlots, pick_ofFn, List.getElem?_eq_none unused]

theorem planeSound_mapWithSlots {x : Face} {slots : List Nat} (sound : PlaneSound x) (length : slots.length = x.plane.zoneCount)
    (small : ∀ n ∈ slots, n ≤ 63) (nodup : slots.Nodup) (sensor : ∀ n ∈ slots, x.link.setup.sensorSlot.map Fin.val ≠ some n) :
    PlaneSound { x with zoneMap := mapWithSlots x.zoneMap slots } := by
  have served : ∀ z : Fin 64, z.val < x.plane.zoneCount →
      ∃ n, pick (mapWithSlots x.zoneMap slots) z = some n ∧ slots[z.val]? = some n.val := fun z hz => by
    obtain ⟨n, picked, slot⟩ := pick_mapWithSlots (m := x.zoneMap) small (length ▸ hz)
    exact ⟨n, picked, by rw [slot, List.getElem?_eq_getElem (length ▸ hz)]⟩
  refine ⟨sound.strideExp, sound.width, sound.height, sound.base, sound.columns, sound.rows, sound.zones, fun z hz => ?mapped,
    fun z y hz hy same => ?distinct⟩
  case mapped =>
    obtain ⟨n, picked, slot⟩ := served z hz
    refine ⟨n, picked, fun clash => sensor n.val (List.mem_of_getElem? slot) ?_⟩
    rw [show x.link.setup.sensorSlot = some n from clash]; rfl
  case distinct =>
    obtain ⟨n, pz, nz⟩ := served z hz
    obtain ⟨m, py, my⟩ := served y hy
    have e : some n = some m := pz.symm.trans (Eq.trans same py)
    cases e
    exact Fin.ext ((List.getElem?_inj (length ▸ hz) nodup).1 (nz.trans my.symm))

theorem planeSound_zonemap {h : HeadFields} {ws : List Word} {s : State} (sound : PlaneSound (s.face h.face))
    (done : faceZonemapResult h ws s = .done) : PlaneSound (Command.faceZonemap.faceAfter h ws (s.face h.face)) := by
  obtain ⟨-, -, count, small, nodup, sensor⟩ := faceZonemap_passed done
  exact planeSound_mapWithSlots sound (zoneSlots_length count) small nodup sensor

theorem planeSound_linkSetup {h : HeadFields} {ws : List Word} {s : State} (sound : PlaneSound (s.face h.face))
    (done : linkSetupResult h ws s = .done) : PlaneSound (Command.linkSetup.faceAfter h ws (s.face h.face)) := by
  obtain ⟨-, -, -, sensor, -⟩ := linkSetup_passed done
  refine { sound with mapped := fun z hz => ?_ }
  obtain ⟨n, picked, -⟩ := sound.mapped z hz
  refine ⟨n, picked, fun clash => ?_⟩
  obtain ⟨-, unmapped⟩ := sensor n clash
  exact (slotUnmapped_iff _ n).1 unmapped z hz picked

theorem offed_same (x : Face) : x.offed.zoneMap = x.zoneMap ∧ x.offed.link.setup = x.link.setup := by
  unfold Face.offed
  split
  · exact ⟨rfl, rfl⟩
  · dsimp only
    split
    · split <;> exact ⟨rfl, rfl⟩
    · exact ⟨rfl, rfl⟩

/-- A command that names a face acts on that face. -/
theorem face_of_mem {c : Command} {h : HeadFields} {f : Fin 4} (own : f ∈ c.faces h) (named : c ≠ .partReset) : f = h.face := by
  cases c
  case partReset => exact absurd rfl named
  all_goals simp only [Command.faces, List.mem_singleton, List.not_mem_nil] at own
  all_goals exact own

theorem planeSound_command {c : Command} {h : HeadFields} {ws : List Word} {s : State} {f : Fin 4}
    (sound : PlaneSound (s.face f)) (done : c.result h ws s = .done) (own : f ∈ c.faces h) :
    PlaneSound (c.faceAfter h ws (s.face f)) := by
  cases c with
  | faceGeometry => cases face_of_mem own nofun; exact planeSound_geometry done
  | faceZonemap => cases face_of_mem own nofun; exact planeSound_zonemap sound done
  | linkSetup => cases face_of_mem own nofun; exact planeSound_linkSetup sound done
  | faceStop =>
    obtain ⟨map, setup⟩ := offed_same (s.face f)
    exact sound.of_same (offed_plane _) map (by rw [show (Command.faceStop.faceAfter h ws (s.face f)).link.setup = _ from setup])
  | partReset => exact planeSound_invalid rfl
  | moduleClear =>
    unfold Command.faceAfter
    dsimp only
    split <;> exact sound.of_same rfl rfl rfl
  | _ => exact sound.of_same rfl rfl rfl

theorem planeSound_kept {d : Prop} (x y : Face) (sound : PlaneSound x) (a : FaceAtom d x y) : PlaneSound y := by
  cases a with
  | reset => exact planeSound_invalid rfl
  | command c h ws s f done _ own => exact planeSound_command sound done own
  | _ => exact sound.of_same rfl rfl rfl

/-- Settles O55: the plane, the map and the sensor slot of a face change only by the commands that test them. -/
theorem zoneMapsStayDistinct : Obligations.ZoneMapsStayDistinct := fun _ _ sound next =>
  faces_kept_by_steps planeSound_kept sound next

end Sys2Proof.Machine
end

/-! PROOFS. The state of a face as a whole: face state, link state, applied set, timers, records and mailboxes (R37, R39,
R74, R77, R93, R103, R105, R112, R114). -/

section
namespace Sys2Proof.Machine

/-! Module records (R112, R115 to R125, R129). -/

theorem satSucc_le (m n : Nat) : satSucc m n ≤ m := Nat.min_le_left _ _

theorem linkField_lt (w : LinkWord) (lo len : Nat) : linkField w lo len < 2 ^ len := Nat.mod_lt _ (Nat.two_pow_pos _)

/-- What a report of a status word carries (R108). -/
theorem moduleReportOf_bounds (len : WordLength) (w : LinkWord) :
    (moduleReportOf len w).pixelFaults ≤ 127 ∧
      ∀ t, (moduleReportOf len w).measuredTemp = some t → -40 ≤ t ∧ t ≤ 215 := by
  refine ⟨Nat.le_of_lt_succ (linkField_lt w 1 7), fun t ht => ?_⟩
  cases len with
  | w16 => cases ht
  | w24 =>
    have := linkField_lt w 15 8
    cases ht
    omega

theorem stuckAfter_le (r : ModuleRecord) (q : BitVec 2) : stuckAfter r q ≤ 15 := by
  unfold stuckAfter
  split
  · exact satSucc_le _ _
  · decide

theorem recordSound_reported {r : ModuleRecord} (h : RecordSound r) (live : r.state ≠ .disabled) {th : Option Thresholds}
    {w : ModuleReport} (pixels : w.pixelFaults ≤ 127) (temp : ∀ t, w.measuredTemp = some t → -40 ≤ t ∧ t ≤ 215) :
    RecordSound (r.reported th w) where
  silent := Nat.zero_le _
  confirm := h.confirm
  clean := h.clean
  stuck := stuckAfter_le _ _
  pixels := pixels
  disabled off := absurd off live
  runs := h.runs
  oneRun := h.oneRun
  measured t ht := by
    have ht : w.measuredTemp.or r.measuredTemp = some t := ht
    cases hw : w.measuredTemp with
    | none => rw [hw] at ht; exact h.measured t ht
    | some u => rw [hw] at ht; cases ht; exact temp _ hw

theorem recordSound_suspected {r : ModuleRecord} (h : RecordSound r) (faulty : Bool) : RecordSound (r.suspected faulty) where
  silent := h.silent
  confirm := by cases faulty <;> simp [ModuleRecord.suspected]
  clean := by cases faulty <;> simp [ModuleRecord.suspected]
  stuck := h.stuck
  pixels := h.pixels
  disabled := nofun
  runs st := by rcases st with st | st | st <;> cases st
  oneRun := by cases faulty <;> simp [ModuleRecord.suspected]
  measured := h.measured

/-- A record keeps its bounds when its state and runs become others that agree. -/
theorem RecordSound.withRuns {r : ModuleRecord} (h : RecordSound r) {st : RecordState} {confirm clean : Nat}
    (live : st ≠ .disabled) (confirm_le : confirm ≤ 15) (clean_le : clean ≤ 15)
    (runs : st = .unseen ∨ st = .ok ∨ st = .lost → confirm = 0 ∧ clean = 0) (oneRun : confirm = 0 ∨ clean = 0) :
    RecordSound { r with state := st, confirmRun := confirm, cleanRun := clean } where
  silent := h.silent
  confirm := confirm_le
  clean := clean_le
  stuck := h.stuck
  pixels := h.pixels
  disabled off := absurd off live
  runs := runs
  oneRun := oneRun
  measured := h.measured

theorem recordSound_afterWord {r : ModuleRecord} (h : RecordSound r) (setup : LinkSetup) (faulty : Bool) :
    RecordSound (r.afterWord setup faulty) := by
  cases st : r.state with
  | disabled => simpa only [ModuleRecord.afterWord, st] using h
  | faulted => simpa only [ModuleRecord.afterWord, st] using h
  | lost => simpa only [ModuleRecord.afterWord, st] using recordSound_suspected h faulty
  | unseen =>
    simp only [ModuleRecord.afterWord, st]
    split
    · exact recordSound_suspected h true
    · exact h.withRuns nofun h.confirm h.clean (fun _ => h.runs (.inl st)) h.oneRun
  | ok =>
    simp only [ModuleRecord.afterWord, st]
    split
    · exact recordSound_suspected h true
    · exact h
  | suspect =>
    simp only [ModuleRecord.afterWord, st]
    split
    · exact h.withRuns (by split <;> decide) (satSucc_le _ _) (Nat.zero_le _)
        (fun bad => by split at bad <;> rcases bad with bad | bad | bad <;> cases bad) (.inr rfl)
    · split
      · exact h.withRuns nofun (Nat.zero_le _) (Nat.zero_le _) (fun _ => ⟨rfl, rfl⟩) (.inl rfl)
      · exact h.withRuns nofun (Nat.zero_le _) (satSucc_le _ _)
          (fun bad => by rcases bad with bad | bad | bad <;> cases bad) (.inl rfl)

theorem recordSound_afterSilence {r : ModuleRecord} (h : RecordSound r) (setup : LinkSetup) :
    RecordSound (r.afterSilence setup) := by
  have lost : RecordSound
      (if setup.lostCount ≤ r.silentRun then { r with state := RecordState.lost, confirmRun := 0, cleanRun := 0 } else r) := by
    split
    · exact h.withRuns nofun (Nat.zero_le _) (Nat.zero_le _) (fun _ => ⟨rfl, rfl⟩) (.inl rfl)
    · exact h
  cases st : r.state <;> simp only [ModuleRecord.afterSilence, st]
  exacts [h, lost, lost, lost, h, h]

theorem afterWord_live {r : ModuleRecord} (live : r.state ≠ .disabled) (setup : LinkSetup) (faulty : Bool) :
    (r.afterWord setup faulty).state ≠ .disabled := by
  cases st : r.state with
  | disabled => exact absurd st live
  | suspect =>
    simp only [ModuleRecord.afterWord, st]
    split
    · dsimp only; split <;> decide
    · split <;> nofun
  | faulted => simp [ModuleRecord.afterWord, st]
  | _ => cases faulty <;> simp [ModuleRecord.afterWord, st, ModuleRecord.suspected]

theorem afterSilence_live {r : ModuleRecord} (live : r.state ≠ .disabled) (setup : LinkSetup) :
    (r.afterSilence setup).state ≠ .disabled := by
  cases st : r.state with
  | disabled => exact absurd st live
  | faulted => simp [ModuleRecord.afterSilence, st]
  | lost => simp [ModuleRecord.afterSilence, st]
  | _ =>
    simp only [ModuleRecord.afterSilence, st]
    split
    · nofun
    · rw [st]; nofun

theorem recordSound_taken {r : ModuleRecord} (h : RecordSound r) (live : r.state ≠ .disabled) (setup : LinkSetup) (len : WordLength)
    (c : ReceivedClass) (w : LinkWord) : RecordSound (r.taken setup (moduleOutcomeOf len c w)).1 := by
  have silent : RecordSound { r with silentRun := satSucc 255 r.silentRun } :=
    ⟨satSucc_le _ _, h.confirm, h.clean, h.stuck, h.pixels, fun off => absurd off live, h.runs, h.oneRun, h.measured⟩
  obtain ⟨pixels, temp⟩ := moduleReportOf_bounds len w
  cases c with
  | silent => exact recordSound_afterSilence silent setup
  | garbled => exact recordSound_afterSilence silent setup
  | valid => exact recordSound_afterWord (recordSound_reported h live pixels temp) setup _

theorem taken_live {r : ModuleRecord} (live : r.state ≠ .disabled) (setup : LinkSetup) (o : ModuleOutcome) :
    (r.taken setup o).1.state ≠ .disabled := by
  cases o with
  | silence => exact afterSilence_live (r := { r with silentRun := satSucc 255 r.silentRun }) live setup
  | valid w => exact afterWord_live (r := r.reported setup.thresholds w) live setup _

theorem recordSound_reset : RecordSound resetRecord := by
  constructor <;> simp [resetRecord]

theorem recordSound_unseen : RecordSound unseenRecord := by
  constructor <;> simp [unseenRecord, resetRecord]

theorem recordSound_cleared {r : ModuleRecord} (h : RecordSound r) : RecordSound r.cleared := by
  unfold ModuleRecord.cleared
  split
  · exact ⟨Nat.zero_le _, Nat.zero_le _, Nat.zero_le _, Nat.zero_le _, h.pixels, nofun, fun _ => ⟨rfl, rfl⟩, .inl rfl, h.measured⟩
  · exact h

theorem cleared_disabled_iff (r : ModuleRecord) : r.cleared.state = .disabled ↔ r.state = .disabled := by
  unfold ModuleRecord.cleared
  split
  · rename_i st; rw [st]; exact iff_of_false nofun nofun
  · exact Iff.rfl

/-! Link setups (R91, R176). -/

theorem setupSound_reset : SetupSound resetLinkSetup := by
  constructor <;> simp [resetLinkSetup]

theorem setupSound_linkSetupOf {h : HeadFields} {ws : List Word} {s : State} (done : linkSetupResult h ws s = .done) :
    SetupSound (linkSetupOf ws) := by
  obtain ⟨-, -, ranges, sensor, ordered⟩ := linkSetup_passed done
  simp only [inRange, Bool.and_eq_true, decide_eq_true_eq] at ranges
  obtain ⟨⟨⟨⟨slots, lost⟩, confirm⟩, clear⟩, stuck⟩ := ranges
  have long : (linkSetupOf ws).thresholds = match wordLengthOf (payloadWord ws 2) with
      | .w24 => some (thresholdsOf (payloadWord ws 4))
      | .w16 => none := rfl
  have length : (linkSetupOf ws).wordLength = wordLengthOf (payloadWord ws 2) := rfl
  refine ⟨slots, lost, confirm, clear, stuck, fun n hn => (sensor n hn).1, ?_, fun th ht => ?_⟩
  · rw [long, length]
    cases wordLengthOf (payloadWord ws 2) <;> simp
  · obtain ⟨warm, hot⟩ := ordered th ht
    refine ⟨warm, hot, ?_⟩
    rw [long] at ht
    split at ht
    · cases ht
      exact Nat.le_of_lt_succ (field_lt _ 24 4)
    · cases ht

/-! Supervisors (R77). -/

theorem stallTimeoutOf_range (ws : List Word) : 1 ≤ stallTimeoutOf ws ∧ stallTimeoutOf ws ≤ 255 := by
  have := field_byte_le (payloadWord ws 2) 24
  rw [stallTimeoutOf, clamp]; omega

theorem timed_iff (st : FaceState) : st.timed = true ↔ st = .starting ∨ st = .live := by
  cases st <;> decide

/-- A tick leaves a face that is OFF or STALLED, expires a timer at its last tick, and counts any other down (R77). -/
theorem ticked_cases (p : Supervisor) :
    (p.ticked = p ∧ (p.state = .off ∨ p.state = .stalled)) ∨
      ((p.state = .starting ∨ p.state = .live) ∧
        ((p.stallTimer ≤ 1 ∧ p.ticked = { p with state := .stalled, stallTimer := 0, stallCount := satSucc Config.max16 p.stallCount }) ∨
          (1 < p.stallTimer ∧ p.ticked = { p with stallTimer := p.stallTimer - 1 }))) := by
  unfold Supervisor.ticked
  cases st : p.state with
  | off => exact .inl ⟨rfl, .inl rfl⟩
  | stalled => exact .inl ⟨rfl, .inr rfl⟩
  | _ =>
    refine .inr ⟨by simp, ?_⟩
    by_cases last : p.stallTimer ≤ 1
    · exact .inl ⟨last, by simp [FaceState.timed, last]⟩
    · exact .inr ⟨by omega, by simp [FaceState.timed, last]⟩

/-! Faces. -/

/-- The part of a face that its soundness reads stays the same. -/
structure SameShape (x y : Face) : Prop where
  plane : y.plane = x.plane
  map : y.zoneMap = x.zoneMap
  applied : y.applied = x.applied
  mailboxes : y.mailboxes = x.mailboxes
  records : y.records = x.records
  setup : y.link.setup = x.link.setup
  setUp : y.link.setUp = x.link.setUp
  link : y.link.state = x.link.state
  frame : y.link.frameSetup = x.link.frameSetup

theorem zonesServed_of {x y : Face} (plane : y.plane = x.plane) (map : y.zoneMap = x.zoneMap) (setup : y.link.setup = x.link.setup) :
    y.zonesServed = x.zonesServed := by
  unfold Face.zonesServed; rw [plane, map, setup]

/-- A face of the same shape, whose supervisor agrees with it. -/
theorem FaceSound.of_shape {x y : Face} (h : FaceSound x) (same : SameShape x y)
    (off : y.sup.state = .off ↔ x.sup.state = .off) (starting : y.sup.state = .starting → x.sup.state = .starting)
    (timeout : 1 ≤ y.sup.stallTimeout ∧ y.sup.stallTimeout ≤ 255)
    (stopped : y.sup.state = .off ∨ y.sup.state = .stalled → y.sup.stallTimer = 0)
    (counting : y.sup.state = .starting ∨ y.sup.state = .live → 1 ≤ y.sup.stallTimer ∧ y.sup.stallTimer ≤ 255) : FaceSound y where
  running := by rw [same.link, h.running]; exact (not_congr off).symm
  idleFrame := by rw [same.link, same.frame]; exact h.idleFrame
  drainFrame := by rw [same.link, same.frame]; exact h.drainFrame
  dark st := by rw [same.applied]; exact h.dark (st.imp off.1 starting)
  timeout := timeout
  stopped := stopped
  counting := counting
  configured st := by
    rw [same.plane, same.setUp, zonesServed_of same.plane same.map same.setup]
    exact h.configured (mt off.2 st)
  moduleSlots st := by rw [same.records, same.setup]; exact h.moduleSlots (mt off.2 st)
  idleRecords := by rw [same.link, same.records]; exact h.idleRecords
  idleMailboxes := by rw [same.link, same.mailboxes]; exact h.idleMailboxes
  requests := by rw [same.mailboxes]; exact h.requests
  setup := by rw [same.setup]; exact h.setup
  records := by rw [same.records]; exact h.records

/-- A face of the same shape and supervisor. -/
theorem FaceSound.of_same {x y : Face} (h : FaceSound x) (same : SameShape x y) (sup : y.sup = x.sup) : FaceSound y :=
  h.of_shape same (by rw [sup]) (by rw [sup]; exact id) (by rw [sup]; exact h.timeout) (by rw [sup]; exact h.stopped)
    (by rw [sup]; exact h.counting)

theorem faceSound_reset : FaceSound resetFace where
  running := iff_of_false nofun fun h => h rfl
  idleFrame _ := rfl
  drainFrame := nofun
  dark _ := rfl
  timeout := show 1 ≤ 50 ∧ 50 ≤ 255 by decide
  stopped _ := rfl
  counting h := by rcases h with h | h <;> cases h
  configured h := absurd rfl h
  moduleSlots h := absurd rfl h
  idleRecords _ := rfl
  idleMailboxes _ := rfl
  requests n o h := by rw [show pick resetFace.mailboxes n = none from pick_replicate _ n] at h; cases h
  setup := setupSound_reset
  records n := by rw [show pick resetFace.records n = resetRecord from pick_replicate _ n]; exact recordSound_reset

theorem faceSound_ticked {x : Face} (h : FaceSound x) : FaceSound { x with sup := x.sup.ticked } := by
  have shape : SameShape x { x with sup := x.sup.ticked } := ⟨rfl, rfl, rfl, rfl, rfl, rfl, rfl, rfl, rfl⟩
  rcases ticked_cases x.sup with ⟨same, -⟩ | ⟨timed, ⟨-, expired⟩ | ⟨more, counted⟩⟩
  · exact h.of_same shape same
  · refine h.of_shape shape ?_ ?_ ?_ ?_ ?_ <;> dsimp only <;> rw [expired]
    · exact iff_of_false nofun fun off => by rcases timed with st | st <;> rw [off] at st <;> cases st
    · exact nofun
    · exact h.timeout
    · exact fun _ => rfl
    · exact fun st => by rcases st with st | st <;> cases st
  · refine h.of_shape shape ?_ ?_ ?_ ?_ ?_ <;> dsimp only <;> rw [counted]
    · exact id
    · exact h.timeout
    · exact fun st => by rcases st with st | st <;> rcases timed with k | k <;> rw [st] at k <;> cases k
    · intro st
      have := h.counting st
      show 1 ≤ x.sup.stallTimer - 1 ∧ x.sup.stallTimer - 1 ≤ 255
      omega

theorem faceSound_expired {x : Face} (h : FaceSound x) (timed : x.sup.state.timed = true) :
    FaceSound { x with sup := { x.sup with state := .stalled, stallTimer := 0, stallCount := satSucc Config.max16 x.sup.stallCount } } := by
  refine h.of_shape ⟨rfl, rfl, rfl, rfl, rfl, rfl, rfl, rfl, rfl⟩ (iff_of_false nofun fun off => ?_) nofun h.timeout (fun _ => rfl)
    (fun st => by rcases st with st | st <;> cases st)
  rw [off] at timed; cases timed

theorem faceSound_framed {x : Face} (h : FaceSound x) (scanning : x.sup.state ≠ .off) : FaceSound x.framed where
  running := iff_of_true (h.running.2 scanning) nofun
  idleFrame := h.idleFrame
  drainFrame := h.drainFrame
  dark st := by rcases st with st | st <;> cases st
  timeout := h.timeout
  stopped st := by rcases st with st | st <;> cases st
  counting _ := h.timeout
  configured _ := h.configured scanning
  moduleSlots _ := h.moduleSlots scanning
  idleRecords := h.idleRecords
  idleMailboxes := h.idleMailboxes
  requests := h.requests
  setup := h.setup
  records := h.records

theorem faceSound_synced {x : Face} (h : FaceSound x) (running : x.link.state = .running) : FaceSound x.synced :=
  { h with
    idleFrame := fun idle => absurd (running.symm.trans idle) nofun
    drainFrame := fun _ => nofun }

/-- A mailbox that fills holds a request, and none fills while the link is IDLE (R103, R105). -/
theorem faceSound_mailbox {x : Face} (h : FaceSound x) (n : Fin 64) (o : Option OneShot)
    (request : ∀ q, o = some q → q.test = true ∨ q.clearLatch = true) (idle : x.link.state = .idle → o = none) :
    FaceSound { x with mailboxes := put x.mailboxes n o } :=
  { h with
    idleMailboxes := fun hi => by
      apply pick_ext
      intro m
      show pick (put x.mailboxes n o) m = _
      rw [pick_put, h.idleMailboxes hi, idle hi]
      split
      · exact (pick_replicate _ m).symm
      · rfl
    requests := fun m q hq => by
      have hq : pick (put x.mailboxes n o) m = some q := hq
      rw [pick_put] at hq
      split at hq
      · exact request q hq
      · exact h.requests m q hq }

theorem faceSound_outcome {x : Face} (h : FaceSound x) (n : Fin 64) {r : ModuleRecord} (scanning : x.sup.state ≠ .off)
    (sound : RecordSound r) (state : r.state = .disabled ↔ (pick x.records n).state = .disabled) :
    FaceSound { x with records := put x.records n r } :=
  { h with
    moduleSlots := fun st m => by
      show (pick (put x.records n r) m).state = .disabled ↔ _
      rw [pick_put, ← h.moduleSlots st m]
      split
      · rename_i e; rw [state, e]
      · exact Iff.rfl
    idleRecords := fun idle => by
      have running := h.running.2 scanning
      exact absurd (running.symm.trans idle) nofun
    records := fun m => by
      show RecordSound (pick (put x.records n r) m)
      rw [pick_put]
      split
      · exact sound
      · exact h.records m }

/-- A face in OFF whose link has just reached IDLE. -/
theorem faceSound_linkIdled {x : Face} (off : x.sup.state = .off) (timer : x.sup.stallTimer = 0) (dark : x.applied = darkForm)
    (timeout : 1 ≤ x.sup.stallTimeout ∧ x.sup.stallTimeout ≤ 255) (setup : SetupSound x.link.setup) : FaceSound x.linkIdled where
  running := iff_of_false nofun fun h => h off
  idleFrame _ := rfl
  drainFrame := nofun
  dark _ := dark
  timeout := timeout
  stopped _ := timer
  counting st := by
    have off : x.linkIdled.sup.state = .off := off
    rcases st with st | st <;> rw [off] at st <;> cases st
  configured st := absurd off st
  moduleSlots st := absurd off st
  idleRecords _ := rfl
  idleMailboxes _ := rfl
  requests n o ho := by rw [show pick x.linkIdled.mailboxes n = none from pick_replicate _ n] at ho; cases ho
  setup := setup
  records n := by rw [show pick x.linkIdled.records n = resetRecord from pick_replicate _ n]; exact recordSound_reset

theorem FaceSound.off_of_not_running {x : Face} (h : FaceSound x) (st : x.link.state ≠ .running) : x.sup.state = .off := by
  by_contra on
  exact st (h.running.2 on)

theorem faceSound_offed {x : Face} (h : FaceSound x) : FaceSound x.offed := by
  unfold Face.offed
  split
  · exact h
  · rename_i on
    have running := h.running.2 on
    dsimp only
    rw [if_pos running]
    split
    · rename_i frame
      exact {
        running := iff_of_false nofun fun k => k rfl
        idleFrame := nofun
        drainFrame := fun _ => frame
        dark := fun _ => rfl
        timeout := h.timeout
        stopped := fun _ => rfl
        counting := fun st => by rcases st with st | st <;> cases st
        configured := fun st => absurd rfl st
        moduleSlots := fun st => absurd rfl st
        idleRecords := nofun
        idleMailboxes := nofun
        requests := h.requests
        setup := h.setup
        records := h.records }
    · exact faceSound_linkIdled rfl rfl rfl h.timeout h.setup

theorem offed_off (x : Face) : x.offed.sup.state = .off := by
  unfold Face.offed
  split
  · assumption
  · dsimp only
    split
    · split <;> rfl
    · rfl

theorem faceSound_partReset {x : Face} (h : FaceSound x) : FaceSound x.offed.partReset where
  running := iff_of_false (fun k => absurd (offed_off x) ((faceSound_offed h).running.1 k)) fun k => k rfl
  idleFrame := (faceSound_offed h).idleFrame
  drainFrame := (faceSound_offed h).drainFrame
  dark _ := (faceSound_offed h).dark (.inl (offed_off x))
  timeout := show 1 ≤ 50 ∧ 50 ≤ 255 by decide
  stopped _ := rfl
  counting st := by rcases st with st | st <;> cases st
  configured st := absurd rfl st
  moduleSlots st := absurd rfl st
  idleRecords _ := rfl
  idleMailboxes _ := rfl
  requests n o ho := by rw [show pick x.offed.partReset.mailboxes n = none from pick_replicate _ n] at ho; cases ho
  setup := setupSound_reset
  records n := by rw [show pick x.offed.partReset.records n = resetRecord from pick_replicate _ n]; exact recordSound_reset

theorem faceStart_passed {h : HeadFields} {ws : List Word} {s : State} (done : faceStartResult h ws s = .done) :
    (s.face h.face).sup.state = .off ∧ (s.face h.face).link.state ≠ .draining ∧
      ((s.face h.face).plane.valid = true ∧ (s.face h.face).link.setUp = true) ∧ (s.face h.face).zonesServed = true := by
  unfold faceStartResult at done
  rw [firstFailure_done_iff _ (by simp)] at done
  simpa only [List.mem_cons, List.not_mem_nil, or_false, forall_eq_or_imp, forall_eq, face_isOff_iff, notDraining_iff,
    Bool.and_eq_true] using done

/-- An OFF face whose link is not DRAINING has an IDLE link. -/
theorem FaceSound.idle {x : Face} (h : FaceSound x) (off : x.sup.state = .off) (link : x.link.state ≠ .draining) :
    x.link.state = .idle := by
  cases st : x.link.state with
  | idle => rfl
  | running => exact absurd off (h.running.1 st)
  | draining => exact absurd st link

theorem faceSound_started {x : Face} (h : FaceSound x) (off : x.sup.state = .off) (link : x.link.state ≠ .draining)
    (valid : x.plane.valid = true ∧ x.link.setUp = true) (served : x.zonesServed = true) : FaceSound x.started := by
  have records : ∀ n, pick x.started.records n = if x.link.setup.isModuleSlot n then unseenRecord else resetRecord := fun n => by
    have reset : pick x.records n = resetRecord := by rw [h.idleRecords (h.idle off link)]; exact pick_replicate _ n
    show pick (Vector.ofFn _) n = _
    rw [pick_ofFn, reset]
  refine {
    running := iff_of_true rfl nofun
    idleFrame := nofun
    drainFrame := nofun
    dark := fun _ => h.dark (.inl off)
    timeout := h.timeout
    stopped := fun st => by rcases st with st | st <;> cases st
    counting := fun _ => h.timeout
    configured := fun _ => ⟨valid.1, valid.2, served⟩
    moduleSlots := fun _ n => ?_
    idleRecords := nofun
    idleMailboxes := nofun
    requests := h.requests
    setup := h.setup
    records := fun n => ?_ }
  · rw [records n]
    show _ ↔ x.link.setup.isModuleSlot n = false
    cases x.link.setup.isModuleSlot n
    · exact iff_of_true rfl rfl
    · exact iff_of_false nofun nofun
  · rw [records n]
    split
    · exact recordSound_unseen
    · exact recordSound_reset

theorem moduleCommand_passed {h : HeadFields} {ws : List Word} {s : State} (done : moduleCommandResult h ws s = .done) :
    (s.face h.face).sup.state ≠ .off ∧
      ((oneShotOf (payloadWord ws 0)).test = true ∨ (oneShotOf (payloadWord ws 0)).clearLatch = true) := by
  unfold moduleCommandResult at done
  rw [firstFailure_done_iff _ (by simp)] at done
  simp only [List.mem_cons, List.not_mem_nil, or_false, forall_eq_or_imp, forall_eq, scanning_iff, Bool.or_eq_true] at done
  obtain ⟨scanning, -, request, -⟩ := done
  exact ⟨scanning, request⟩

theorem moduleClear_passed {h : HeadFields} {ws : List Word} {s : State} (done : moduleClearResult h ws s = .done) :
    (s.face h.face).sup.state ≠ .off := by
  unfold moduleClearResult at done
  rw [firstFailure_done_iff _ (by simp)] at done
  exact (scanning_iff _).1 (done ((s.face h.face).sup.state.scanning, .state) (by simp))

theorem faceSound_clearedAll {x : Face} (h : FaceSound x) (scanning : x.sup.state ≠ .off) :
    FaceSound { x with records := x.records.map ModuleRecord.cleared } :=
  { h with
    moduleSlots := fun st n => by
      show (pick (x.records.map ModuleRecord.cleared) n).state = .disabled ↔ _
      rw [pick_map, cleared_disabled_iff]
      exact h.moduleSlots st n
    idleRecords := fun idle => absurd ((h.running.2 scanning).symm.trans idle) nofun
    records := fun n => by
      show RecordSound (pick (x.records.map ModuleRecord.cleared) n)
      rw [pick_map]
      exact recordSound_cleared (h.records n) }

/-- In OFF the plane and the map are free, and the setup needs only to be sound. -/
theorem faceSound_configured {x y : Face} (h : FaceSound x) (off : x.sup.state = .off) (sup : y.sup = x.sup)
    (applied : y.applied = x.applied) (mailboxes : y.mailboxes = x.mailboxes) (records : y.records = x.records)
    (link : y.link.state = x.link.state) (frame : y.link.frameSetup = x.link.frameSetup) (setup : SetupSound y.link.setup) :
    FaceSound y := by
  have off' : y.sup.state = .off := by rw [sup]; exact off
  refine ⟨?_, ?_, ?_, ?_, ?_, ?_, ?_, fun st => absurd off' st, fun st => absurd off' st, ?_, ?_, ?_, setup, ?_⟩
  all_goals simp only [sup, applied, mailboxes, records, link, frame]
  exacts [h.running, h.idleFrame, h.drainFrame, h.dark, h.timeout, h.stopped, h.counting, h.idleRecords, h.idleMailboxes,
    h.requests, h.records]

theorem faceSound_command {c : Command} {h : HeadFields} {ws : List Word} {s : State} {f : Fin 4} (sound : FaceSound (s.face f))
    (done : c.result h ws s = .done) (own : f ∈ c.faces h) : FaceSound (c.faceAfter h ws (s.face f)) := by
  cases c with
  | faceGeometry =>
    cases face_of_mem own nofun
    obtain ⟨off, -⟩ := faceGeometry_passed done
    exact faceSound_configured sound off rfl rfl rfl rfl rfl rfl sound.setup
  | faceZonemap =>
    cases face_of_mem own nofun
    obtain ⟨off, -⟩ := faceZonemap_passed done
    rw [Command.faceAfter]
    generalize mapWithSlots _ _ = m
    exact faceSound_configured sound off rfl rfl rfl rfl rfl rfl sound.setup
  | faceLimits =>
    exact sound.of_shape ⟨rfl, rfl, rfl, rfl, rfl, rfl, rfl, rfl, rfl⟩ Iff.rfl id (stallTimeoutOf_range ws) sound.stopped
      sound.counting
  | faceStart =>
    cases face_of_mem own nofun
    obtain ⟨off, link, valid, served⟩ := faceStart_passed (ws := ws) done
    exact faceSound_started sound off link valid served
  | faceStop => exact faceSound_offed sound
  | outputConfig =>
    exact sound.of_shape ⟨rfl, rfl, rfl, rfl, rfl, rfl, rfl, rfl, rfl⟩ Iff.rfl id sound.timeout sound.stopped sound.counting
  | linkSetup =>
    cases face_of_mem own nofun
    obtain ⟨off, -⟩ := linkSetup_passed done
    exact faceSound_configured sound off rfl rfl rfl rfl rfl rfl (setupSound_linkSetupOf done)
  | moduleCommand =>
    cases face_of_mem own nofun
    obtain ⟨scanning, request⟩ := moduleCommand_passed done
    refine faceSound_mailbox sound h.slot _ (fun q hq => ?_) fun idle => ?_
    · cases hq; exact request
    · exact absurd ((sound.running.2 scanning).symm.trans idle) nofun
  | moduleClear =>
    cases face_of_mem own nofun
    have scanning := moduleClear_passed done
    unfold Command.faceAfter
    dsimp only
    split
    · exact faceSound_clearedAll sound scanning
    · exact faceSound_outcome sound h.slot scanning (recordSound_cleared (sound.records _)) (cleared_disabled_iff _)
  | partReset => exact faceSound_partReset sound
  | _ => exact sound.of_same ⟨rfl, rfl, rfl, rfl, rfl, rfl, rfl, rfl, rfl⟩ rfl

theorem faceSound_counted {x : Face} (h : FaceSound x) (n : Fin 64) (c : ReceivedClass) : FaceSound (x.counted n c) :=
  h.of_same ⟨rfl, rfl, rfl, rfl, rfl, rfl, rfl, rfl, rfl⟩ rfl

theorem faceSound_kept {d : Prop} (x y : Face) (sound : FaceSound x) (a : FaceAtom d x y) : FaceSound y := by
  cases a with
  | reset => exact faceSound_reset
  | ticked => exact faceSound_ticked sound
  | expired _ timed => exact faceSound_expired sound timed
  | framed _ scanning => exact faceSound_framed sound scanning
  | synced _ running => exact faceSound_synced sound running
  | slotTaken _ n w =>
    have line : FaceSound { x with link := { x.link with line := .word n w } } :=
      sound.of_same ⟨rfl, rfl, rfl, rfl, rfl, rfl, rfl, rfl, rfl⟩ rfl
    exact faceSound_mailbox line n none nofun fun _ => rfl
  | outcome _ n len c w scanning live =>
    exact faceSound_outcome (faceSound_counted sound n c) n scanning (recordSound_taken (sound.records n) live _ len c w)
      (iff_of_false (taken_live live _ _) live)
  | drained _ draining =>
    have off := sound.off_of_not_running (by rw [draining]; nofun)
    exact faceSound_linkIdled off (sound.stopped (.inl off)) (sound.dark (.inl off)) sound.timeout sound.setup
  | command c h ws s f done _ own => exact faceSound_command sound done own
  | _ => exact sound.of_same ⟨rfl, rfl, rfl, rfl, rfl, rfl, rfl, rfl, rfl⟩ rfl

/-- Settles O57: each change of a face keeps face state, link state, applied set, timers, records and mailboxes agreed. -/
theorem facesStaySound : Obligations.FacesStaySound := fun _ _ sound next => faces_kept_by_steps faceSound_kept sound next

end Sys2Proof.Machine
end

/-! PROOFS. Curves, limits, levels, samples and applied sets stay in range (R21 to R29, R36); the stream decoder, the
timers and the saturating counts (R18, R19, R69, R93, R137, R163). -/

section
namespace Sys2Proof.Machine

/-! The stream decoder (R163, R165). -/

theorem decoderSound_part {s t : State} (h : DecoderSound s.decoder) (a : PartAtom s t) : DecoderSound t.decoder := by
  cases a with
  | faces _ _ same _ => rw [same]; exact h
  | partReset _ _ same _ => rw [same]; exact h
  | decoder e d _ sound => exact sound h
  | response =>
    rcases takeResponse_cases s with same | ⟨_, _, _, _, _, taken⟩
    · rw [same]; exact h
    · rw [taken]; exact h
  | grant =>
    rcases grantBeat_cases s with same | ⟨_, _, _, _, _, _, _, _, granted⟩ | ⟨_, _, _, _, _, granted⟩
    · rw [same]; exact h
    · rw [granted]; exact h
    · rw [granted]; exact h
  | reset w => exact decoderSound_idle _
  | _ => exact h

/-! The timers and the saturating counts. -/

/-- The timers and counts outside the faces (R18, R19, R69, R137). -/
structure TimersSound (s : State) : Prop where
  divider : s.tickDivider ≤ 9
  epochTimer : 1 ≤ s.epochTimer ∧ s.epochTimer ≤ epochPeriod s.epochSelect
  levelMode : s.attention.mode = .level → s.attention.pulse = false
  errors : s.ownWriteErrors ≤ 65535

/-- The counts of a face (R74, R93). -/
structure FaceCounts (x : Face) : Prop where
  garbled : x.link.garbled ≤ 65535
  silent : x.link.silent ≤ 65535
  stalls : x.sup.stallCount ≤ 65535

theorem countsSound_iff (s : State) : CountsSound s ↔ TimersSound s ∧ ∀ f, FaceCounts (s.face f) := by
  constructor
  · intro h
    refine ⟨⟨h.divider, h.epochTimer, h.levelMode, h.errors⟩, fun f => ?_⟩
    obtain ⟨garbled, silent, stalls⟩ := h.counters f
    exact ⟨garbled, silent, stalls⟩
  · rintro ⟨h, k⟩
    exact ⟨h.divider, h.epochTimer, h.levelMode, h.errors, fun f => ⟨(k f).garbled, (k f).silent, (k f).stalls⟩⟩

theorem epochPeriod_pos (k : Fin 4) : 1 ≤ epochPeriod k := by
  revert k; decide

theorem timersSound_tick {s : State} (h : TimersSound s) : TimersSound (countTick s) where
  divider := Nat.zero_le _
  epochTimer := by
    obtain ⟨-, upper⟩ := h.epochTimer
    show 1 ≤ (if s.epochDue then _ else _) ∧ (if s.epochDue then _ else _) ≤ epochPeriod s.epochSelect
    cases due : s.epochDue with
    | true => exact ⟨epochPeriod_pos _, Nat.le_refl _⟩
    | false =>
      have : 1 < s.epochTimer := by simpa [State.epochDue] using due
      simp only [Bool.false_eq_true, if_false]
      omega
  levelMode := h.levelMode
  errors := h.errors

theorem TimersSound.of_same {s t : State} (h : TimersSound s) (divider : t.tickDivider = s.tickDivider)
    (timer : t.epochTimer = s.epochTimer) (select : t.epochSelect = s.epochSelect) (attention : t.attention = s.attention)
    (errors : t.ownWriteErrors = s.ownWriteErrors) : TimersSound t where
  divider := divider ▸ h.divider
  epochTimer := by rw [timer, select]; exact h.epochTimer
  levelMode := by rw [attention]; exact h.levelMode
  errors := errors ▸ h.errors

theorem timersSound_part {s t : State} (h : TimersSound s) (a : PartAtom s t) : TimersSound t := by
  cases a with
  | faces _ _ same _ => rw [same]; exact h.of_same rfl rfl rfl rfl rfl
  | attention a d _ pulse => exact ⟨h.divider, h.epochTimer, pulse h.levelMode, h.errors⟩
  | timing k => exact ⟨h.divider, ⟨epochPeriod_pos k, Nat.le_refl _⟩, h.levelMode, h.errors⟩
  | partReset _ _ same _ =>
    rw [same]
    exact ⟨h.divider, show 1 ≤ 10 ∧ 10 ≤ epochPeriod 2 by decide, fun _ => rfl, Nat.zero_le _⟩
  | response =>
    rcases takeResponse_cases s with same | ⟨_, _, _, _, _, taken⟩
    · rw [same]; exact h
    · rw [taken]; exact h.of_same rfl rfl rfl rfl rfl
  | grant =>
    rcases grantBeat_cases s with same | ⟨_, _, _, _, _, _, _, _, granted⟩ | ⟨_, _, _, _, _, granted⟩
    · rw [same]; exact h
    · rw [granted]; exact h.of_same rfl rfl rfl rfl rfl
    · rw [granted]; exact h.of_same rfl rfl rfl rfl rfl
  | completion o n d rest _ errors _ =>
    refine ⟨h.divider, h.epochTimer, h.levelMode, ?_⟩
    rcases errors with same | counted
    · exact same ▸ h.errors
    · exact counted ▸ satSucc_le _ _
  | divider _ below => exact ⟨below, h.epochTimer, h.levelMode, h.errors⟩
  | tick => exact timersSound_tick h
  | reset w => exact ⟨Nat.zero_le _, show 1 ≤ 10 ∧ 10 ≤ epochPeriod 2 by decide, fun _ => rfl, Nat.zero_le _⟩
  | _ => exact h.of_same rfl rfl rfl rfl rfl

theorem FaceCounts.of_same {x y : Face} (h : FaceCounts x) (garbled : y.link.garbled = x.link.garbled)
    (silent : y.link.silent = x.link.silent) (stalls : y.sup.stallCount = x.sup.stallCount) : FaceCounts y :=
  ⟨garbled ▸ h.garbled, silent ▸ h.silent, stalls ▸ h.stalls⟩

theorem faceCounts_counted {x : Face} (h : FaceCounts x) (n : Fin 64) (c : ReceivedClass) : FaceCounts (x.counted n c) where
  garbled := by
    unfold Face.counted
    dsimp only
    split
    · exact satSucc_le _ _
    · exact h.garbled
  silent := by
    unfold Face.counted
    dsimp only
    split
    · exact satSucc_le _ _
    · exact h.silent
  stalls := h.stalls

theorem offed_counts (x : Face) :
    x.offed.link.garbled = x.link.garbled ∧ x.offed.link.silent = x.link.silent ∧ x.offed.sup.stallCount = x.sup.stallCount := by
  unfold Face.offed
  split
  · exact ⟨rfl, rfl, rfl⟩
  · dsimp only
    split
    · split <;> exact ⟨rfl, rfl, rfl⟩
    · exact ⟨rfl, rfl, rfl⟩

theorem faceCounts_kept {d : Prop} (x y : Face) (h : FaceCounts x) (a : FaceAtom d x y) : FaceCounts y := by
  cases a with
  | reset => exact ⟨Nat.zero_le _, Nat.zero_le _, Nat.zero_le _⟩
  | ticked =>
    refine ⟨h.garbled, h.silent, ?_⟩
    rcases ticked_cases x.sup with ⟨same, -⟩ | ⟨-, ⟨-, expired⟩ | ⟨-, counted⟩⟩
    · rw [same]; exact h.stalls
    · rw [expired]; exact satSucc_le _ _
    · rw [counted]; exact h.stalls
  | expired => exact ⟨h.garbled, h.silent, satSucc_le _ _⟩
  | counted _ n c => exact faceCounts_counted h n c
  | sampled _ n => exact (faceCounts_counted h n .valid).of_same rfl rfl rfl
  | outcome _ n len c => exact (faceCounts_counted h n c).of_same rfl rfl rfl
  | command c k ws s f =>
    cases c with
    | faceStop =>
      obtain ⟨garbled, silent, stalls⟩ := offed_counts (s.face f)
      exact h.of_same garbled silent stalls
    | linkSetup => exact ⟨Nat.zero_le _, Nat.zero_le _, h.stalls⟩
    | partReset => exact ⟨Nat.zero_le _, Nat.zero_le _, Nat.zero_le _⟩
    | moduleClear =>
      unfold Command.faceAfter
      dsimp only
      split <;> exact h.of_same rfl rfl rfl
    | _ => exact h.of_same rfl rfl rfl
  | _ => exact h.of_same rfl rfl rfl

/-- Settles O58: the decoder, the timers and the counts outside the faces are kept change by change of the part, the
counts of a face change by change of the face. -/
theorem decoderAndCountsStaySound : Obligations.DecoderAndCountsStaySound := fun _ _ next =>
  ⟨fun sound => kept_by_parts (P := fun s => DecoderSound s.decoder) (fun _ _ => decoderSound_part) sound next, fun sound => by
    obtain ⟨timers, counts⟩ := (countsSound_iff _).1 sound
    exact (countsSound_iff _).2
      ⟨kept_by_parts (fun _ _ => timersSound_part) timers next, faces_kept_by_steps faceCounts_kept counts next⟩⟩

/-! Level engines and applied sets. -/

theorem limitsSound_default : LimitsSound defaultLimits := by
  constructor <;> decide

theorem clamp_range {lo hi : Nat} (ordered : lo ≤ hi) (v : Nat) : lo ≤ clamp lo hi v ∧ clamp lo hi v ≤ hi := by
  unfold clamp; omega

theorem limitsSound_limitsOf (ws : List Word) : LimitsSound (limitsOf ws) where
  ceiling := (clamp_range (Nat.zero_le _) _).2
  floor := (clamp_range (Nat.zero_le _) _).2
  rise := clamp_range (by decide) _
  fall := clamp_range (by decide) _
  fallback := (clamp_range (Nat.zero_le _) _).2
  lost := clamp_range (by decide) _

theorem curveSound_nil : CurveSound [] := by
  constructor <;> simp

theorem faceCurve_passed {h : HeadFields} {ws : List Word} {s : State} (done : faceCurveResult h ws s = .done) :
    (∀ w ∈ ws, (curvePointOf w).ambient ≤ 8191) ∧ (ws.map fun w => (curvePointOf w).ambient).Pairwise (· < ·) := by
  unfold faceCurveResult at done
  rw [firstFailure_done_iff _ (by simp)] at done
  simp only [List.mem_cons, List.not_mem_nil, or_false, forall_eq_or_imp, forall_eq, List.all_map, List.all_eq_true,
    Function.comp, decide_eq_true_eq, strictlyAscending_iff, List.map_map] at done
  exact done

theorem curveSound_points {h : HeadFields} {ws : List Word} {s : State} (done : faceCurveResult h ws s = .done)
    (few : ws.length ≤ 8) : CurveSound (ws.map fun w => (curvePointOf w).clamped) := by
  obtain ⟨range, ascends⟩ := faceCurve_passed done
  refine ⟨by rw [List.length_map]; exact few, ?_, fun p hp => ?_⟩
  · rw [List.pairwise_map] at ascends ⊢
    exact ascends
  · obtain ⟨w, hw, rfl⟩ := List.mem_map.1 hp
    exact ⟨range w hw, Nat.min_le_right _ _⟩

/-- The level engine of a face with its sensor slot: what LevelSound says of them. -/
structure EngineSound (e : LevelEngine) (sensorSlot : Option (Fin 64)) : Prop where
  limits : LimitsSound e.limits
  stagedLimits : ∀ l, e.stagedLimits = some l → LimitsSound l
  curve : CurveSound e.curve
  stagedCurve : ∀ c, e.stagedCurve = some c → CurveSound c
  level : e.level ≤ 4096
  target : e.target ≤ 4096
  ambient : e.ambient ≤ 8191
  sample : e.sensor.sample ≤ 8191
  count : e.sensor.count ≤ 255
  sensor : e.sensor.state = .none ↔ sensorSlot = none
  noCount : e.sensor.state = .none → e.sensor.count = 0

theorem LevelSound.engine {x : Face} (h : LevelSound x) : EngineSound x.level x.link.setup.sensorSlot :=
  ⟨h.limits, h.stagedLimits, h.curve, h.stagedCurve, h.level, h.target, h.ambient, h.sample, h.count, h.sensor, h.noCount⟩

theorem EngineSound.levelSound {x : Face} (h : EngineSound x.level x.link.setup.sensorSlot)
    (frame : x.sup.state ≠ .off → ∀ fs, x.link.frameSetup = some fs → fs.sensorSlot = x.link.setup.sensorSlot)
    (level : x.applied.level ≤ 4096) (floor : x.applied.floor ≤ 4096) : LevelSound x :=
  ⟨h.limits, h.stagedLimits, h.curve, h.stagedCurve, h.level, h.target, h.ambient, h.sample, h.count, h.sensor, h.noCount, frame,
    level, floor⟩

/-- A change of a face that keeps its level engine, its setups and its applied set. -/
theorem LevelSound.of_same {x y : Face} (h : LevelSound x) (level : y.level = x.level) (applied : y.applied = x.applied)
    (setup : y.link.setup = x.link.setup) (frame : y.link.frameSetup = x.link.frameSetup)
    (scanning : y.sup.state ≠ .off → x.sup.state ≠ .off) : LevelSound y := by
  refine EngineSound.levelSound ?_ ?_ ?_ ?_
  · rw [level, setup]; exact h.engine
  · rw [frame, setup]; exact fun st => h.frame (scanning st)
  · rw [applied]; exact h.appliedLevel
  · rw [applied]; exact h.appliedFloor

theorem engineSound_adopted {e : LevelEngine} {q : Option (Fin 64)} (h : EngineSound e q) : EngineSound e.adopted q := by
  have limits : LimitsSound (e.stagedLimits.getD e.limits) := by
    cases staged : e.stagedLimits with
    | none => exact h.limits
    | some l => exact h.stagedLimits l staged
  have curve : CurveSound (e.stagedCurve.getD e.curve) := by
    cases staged : e.stagedCurve with
    | none => exact h.curve
    | some c => exact h.stagedCurve c staged
  exact ⟨limits, nofun, curve, nofun, h.level, h.target, h.ambient, h.sample, h.count, h.sensor, h.noCount⟩

/-- The sensor test keeps the sample and NONE, and raises the count within its bound (R25). -/
theorem tested_cases (r : SensorRecord) (limit : Nat) :
    (r.state = .none ∧ r.tested limit = r) ∨
      (r.state ≠ .none ∧ (r.tested limit).state ≠ .none ∧ (r.tested limit).sample = r.sample ∧ (r.tested limit).count ≤ 255) := by
  by_cases none : r.state = .none
  · exact .inl ⟨none, if_pos none⟩
  · refine .inr ⟨none, ?_⟩
    rw [SensorRecord.tested, if_neg none]
    refine ⟨?_, rfl, satSucc_le _ _⟩
    dsimp only
    split
    · decide
    · exact none

theorem engineSound_tested {e : LevelEngine} {q : Option (Fin 64)} (h : EngineSound e q) (limit : Nat) :
    EngineSound { e with sensor := e.sensor.tested limit } q := by
  rcases tested_cases e.sensor limit with ⟨-, same⟩ | ⟨some, still, sample, count⟩
  · rw [same]; exact h
  · exact ⟨h.limits, h.stagedLimits, h.curve, h.stagedCurve, h.level, h.target, h.ambient, by rw [sample]; exact h.sample, count,
      iff_of_false still (mt h.sensor.2 some), fun st => absurd st still⟩

theorem levelAfter_le (l : Limits) (hold : Bool) (level target : Nat) : levelAfter l hold level target ≤ l.ceiling := by
  unfold levelAfter
  split
  · exact Nat.min_le_right _ _
  · split
    · exact Nat.min_le_right _ _
    · split <;> exact Nat.min_le_right _ _

theorem ambientInUse_le {r : SensorRecord} {l : Limits} {m : Nat} (sample : r.sample ≤ m) (fallback : l.fallbackAmbient ≤ m) :
    ambientInUse r l ≤ m := by
  unfold ambientInUse
  split <;> assumption

theorem engineSound_computed {e : LevelEngine} {q : Option (Fin 64)} (h : EngineSound e q) : EngineSound e.computed q :=
  ⟨h.limits, h.stagedLimits, h.curve, h.stagedCurve, (levelAfter_le _ _ _ _).trans h.limits.ceiling,
    (Nat.min_le_right _ _).trans h.limits.ceiling, ambientInUse_le h.sample h.limits.fallback, h.sample, h.count, h.sensor, h.noCount⟩

theorem engineSound_epoch {x : Face} (h : EngineSound x.level x.link.setup.sensorSlot) :
    EngineSound x.epochLevel x.link.setup.sensorSlot := by
  unfold Face.epochLevel
  split
  · exact engineSound_computed (engineSound_tested (engineSound_adopted h) _)
  · exact engineSound_adopted h

theorem engineSound_sensor {e : LevelEngine} {q p : Option (Fin 64)} (h : EngineSound e q) {r : SensorRecord}
    (sample : r.sample ≤ 8191) (count : r.count ≤ 255) (sensor : r.state = .none ↔ p = none) (noCount : r.state = .none → r.count = 0) :
    EngineSound { e with sensor := r } p :=
  ⟨h.limits, h.stagedLimits, h.curve, h.stagedCurve, h.level, h.target, h.ambient, sample, count, sensor, noCount⟩

theorem engineSound_level {e : LevelEngine} {q : Option (Fin 64)} (h : EngineSound e q) {hold : Bool} {v : Nat} (le : v ≤ 4096) :
    EngineSound { e with hold := hold, level := v } q :=
  ⟨h.limits, h.stagedLimits, h.curve, h.stagedCurve, le, h.target, h.ambient, h.sample, h.count, h.sensor, h.noCount⟩

/-- The sensor record after FACE_START or LINK_SETUP: WAITING with a sensor slot, NONE without one (R23). -/
theorem engineSound_setup {e : LevelEngine} {q : Option (Fin 64)} (h : EngineSound e q) (p : Option (Fin 64)) :
    EngineSound { e with sensor := sensorAfterSetup p e.sensor } p := by
  refine engineSound_sensor h h.sample (Nat.zero_le _) ?_ fun _ => rfl
  cases p with
  | none => exact iff_of_true rfl rfl
  | some n => exact iff_of_false nofun nofun

theorem levelSound_reset : LevelSound resetFace :=
  EngineSound.levelSound
    ⟨limitsSound_default, nofun, curveSound_nil, nofun, Nat.zero_le _, Nat.zero_le _, Nat.zero_le _, Nat.zero_le _, Nat.zero_le _,
      iff_of_true rfl rfl, fun _ => rfl⟩
    (fun st => absurd rfl st) (Nat.zero_le _) (Nat.zero_le _)

theorem offed_applied (x : Face) : x.offed.applied = x.applied ∨ x.offed.applied = darkForm := by
  unfold Face.offed
  split
  · exact .inl rfl
  · dsimp only
    split
    · split <;> exact .inr rfl
    · exact .inr rfl

theorem offed_level (x : Face) : x.offed.level = x.level := by
  unfold Face.offed
  split
  · rfl
  · dsimp only
    split
    · split <;> rfl
    · rfl

theorem offed_applied_le {x : Face} (level : x.applied.level ≤ 4096) (floor : x.applied.floor ≤ 4096) :
    x.offed.applied.level ≤ 4096 ∧ x.offed.applied.floor ≤ 4096 := by
  rcases offed_applied x with same | dark
  · rw [same]; exact ⟨level, floor⟩
  · rw [dark]; exact ⟨Nat.zero_le _, Nat.zero_le _⟩

theorem levelSound_offed {x : Face} (h : LevelSound x) : LevelSound x.offed := by
  obtain ⟨level, floor⟩ := offed_applied_le h.appliedLevel h.appliedFloor
  refine EngineSound.levelSound ?_ (fun st => absurd (offed_off x) st) level floor
  rw [offed_level, (offed_same x).2]
  exact h.engine

theorem levelSound_partReset {x : Face} (h : LevelSound x) : LevelSound x.offed.partReset := by
  obtain ⟨level, floor⟩ := offed_applied_le h.appliedLevel h.appliedFloor
  exact EngineSound.levelSound levelSound_reset.engine (fun st => absurd rfl st) level floor

theorem allows_faceCurve {n : Nat} (h : Command.faceCurve.allows n = true) : n ≤ 8 := by
  simpa [Command.allows] using h

theorem levelSound_command {d : Prop} {c : Command} {h : HeadFields} {ws : List Word} {s : State} {f : Fin 4}
    (decoder : d) (face : FaceSound (s.face f)) (sound : LevelSound (s.face f)) (done : c.result h ws s = .done)
    (allowed : d → c.allows ws.length = true) (own : f ∈ c.faces h) : LevelSound (c.faceAfter h ws (s.face f)) := by
  have engine := sound.engine
  cases c with
  | faceCurve =>
    have curve := curveSound_points (h := h) (s := s) done (allows_faceCurve (allowed decoder))
    exact EngineSound.levelSound
      ⟨engine.limits, engine.stagedLimits, engine.curve, fun c hc => by cases hc; exact curve, engine.level, engine.target,
        engine.ambient, engine.sample, engine.count, engine.sensor, engine.noCount⟩
      sound.frame sound.appliedLevel sound.appliedFloor
  | faceLimits =>
    exact EngineSound.levelSound
      ⟨engine.limits, fun l hl => by cases hl; exact limitsSound_limitsOf ws, engine.curve, engine.stagedCurve, engine.level,
        engine.target, engine.ambient, engine.sample, engine.count, engine.sensor, engine.noCount⟩
      sound.frame sound.appliedLevel sound.appliedFloor
  | faceStart =>
    cases face_of_mem own nofun
    obtain ⟨off, link, -⟩ := faceStart_passed (ws := ws) done
    have no_frame := face.idleFrame (face.idle off link)
    refine EngineSound.levelSound (engineSound_setup (engineSound_level engine (hold := (s.face h.face).level.hold) (Nat.zero_le _)) _)
      (fun _ fs hfs => ?_) sound.appliedLevel sound.appliedFloor
    have hfs : (s.face h.face).link.frameSetup = some fs := hfs
    rw [no_frame] at hfs; cases hfs
  | faceStop => exact levelSound_offed sound
  | faceHold =>
    refine EngineSound.levelSound (engineSound_level engine ?_) sound.frame sound.appliedLevel sound.appliedFloor
    split
    · exact engine.level
    · exact (Nat.min_le_right _ _).trans engine.limits.ceiling
  | faceRelease =>
    exact EngineSound.levelSound (engineSound_level engine engine.level) sound.frame sound.appliedLevel sound.appliedFloor
  | linkSetup =>
    cases face_of_mem own nofun
    obtain ⟨off, -⟩ := linkSetup_passed done
    exact EngineSound.levelSound (engineSound_setup engine _) (fun st => absurd off st) sound.appliedLevel sound.appliedFloor
  | partReset => exact levelSound_partReset sound
  | faceZonemap =>
    rw [Command.faceAfter]
    generalize mapWithSlots _ _ = m
    exact sound.of_same rfl rfl rfl rfl id
  | moduleClear =>
    unfold Command.faceAfter
    dsimp only
    split <;> exact sound.of_same rfl rfl rfl rfl id
  | _ => exact sound.of_same rfl rfl rfl rfl id

theorem levelSound_face {d : Prop} {x y : Face} (decoder : d) (face : FaceSound x) (sound : LevelSound x) (a : FaceAtom d x y) :
    LevelSound y := by
  cases a with
  | reset => exact levelSound_reset
  | ticked =>
    refine sound.of_same rfl rfl rfl rfl fun st => ?_
    rw [← scanning_iff] at st ⊢
    rw [← ticked_scanning]; exact st
  | expired _ timed => exact sound.of_same rfl rfl rfl rfl fun _ off => by rw [off] at timed; cases timed
  | epoch => exact EngineSound.levelSound (engineSound_epoch sound.engine) sound.frame sound.appliedLevel sound.appliedFloor
  | framed _ scanning => exact EngineSound.levelSound sound.engine (fun _ => sound.frame scanning) sound.level sound.limits.floor
  | synced => exact EngineSound.levelSound sound.engine (fun _ fs hfs => by cases hfs; rfl) sound.appliedLevel sound.appliedFloor
  | sampled _ n fs a setup slot scanning =>
    have served : x.link.setup.sensorSlot = some n := (sound.frame scanning fs setup).symm.trans slot
    exact EngineSound.levelSound
      (engineSound_sensor sound.engine (Nat.min_le_right _ _) (Nat.zero_le _)
        (iff_of_false nofun fun absent => by rw [show x.link.setup.sensorSlot = none from absent] at served; cases served) nofun)
      sound.frame sound.appliedLevel sound.appliedFloor
  | drained => exact EngineSound.levelSound sound.engine (fun _ _ => nofun) sound.appliedLevel sound.appliedFloor
  | command c h ws s f done allowed own => exact levelSound_command decoder face sound done allowed own
  | _ => exact sound.of_same rfl rfl rfl rfl id

/-- What the ranges of levels rest on: a sound decoder and sound faces. -/
structure LevelsKept (s : State) : Prop where
  decoder : DecoderSound s.decoder
  faces : ∀ f, FaceSound (s.face f)
  levels : ∀ f, LevelSound (s.face f)

theorem levelsKept_atom {s t : State} (h : LevelsKept s) (a : Atom s t) : LevelsKept t where
  decoder := by
    have chain := partChain_atom a
    clear a
    induction chain with
    | refl => exact h.decoder
    | tail _ b ih => exact decoderSound_part ih b
  faces f := faceSound_kept _ _ (h.faces f) (atom_face a f)
  levels f := levelSound_face h.decoder (h.faces f) (h.levels f) (atom_face a f)

/-- Settles O56: the decoder bounds the points of a curve, the faces agree the sensor slot of a frame with that of the
setup, and every change of a face then keeps its levels in range. -/
theorem levelsStayInRange : Obligations.LevelsStayInRange := fun _ _ decoder faces levels next =>
  (kept_by_steps (fun _ _ => levelsKept_atom) ⟨decoder, faces, levels⟩ next).levels

end Sys2Proof.Machine
end

/-! PROOFS. What every command runs: an operation confined to the faces, or one of the request path, the journal, the
status writer or the timebase. From it: every command completes (R17, R55, R73), accepted requests keep their entries
(R62, R66), and image words are marked (R159, R160). -/

section

namespace Sys2Proof.Machine

/-! What a command runs. -/

/-- A command that is no operation confined to the faces, with what it runs. -/
inductive PathCommand : Instr → (State → State) → Prop
  | reset (w : BitVec 2) : PathCommand (.powerOnReset w) (powerOn w)
  | assertion : PathCommand .porstNAssertion fun s => { s with porstAsserted := true }
  | millisecond (o : List TickPart) : PathCommand (.millisecondIncrement o) (runMillisecond o)
  | tick (o : List TickPart) : PathCommand (.tick o) (runTick o)
  | epoch (o : List (Fin 4)) : PathCommand (.epoch o) (runEpoch o)
  | offer (r : Request) : PathCommand (.cportRequestAccept r) (offerRequest r)
  | image (w : ImageWord) (l : BitVec 2) (b : BitVec 4) (d : Word) (t : BitVec 3) (i : BitVec 4) :
      PathCommand (.localWrite w l b d t i) fun s => offerRequest (localRequest s w l b d t i) s
  | response : PathCommand .cportResponseTaken fun s => acceptWaiting (takeResponse s)
  | grant : PathCommand .mportGrant fun s => acceptWaiting (grantBeat s)
  | memory (st : BitVec 2) (d : Word) : PathCommand (.memoryResponse st d) (takeMemoryResponse (memoryStatusOf st) d)
  | journal : PathCommand .journalRecordEnqueue journalEnqueue
  | status : PathCommand .statusWordEnqueue statusEnqueue

theorem confined_endPulse : Confined allFaces endPulse where
  path _ := ⟨rfl, rfl, rfl, rfl, rfl, rfl, rfl, rfl, rfl, rfl, rfl, rfl, rfl⟩
  faces _ _ _ := rfl
  tracks s w := by
    have same : shown (endPulse s) w = shown s w :=
      shown_part (ws := []) rfl (fun i _ => by fin_cases i <;> rfl) (List.not_mem_nil)
    exact ⟨fun k => absurd same k, id⟩
  blind _ _ h := congrArg endPulse h

theorem exec_runs (c : Instr) :
    ∃ g, (∀ s, exec c s = .next (g s)) ∧ (Confined allFaces g ∨ PathCommand c g) := by
  cases c with
  | powerOnReset w => exact ⟨_, fun _ => rfl, .inr (.reset w)⟩
  | porstNAssertion => exact ⟨_, fun _ => rfl, .inr .assertion⟩
  | millisecondIncrement o => exact ⟨_, fun _ => rfl, .inr (.millisecond o)⟩
  | tick o => exact ⟨_, fun _ => rfl, .inr (.tick o)⟩
  | epoch o => exact ⟨_, fun _ => rfl, .inr (.epoch o)⟩
  | cportRequestAccept r => exact ⟨_, fun _ => rfl, .inr (.offer r)⟩
  | localWrite w l b d t i => exact ⟨_, fun _ => rfl, .inr (.image w l b d t i)⟩
  | cportResponseTaken => exact ⟨_, fun _ => rfl, .inr .response⟩
  | mportGrant => exact ⟨_, fun _ => rfl, .inr .grant⟩
  | memoryResponse st d => exact ⟨_, fun _ => rfl, .inr (.memory st d)⟩
  | journalRecordEnqueue => exact ⟨_, fun _ => rfl, .inr .journal⟩
  | statusWordEnqueue => exact ⟨_, fun _ => rfl, .inr .status⟩
  | stallExpiry f => exact ⟨_, fun _ => rfl, .inl (effect_stallExpiry f).toAll⟩
  | linkSync f => exact ⟨_, fun _ => rfl, .inl (effect_linkSync f).toAll⟩
  | slotStart f n => exact ⟨_, fun _ => rfl, .inl (effect_slotStart f n).toAll⟩
  | slotEnd f n w => exact ⟨_, fun _ => rfl, .inl (effect_slotEnd f n w).toAll⟩
  | drainEnd f => exact ⟨_, fun _ => rfl, .inl (effect_drainEnd f).toAll⟩
  | attnPulseEnd => exact ⟨_, fun _ => rfl, .inl confined_endPulse⟩
  | bodyWord w => exact ⟨_, fun _ => rfl, .inl (confined_takeBody w)⟩
  | take => exact ⟨_, fun _ => rfl, .inl effect_takeClass.toAll⟩
  | finishTop b => exact ⟨_, fun _ => rfl, .inl (effect_finishTopClass b).toAll⟩
  | finish b c => exact ⟨_, fun _ => rfl, .inl (effect_finishClass b c).toAll⟩
  | setLowest c => exact ⟨_, fun _ => rfl, .inl (effect_setLowestClass c).toAll⟩
  | ackInvalid o => exact ⟨_, fun _ => rfl, .inl (effect_takeAck _ _ _).toAll⟩
  | consumedWrite w => exact ⟨_, fun _ => rfl, .inl (effect_offerConsumed _).toAll⟩
  | _ => exact ⟨_, fun _ => rfl, .inl (confined_streamCommand _ _ _)⟩

/-! Every command completes. -/

/-- What the operation of a command keeps of the queue of commands, the window, the time and the reset line. -/
theorem pathCommand_pins {c : Instr} {g : State → State} (h : PathCommand c g) (s : State) :
    (g s).pending = s.pending ∧
      ((∀ w, c ≠ .powerOnReset w) →
        (g s).windowBase = s.windowBase ∧
        ((∀ order, c ≠ .millisecondIncrement order) → (g s).timeCount = s.timeCount) ∧
        (c ≠ .porstNAssertion → (g s).porstAsserted = s.porstAsserted)) := by
  have kept : ∀ {k : State → State}, Accounted k → (k s).pending = s.pending ∧ ((∀ w, c ≠ .powerOnReset w) →
      (k s).windowBase = s.windowBase ∧ ((∀ order, c ≠ .millisecondIncrement order) → (k s).timeCount = s.timeCount) ∧
      (c ≠ .porstNAssertion → (k s).porstAsserted = s.porstAsserted)) := fun a =>
    ⟨(a.pins s).pending, fun _ => ⟨(a.pins s).windowBase, fun _ => a.time s, fun _ => (a.pins s).porstAsserted⟩⟩
  cases h with
  | reset w => exact ⟨rfl, fun k => absurd rfl (k w)⟩
  | assertion => exact ⟨rfl, fun _ => ⟨rfl, fun _ => rfl, fun k => absurd rfl k⟩⟩
  | millisecond o =>
    have pins := runMillisecond_pins o s
    exact ⟨pins.pending, fun _ => ⟨pins.windowBase, fun k => absurd rfl (k o), fun _ => pins.porstAsserted⟩⟩
  | tick o => exact kept (accounted_runTick o)
  | epoch o => exact kept (accounted_runEpoch o)
  | offer r => exact kept (accounted_offerRequest r)
  | image w l b d t i =>
    have a := accounted_offerRequest (localRequest s w l b d t i)
    exact ⟨(a.pins s).pending, fun _ => ⟨(a.pins s).windowBase, fun _ => a.time s, fun _ => (a.pins s).porstAsserted⟩⟩
  | response => exact kept (accounted_acceptWaiting.comp accounted_takeResponse)
  | grant => exact kept (accounted_acceptWaiting.comp accounted_grantBeat)
  | memory st d => exact kept (accounted_takeMemoryResponse _ d)
  | journal => exact kept accounted_journalEnqueue
  | status =>
    obtain ⟨pins, time⟩ := keepsPins_statusEnqueue s
    exact ⟨pins.pending, fun _ => ⟨pins.windowBase, fun _ => time, fun _ => pins.porstAsserted⟩⟩

/-- Settles O2: what every command runs, and what that keeps. -/
theorem everyCommandCompletes : Obligations.EveryCommandCompletes := by
  intro c s
  obtain ⟨g, next, confined | path⟩ := exec_runs c
  · have k := confined.path s
    exact ⟨_, next s, k.pending, fun _ => ⟨k.windowBase, fun _ => k.timeCount, fun _ => k.porstAsserted⟩⟩
  · exact ⟨_, next s, pathCommand_pins path s⟩

/-! Accepted requests. -/

/-- What stays of an entry of the order list (R62, R66). -/
structure EntryKept (e e' : OrderEntry) : Prop where
  kind : e'.kind = e.kind
  id : e'.id = e.id
  cls : e'.cls = e.cls
  context : e'.context = e.context
  completion : e.completion = .awaitingMemory ∨ e'.completion = e.completion

theorem EntryKept.refl (e : OrderEntry) : EntryKept e e := ⟨rfl, rfl, rfl, rfl, .inr rfl⟩

theorem EntryKept.trans {a b c : OrderEntry} (h : EntryKept a b) (k : EntryKept b c) : EntryKept a c where
  kind := k.kind.trans h.kind
  id := k.id.trans h.id
  cls := k.cls.trans h.cls
  context := k.context.trans h.context
  completion := by
    rcases h.completion with wait | same
    · exact .inl wait
    · exact k.completion.imp same.symm.trans fun q => q.trans same

/-- The entries of the first list stand at their places in the second. -/
def EntriesKept (l l' : List OrderEntry) : Prop := ∀ (i : Nat) e, l[i]? = some e → ∃ e', l'[i]? = some e' ∧ EntryKept e e'

theorem EntriesKept.refl (l : List OrderEntry) : EntriesKept l l := fun _ e h => ⟨e, h, .refl e⟩

theorem EntriesKept.trans {a b c : List OrderEntry} (h : EntriesKept a b) (k : EntriesKept b c) : EntriesKept a c := by
  intro i e he
  obtain ⟨e', he', kept⟩ := h i e he
  obtain ⟨e'', he'', kept'⟩ := k i e' he'
  exact ⟨e'', he'', kept.trans kept'⟩

theorem entriesKept_append (l more : List OrderEntry) : EntriesKept l (l ++ more) := fun i e h =>
  ⟨e, by rw [List.getElem?_append_left (List.getElem?_eq_some_iff.1 h).1, h], .refl e⟩

theorem entryKept_answered {e : OrderEntry} (h : e.awaiting = true) (st : Status) (d : Word) :
    EntryKept e (e.answered st d) := by
  refine ⟨rfl, rfl, rfl, rfl, .inl ?_⟩
  unfold OrderEntry.awaiting at h
  split at h
  · assumption
  · cases h

theorem entriesKept_answerOldest (st : Status) (d : Word) (l : List OrderEntry) : EntriesKept l (answerOldest st d l) := by
  induction l with
  | nil => exact .refl _
  | cons a rest ih =>
    intro i e h
    unfold answerOldest
    cases i with
    | zero =>
      cases h
      split
      · rename_i waits
        exact ⟨_, rfl, entryKept_answered waits st d⟩
      · exact ⟨_, rfl, .refl _⟩
    | succ i =>
      split
      · exact ⟨e, h, .refl e⟩
      · exact ih i e h

theorem EntriesKept.split {l l' : List OrderEntry} (h : EntriesKept l l') :
    ∃ es more, l' = es ++ more ∧ List.Forall₂ EntryKept l es := by
  refine ⟨l'.take l.length, l'.drop l.length, (List.take_append_drop _ _).symm, ?_⟩
  induction l generalizing l' with
  | nil => simp
  | cons e rest ih =>
    obtain ⟨e', he', kept⟩ := h 0 e rfl
    cases l' with
    | nil => cases he'
    | cons a l' =>
      cases he'
      exact .cons kept (ih fun i e k => h (i + 1) e k)

/-! What the operations of the request path keep of the order list. -/

theorem Confined.entries {fs : List (Fin 4)} {g : State → State} (h : Confined fs g) (s : State) :
    EntriesKept s.orderList (g s).orderList := by
  rw [(h.path s).orderList]
  exact .refl _

theorem entries_enterRequest (r : Request) (c : RequestClass) (k : Option ScaleContext) (s : State) :
    EntriesKept s.orderList (enterRequest r c k s).orderList := entriesKept_append _ _

theorem entries_acceptRequest (r : Request) (s : State) : EntriesKept s.orderList (acceptRequest r s).orderList := by
  have latched := (confined_latchIfFrameStart (classify s r)).entries s
  have told := (confined_superviseIfFrameStart (classify s r)).entries (latchIfFrameStart (classify s r) s)
  exact (latched.trans told).trans ((entries_enterRequest r _ _ _).trans ((confined_handOn r (classify s r)).entries _))

theorem entries_acceptFrom (rs : List Request) (s : State) : EntriesKept s.orderList (acceptFrom rs s).orderList := by
  induction rs generalizing s with
  | nil => exact .refl _
  | cons r rest ih =>
    unfold acceptFrom
    split
    · exact (entries_acceptRequest r s).trans (ih _)
    · exact .refl _

theorem entries_offerRequest (r : Request) (s : State) : EntriesKept s.orderList (offerRequest r s).orderList := by
  unfold offerRequest
  split
  · exact .refl _
  · exact entries_acceptFrom _ s

theorem orderList_grantBeat (s : State) : (grantBeat s).orderList = s.orderList := by
  unfold grantBeat issueGrant
  split
  · split <;> rfl
  · rfl

theorem entries_takeMemoryResponse (st : Status) (d : Word) (s : State) :
    EntriesKept s.orderList (takeMemoryResponse st d s).orderList := by
  unfold takeMemoryResponse
  split
  · exact .refl _
  · exact entriesKept_answerOldest st d _
  · rename_i o rest _
    exact (confined_completeOwnWrite o st).entries { s with inFlight := rest }

theorem orderList_journalEnqueue (s : State) : (journalEnqueue s).orderList = s.orderList := by
  unfold journalEnqueue
  split
  · split
    · rfl
    · split <;> rfl
  · rfl

theorem orderList_statusEnqueue (s : State) : (statusEnqueue s).orderList = s.orderList := by
  have taken (w : ImageWord) : (takeDirty w s).orderList = s.orderList := by
    unfold takeDirty
    dsimp only
    split <;> rfl
  unfold statusEnqueue
  split
  · split
    · rfl
    · split
      · rfl
      · exact taken _
  · rfl

theorem orderList_runTick (order : List TickPart) (s : State) : (runTick order s).orderList = s.orderList :=
  ((confined_parts _ _).path (countTick s)).orderList

theorem orderList_runMillisecond (order : List TickPart) (s : State) : (runMillisecond order s).orderList = s.orderList := by
  unfold runMillisecond
  dsimp only
  split
  · exact orderList_runTick order _
  · rfl

theorem entries_pathCommand {c : Instr} {g : State → State} (h : PathCommand c g) (s : State)
    (reset : ∀ w, c ≠ .powerOnReset w) (response : c ≠ .cportResponseTaken) : EntriesKept s.orderList (g s).orderList := by
  have same : ∀ {t : State}, t.orderList = s.orderList → EntriesKept s.orderList t.orderList := fun k => k ▸ .refl _
  cases h with
  | reset w => exact absurd rfl (reset w)
  | response => exact absurd rfl response
  | assertion => exact .refl _
  | millisecond o => exact same (orderList_runMillisecond o s)
  | tick o => exact same (orderList_runTick o s)
  | epoch o => exact same ((confined_epochFaces _).path { s with epochTimer := epochPeriod s.epochSelect }).orderList
  | offer r => exact entries_offerRequest r s
  | image w l b d t i => exact entries_offerRequest _ s
  | grant => exact (same (orderList_grantBeat s)).trans (entries_acceptFrom _ _)
  | memory st d => exact entries_takeMemoryResponse _ d s
  | journal => exact same (orderList_journalEnqueue s)
  | status => exact same (orderList_statusEnqueue s)

/-- Settles O18: a command appends to the order list or answers its oldest awaiting entry, and changes nothing else of
it. -/
theorem acceptedRequestsKeepTheirEntries : Obligations.AcceptedRequestsKeepTheirEntries := by
  intro c s t next reset response
  obtain ⟨g, runs, confined | path⟩ := exec_runs c <;> cases (runs s).symm.trans next
  · obtain ⟨es, more, eq, kept⟩ := (confined.entries s).split
    exact ⟨es, more, eq, kept.imp fun _ _ k => ⟨k.kind, k.id, k.cls, k.context, k.completion⟩⟩
  · obtain ⟨es, more, eq, kept⟩ := (entries_pathCommand path s reset response).split
    exact ⟨es, more, eq, kept.imp fun _ _ k => ⟨k.kind, k.id, k.cls, k.context, k.completion⟩⟩

end Sys2Proof.Machine
end

/-! PROOFS. What an image word shows: its fields of 11.7, the generation count apart; and every word in which a command
shows is dirty after it (R159, R160). -/

section

namespace Sys2Proof.Machine

/-! Options as fields. -/

theorem optionFields_inj (a b : Option Nat) : optionFields a = optionFields b ↔ a = b := by
  cases a <;> cases b <;> simp [optionFields]

theorem option_val_inj {n : Nat} (a b : Option (Fin n)) : a.map Fin.val = b.map Fin.val ↔ a = b :=
  ⟨fun h => Option.map_injective Fin.val_injective h, congrArg _⟩

theorem bitOf_inj (a b : Bool) : bitOf a = bitOf b ↔ a = b := by
  cases a <;> cases b <;> simp [bitOf]

theorem flagBit_inj (a b : Bool) : flagBit a = flagBit b ↔ a = b := bitOf_inj a b

/-- An optional class is written by its presence and its number, an absent one as 0 (R185). -/
theorem option_eq_iff_fields {n : Nat} [NeZero n] (a b : Option (Fin n)) :
    a = b ↔ bitOf a.isSome = bitOf b.isSome ∧ (a.getD 0).val = (b.getD 0).val := by
  cases a <;> cases b <;> simp [bitOf, Fin.val_inj]

theorem temp_eq_iff_fields (a b : Option Int) : a = b ↔ flagBit a.isSome = flagBit b.isSome ∧ a.getD 0 = b.getD 0 := by
  cases a <;> cases b <;> simp [flagBit]

/-! The fields a word shows are its fields of 11.7. -/

theorem partShown_iff (s t : State) (i : Fin 8) (h : i ≠ 0) :
    partShown t i = partShown s i ↔ partFields t (0x040 + 4 * i.val) = partFields s (0x040 + 4 * i.val) := by
  match i with
  | 0 => exact absurd rfl h
  | 1 => simp [partShown, partFields]
  | 2 => simp [partShown, partFields]
  | 3 =>
    show _ ↔ partFields t 0x04C = partFields s 0x04C
    simp only [partShown, partFields, List.cons_append, List.nil_append, List.cons.injEq, BitField.mk.injEq, Nat.cast_inj,
      optionFields_inj, option_val_inj, true_and, and_true]
    rw [option_eq_iff_fields t.attention.presented s.attention.presented]
    constructor
    · rintro ⟨inService, mask, pending, present, cls⟩
      exact ⟨present, cls, inService, mask, pending⟩
    · rintro ⟨present, cls, inService, mask, pending⟩
      exact ⟨inService, mask, pending, present, cls⟩
  | 4 =>
    show _ ↔ partFields t 0x050 = partFields s 0x050
    simp only [partShown, partFields, List.cons_append, List.nil_append, List.cons.injEq, BitField.mk.injEq, Nat.cast_inj,
      optionFields_inj, option_val_inj, true_and, and_true]
    rw [option_eq_iff_fields t.attention.ackClass s.attention.ackClass]
    constructor
    · rintro ⟨result, base, present, cls⟩
      exact ⟨present, cls, result, base⟩
    · rintro ⟨present, cls, result, base⟩
      exact ⟨result, base, present, cls⟩
  | 5 => simp [partShown, partFields]
  | 6 =>
    show _ ↔ partFields t 0x058 = partFields s 0x058
    simp only [partShown, partFields, Journal.fill, List.cons.injEq, BitField.mk.injEq, Nat.cast_inj, true_and, and_true]
  | 7 => simp [partShown, partFields]

theorem faceShown_iff (x y : Face) (i : Fin 8) : faceShown y i = faceShown x i ↔ faceFields y (4 * i.val) = faceFields x (4 * i.val) := by
  match i with
  | 0 => simp [faceShown, faceFields, flagBit_inj, bitOf_inj]
  | 1 => simp [faceShown, faceFields]
  | 2 => simp [faceShown, faceFields]
  | 3 => simp [faceShown, faceFields]
  | 4 => simp [faceShown, faceFields]
  | 5 => simp [faceShown, faceFields]
  | 6 => simp [faceShown, faceFields, recordsIn_eq]
  | 7 => simp [faceShown, faceFields]

theorem moduleShown_iff (x y : Face) (n : Fin 64) :
    moduleShown (pick y.records n) (pick y.mailboxes n) = moduleShown (pick x.records n) (pick x.mailboxes n) ↔
      moduleFields y n = moduleFields x n ∧ (pick y.records n).measuredTemp = (pick x.records n).measuredTemp := by
  simp only [moduleShown, moduleFields, List.cons.injEq, BitField.mk.injEq, Nat.cast_inj, flagBit_inj, bitOf_inj, true_and,
    and_true]
  rw [temp_eq_iff_fields (pick y.records n).measuredTemp, flagBit_inj]
  constructor
  · rintro ⟨state, step, level, supply, pixels, silent, mailbox, present, temp⟩
    have measured := (temp_eq_iff_fields _ _).2 ⟨(flagBit_inj _ _).2 present, temp⟩
    exact ⟨⟨silent, by rw [measured], pixels, supply, level, step, mailbox, state⟩, present, temp⟩
  · rintro ⟨⟨silent, -, pixels, supply, level, step, mailbox, state⟩, present, temp⟩
    exact ⟨state, step, level, supply, pixels, silent, mailbox, present, temp⟩

/-! The value of a word is made of what it shows, the generation count apart. -/

theorem partImage_of_shown {s t : State} {i : Fin 8} (h : i ≠ 0) (same : partShown t i = partShown s i) :
    partImage t i = partImage s i := by
  match i with
  | 0 => exact absurd rfl h
  | 3 =>
    simp only [partShown, List.cons_append, List.nil_append, List.cons.injEq, Nat.cast_inj, optionFields_inj,
      option_val_inj] at same
    simp only [partImage, same]
  | 4 =>
    simp only [partShown, List.cons_append, List.nil_append, List.cons.injEq, Nat.cast_inj, optionFields_inj,
      option_val_inj] at same
    simp only [partImage, same]
  | 1 | 2 | 5 | 6 | 7 =>
    simp only [partShown, List.cons.injEq, Nat.cast_inj] at same
    simp only [partImage, same]

theorem faceImage_of_shown {x y : Face} {i : Fin 8} (same : faceShown y i = faceShown x i) : faceImage y i = faceImage x i := by
  match i with
  | 0 | 1 | 2 | 3 | 4 | 5 | 6 | 7 =>
    simp only [faceShown, List.cons.injEq, Nat.cast_inj] at same
    simp only [faceImage, same]

theorem moduleImage_of_shown {r q : ModuleRecord} {m k : Option OneShot} (same : moduleShown q k = moduleShown r m) :
    moduleImage q k = moduleImage r m := by
  simp only [moduleShown, List.cons.injEq, Nat.cast_inj] at same
  obtain ⟨state, step, level, supply, pixels, silent, mailbox, present, temp, -⟩ := same
  have measured := (temp_eq_iff_fields _ _).2 ⟨present, temp⟩
  simp only [moduleImage, state, step, level, supply, pixels, silent, mailbox, measured]

theorem imageValue_of_shown {s t : State} {w : ImageWord} (h : w ≠ 0) (same : shown t w = shown s w) :
    imageValue t w = imageValue s w := by
  unfold shown at same
  unfold imageValue
  cases place : imagePlace w with
  | part i =>
    simp only [place] at same ⊢
    refine partImage_of_shown (fun zero => h ?_) same
    rw [imagePlace_part place, zero]
    rfl
  | face f i =>
    simp only [place] at same ⊢
    exact faceImage_of_shown same
  | module f n =>
    simp only [place] at same ⊢
    exact moduleImage_of_shown same

/-- The low half of the generation word is the own-write error count. -/
theorem generation_low (s : State) : (imageValue s 0).toNat % 2 ^ 16 = s.ownWriteErrors % 2 ^ 16 := by
  have value : imageValue s 0 = place s.generation.toNat 16 16 ||| place s.ownWriteErrors 0 16 := rfl
  rw [value]
  apply Nat.eq_of_testBit_eq
  intro i
  simp only [Nat.testBit_mod_two_pow, BitVec.testBit_toNat, BitVec.getLsbD_or, place_getLsbD]
  by_cases low : i < 16
  · have : i < 32 := by omega
    simp [low, this]
  · simp [low]

/-! Every word in which a command shows is dirty after it. -/

theorem pathCommand_tracks {c : Instr} {g : State → State} (h : PathCommand c g) (s : State)
    (status : c ≠ .statusWordEnqueue) : TracksImage s (g s) := by
  cases h with
  | reset w => exact tracks_allDirty rfl
  | assertion => exact tracks_same rfl rfl rfl rfl rfl rfl rfl
  | millisecond o => exact runMillisecond_tracks o s
  | tick o => exact (accounted_runTick o).tracks s
  | epoch o => exact (accounted_runEpoch o).tracks s
  | offer r => exact (accounted_offerRequest r).tracks s
  | image w l b d t i => exact (accounted_offerRequest _).tracks s
  | response => exact (accounted_acceptWaiting.comp accounted_takeResponse).tracks s
  | grant => exact (accounted_acceptWaiting.comp accounted_grantBeat).tracks s
  | memory st d => exact (accounted_takeMemoryResponse _ d).tracks s
  | journal => exact accounted_journalEnqueue.tracks s
  | status => exact absurd rfl status

theorem exec_tracks {c : Instr} {s t : State} (next : exec c s = .next t) (status : c ≠ .statusWordEnqueue) :
    TracksImage s t := by
  obtain ⟨g, runs, confined | path⟩ := exec_runs c <;> cases (runs s).symm.trans next
  · exact confined.tracks s
  · exact pathCommand_tracks path s status

theorem exec_marks {c : Instr} {s t : State} (next : exec c s = .next t) (w : ImageWord) (show_ : shown t w ≠ shown s w) :
    pick t.dirty w = true := by
  by_cases status : c = .statusWordEnqueue
  · subst status
    cases next
    exact absurd (shown_statusEnqueue s w) show_
  · exact (exec_tracks next status w).1 show_

/-- What shows in the generation word is the own-write error count. -/
theorem shown_zero (s t : State) : shown t 0 = shown s 0 ↔ t.ownWriteErrors = s.ownWriteErrors := by
  rw [show (0 : ImageWord) = partWord 0 from rfl, shown_partWord, shown_partWord]
  simp [partShown]

/-- Settles O59: a word whose value changes is one that shows the change, and that one is marked. -/
theorem imageWordsAreMarked : Obligations.ImageWordsAreMarked := by
  refine ⟨fun c s t next => ⟨exec_marks next, ?_, ?_, exec_tracks next⟩, fun s t w => ⟨?_, ?_, ?_, ?_⟩⟩
  · exact fun w zero change => exec_marks next w fun same => change (imageValue_of_shown zero same)
  · refine fun change => exec_marks next 0 fun same => change ?_
    rw [generation_low, generation_low, (shown_zero s t).1 same]
  · intro h
    obtain rfl : w = 0 := Fin.ext h
    exact shown_zero s t
  · intro i pos le h
    obtain rfl : w = partWord ⟨i, le⟩ := Fin.ext h
    rw [shown_partWord, shown_partWord]
    exact partShown_iff s t ⟨i, le⟩ fun zero => absurd (congrArg Fin.val zero) (Nat.one_le_iff_ne_zero.1 pos)
  · intro f i le h
    obtain rfl : w = faceWord f ⟨i, le⟩ := Fin.ext h
    rw [shown_faceWord, shown_faceWord]
    exact faceShown_iff _ _ ⟨i, le⟩
  · intro f n h
    obtain rfl : w = moduleWord f n := Fin.ext h
    rw [shown_moduleWord, shown_moduleWord]
    exact moduleShown_iff _ _ n

end Sys2Proof.Machine
end

/-! PROOFS. A row that names a face leaves every other face as it was: the operations of the face blocks are confined to
it, and a row of the stream decoder holds its own HEAD word until it ends (R164 to R168). -/

section

namespace Sys2Proof.Machine

/-! The decoder through a row. -/

/-- The decoder is IDLE, or holds a HEAD word as its command in progress. -/
def Holding (h : HeadWord) (s : State) : Prop := s.decoder.state = .idle ∨ s.decoder.command = h

theorem postResult_idle (h : HeadWord) (r : ResultCode) (s : State) : (postResult h r s).decoder.state = .idle := by
  unfold postResult
  dsimp only
  split
  · rfl
  · rw [raiseEvent_decoder]
    rfl

theorem executeCommand_idle (c : Command) (h : HeadWord) (ws : List Word) (s : State) :
    (executeCommand c h ws s).decoder.state = .idle := by
  rw [executeCommand_eq]
  exact postResult_idle h _ _

theorem completeCommand_idle (h : HeadWord) (ws : List Word) (s : State) : (completeCommand h ws s).decoder.state = .idle := by
  unfold completeCommand
  split
  · exact executeCommand_idle _ h ws s
  · exact postResult_idle h _ s

theorem holding_takeHead (h : HeadWord) (s : State) : Holding h (takeHead h s) := by
  unfold takeHead decodeHead
  dsimp only
  split
  · split
    · split
      · exact .inl (executeCommand_idle _ h [] _)
      · exact .inr rfl
    · split
      · exact .inl (postResult_idle h _ _)
      · exact .inr rfl
  · split
    · exact .inl (postResult_idle h _ _)
    · exact .inr rfl

theorem holding_takeBody {h : HeadWord} {s : State} (held : Holding h s) (w : Word) : Holding h (takeBody w s) := by
  rw [takeBody_eq]
  unfold bodyAt
  cases state : s.decoder.state with
  | idle => exact .inl ((congrArg Decoder.state (raiseEvent_decoder s _ _ _ _ _)).trans state)
  | collecting =>
    have command : s.decoder.command = h := held.resolve_left (by simp [state])
    dsimp only
    split
    · exact .inl (completeCommand_idle _ _ s)
    · exact .inr command
  | discarding =>
    have command : s.decoder.command = h := held.resolve_left (by simp [state])
    dsimp only
    split
    · exact .inl (postResult_idle _ _ s)
    · exact .inr command

theorem face_takeBody {h : HeadWord} {s : State} (held : Holding h s) (w : Word) {g : Fin 4} (other : g ∉ h.faces) :
    (takeBody w s).face g = s.face g := by
  rw [takeBody_eq]
  rcases held with idle | command
  · unfold bodyAt
    rw [idle]
    exact (effect_raiseEvent (fs := []) _ _ _ _ _).faces s g List.not_mem_nil
  · exact (confined_bodyAt s.decoder w).faces s g (command ▸ other)

theorem face_takeBodies {h : HeadWord} {g : Fin 4} (other : g ∉ h.faces) (ws : List Word) {s : State} (held : Holding h s) :
    (takeBodies ws s).face g = s.face g := by
  induction ws generalizing s with
  | nil => rfl
  | cons w ws ih => exact (ih (holding_takeBody held w)).trans (face_takeBody held w other)

/-- A row of the decoder leaves the faces its command does not change. -/
theorem face_streamCommand (c : Command) (h : HeadFields) (ws : List Word) (s : State) {g : Fin 4} (other : g ∉ c.faces h) :
    (streamCommand c.code h ws s).face g = s.face g := by
  have outside : g ∉ ({ code := c.code, fields := h } : HeadWord).faces := by
    unfold HeadWord.faces
    rw [commandOf_code]
    exact other
  exact (face_takeBodies outside ws (holding_takeHead _ s)).trans ((confined_takeHead _).faces s g outside)

/-- Settles O60: each row changes its own face alone. -/
theorem facesAreIsolated : Obligations.FacesAreIsolated := by
  intro c f g s t named ne next
  have outside : g ∉ [f] := fun k => ne (List.mem_singleton.1 k)
  cases c with
  | stallExpiry k => cases next; cases named; exact (effect_stallExpiry f).faces s g outside
  | linkSync k => cases next; cases named; exact (effect_linkSync f).faces s g outside
  | slotStart k n => cases next; cases named; exact (effect_slotStart f n).faces s g outside
  | slotEnd k n w => cases next; cases named; exact (effect_slotEnd f n w).faces s g outside
  | drainEnd k => cases next; cases named; exact (effect_drainEnd f).faces s g outside
  | faceGeometry h ws => cases next; cases named; exact face_streamCommand .faceGeometry h ws s outside
  | faceZonemap h ws => cases next; cases named; exact face_streamCommand .faceZonemap h ws s outside
  | faceCurve h ws => cases next; cases named; exact face_streamCommand .faceCurve h ws s outside
  | faceLimits h ws => cases next; cases named; exact face_streamCommand .faceLimits h ws s outside
  | faceStart h ws => cases next; cases named; exact face_streamCommand .faceStart h ws s outside
  | faceStop h ws => cases next; cases named; exact face_streamCommand .faceStop h ws s outside
  | faceHold h ws => cases next; cases named; exact face_streamCommand .faceHold h ws s outside
  | faceRelease h ws => cases next; cases named; exact face_streamCommand .faceRelease h ws s outside
  | outputConfig h ws => cases next; cases named; exact face_streamCommand .outputConfig h ws s outside
  | linkSetup h ws => cases next; cases named; exact face_streamCommand .linkSetup h ws s outside
  | moduleCommand h ws => cases next; cases named; exact face_streamCommand .moduleCommand h ws s outside
  | moduleClear h ws => cases next; cases named; exact face_streamCommand .moduleClear h ws s outside
  | _ => cases named

end Sys2Proof.Machine
end

/-! PROOFS. The attention controller and events: the presented class (R136), the attention line (R138), raised events
(R133, R147, R156) and the consumed index (R152). -/

section

namespace Sys2Proof.Machine

/-! The presented class. -/

theorem rankOf_eq (base c : Fin 8) : rankOf base c = (c.val + 8 - base.val) % 8 := by
  revert base c; decide

theorem ranksAbove_iff (base c : Fin 8) (p : Set8) :
    ranksAbove base c p = true ↔ ∀ e, hasClass p e = true → rankOf base c < rankOf base e := by
  unfold ranksAbove
  rw [List.all_eq_true]
  refine ⟨fun h e inService => ?_, fun h e _ => ?_⟩
  · simpa [inService] using h e (mem_ranking base e)
  · cases inService : hasClass p e with
    | false => simp
    | true => simpa using h e inService

theorem rankOf_injective {base c d : Fin 8} (h : rankOf base c = rankOf base d) : c = d :=
  sub_left_injective (Fin.ext h)

/-- The first class of the ranking that fits is the least in rank of those that fit. -/
theorem find?_ranking_iff (base c : Fin 8) (fits : Fin 8 → Bool) :
    (ranking base).find? fits = some c ↔ fits c = true ∧ ∀ d, fits d = true → rankOf base c ≤ rankOf base d := by
  refine ⟨fun found => ?_, fun ⟨fit, least⟩ => find?_ranking_of_least fit least⟩
  have fit := List.find?_some found
  refine ⟨fit, fun d other => ?_⟩
  by_contra higher
  obtain ⟨e, fit', least⟩ : ∃ e, fits e = true ∧ ∀ d, fits d = true → rankOf base e ≤ rankOf base d := by
    obtain ⟨e, mem, least⟩ := Finset.exists_min_image (Finset.univ.filter fun e => fits e = true) (rankOf base) ⟨c, by simpa using fit⟩
    exact ⟨e, by simpa using mem, fun d other => least d (by simpa using other)⟩
  have same : some e = some c := (find?_ranking_of_least fit' least).symm.trans found
  cases same
  exact higher (least d other)

/-- Settles O30: the first class of the ranking that fits is the least in rank. -/
theorem presentedClassRanksHighest : Obligations.PresentedClassRanksHighest := by
  intro a c
  simp only [← rankOf_eq]
  unfold Attention.presented
  rw [find?_ranking_iff]
  simp only [Bool.and_eq_true, Bool.not_eq_true', ranksAbove_iff, and_assoc]

/-- Settles O34: by the two output modes. -/
theorem attentionLine : Obligations.AttentionLine := by
  refine fun s => ⟨fun released mode => ?_, fun released mode => ?_, rfl⟩
  · simp [State.attnHigh, released, mode, Option.ne_none_iff_isSome]
  · simp [State.attnHigh, released, mode]

/-! Raised events. -/

/-- An event of a class is the class joined and the entry offered. -/
theorem raiseEvent_of_class {code : EventCode} {c : Fin 8} (cls : code.cls = some c) (f : Fin 4) (n : Fin 64) (x y : Word)
    (s : State) :
    raiseEvent code f n x y s =
      offerEvent { code := code, face := f, slot := n, time := s.timeCount, detailA := x, detailB := y } (raiseClass c s) := by
  unfold raiseEvent
  rw [cls]
  rfl

theorem raiseEvent_room {code : EventCode} {c : Fin 8} (cls : code.cls = some c) (f : Fin 4) (n : Fin 64) (x y : Word) (s : State)
    (room : s.eventQueue.length < 32) :
    SameBesidesDirty
      { s with
        attention := s.attention.joined c
        eventQueue := s.eventQueue ++ [{ code := code, face := f, slot := n, time := s.timeCount, detailA := x, detailB := y }] }
      (raiseEvent code f n x y s) := by
  rw [raiseEvent_of_class cls]
  exact offerEvent_room _ (raiseClass c s) room

theorem raiseEvent_full {code : EventCode} {c : Fin 8} (cls : code.cls = some c) (f : Fin 4) (n : Fin 64) (x y : Word) (s : State)
    (full : 32 ≤ s.eventQueue.length) :
    SameBesidesDirty
      { s with
        attention := if s.journal.drops = 0 then (s.attention.joined c).joined 7 else s.attention.joined c
        journal := { s.journal with drops := min 65535 (s.journal.drops + 1) } }
      (raiseEvent code f n x y s) := by
  rw [raiseEvent_of_class cls, offerEvent_full _ (raiseClass c s) full]
  exact countDrop_same (raiseClass c s)

/-- Settles O35: the class joins first, then the entry is offered. -/
theorem raisedEventsAreQueuedOrCounted : Obligations.RaisedEventsAreQueuedOrCounted := by
  intro code f n a b s c h
  have cls : code.cls = some c := by
    cases code
    case droppedSummary => exact absurd h (Nat.ne_of_lt c.isLt)
    all_goals exact congrArg some (Fin.ext h.symm)
  exact ⟨(marks_raiseEvent code f n a b s).exactly, raiseEvent_room cls f n a b s, raiseEvent_full cls f n a b s⟩

/-! The consumed index. -/

theorem marks_changeJournal (g : Journal → Journal) (s : State) :
    Marks [partWord 5, partWord 6, partWord 7] s (changeJournal g s) := by
  refine marks_touch_part rfl rfl fun i other => ?_
  match i with
  | 5 | 6 | 7 => simp at other
  | 0 | 1 | 2 | 3 | 4 => rfl

theorem changeJournal_same (g : Journal → Journal) (s : State) :
    SameBesidesDirty { s with journal := g s.journal } (changeJournal g s) := rfl

theorem raiseThreshold_same (before : Nat) (s : State) :
    SameBesidesDirty
      { s with
        attention := if before < s.journal.threshold ∧ s.journal.threshold ≤ s.journal.fill then s.attention.joined 7 else s.attention }
      (raiseThreshold before s) := by
  unfold raiseThreshold
  split
  · exact raiseClass_same _ s
  · rfl

theorem marks_raiseThreshold (before : Nat) (s : State) : Marks [partWord 3] s (raiseThreshold before s) := by
  unfold raiseThreshold
  split
  · exact marks_raiseClass _ s
  · exact (Marks.refl s).mono nofun

/-- A change of the journal, and class 7 if the fill so rises across the threshold. -/
theorem journalChange_same (g : Journal → Journal) (before : Nat) (s : State) :
    SameBesidesDirty
      { s with
        journal := g s.journal
        attention :=
          if before < (g s.journal).threshold ∧ (g s.journal).threshold ≤ (g s.journal).fill then s.attention.joined 7
          else s.attention }
      (raiseThreshold before (changeJournal g s)) :=
  raiseThreshold_same before (changeJournal g s)

theorem marks_journalChange (g : Journal → Journal) (before : Nat) (s : State) :
    MarksExactly s (raiseThreshold before (changeJournal g s)) :=
  ((marks_changeJournal g s).trans (marks_raiseThreshold before _) (by simp)).exactly

theorem hasCurrent_iff (j : Journal) : j.hasCurrent = true ↔ ∃ r, j.inProgress = some r ∧ r.superseded = false := by
  unfold Journal.hasCurrent
  cases j.inProgress <;> simp

theorem accepts_iff (j : Journal) (v : BitVec 16) :
    j.accepts v = true ↔ (j.writeIndex - v).toNat ≤ j.capacityInForce ∧ (j.produced - v).toNat ≤ j.capacityInForce := by
  simp [Journal.accepts]

theorem writeIndex_eq {j : Journal} {wi : BitVec 16}
    (current : (∃ r, j.inProgress = some r ∧ r.superseded = false) → wi = j.produced + 1)
    (other : ¬(∃ r, j.inProgress = some r ∧ r.superseded = false) → wi = j.produced) : j.writeIndex = wi := by
  unfold Journal.writeIndex
  split
  · rename_i h
    exact (current ((hasCurrent_iff j).1 h)).symm
  · rename_i h
    exact (other fun k => h ((hasCurrent_iff j).2 k)).symm

theorem consumedField_eq (w : Word) : consumedField w = w.setWidth 16 := by
  apply BitVec.eq_of_toNat_eq
  simp [consumedField, field]

/-- Settles O38: the acceptance test, at both indices. -/
theorem consumedIndexIsTested : Obligations.ConsumedIndexIsTested := by
  intro data s
  dsimp only
  intro wi current other
  have index := writeIndex_eq current other
  have runs : exec (.consumedWrite data) s = .next (offerConsumed (data.setWidth 16) s) := by
    rw [← consumedField_eq]
    rfl
  have accepts := accepts_iff s.journal (data.setWidth 16)
  rw [index] at accepts
  refine ⟨_, runs, ?_, fun within => ?_, fun beyond => ?_⟩ <;> unfold offerConsumed
  · split
    · exact marks_journalChange _ _ s
    · exact (marks_raiseEvent _ _ _ _ _ s).exactly
  · rw [if_pos (accepts.2 within)]
    exact journalChange_same _ _ s
  · rw [if_neg fun k => ?_, index]
    · rfl
    · obtain ⟨h, h'⟩ := accepts.1 k
      exact beyond.elim (Nat.not_lt.2 h) (Nat.not_lt.2 h')

end Sys2Proof.Machine
end

/-! PROOFS. The timebase: a millisecond, a tick and an epoch, whatever the order of the blocks (R17 to R29, R77, R78). -/

section

namespace Sys2Proof.Machine

/-- Settles O4: a millisecond below 9 counts, and from 9 runs the tick. -/
theorem millisecondsBringTicks : Obligations.MillisecondsBringTicks := by
  intro order s
  have runs : exec (.millisecondIncrement order) s = .next (runMillisecond order s) := rfl
  have divides : (Config.tickDividerPeriod ≤ s.tickDivider + 1) ↔ 9 ≤ s.tickDivider := Nat.succ_le_succ_iff
  rw [runs]
  unfold runMillisecond
  dsimp only
  refine ⟨fun below => ?_, fun full => ?_⟩
  · rw [if_neg fun k => Nat.not_le.2 below (divides.1 k)]
  · rw [if_pos (divides.2 full)]
    rfl

/-! What the blocks of a face change outside the faces. -/

theorem facesAndEvents_stallExpiry (f : Fin 4) (s : State) : FacesAndEvents s (stallExpiry f s) := by
  unfold stallExpiry
  dsimp only
  split
  · exact (facesAndEvents_touch _ f _ s).trans (facesAndEvents_raiseEvent _ _ _ _ _ _)
  · exact .refl s

theorem facesAndEvents_stallTick (f : Fin 4) (s : State) : FacesAndEvents s (stallTick f s) := by
  unfold stallTick
  dsimp only
  split
  · split
    · exact facesAndEvents_stallExpiry f s
    · exact facesAndEvents_updFace f _ s
  · exact .refl s

theorem facesAndEvents_sensorTest (f : Fin 4) (s : State) : FacesAndEvents s (sensorTest f s) := by
  unfold sensorTest
  dsimp only
  split
  · exact (facesAndEvents_touch _ f _ s).trans (facesAndEvents_raiseEvent _ _ _ _ _ _)
  · exact facesAndEvents_touch _ f _ s

theorem facesAndEvents_epochFace (f : Fin 4) (s : State) : FacesAndEvents s (epochFace f s) := by
  unfold epochFace
  dsimp only
  have adopted : FacesAndEvents s (adoptStaged f s) := facesAndEvents_updFace f _ s
  split
  · exact (adopted.trans (facesAndEvents_sensorTest f _)).trans (facesAndEvents_touch _ f _ _)
  · exact adopted

theorem facesAndEvents_tickPart (due : Bool) (s : State) (p : TickPart) : FacesAndEvents s (tickPart due s p) := by
  unfold tickPart
  split
  · exact facesAndEvents_stallTick _ s
  · split
    · exact facesAndEvents_epochFace _ s
    · exact .refl s

theorem facesAndEvents_foldl {α : Type} {op : State → α → State} (h : ∀ s p, FacesAndEvents s (op s p)) (l : List α)
    (s : State) : FacesAndEvents s (l.foldl op s) := by
  induction l generalizing s with
  | nil => exact .refl s
  | cons p l ih => exact (h s p).trans (ih _)

theorem FacesAndEvents.timers {s t : State} (h : FacesAndEvents s t) :
    t.tickDivider = s.tickDivider ∧ t.epochTimer = s.epochTimer := by
  obtain ⟨_, _, _, _, _, _, rfl⟩ := h.exists
  exact ⟨rfl, rfl⟩

/-! The events of a block. -/

/-- The FRAME_STALL of a face that a tick raises, if it raises one (R77, R78). -/
def stallRaised (s : State) (f : Fin 4) : Option EventEntry :=
  if (s.face f).sup.state.timed = true ∧ (s.face f).sup.stallTimer ≤ 1 then some (stallEvent s f) else none

/-- The SENSOR_LOST of a face that an epoch raises, if it raises one (R25, R26). -/
def lostRaised (s : State) (f : Fin 4) : Option EventEntry :=
  if (s.face f).sup.state.scanning = true ∧
      (s.face f).level.sensor.lostNow (s.face f).level.adopted.limits.sensorLostEpochs = true then
    some (sensorLostEvent s f)
  else none

/-- The event of a block in a tick, if it raises one. -/
def tickRaised (due : Bool) (s : State) (p : TickPart) : Option EventEntry :=
  if p.val < 4 then stallRaised s (Fin.ofNat 4 p.val)
  else if due then lostRaised s (Fin.ofNat 4 (p.val - 4))
  else none

theorem lostNow_iff (r : SensorRecord) (limit : Nat) :
    r.lostNow limit = true ↔ (r.state = .waiting ∨ r.state = .valid) ∧ limit ≤ r.count := by
  simp [SensorRecord.lostNow]

theorem stallRaised_eq_some {s : State} {f : Fin 4} {e : EventEntry} :
    stallRaised s f = some e ↔ Expires s f ∧ e = stallEvent s f := by
  simp only [stallRaised, Option.ite_none_right_eq_some, Option.some.injEq, timed_iff, Expires]
  exact and_congr_right fun _ => eq_comm

theorem lostRaised_eq_some {s : State} {f : Fin 4} {e : EventEntry} :
    lostRaised s f = some e ↔ LosesSensor s f ∧ e = sensorLostEvent s f := by
  simp only [lostRaised, Option.ite_none_right_eq_some, Option.some.injEq, scanning_iff, lostNow_iff, LosesSensor]
  exact and_congr_right fun _ => eq_comm

/-! Each block raises its event. -/

theorem sameEvents_refl (s : State) : SameEvents s s := rfl

theorem sameEvents_updFace (f : Fin 4) (g : Face → Face) (s : State) : SameEvents s (s.updFace f g) := rfl

theorem sameEvents_touch (ws : List ImageWord) (f : Fin 4) (g : Face → Face) (s : State) :
    SameEvents s (touch ws (State.updFace f g) s) := rfl

theorem raiseAll_one (e : EventEntry) (s : State) :
    raiseAll [e] s = raiseEvent e.code e.face e.slot e.detailA e.detailB s := rfl

theorem sameEvents_stallTick (f : Fin 4) (s : State) : SameEvents (raiseAll (stallRaised s f).toList s) (stallTick f s) := by
  unfold stallRaised stallTick
  dsimp only
  by_cases timed : (s.face f).sup.state.timed = true
  · rw [if_pos timed]
    by_cases expires : (s.face f).sup.stallTimer ≤ 1
    · rw [if_pos ⟨timed, expires⟩, if_pos expires]
      unfold stallExpiry
      simp only [if_pos timed]
      exact sameEvents_raiseEvent _ _ _ _ _ (sameEvents_touch _ _ _ s)
    · rw [if_neg fun k => expires k.2, if_neg expires]
      exact sameEvents_updFace f _ s
  · rw [if_neg fun k => timed k.1, if_neg timed]
    exact sameEvents_refl s

theorem sameEvents_sensorTest (f : Fin 4) (s : State) :
    SameEvents
      (if (s.face f).level.sensor.lostNow (s.face f).level.limits.sensorLostEpochs = true then
        raiseAll [sensorLostEvent s f] s
      else s) (sensorTest f s) := by
  unfold sensorTest
  dsimp only
  split
  · exact sameEvents_raiseEvent _ _ _ _ _ (sameEvents_touch _ f _ s)
  · exact sameEvents_touch _ f _ s

theorem sameEvents_epochFace (f : Fin 4) (s : State) : SameEvents (raiseAll (lostRaised s f).toList s) (epochFace f s) := by
  have adopted : SameEvents s (adoptStaged f s) := sameEvents_updFace f _ s
  have face : (adoptStaged f s).face f = { s.face f with level := (s.face f).level.adopted } := face_updFace_self s f _
  have sensor : ((adoptStaged f s).face f).level.sensor = (s.face f).level.sensor := by rw [face]; rfl
  have limits : ((adoptStaged f s).face f).level.limits = (s.face f).level.adopted.limits := by rw [face]
  have event : sensorLostEvent (adoptStaged f s) f = sensorLostEvent s f := by
    have link : ((adoptStaged f s).face f).link = (s.face f).link := by rw [face]
    have time : (adoptStaged f s).timeCount = s.timeCount := rfl
    simp only [sensorLostEvent, sensor, link, time]
  unfold lostRaised epochFace
  dsimp only
  by_cases scanning : (s.face f).sup.state.scanning = true
  · rw [if_pos scanning]
    refine SameEvents.trans ?_ (sameEvents_touch _ f _ _)
    have tested := sameEvents_sensorTest f (adoptStaged f s)
    rw [sensor, limits, event] at tested
    refine SameEvents.trans ?_ tested
    by_cases lost : (s.face f).level.sensor.lostNow (s.face f).level.adopted.limits.sensorLostEpochs = true
    · rw [if_pos ⟨scanning, lost⟩, if_pos lost]
      exact sameEvents_raiseAll _ adopted
    · rw [if_neg fun k => lost k.2, if_neg lost]
      exact adopted
  · rw [if_neg fun k => scanning k.1, if_neg scanning]
    exact adopted

theorem sameEvents_tickPart (due : Bool) (s : State) (p : TickPart) :
    SameEvents (raiseAll (tickRaised due s p).toList s) (tickPart due s p) := by
  unfold tickRaised tickPart
  split
  · exact sameEvents_stallTick _ s
  · split
    · exact sameEvents_epochFace _ s
    · exact sameEvents_refl s

/-! No block alters the event of another. -/

theorem stallRaised_congr {s t : State} {f : Fin 4} (sup : (t.face f).sup = (s.face f).sup) (time : t.timeCount = s.timeCount) :
    stallRaised t f = stallRaised s f := by
  simp only [stallRaised, stallEvent, sup, time]

theorem lostRaised_congr {s t : State} {f : Fin 4} (level : (t.face f).level = (s.face f).level)
    (link : (t.face f).link = (s.face f).link) (scanning : (t.face f).sup.state.scanning = (s.face f).sup.state.scanning)
    (time : t.timeCount = s.timeCount) : lostRaised t f = lostRaised s f := by
  simp only [lostRaised, sensorLostEvent, level, link, scanning, time]

theorem timeCount_tickPart (due : Bool) (s : State) (p : TickPart) : (tickPart due s p).timeCount = s.timeCount :=
  ((effect_tickPart due p).confined.path s).timeCount

theorem tickRaised_tickPart (due : Bool) (s : State) (p q : TickPart) (ne : q ≠ p) :
    tickRaised due (tickPart due s p) q = tickRaised due s q := by
  have apart : p.val ≠ q.val := fun k => ne (Fin.ext k.symm)
  have small := q.isLt
  unfold tickRaised
  split
  · refine stallRaised_congr ?_ (timeCount_tickPart due s p)
    have own : ¬p.val = (Fin.ofNat 4 q.val).val := by simp only [Fin.ofNat]; omega
    rw [face_tickPart]
    unfold Face.part
    rw [if_neg own]
    split <;> rfl
  · split
    · have own : ¬(p.val = (Fin.ofNat 4 (q.val - 4)).val + 4 ∧ due = true) := by simp only [Fin.ofNat]; omega
      refine lostRaised_congr ?_ ?_ ?_ (timeCount_tickPart due s p) <;> rw [face_tickPart] <;> unfold Face.part <;>
        rw [if_neg own] <;> split
      all_goals first | rfl | exact ticked_scanning _
    · rfl

theorem lostRaised_epochFace (s : State) (f g : Fin 4) (ne : g ≠ f) : lostRaised (epochFace f s) g = lostRaised s g := by
  have face : (epochFace f s).face g = s.face g := (effect_epochFace f).faces s g fun k => ne (List.mem_singleton.1 k)
  have time := ((effect_epochFace f).confined.path s).timeCount
  exact lostRaised_congr (face ▸ rfl) (face ▸ rfl) (face ▸ rfl) time

/-! The events of a list of blocks. -/

theorem tickRaised_inj (due : Bool) (s : State) (p q : TickPart) (e : EventEntry) (hp : e ∈ tickRaised due s p)
    (hq : e ∈ tickRaised due s q) : p = q := by
  have small := p.isLt
  have small' := q.isLt
  have raised (r : TickPart) (h : e ∈ tickRaised due s r) : (r.val < 4 ∧ e.code = .frameStall ∧ e.face.val = r.val) ∨
      (4 ≤ r.val ∧ e.code = .sensorLost ∧ e.face.val = r.val - 4) := by
    have bound := r.isLt
    unfold tickRaised at h
    split at h
    · rename_i low
      obtain ⟨-, rfl⟩ := stallRaised_eq_some.1 h
      exact .inl ⟨low, rfl, Nat.mod_eq_of_lt low⟩
    · split at h
      · rename_i high _
        obtain ⟨-, rfl⟩ := lostRaised_eq_some.1 h
        exact .inr ⟨by omega, rfl, Nat.mod_eq_of_lt (by omega)⟩
      · cases h
  apply Fin.ext
  rcases raised p hp with ⟨_, code, face⟩ | ⟨_, code, face⟩ <;> rcases raised q hq with ⟨_, code', face'⟩ | ⟨_, code', face'⟩
  · omega
  · exact absurd (code.symm.trans code') nofun
  · exact absurd (code.symm.trans code') nofun
  · omega

theorem mem_tickEvents (due : Bool) (s : State) (order : List TickPart) (e : EventEntry) :
    e ∈ (completeOrder order).filterMap (tickRaised due s) ↔
      (∃ f, Expires s f ∧ e = stallEvent s f) ∨ (due = true ∧ ∃ f, LosesSensor s f ∧ e = sensorLostEvent s f) := by
  simp only [List.mem_filterMap, mem_completeOrder, true_and]
  constructor
  · rintro ⟨p, raised⟩
    unfold tickRaised at raised
    split at raised
    · exact .inl ⟨_, stallRaised_eq_some.1 raised⟩
    · split at raised
      · rename_i isDue
        exact .inr ⟨isDue, _, lostRaised_eq_some.1 raised⟩
      · cases raised
  · rintro (⟨f, raised⟩ | ⟨isDue, f, raised⟩)
    · have low : f.val < 4 := f.isLt
      refine ⟨⟨f.val, by omega⟩, ?_⟩
      unfold tickRaised
      rw [if_pos low, show Fin.ofNat 4 f.val = f from Fin.ext (Nat.mod_eq_of_lt low)]
      exact stallRaised_eq_some.2 raised
    · have low : f.val < 4 := f.isLt
      refine ⟨⟨f.val + 4, by omega⟩, ?_⟩
      unfold tickRaised
      rw [if_neg (by simp), if_pos isDue, show Fin.ofNat 4 (f.val + 4 - 4) = f from Fin.ext (Nat.mod_eq_of_lt low)]
      exact lostRaised_eq_some.2 raised

theorem mem_epochEvents (s : State) (order : List (Fin 4)) (e : EventEntry) :
    e ∈ (completeOrder order).filterMap (lostRaised s) ↔ ∃ f, LosesSensor s f ∧ e = sensorLostEvent s f := by
  simp only [List.mem_filterMap, mem_completeOrder, true_and, lostRaised_eq_some]

theorem nodup_epochEvents (s : State) (order : List (Fin 4)) : ((completeOrder order).filterMap (lostRaised s)).Nodup := by
  refine (nodup_completeOrder order).filterMap fun f g e hf hg => ?_
  obtain ⟨-, rfl⟩ := lostRaised_eq_some.1 hf
  obtain ⟨-, same⟩ := lostRaised_eq_some.1 hg
  exact congrArg EventEntry.face same

/-! What a tick and an epoch leave at a level engine (R20 to R29). -/

theorem satSucc_eq (m n : Nat) : satSucc m n = min m (n + 1) := rfl

theorem epochLevel_scanning {x : Face} (scanning : x.sup.state ≠ .off) :
    x.epochLevel =
      { x.level.adopted with
        sensor := x.level.sensor.tested x.level.adopted.limits.sensorLostEpochs }.computed := by
  unfold Face.epochLevel
  rw [if_pos ((scanning_iff _).2 scanning)]
  rfl

theorem epochLevel_off {x : Face} (off : x.sup.state = .off) : x.epochLevel = x.level.adopted := by
  unfold Face.epochLevel
  rw [if_neg fun k => (scanning_iff _).1 k off]

theorem tested_state {r : SensorRecord} (limit : Nat) (live : r.state = .waiting ∨ r.state = .valid) :
    (r.tested limit).state = if limit ≤ r.count then .lost else r.state := by
  have some_ : r.state ≠ .none := by rcases live with k | k <;> rw [k] <;> nofun
  unfold SensorRecord.tested
  rw [if_neg some_]
  by_cases le : limit ≤ r.count
  · simp only [(lostNow_iff r limit).2 ⟨live, le⟩, if_true, if_pos le]
  · simp only [if_neg fun k => le ((lostNow_iff r limit).1 k).2, if_neg le]

theorem tested_none {r : SensorRecord} (limit : Nat) (h : r.state = .none) : r.tested limit = r := if_pos h

theorem tested_count {r : SensorRecord} (limit : Nat) (h : r.state ≠ .none) : (r.tested limit).count = min 255 (r.count + 1) := by
  unfold SensorRecord.tested
  rw [if_neg h]
  rfl

theorem tested_lost {r : SensorRecord} (limit : Nat) (h : r.state = .lost) : (r.tested limit).state = .lost := by
  unfold SensorRecord.tested
  rw [if_neg (by simp [h])]
  simp [h]

theorem tested_sample (r : SensorRecord) (limit : Nat) : (r.tested limit).sample = r.sample := by
  unfold SensorRecord.tested
  split <;> rfl

theorem ambientInUse_eq (r : SensorRecord) (l : Limits) :
    ambientInUse r l = if r.state = .valid then r.sample else l.fallbackAmbient := by
  unfold ambientInUse
  cases r.state <;> rfl

theorem levelAfter_eq (l : Limits) (hold : Bool) (level target : Nat) :
    levelAfter l hold level target =
      min l.ceiling
        (if hold then level
         else if level < target then min target (level + l.riseStep)
         else if target < level then max target (level - l.fallStep)
         else level) := by
  unfold levelAfter
  rw [Nat.min_comm l.ceiling]
  split
  · rfl
  · split
    · rfl
    · split <;> rfl

theorem epochTaken (x : Face) : EpochTaken x x.epochLevel := by
  by_cases off : x.sup.state = .off
  · have away {P : Prop} (k : x.sup.state ≠ .off) : P := absurd off k
    rw [epochLevel_off off]
    exact ⟨rfl, rfl, rfl, rfl, rfl, rfl, fun _ => ⟨rfl, rfl, rfl, rfl⟩, away, away, away, away, away, away, away, away⟩
  · rw [epochLevel_scanning off]
    refine ⟨rfl, rfl, rfl, rfl, rfl, tested_sample _ _, fun k => absurd k off, fun _ => tested_none _, fun _ => tested_count _,
      fun _ => tested_state _, fun _ => tested_lost _, fun _ => ?_, fun _ => rfl, fun _ sorted => ?_, fun _ => ?_⟩
    · exact ambientInUse_eq _ _
    · exact ⟨_, curveValue_gives _ _ _ sorted, rfl⟩
    · exact levelAfter_eq _ _ _ _

/-! The obligations. -/

theorem sameEvents_exact {a t : State} (h : SameEvents a t) (divider epoch : Nat) (hd : t.tickDivider = divider)
    (he : t.epochTimer = epoch) :
    t = { a with tickDivider := divider, epochTimer := epoch, faces := t.faces, dirty := t.dirty } := by
  subst hd he
  exact h

theorem ticked_timed {p : Supervisor} (h : p.state = .starting ∨ p.state = .live) :
    p.ticked =
      if p.stallTimer ≤ 1 then { p with state := .stalled, stallTimer := 0, stallCount := min 65535 (p.stallCount + 1) }
      else { p with stallTimer := p.stallTimer - 1 } := by
  unfold Supervisor.ticked
  rw [if_pos ((timed_iff _).2 h)]
  rfl

theorem ticked_stopped {p : Supervisor} (h : p.state = .off ∨ p.state = .stalled) : p.ticked = p := by
  unfold Supervisor.ticked
  rcases h with k | k <;> rw [k] <;> rfl

theorem epochTimer_countTick (s : State) :
    (countTick s).epochTimer = if s.epochTimer ≤ 1 then epochPeriod s.epochSelect else s.epochTimer - 1 := by
  simp only [countTick, State.epochDue, decide_eq_true_eq]

/-- Settles O5: the blocks act on their own faces alone, and each raises its own event. -/
theorem tickReachesEveryFace : Obligations.TickReachesEveryFace := by
  intro order s
  have events := sameEvents_fold (tickPart s.epochDue) (tickRaised s.epochDue) (sameEvents_tickPart _) (tickRaised_tickPart _)
    (completeOrder order) (nodup_completeOrder order) (countTick s)
  have timers := (facesAndEvents_foldl (facesAndEvents_tickPart s.epochDue) (completeOrder order) (countTick s)).timers
  have start : SameEvents s (countTick s) := rfl
  refine ⟨runTick order s, (completeOrder order).filterMap (tickRaised s.epochDue s), rfl, ?_, ?_, ?_, fun f => ?_⟩
  · refine sameEvents_exact ((sameEvents_raiseAll _ start).trans events) _ _ timers.1 (timers.2.trans ?_)
    exact epochTimer_countTick s
  · exact (nodup_completeOrder order).filterMap (tickRaised_inj s.epochDue s)
  · intro e
    simp only [mem_tickEvents, State.epochDue, decide_eq_true_eq]
  · rw [face_runTick]
    refine ⟨rfl, ticked_stopped, ticked_timed, fun wait => ?_, fun due => ?_⟩
    · exact if_neg (by simpa [State.epochDue] using wait)
    · simp only [State.epochDue, decide_eq_true_eq, if_pos due]
      exact epochTaken _

/-- What some SENSOR_LOST events do to the pending set. -/
theorem hasClass_lostEvents (es : List EventEntry) (h : ∀ e ∈ es, e.code = .sensorLost) (s : State) (c : Fin 8) (ne : c ≠ 7) :
    hasClass (raiseAll es s).attention.pending c = (hasClass s.attention.pending c || (decide (c = 5) && !es.isEmpty)) := by
  induction es generalizing s with
  | nil => simp [raiseAll]
  | cons e es ih =>
    have one := hasClass_raiseEvent e.code e.face e.slot e.detailA e.detailB s c
    rw [h e List.mem_cons_self] at one
    have step : raiseAll (e :: es) s = raiseAll es (raiseEvent e.code e.face e.slot e.detailA e.detailB s) := rfl
    rw [step, ih fun x hx => h x (List.mem_cons_of_mem e hx), h e List.mem_cons_self, one]
    have cls : EventCode.sensorLost.cls = some (5 : Fin 8) := rfl
    by_cases five : c = 5
    · subst five; simp [cls]
    · simp [cls, five, ne, Ne.symm five]

theorem epochLevel_lost {x : Face} (now : x.epochLevel.sensor.state = .lost) (before : x.level.sensor.state ≠ .lost) :
    x.sup.state ≠ .off ∧ (x.level.sensor.state = .waiting ∨ x.level.sensor.state = .valid) ∧
      (x.level.stagedLimits.getD x.level.limits).sensorLostEpochs ≤ x.level.sensor.count := by
  have taken := epochTaken x
  have scanning : x.sup.state ≠ .off := by
    intro off
    obtain ⟨sensor, -⟩ := taken.off off
    exact before (sensor ▸ now)
  have live : x.level.sensor.state = .waiting ∨ x.level.sensor.state = .valid := by
    cases state : x.level.sensor.state with
    | none => rw [taken.noSensor scanning state, state] at now; cases now
    | waiting => exact .inl rfl
    | valid => exact .inr rfl
    | lost => exact absurd state before
  refine ⟨scanning, live, ?_⟩
  by_contra few
  have kept := taken.tested scanning live
  rw [taken.limits, if_neg few] at kept
  exact before (kept.symm.trans now)

/-- What an epoch does outside the faces: it raises the events of the lost sensors. -/
theorem sameEvents_runEpoch (order : List (Fin 4)) (s : State) :
    SameEvents (raiseAll ((completeOrder order).filterMap (lostRaised s)) s) (runEpoch order s) := by
  have start : SameEvents s { s with epochTimer := epochPeriod s.epochSelect } := rfl
  have events := sameEvents_fold (fun s f => epochFace f s) lostRaised (fun s f => sameEvents_epochFace f s)
    (fun s f g => lostRaised_epochFace s f g) (completeOrder order) (nodup_completeOrder order)
    { s with epochTimer := epochPeriod s.epochSelect }
  exact (sameEvents_raiseAll _ start).trans events

theorem sameEvents_attention {a t : State} (h : SameEvents a t) :
    t.attention = a.attention ∧ t.eventQueue = a.eventQueue ∧ t.journal = a.journal := by
  obtain ⟨_, _, _, _, rfl⟩ := h.exists
  exact ⟨rfl, rfl, rfl⟩

theorem nodup_eq_singleton {α : Type} {l : List α} {a : α} (nodup : l.Nodup) (mem : ∀ b, b ∈ l ↔ b = a) : l = [a] :=
  List.perm_singleton.1 ((List.perm_ext_iff_of_nodup nodup (List.nodup_singleton a)).2 fun b => by simp [mem])

/-- Settles O6: each face keeps to itself, so the order of the faces shows in the order of the events alone. -/
theorem epochAtTheLevelEngines : Obligations.EpochAtTheLevelEngines := by
  refine ⟨fun order s => ?_, fun order f n s others scanning live reached slot room => ?_⟩
  · have events := sameEvents_runEpoch order s
    have codes : ∀ e ∈ (completeOrder order).filterMap (lostRaised s), e.code = .sensorLost := by
      intro e he
      obtain ⟨f, -, rfl⟩ := (mem_epochEvents s order e).1 he
      rfl
    have timers := (facesAndEvents_foldl (fun s f => facesAndEvents_epochFace f s) (completeOrder order)
      { s with epochTimer := epochPeriod s.epochSelect }).timers
    have divider : (runEpoch order s).tickDivider = (raiseAll ((completeOrder order).filterMap (lostRaised s)) s).tickDivider := by
      have raised := (facesAndEvents_foldl (fun s (e : EventEntry) =>
        facesAndEvents_raiseEvent e.code e.face e.slot e.detailA e.detailB s) ((completeOrder order).filterMap (lostRaised s)) s).timers
      exact timers.1.trans raised.1.symm
    refine ⟨runEpoch order s, (completeOrder order).filterMap (lostRaised s), rfl, ?_, nodup_epochEvents s order,
      mem_epochEvents s order, fun f => ?_, fun f now before => ?_, fun c five seven => ?_⟩
    · refine (sameEvents_exact events _ _ divider timers.2).trans ?_
      rfl
    · rw [face_runEpoch]
      exact ⟨rfl, epochTaken _⟩
    · rw [face_runEpoch] at now
      rw [(sameEvents_attention events).1, hasClass_lostEvents _ codes s 5 (by decide)]
      have member := (mem_epochEvents s order _).2 ⟨f, epochLevel_lost now before, rfl⟩
      simp [List.ne_nil_of_mem member]
    · rw [(sameEvents_attention events).1, hasClass_lostEvents _ codes s c seven]
      simp [five]
  · have loses : ∀ e, e ∈ (completeOrder order).filterMap (lostRaised s) ↔ e = sensorLostEvent s f := by
      intro e
      rw [mem_epochEvents]
      constructor
      · rintro ⟨g, lost, rfl⟩
        have same : g = f := by
          by_contra ne
          exact lost.1 (others g ne)
        rw [same]
      · rintro rfl
        exact ⟨f, ⟨scanning, live, reached⟩, rfl⟩
    have events := sameEvents_runEpoch order s
    rw [nodup_eq_singleton (nodup_epochEvents s order) loses, raiseAll_one] at events
    obtain ⟨attention, queue, journal⟩ := sameEvents_attention events
    have raised := raiseEvent_room (rfl : EventCode.sensorLost.cls = some (5 : Fin 8)) f n
      (plainDetail (s.face f).level.sensor.state.code) (plainDetail (s.face f).level.sensor.count) s room
    have named : (sensorLostEvent s f).slot = n := by simp only [sensorLostEvent, slot, Option.getD_some]
    rw [named] at attention queue journal
    refine ⟨runEpoch order s, rfl, queue.trans ?_, attention.trans ?_, journal.trans ?_⟩
    · exact congrArg State.eventQueue raised
    · exact congrArg State.attention raised
    · exact (congrArg State.journal raised :)

/-- Settles O7: the expiry is one change of the supervisor and one event. -/
theorem stallExpiryStalls : Obligations.StallExpiryStalls := by
  intro f s
  have runs : exec (.stallExpiry f) s = .next (stallExpiry f s) := rfl
  refine ⟨fun timed => ⟨_, runs, ?_, ?_⟩, fun stopped => ?_⟩
  · unfold stallExpiry
    rw [if_pos ((timed_iff _).2 timed)]
    exact blind_raiseEvent _ _ _ _ _ _ _ (faceAt_touch (faceAt_start s f) _ _)
  · rw [face_stallExpiry, if_pos ((timed_iff _).2 timed)]
    rfl
  · rw [runs]
    unfold stallExpiry
    rw [if_neg]
    rw [timed_iff]
    rcases stopped with k | k <;> simp [k]

end Sys2Proof.Machine
end

/-! PROOFS. Requests at CPORT: their classification (R10, R57), acceptance onto the two lists (R61), the context of a scan
read (R12, R37, R43), and the receivers of control words (R59, R60). -/

section

namespace Sys2Proof.Machine

/-! Classification (R57). -/

theorem windowOffset_some {s : State} {a : Addr} {o : Nat} (small : o < 0x1000) (at_ : a.toNat / 4 * 4 = s.windowBase.toNat + o) :
    s.windowOffset a = some o := by
  have inside : s.windowBase.toNat ≤ alignedNat a ∧ alignedNat a < s.windowBase.toNat + Config.windowBytes := by
    simp only [alignedNat, Config.windowBytes]; omega
  have offset : alignedNat a - s.windowBase.toNat = o := by simp only [alignedNat]; omega
  rw [State.windowOffset, if_pos inside, offset]

theorem windowOffset_none {s : State} {a : Addr}
    (outside : a.toNat / 4 * 4 < s.windowBase.toNat ∨ s.windowBase.toNat + 0x1000 ≤ a.toNat / 4 * 4) : s.windowOffset a = none := by
  have : ¬(s.windowBase.toNat ≤ alignedNat a ∧ alignedNat a < s.windowBase.toNat + Config.windowBytes) := by
    simp only [alignedNat, Config.windowBytes]; omega
  rw [State.windowOffset, if_neg this]

theorem classify_write {s : State} {r : Request} {o : Nat} (write : r.kind = .write) (offset : s.windowOffset r.addr = some o) :
    classify s r = classifyWindowWrite o r.byteEnables := by
  unfold classify
  rw [write, offset]

theorem isImageOffset_iff (o : Nat) : isImageOffset o = true ↔ (0x040 ≤ o ∧ o ≤ 0x0DF) ∨ (0x400 ≤ o ∧ o ≤ 0x7FF) := by
  simp [isImageOffset]

theorem classifyWindowWrite_image {o : Nat} (image : (0x040 ≤ o ∧ o ≤ 0x0DF) ∨ (0x400 ≤ o ∧ o ≤ 0x7FF)) (be : BitVec 4) :
    classifyWindowWrite o be = .localWrite := by
  unfold classifyWindowWrite
  rw [if_pos ((isImageOffset_iff o).2 image)]

theorem classifyWindowWrite_control (c : ControlWord) (be : BitVec 4) :
    classifyWindowWrite c.offset be = if be = 15 then .snoop c else .partialWrite c := by
  cases c <;> rfl

theorem controlWordAt_none {o : Nat} (above : 0x010 ≤ o) : controlWordAt o = none := by
  unfold controlWordAt
  split <;> first | omega | rfl

theorem classifyWindowWrite_other {o : Nat} (above : 0x010 ≤ o) (image : ¬((0x040 ≤ o ∧ o ≤ 0x0DF) ∨ (0x400 ≤ o ∧ o ≤ 0x7FF)))
    (be : BitVec 4) : classifyWindowWrite o be = .forward := by
  unfold classifyWindowWrite
  rw [if_neg fun k => image ((isImageOffset_iff o).1 k), controlWordAt_none above]

theorem isScanRead_iff (s : State) (f : Fin 4) (r : Request) : isScanRead (s.face f) r = true ↔ ScanReadOf s f r := by
  simp only [isScanRead, PlaneRecord.contains, tagIn, Bool.and_eq_true, beq_iff_eq, decide_eq_true_eq, scanning_iff]
  constructor
  · rintro ⟨⟨⟨read, ⟨valid, first_⟩, last⟩, tag⟩, scanning⟩
    exact ⟨read, valid, first_, last, tag, scanning⟩
  · rintro ⟨read, valid, first_, last, tag, scanning⟩
    exact ⟨⟨⟨read, ⟨valid, first_⟩, last⟩, tag⟩, scanning⟩

theorem scanFace_none {s : State} {r : Request} (h : ∀ f, ¬ScanReadOf s f r) : scanFace s r = none :=
  List.find?_eq_none.2 fun f _ k => h f ((isScanRead_iff s f r).1 k)

theorem scanFace_some {s : State} {r : Request} {f : Fin 4} (scan : ScanReadOf s f r) (alone : ∀ g, g ≠ f → ¬ScanReadOf s g r) :
    scanFace s r = some f := by
  cases found : scanFace s r with
  | none => exact absurd ((isScanRead_iff s f r).2 scan) (List.find?_eq_none.1 found f (mem_allFaces f))
  | some g =>
    by_contra ne
    exact alone g (fun same => ne (congrArg some same)) ((isScanRead_iff s g r).1 (List.find?_some (p := fun g => isScanRead (s.face g) r) found))

theorem classify_read {s : State} {r : Request} (read : r.kind = .read) : classify s r = classifyScan s r := by
  unfold classify
  rw [read]

/-- A scan read by its word in the plane: padding is FORWARD, any other word a read of its zone. -/
theorem classify_scanRead {s : State} {r : Request} {f : Fin 4} (scan : ScanReadOf s f r)
    (alone : ∀ g, g ≠ f → ¬ScanReadOf s g r) :
    classify s r =
      if (s.face f).plane.isPadding ((s.face f).plane.wordIndex r.addr) then .forward
      else .scan f (Fin.ofNat 64 ((s.face f).plane.zoneOf ((s.face f).plane.wordIndex r.addr)))
        ((s.face f).plane.wordIndex r.addr == 0) := by
  rw [classify_read scan.read]
  unfold classifyScan
  rw [scanFace_some scan alone]

/-- Settles O8: one clause of the table for each range of the window, and the plane decoder for reads. -/
theorem classificationFollowsTheTable : Obligations.ClassificationFollowsTheTable := by
  intro s r
  dsimp only
  refine ⟨fun write o small at_ => ?_, fun write outside => ?_, fun read noScan => ?_, fun f scan alone => ?_⟩
  · rw [classify_write write (windowOffset_some small at_)]
    refine ⟨fun image => classifyWindowWrite_image image _, ?_, ?_, ?_, ?_, fun other => ?_⟩
    · rintro rfl; exact classifyWindowWrite_control .head _
    · rintro rfl; exact classifyWindowWrite_control .body _
    · rintro rfl; exact classifyWindowWrite_control .ack _
    · rintro rfl; exact classifyWindowWrite_control .consumed _
    · exact classifyWindowWrite_other (by omega) (by omega) _
  · unfold classify
    rw [write, windowOffset_none outside]
  · rw [classify_read read]
    unfold classifyScan
    rw [scanFace_none noScan]
  · rw [classify_scanRead scan alone]
    refine ⟨fun padding => ?_, fun inside z zone => ?_⟩
    · exact if_pos (decide_eq_true padding)
    · have pixel : ¬(s.face f).plane.isPadding ((s.face f).plane.wordIndex r.addr) = true := fun k =>
        absurd (of_decide_eq_true k) (Nat.not_le.2 inside)
      rw [if_neg pixel]
      have same : Fin.ofNat 64 ((s.face f).plane.zoneOf ((s.face f).plane.wordIndex r.addr)) = z := by
        apply Fin.ext
        have eq : (s.face f).plane.zoneOf ((s.face f).plane.wordIndex r.addr) = z.val := zone.symm
        rw [eq]
        exact Nat.mod_eq_of_lt z.isLt
      rw [same]
      rfl

/-! Acceptance (R61). -/

theorem canAccept_iff (s : State) (r : Request) :
    canAccept s r = true ↔
      s.porstAsserted = false ∧ s.orderList.length < 16 ∧ (classify s r = .localWrite ∨ s.forwardQueue.length < 8) := by
  simp only [canAccept, Bool.and_eq_true, Bool.or_eq_true, Bool.not_eq_true', beq_iff_eq, decide_eq_true_eq, and_assoc]
  rfl

theorem cportWaiting_acceptAs (r : Request) (c : RequestClass) (s : State) : (acceptAs r c s).cportWaiting = s.cportWaiting := by
  have latched := (confined_latchIfFrameStart c).path s
  have told := (confined_superviseIfFrameStart c).path (latchIfFrameStart c s)
  exact ((confined_handOn r c).path _).cportWaiting.trans (told.cportWaiting.trans latched.cportWaiting)

/-- A single request at the port that can be accepted is taken, and none waits. -/
theorem acceptFrom_one {s : State} {r : Request} (room : canAccept s r = true) (front : s.cportWaiting = []) :
    acceptFrom [r] s = acceptAs r (classify s r) s := by
  have kept : (acceptRequest r s).cportWaiting = [] := (cportWaiting_acceptAs r _ s).trans front
  unfold acceptFrom
  rw [if_pos room]
  unfold acceptFrom
  rw [← kept]
  rfl

/-- With the front request refused, all wait. -/
theorem acceptFrom_refused {s : State} {r : Request} (full : canAccept s r = false) (rest : List Request) :
    acceptFrom (r :: rest) s = { s with cportWaiting := r :: rest } := by
  unfold acceptFrom
  rw [full]
  rfl

theorem offerRequest_released {s : State} (released : s.porstAsserted = false) (r : Request) :
    offerRequest r s = acceptFrom (s.cportWaiting ++ [r]) s := by
  unfold offerRequest
  rw [released]
  rfl

theorem offerRequest_accepted {s : State} {r : Request} (room : canAccept s r = true) (front : s.cportWaiting = []) :
    offerRequest r s = acceptAs r (classify s r) s := by
  rw [offerRequest_released ((canAccept_iff s r).1 room).1, front]
  exact acceptFrom_one room front

theorem exec_offer (r : Request) (s : State) : exec (.cportRequestAccept r) s = .next (offerRequest r s) := rfl

theorem RoomToForward.canAccept {s : State} (h : RoomToForward s) (r : Request) : canAccept s r = true :=
  (canAccept_iff s r).2 ⟨h.released, h.order, .inr h.queue⟩

theorem exec_offer_room {s : State} {r : Request} {c : RequestClass} (room : RoomToForward s) (cls : classify s r = c) :
    exec (.cportRequestAccept r) s = .next (acceptAs r c s) := by
  rw [exec_offer, offerRequest_accepted (room.canAccept r) room.front, cls]

theorem enterRequest_forwarded {c : RequestClass} (other : c ≠ .localWrite) (r : Request) (k : Option ScaleContext) (s : State) :
    enterRequest r c k s = entered s r c.kept k := by
  unfold enterRequest entered entryOf
  rw [if_neg other, if_neg other]

theorem acceptAs_forward (r : Request) (s : State) : acceptAs r .forward s = entered s r .forward none := rfl

theorem acceptAs_local (r : Request) (s : State) :
    acceptAs r .localWrite s =
      { s with
        orderList := s.orderList ++ [{ kind := r.kind, id := r.id, cls := .localWrite, context := none, completion := .ready .discarded 0 }] } :=
  rfl

/-- Settles O9: with room the request enters both lists; without room it joins those that wait. -/
theorem forwardedRequestsJoinOrWait : Obligations.ForwardedRequestsJoinOrWait := by
  refine fun r s => ⟨fun room cls => ?_, fun released front full => ?_, fun released full => ?_⟩
  · rw [exec_offer_room room cls, acceptAs_forward]
  · have refused : canAccept s r = false := by
      rw [Bool.eq_false_iff, ne_eq, canAccept_iff]
      rintro ⟨-, order, queue⟩
      rcases full with full | ⟨other, full⟩
      · omega
      · exact queue.elim other (by omega)
    rw [exec_offer, offerRequest_released released, front]
    exact congrArg _ (acceptFrom_refused refused [])
  · have refused (q : Request) : canAccept s q = false := by
      rw [Bool.eq_false_iff, ne_eq, canAccept_iff]
      rintro ⟨-, order, -⟩
      omega
    rw [exec_offer, offerRequest_released released]
    cases waiting : s.cportWaiting with
    | nil => exact congrArg _ (acceptFrom_refused (refused r) [])
    | cons q rest => exact congrArg _ (acceptFrom_refused (refused q) (rest ++ [r]))

/-! Writes classified LOCAL (R58). -/

theorem imageOffset_range (w : ImageWord) :
    (0x040 ≤ imageOffset w ∧ imageOffset w + 3 ≤ 0x0DF) ∨ (0x400 ≤ imageOffset w ∧ imageOffset w + 3 ≤ 0x7FF) := by
  unfold imageOffset
  split <;> omega

/-- The address of a write to an image word does not wrap: the window lies below the end of the address space. -/
theorem localRequest_addr {s : State} (base : ∃ wsel : BitVec 2, s.windowBase.toNat = 0x0FFC0000 + wsel.toNat * 0x10000)
    (word : ImageWord) (low : BitVec 2) (be : BitVec 4) (data : Word) (tag : BitVec 3) (id : BitVec 4) :
    (localRequest s word low be data tag id).addr.toNat = s.windowBase.toNat + imageOffset word + low.toNat := by
  obtain ⟨wsel, eq⟩ := base
  have offset := imageOffset_range word
  have small := wsel.isLt
  have low_lt := low.isLt
  simp only [localRequest, BitVec.toNat_add, BitVec.toNat_ofNat, eq]
  omega

theorem classify_localRequest {s : State} (base : ∃ wsel : BitVec 2, s.windowBase.toNat = 0x0FFC0000 + wsel.toNat * 0x10000)
    (word : ImageWord) (low : BitVec 2) (be : BitVec 4) (data : Word) (tag : BitVec 3) (id : BitVec 4) :
    classify s (localRequest s word low be data tag id) = .localWrite := by
  have addr := localRequest_addr base word low be data tag id
  have offset := imageOffset_range word
  have aligned : imageOffset word % 4 = 0 := by
    unfold imageOffset
    split <;> omega
  have low_lt := low.isLt
  obtain ⟨wsel, eq⟩ := base
  have at_ : (localRequest s word low be data tag id).addr.toNat / 4 * 4 = s.windowBase.toNat + imageOffset word := by
    rw [addr, eq]; omega
  rw [classify_write (o := imageOffset word) rfl (windowOffset_some (by omega) at_)]
  exact classifyWindowWrite_image (by omega) _

theorem canAccept_local {s : State} {r : Request} (released : s.porstAsserted = false) (order : s.orderList.length < 16)
    (cls : classify s r = .localWrite) : canAccept s r = true := (canAccept_iff s r).2 ⟨released, order, .inl cls⟩

/-- Settles O12: a LOCAL request enters complete and never asks for room in the forward queue. -/
theorem localWriteIsDiscarded : Obligations.LocalWriteIsDiscarded := by
  refine ⟨fun r s released front order cls => ?_, fun word low be data tag id s base released front => ⟨fun order => ?_, fun full => ?_⟩⟩
  · rw [exec_offer, offerRequest_accepted (canAccept_local released order cls) front, cls, acceptAs_local]
  · have cls := classify_localRequest base word low be data tag id
    have runs : exec (.localWrite word low be data tag id) s =
        .next (offerRequest (localRequest s word low be data tag id) s) := rfl
    rw [runs, offerRequest_accepted (canAccept_local released order cls) front, cls, acceptAs_local]
    rfl
  · refine ⟨localRequest s word low be data tag id, ?_, rfl, rfl, rfl, rfl, rfl, localRequest_addr base word low be data tag id⟩
    have refused : canAccept s (localRequest s word low be data tag id) = false := by
      rw [Bool.eq_false_iff, ne_eq, canAccept_iff]
      rintro ⟨-, order, -⟩
      omega
    have runs : exec (.localWrite word low be data tag id) s =
        .next (offerRequest (localRequest s word low be data tag id) s) := rfl
    rw [runs, offerRequest_released released, front]
    exact congrArg _ (acceptFrom_refused refused [])

/-! Scan reads (R12, R37, R43). -/

theorem captureContext_eq (f : Fin 4) (z : Fin 64) (s : State) : captureContext f z s = contextFrom f (s.face f).applied z := by
  unfold captureContext contextFrom
  simp only [ScaleContext.mk.injEq, true_and, and_true]
  exact ⟨rfl, by simp [beq_eq_decide]⟩

theorem acceptAs_scan (r : Request) (f : Fin 4) (z : Fin 64) (s : State) :
    acceptAs r (.scan f z false) s = entered s r .forwardScale (some (contextFrom f (s.face f).applied z)) := by
  rw [← captureContext_eq]
  rfl

/-- A frame start: latch, capture, supervisor, and entry. -/
theorem acceptAs_frameStart (r : Request) (f : Fin 4) (z : Fin 64) (s : State) :
    acceptAs r (.scan f z true) s =
      entered (superviseFrameStart f (latch f s)) r .forwardScale (some (contextFrom f (latchedSet (s.face f)) z)) := by
  have face : ((latch f s).face f).applied = latchedSet (s.face f) := by
    unfold latch
    rw [face_touch, face_updFace_self]
  rw [← face, ← captureContext_eq]
  rfl

theorem latchedStep_unused (x : Face) (y : Fin 64) (above : x.plane.zoneCount ≤ y.val) : pick (latchedSet x).steps y = 3 := by
  simp [latchedSet, latchedStep, Nat.not_lt.2 above]

theorem latchedStep_mapped {x : Face} {y n : Fin 64} (below : y.val < x.plane.zoneCount) (mapped : pick x.zoneMap y = some n) :
    pick (latchedSet x).steps y = (pick x.records n).derateStep := by
  simp [latchedSet, latchedStep, below, mapped]

theorem entered_same {s t : State} (h : SameBesidesDirty s t) (r : Request) (c : Classification) (k : Option ScaleContext) :
    SameBesidesDirty (entered s r c k) (entered t r c k) := by
  obtain ⟨d, rfl⟩ := h.exists
  rfl

theorem marks_entered (s : State) (r : Request) (c : Classification) (k : Option ScaleContext) : Marks [] s (entered s r c k) :=
  marks_same rfl rfl rfl rfl rfl rfl rfl

/-- Raising an event and entering a request do not meet. -/
theorem raiseEvent_entered {code : EventCode} {c : Fin 8} (cls : code.cls = some c) (f : Fin 4) (n : Fin 64) (x y : Word) (s : State)
    (r : Request) (kept : Classification) (k : Option ScaleContext) :
    SameBesidesDirty (raiseEvent code f n x y (entered s r kept k)) (entered (raiseEvent code f n x y s) r kept k) := by
  by_cases room : s.eventQueue.length < 32
  · exact (raiseEvent_room cls f n x y (entered s r kept k) room).symm.trans
      (entered_same (raiseEvent_room cls f n x y s room) r kept k)
  · have full := Nat.not_lt.1 room
    exact (raiseEvent_full cls f n x y (entered s r kept k) full).symm.trans
      (entered_same (raiseEvent_full cls f n x y s full) r kept k)

theorem marks_latch (f : Fin 4) (s : State) : Marks [faceWord f 1] s (latch f s) := by
  refine marks_touch_updFace (fun i other => ?_) fun n _ => rfl
  match i with
  | 1 => simp at other
  | 0 | 2 | 3 | 4 | 5 | 6 | 7 => rfl

theorem marks_superviseLive (f : Fin 4) (s : State) :
    Marks [faceWord f 0] s
      (touch [faceWord f 0] (State.updFace f fun x => { x with sup := { x.sup with state := .live, stallTimer := x.sup.stallTimeout } }) s) := by
  refine marks_touch_updFace (fun i other => ?_) fun n _ => rfl
  match i with
  | 0 => simp at other
  | 1 | 2 | 3 | 4 | 5 | 6 | 7 => rfl

/-- A frame start at a face that scans: its face framed, and FRAME_RESUMED from STALLED (R76, R83). -/
theorem superviseFrameStart_eq {s : State} {f : Fin 4} (scanning : (s.face f).sup.state ≠ .off) :
    superviseFrameStart f s =
      (let t := touch [faceWord f 0]
        (State.updFace f fun x => { x with sup := { x.sup with state := .live, stallTimer := x.sup.stallTimeout } }) s
       if (s.face f).sup.state = .stalled then raiseEvent .frameResumed f 0 (plainDetail (s.face f).sup.stallCount) 0 t else t) := by
  unfold superviseFrameStart
  dsimp only
  rw [if_pos ((scanning_iff _).2 scanning)]

/-- Settles O10: the latch comes before the capture, the supervisor after it. -/
theorem scanReadsCaptureContexts : Obligations.ScanReadsCaptureContexts := by
  refine ⟨fun r f z s room cls => ?_, fun r f z s room cls => ?_⟩
  · rw [exec_offer_room room cls, acceptAs_scan]
  · obtain ⟨-, scanning⟩ := classify_scan cls
    have latched : (latch f s).face f = { s.face f with applied := latchedSet (s.face f) } := by
      unfold latch
      rw [face_touch, face_updFace_self]
    have sup : ((latch f s).face f).sup = (s.face f).sup := by rw [latched]
    have framed := faceAt_touch (faceAt_touch (faceAt_start s f) [faceWord f 1] fun x => { x with applied := latchedSet x })
      [faceWord f 0] fun x => { x with sup := { x.sup with state := .live, stallTimer := x.sup.stallTimeout } }
    have started := superviseFrameStart_eq (s := latch f s) (f := f) (by rw [sup]; exact scanning)
    dsimp only at started
    rw [sup] at started
    refine ⟨_, latchedSet (s.face f), exec_offer_room room cls, rfl, rfl, latchedStep_unused _, fun y n => latchedStep_mapped, ?_, ?_⟩
    · intro flowing
      rw [acceptAs_frameStart, started, if_neg flowing]
      refine ⟨entered_same framed r _ _, ?_⟩
      have told := (marks_latch f s).trans (marks_superviseLive f (latch f s)) (by simp)
      exact (told.trans (marks_entered _ r .forwardScale (some (contextFrom f (latchedSet (s.face f)) z))) (by simp)).exactly
    · intro stalled
      rw [acceptAs_frameStart, started, if_pos stalled]
      refine SameBesidesDirty.trans ?_ (raiseEvent_entered (rfl : EventCode.frameResumed.cls = some (6 : Fin 8)) _ _ _ _ _ _ _ _)
      exact blind_raiseEvent _ _ _ _ _ _ _ (entered_same framed r _ _)

/-! Control words (R59, R60). -/

/-- The row of a full write of a control word does what its receiver does with the word. -/
theorem exec_controlRow (c : ControlWord) (w : Word) (s : State) : exec (controlRow c w) s = .next (handWord c w s) := by
  cases c with
  | head =>
    have row : controlRow .head w =
        match commandOf (headOf w).code with
        | some k => k.row (headOf w).fields []
        | none => .unknownCommand (headOf w).code (headOf w).fields [] := rfl
    rw [row]
    cases named : commandOf (headOf w).code with
    | some k =>
      have code := code_of_commandOf named
      simp only [exec_row, code]
      rfl
    | none => rfl
  | body => rfl
  | consumed => rfl
  | ack =>
    have hand : handWord .ack w s = takeAck (BitVec.ofNat 4 (field w 28 4)) (w.getLsbD 8) (ackClassField w) s := rfl
    rw [hand]
    unfold controlRow
    dsimp only
    split
    case h_5 code one two three four =>
      have small : field w 28 4 < 16 := field_lt w 28 4
      have other : field w 28 4 = 0 ∨ 5 ≤ field w 28 4 := by
        have : field w 28 4 ≠ 1 := one
        have : field w 28 4 ≠ 2 := two
        have : field w 28 4 ≠ 3 := three
        have : field w 28 4 ≠ 4 := four
        omega
      have unused : BitVec.ofNat 4 (field w 28 4) = 0 ∨ 5 ≤ (BitVec.ofNat 4 (field w 28 4)).toNat := by
        rw [BitVec.toNat_ofNat, Nat.mod_eq_of_lt small]
        exact other.imp_left fun zero => by rw [zero]; rfl
      exact congrArg _ ((takeAck_of_unused unused false 0 s).trans (takeAck_of_unused unused _ _ s).symm)
    all_goals
      rename_i code
      rw [show field w 28 4 = _ from code]
      rfl

/-- Settles O11: the request enters both lists first, then its receiver runs the row of the word. -/
theorem controlWordsReachTheirReceivers : Obligations.ControlWordsReachTheirReceivers := by
  refine fun r w s => ⟨fun room cls => ?_, fun room cls => ?_⟩
  · rw [exec_offer_room room cls, exec_controlRow]
    rfl
  · have accepted : acceptAs r (.partialWrite w) s =
        raiseEvent .streamPartial 0 0 (plainDetail w.offset) (plainDetail r.byteEnables.toNat) (entered s r .forward none) := rfl
    have enables : plainDetail r.byteEnables.toNat = r.byteEnables.setWidth 32 := by
      apply BitVec.eq_of_toNat_eq
      simp [plainDetail]
    refine ⟨_, exec_offer_room room cls, ?_, ?_⟩ <;> rw [accepted]
    · rw [enables]
      cases w <;> rfl
    · exact ((marks_entered s r .forward none).trans (marks_raiseEvent _ _ _ _ _ _) nofun).exactly

end Sys2Proof.Machine
end

/-! PROOFS. Responses at CPORT (R63), the memory-port arbiter (R65, R70) and the responses of the frame store (R66, R67,
R69, R155). -/

section

namespace Sys2Proof.Machine

/-! A freed entry lets a waiting request in (log 5). -/

theorem acceptWaiting_none {s : State} (front : s.cportWaiting = []) : acceptWaiting s = s := by
  have none_ : acceptFrom [] s = { s with cportWaiting := [] } := rfl
  unfold acceptWaiting
  rw [front, none_, ← front]

/-- A waiting request classified FORWARD is accepted once both lists have room. -/
theorem acceptWaiting_forward {s : State} {r : Request} (released : s.porstAsserted = false) (waits : s.cportWaiting = [r])
    (order : s.orderList.length < 16) (queue : s.forwardQueue.length < 8) (cls : classify s r = .forward) :
    acceptWaiting s = entered { s with cportWaiting := [] } r .forward none := by
  have room : canAccept s r = true := (canAccept_iff s r).2 ⟨released, order, .inr queue⟩
  unfold acceptWaiting acceptFrom
  rw [waits]
  dsimp only
  rw [if_pos room]
  unfold acceptFrom acceptRequest
  rw [cls, acceptAs_forward]
  rfl

/-! Responses (R63). -/

theorem cportOffer_ready {s : State} {e : OrderEntry} {rest : List OrderEntry} {st : Status} {d : Word}
    (order : s.orderList = e :: rest) (ready : e.completion = .ready st d) :
    s.cportOffer = some { kind := e.kind, id := e.id, status := st, data := d } := by
  unfold State.cportOffer
  rw [order]
  dsimp only
  rw [ready]

theorem cportOffer_awaiting {s : State} {e : OrderEntry} {rest : List OrderEntry} (order : s.orderList = e :: rest)
    (awaits : e.completion = .awaitingMemory) : s.cportOffer = none := by
  unfold State.cportOffer
  rw [order]
  dsimp only
  rw [awaits]

theorem takeResponse_some {s : State} {b : CportResponse} (offer : s.cportOffer = some b) :
    takeResponse s = { s with orderList := s.orderList.tail, cportLast := some b } := by
  unfold takeResponse
  rw [offer]

theorem takeResponse_none {s : State} (offer : s.cportOffer = none) : takeResponse s = s := by
  unfold takeResponse
  rw [offer]

theorem exec_taken_response (s : State) : exec .cportResponseTaken s = .next (acceptWaiting (takeResponse s)) := rfl

/-- The classification of a request reads nothing of the lists, the arbiter or the last beats. -/
theorem classify_congr {s t : State} (faces : t.faces = s.faces) (base : t.windowBase = s.windowBase) (r : Request) :
    classify t r = classify s r := by
  have face : t.face = s.face := by funext f; simp [State.face, faces]
  unfold classify classifyScan scanFace State.windowOffset
  rw [face, base]

/-- Settles O13: a READY head alone is offered, and its taking frees one entry. -/
theorem takenResponseFreesItsEntry : Obligations.TakenResponseFreesItsEntry := by
  refine fun e rest s order => ⟨fun st d ready => ?_, fun awaits => ?_⟩
  · have offer := cportOffer_ready order ready
    have taken : takeResponse s =
        { s with orderList := rest, cportLast := some { kind := e.kind, id := e.id, status := st, data := d } } := by
      rw [takeResponse_some offer, order]
      rfl
    refine ⟨by rw [State.crspValid, offer]; rfl, offer, ?_, fun front => ?_, fun r released waits room queue cls => ?_⟩
    · rw [State.crspStatus, offer]
      cases st <;> rfl
    · rw [exec_taken_response, taken]
      exact congrArg _ (acceptWaiting_none front)
    · rw [exec_taken_response, taken]
      exact congrArg _ (acceptWaiting_forward released waits room queue ((classify_congr rfl rfl r).trans cls))
  · have offer := cportOffer_awaiting order awaits
    refine ⟨by rw [State.crspValid, offer]; rfl, by rw [State.crspStatus, offer]; rfl, fun front => ?_⟩
    rw [exec_taken_response, takeResponse_none offer, acceptWaiting_none front]

/-! Grants (R65, R70). -/

theorem canIssue_iff (s : State) : s.canIssue = true ↔ s.porstAsserted = false ∧ s.inFlight.length < 24 := by
  simp only [State.canIssue, Bool.and_eq_true, Bool.not_eq_true', decide_eq_true_eq]
  rfl

theorem exec_grant (s : State) : exec .mportGrant s = .next (acceptWaiting (grantBeat s)) := rfl

theorem grantBeat_idle {s : State} (h : 24 ≤ s.inFlight.length ∨ (s.forwardQueue = [] ∧ s.ownWrites = [])) : grantBeat s = s := by
  unfold grantBeat
  split
  · rename_i can
    have room := ((canIssue_iff s).1 can).2
    obtain ⟨queue, own⟩ := h.resolve_left (by omega)
    rw [queue, own]
    rfl
  · rfl

/-- The state after the head of the forward queue is granted. -/
def State.forwarded (s : State) (r : Request) (rest : List Request) : State :=
  { s with
    forwardQueue := rest
    inFlight := s.inFlight ++ [.forwarded]
    arbiterCount := if s.ownWrites = [] then 0 else s.arbiterCount + 1
    mportLast := some { own := false, request := r } }

/-- The state after the head of the own-write queue is granted. -/
def State.ownIssued (s : State) (w : OwnWrite) (rest : List OwnWrite) : State :=
  { s with
    ownWrites := rest
    inFlight := s.inFlight ++ [.own w.origin]
    arbiterCount := 0
    mportLast := some { own := true, request := { kind := .write, addr := w.addr, byteEnables := 15, data := w.data, tag := 0, id := 0 } } }

theorem grantBeat_forward {s : State} {r : Request} {rest : List Request} (released : s.porstAsserted = false)
    (flight : s.inFlight.length < 24) (queue : s.forwardQueue = r :: rest) (turn : s.ownWrites = [] ∨ s.arbiterCount < 4) :
    grantBeat s = s.forwarded r rest := by
  unfold grantBeat State.forwarded
  rw [if_pos ((canIssue_iff s).2 ⟨released, flight⟩)]
  cases own : s.ownWrites with
  | nil => simp [queue, own, arbitrate, issueGrant]
  | cons w ws =>
    have few : s.arbiterCount < Config.maxForwardGrants := turn.resolve_left (by simp [own])
    simp [queue, own, arbitrate, issueGrant, few]

theorem grantBeat_own {s : State} {w : OwnWrite} {rest : List OwnWrite} (released : s.porstAsserted = false)
    (flight : s.inFlight.length < 24) (own : s.ownWrites = w :: rest) (turn : s.forwardQueue = [] ∨ 4 ≤ s.arbiterCount) :
    grantBeat s = s.ownIssued w rest := by
  unfold grantBeat State.ownIssued
  rw [if_pos ((canIssue_iff s).2 ⟨released, flight⟩)]
  cases queue : s.forwardQueue with
  | nil => simp [own, queue, arbitrate, issueGrant, ownBeat]
  | cons r rs =>
    have many : ¬s.arbiterCount < Config.maxForwardGrants := Nat.not_lt.2 (turn.resolve_left (by simp [queue]))
    simp [own, queue, arbitrate, issueGrant, ownBeat, many]

/-- Settles O14: one equation of the grant for each row of the arbiter's table. -/
theorem arbiterGrantsByTheTable : Obligations.ArbiterGrantsByTheTable := by
  refine ⟨fun s released front => ⟨fun idle => ?_, fun flight r rest queue turn => ?_, fun flight w rest own turn => ?_⟩,
    fun r q rest s released flight queue turn waits order room cls => ?_⟩
  · rw [exec_grant, grantBeat_idle idle, acceptWaiting_none front]
  · rw [exec_grant, grantBeat_forward released flight queue turn]
    exact congrArg _ (acceptWaiting_none front)
  · rw [exec_grant, grantBeat_own released flight own turn]
    exact congrArg _ (acceptWaiting_none front)
  · rw [exec_grant, grantBeat_forward released flight queue turn]
    exact congrArg _ (acceptWaiting_forward released waits order room ((classify_congr rfl rfl q).trans cls))

/-! The bound on forwarded grants before an own write (R70). -/

theorem run_succ {s t : State} (next : step s = .next t) (k : Nat) :
    Host.Core.run Sys2Proof.core (k + 1) s = Host.Core.run Sys2Proof.core k t := by
  have next' : Sys2Proof.core.step s = .next t := next
  have unfolded := Host.Core.run.eq_2 Sys2Proof.core s k
  rw [next'] at unfolded
  exact unfolded

theorem step_grant {s : State} {rest : List Instr} (queued : s.pending = .mportGrant :: rest) (front : s.cportWaiting = []) :
    step s = .next (grantBeat { s with pending := rest }) := by
  unfold step
  rw [queued]
  dsimp only
  rw [exec_grant]
  refine congrArg _ (acceptWaiting_none ?_)
  unfold grantBeat issueGrant
  split
  · split <;> exact front
  · exact front

/-- While n forwarded grants may still come first, an own write at the head is issued within n + 1 grants. -/
theorem own_issued_within {n : Nat} {s : State} {w : OwnWrite} {rest : List OwnWrite} (own : s.ownWrites = w :: rest)
    (left : 4 ≤ s.arbiterCount + n) (released : s.porstAsserted = false) (front : s.cportWaiting = [])
    (flight : s.inFlight.length + n < 24) (queued : s.pending = List.replicate (n + 1) .mportGrant) :
    ∃ k t, k ≤ n + 1 ∧ Host.Core.run Sys2Proof.core k s = .next t ∧ t.ownWrites = rest ∧
      t.inFlight.getLast? = some (.own w.origin) ∧
      t.mportLast = some { own := true, request := { kind := .write, addr := w.addr, byteEnables := 15, data := w.data, tag := 0, id := 0 } } := by
  induction n generalizing s with
  | zero =>
    have next := step_grant (rest := []) queued front
    rw [grantBeat_own (s := { s with pending := [] }) released flight own (.inr left)] at next
    exact ⟨1, _, le_rfl, run_succ next 0, rfl, by simp [State.ownIssued], rfl⟩
  | succ n ih =>
    have next := step_grant (queued.trans List.replicate_succ) front
    have room : s.inFlight.length < 24 := by omega
    by_cases turn : s.forwardQueue = [] ∨ 4 ≤ s.arbiterCount
    · rw [grantBeat_own (s := { s with pending := List.replicate (n + 1) .mportGrant }) released room own turn] at next
      exact ⟨1, _, by omega, run_succ next 0, rfl, by simp [State.ownIssued], rfl⟩
    · obtain ⟨nonempty, few⟩ := not_or.1 turn
      obtain ⟨r, rs, queue⟩ := List.exists_cons_of_ne_nil nonempty
      rw [grantBeat_forward (s := { s with pending := List.replicate (n + 1) .mportGrant }) released room queue
        (.inr (Nat.not_le.1 few))] at next
      have ownWaits : ¬s.ownWrites = [] := by simp [own]
      obtain ⟨k, t, le, runs, rest_, last, beat⟩ := ih
        (s := State.forwarded { s with pending := List.replicate (n + 1) .mportGrant } r rs) own
        (by simp only [State.forwarded, if_neg ownWaits]; omega) released front
        (by simp only [State.forwarded, List.length_append, List.length_singleton]; omega) rfl
      exact ⟨k + 1, t, by omega, (run_succ next k).trans runs, rest_, last, beat⟩

/-- Settles O15: at most four forwarded grants come before an own write at the head. -/
theorem ownWriteIssuedWithinFiveGrants : Obligations.OwnWriteIssuedWithinFiveGrants :=
  fun _ _ _ own _ released front flight queued => own_issued_within (n := 4) own (by omega) released front (by omega) queued

/-! Responses of the frame store (R66, R67). -/

theorem awaiting_iff (e : OrderEntry) : e.awaiting = true ↔ e.completion = .awaitingMemory := by
  unfold OrderEntry.awaiting
  cases e.completion <;> simp

theorem answerOldest_append {before : List OrderEntry} (ready : ∀ x ∈ before, x.completion ≠ .awaitingMemory) {e : OrderEntry}
    (awaits : e.completion = .awaitingMemory) (st : Status) (d : Word) (after : List OrderEntry) :
    answerOldest st d (before ++ e :: after) = before ++ e.answered st d :: after := by
  induction before with
  | nil =>
    show (if e.awaiting then _ else _) = _
    rw [if_pos ((awaiting_iff e).2 awaits)]
    rfl
  | cons x before ih =>
    have notWaiting : ¬x.awaiting = true := fun k => ready x List.mem_cons_self ((awaiting_iff x).1 k)
    show (if x.awaiting then _ else _) = _
    rw [if_neg notWaiting]
    exact congrArg (x :: ·) (ih fun y hy => ready y (List.mem_cons_of_mem x hy))

theorem memoryStatusOf_eq (st : BitVec 2) : memoryStatusOf st = if st = 0 then .okay else .error := rfl

/-- The entry answered by a response: data 0 for a write, the word for a read, scaled if it is OKAY and has a
context. -/
theorem answered_eq (e : OrderEntry) (st : BitVec 2) (data : Word) :
    e.answered (memoryStatusOf st) data =
      { e with
        completion :=
          .ready (if st = 0 then .okay else .error)
            (if e.kind = .write then 0
             else if st = 0 then
               match e.context with
               | none => data
               | some c => scaleWord c data
             else data) } := by
  unfold OrderEntry.answered
  rw [memoryStatusOf_eq]
  by_cases okay : st = 0
  · simp only [if_pos okay]
    cases e.kind <;> cases e.context <;> rfl
  · simp only [if_neg okay]
    cases e.kind <;> cases e.context <;> rfl

/-- Settles O16: the oldest awaiting entry alone is answered. -/
theorem responseAnswersOldestAwaiting : Obligations.ResponseAnswersOldestAwaiting := by
  intro st data s
  have runs : exec (.memoryResponse st data) s = .next (takeMemoryResponse (memoryStatusOf st) data s) := rfl
  refine ⟨fun empty => ?_, fun flight before after e head order ready awaits => ?_⟩ <;> rw [runs] <;> unfold takeMemoryResponse
  · rw [empty]
  · rw [head, order]
    dsimp only
    rw [answerOldest_append ready awaits]
    exact congrArg (fun x => Host.Outcome.next { s with inFlight := flight, orderList := before ++ x :: after })
      (answered_eq e st data)

/-! Completions of own writes (R69, R155). -/

theorem countOwnWriteError_same (st : BitVec 2) (s : State) :
    SameBesidesDirty { s with ownWriteErrors := if st = 0 then s.ownWriteErrors else min 65535 (s.ownWriteErrors + 1) }
      (countOwnWriteError (memoryStatusOf st) s) := by
  rw [memoryStatusOf_eq]
  split <;> rfl

theorem marks_countOwnWriteError (st : Status) (s : State) : Marks [partWord 0] s (countOwnWriteError st s) := by
  cases st with
  | error =>
    refine marks_touch_part (ws := [partWord 0]) (g := fun s => { s with ownWriteErrors := satSucc Config.max16 s.ownWriteErrors })
      rfl rfl fun i other => ?_
    match i with
    | 0 => simp at other
    | 1 | 2 | 3 | 4 | 5 | 6 | 7 => rfl
  | okay | discarded => exact (Marks.refl s).mono nofun

theorem marks_flight (s : State) (rest : List InFlight) : Marks [] s { s with inFlight := rest } :=
  marks_same rfl rfl rfl rfl rfl rfl rfl

theorem takeMemoryResponse_own {s : State} {o : Origin} {flight : List InFlight} (head : s.inFlight = .own o :: flight)
    (st : Status) (data : Word) : takeMemoryResponse st data s = completeOwnWrite o st { s with inFlight := flight } := by
  unfold takeMemoryResponse
  rw [head]

/-- The header of the record in progress completed. -/
theorem completeRecord_own {s : State} {n : BitVec 16} {r : RecordProgress} (progress : s.journal.inProgress = some r)
    (own : r.sequence = n) :
    completeRecord n s =
      if r.superseded then { s with journal := { s.journal with inProgress := none } }
      else
        raiseThreshold s.journal.fill
          (changeJournal (fun j => { j with inProgress := none, produced := j.produced + 1 }) s) := by
  unfold completeRecord
  rw [progress]
  dsimp only
  rw [if_pos own]

/-- The end of a record shows in no image word. -/
theorem marks_dropRecord (s : State) : Marks [] s { s with journal := { s.journal with inProgress := none } } := by
  have same (w : ImageWord) : shown { s with journal := { s.journal with inProgress := none } } w = shown s w :=
    shown_part (ws := []) rfl (fun i _ => by fin_cases i <;> rfl) List.not_mem_nil
  exact ⟨marksExactly_of rfl same, fun w _ => same w⟩

/-- What a completion leaves but for the journal: the beat out of flight, and its error counted. -/
def State.completed (s : State) (st : BitVec 2) (flight : List InFlight) : State :=
  { s with inFlight := flight, ownWriteErrors := if st = 0 then s.ownWriteErrors else min 65535 (s.ownWriteErrors + 1) }

/-- Settles O17: one equation for each origin of the completed write. -/
theorem ownWriteCompletions : Obligations.OwnWriteCompletions := by
  intro st data o flight s head
  have runs : exec (.memoryResponse st data) s = .next (completeOwnWrite o (memoryStatusOf st) { s with inFlight := flight }) :=
    congrArg _ (takeMemoryResponse_own head _ data)
  have counted : SameBesidesDirty (s.completed st flight) (countOwnWriteError (memoryStatusOf st) { s with inFlight := flight }) :=
    countOwnWriteError_same st { s with inFlight := flight }
  have marks := (marks_flight s flight).trans (marks_countOwnWriteError (memoryStatusOf st) { s with inFlight := flight }) nofun
  dsimp only
  refine ⟨?_, ?_, ?_⟩
  · rintro w rfl
    exact ⟨_, runs, counted, marks.exactly⟩
  · rintro n rfl
    exact ⟨_, runs, counted, marks.exactly⟩
  · rintro n r rfl progress own
    obtain ⟨d, eq⟩ := counted.exists
    have complete : completeOwnWrite (.journal n true) (memoryStatusOf st) { s with inFlight := flight } =
        completeRecord n (countOwnWriteError (memoryStatusOf st) { s with inFlight := flight }) := rfl
    rw [complete] at runs
    generalize countOwnWriteError (memoryStatusOf st) { s with inFlight := flight } = t at runs marks eq
    have progress' : t.journal.inProgress = some r := by rw [eq]; exact progress
    rw [completeRecord_own progress' own] at runs
    refine ⟨_, runs, ?_, fun superseded => ?_, fun current => ?_⟩
    · split
      · exact (marks.trans (marks_dropRecord t) (by simp)).exactly
      · exact ((marks.trans (marks_changeJournal _ t) (by simp)).trans (marks_raiseThreshold _ _) (by simp)).exactly
    · rw [if_pos superseded, eq]
      rfl
    · have live : ¬r.superseded = true := by simp [current]
      rw [if_neg live, eq]
      exact journalChange_same _ _ _

end Sys2Proof.Machine
end

/-! PROOFS. The tile link: syncs and the end of a drain (R95, R97, R98), slot starts and mailboxes (R100, R104), slot ends
(R24, R107 to R109, R114). -/

section

namespace Sys2Proof.Machine

/-! What a change of a face marks. -/

theorem marks_linkState (f : Fin 4) (g : LinkChannel → LinkChannel) (kept : ∀ l, (g l).garbled = l.garbled ∧ (g l).silent = l.silent)
    (s : State) : Marks [faceWord f 4] s (touch [faceWord f 4] (State.updFace f fun x => { x with link := g x.link }) s) := by
  refine marks_touch_updFace (fun i other => ?_) fun n _ => rfl
  match i with
  | 4 => simp at other
  | 5 =>
    obtain ⟨garbled, silent⟩ := kept (s.face f).link
    simp only [faceShown, garbled, silent]
  | 0 | 1 | 2 | 3 | 6 | 7 => rfl

theorem marks_setRecord (f : Fin 4) (n : Fin 64) (r : ModuleRecord) (s : State) :
    Marks [moduleWord f n, faceWord f 6] s (setRecord f n r s) := by
  refine marks_touch_updFace (fun i other => ?_) fun m other => ?_
  · match i with
    | 6 => simp at other
    | 0 | 1 | 2 | 3 | 4 | 5 | 7 => rfl
  · have ne : n ≠ m := fun same => other (by simp [same])
    simp only [pick_put_ne _ _ ne]

theorem marks_setMailbox (f : Fin 4) (n : Fin 64) (m : Option OneShot) (s : State) :
    Marks [moduleWord f n] s (setMailbox f n m s) := by
  refine marks_touch_updFace (fun i _ => ?_) fun k other => ?_
  · match i with
    | 0 | 1 | 2 | 3 | 4 | 5 | 6 | 7 => rfl
  · have ne : n ≠ k := fun same => other (by simp [same])
    simp only [pick_put_ne _ _ ne]

theorem marks_line (f : Fin 4) (l : Face → LinePhase) (s : State) :
    Marks [] s (s.updFace f fun x => { x with link := { x.link with line := l x } }) := by
  refine marks_updFace (fun i => ?_) fun _ => rfl
  match i with
  | 0 | 1 | 2 | 3 | 4 | 5 | 6 | 7 => rfl

theorem marks_countOutcome (f : Fin 4) (c : ReceivedClass) (s : State) : Marks [faceWord f 5] s (countOutcome f c s) := by
  refine marks_touch_updFace (fun i other => ?_) fun _ _ => rfl
  match i with
  | 5 => simp at other
  | 4 => cases c <;> rfl
  | 0 | 1 | 2 | 3 | 6 | 7 => rfl

theorem marks_sensor (f : Fin 4) (g : Face → SensorRecord) (s : State) :
    Marks [faceWord f 3] s
      (touch [faceWord f 3] (State.updFace f fun x => { x with level := { x.level with sensor := g x } }) s) := by
  refine marks_touch_updFace (fun i other => ?_) fun _ _ => rfl
  match i with
  | 3 => simp at other
  | 0 | 1 | 2 | 4 | 5 | 6 | 7 => rfl

/-! A link reaches IDLE (R97, R128). -/

theorem marks_emptyAllMailboxes (f : Fin 4) (s : State) : Marks (moduleWords f) s (emptyAllMailboxes f s) := by
  refine marks_touch_updFace (fun i _ => ?_) fun n other => absurd (mem_moduleWords f n) other
  match i with
  | 0 | 1 | 2 | 3 | 4 | 5 | 6 | 7 => rfl

theorem marks_setRecords (f : Fin 4) (rs : Vector ModuleRecord 64) (s : State) :
    Marks (moduleWords f ++ [faceWord f 6]) s (setRecords f rs s) := by
  refine marks_touch_updFace (fun i other => ?_) fun n other => absurd (List.mem_append_left _ (mem_moduleWords f n)) other
  match i with
  | 6 => simp at other
  | 0 | 1 | 2 | 3 | 4 | 5 | 7 => rfl

/-- What a module word shows tells its mailbox apart from its record. -/
theorem moduleShown_mailbox {r q : ModuleRecord} {m k : Option OneShot} (same : moduleShown q k = moduleShown r m) :
    moduleShown r k = moduleShown r m := by
  simp only [moduleShown, List.cons.injEq] at same
  obtain ⟨-, -, -, -, -, -, mailbox, -⟩ := same
  simp only [moduleShown, mailbox]

/-- The emptying of the mailboxes and the reset of the records meet in the module words, in different fields. -/
theorem marks_emptied (f : Fin 4) (rs : Vector ModuleRecord 64) (s : State) :
    MarksExactly s (setRecords f rs (emptyAllMailboxes f s)) := by
  refine (marks_emptyAllMailboxes f s).exactly.trans (marks_setRecords f rs _).exactly fun w same => ?_
  by_cases member : w ∈ moduleWords f
  · obtain ⟨n, -, rfl⟩ := List.mem_map.1 member
    simp only [shown_moduleWord, setRecords, emptyAllMailboxes, face_touch, face_updFace_self] at same ⊢
    exact moduleShown_mailbox same
  · exact (marks_emptyAllMailboxes f s).within w member

theorem within_emptied (f : Fin 4) (rs : Vector ModuleRecord 64) (s : State) (w : ImageWord)
    (other : w ∉ moduleWords f ++ [faceWord f 6]) : shown (setRecords f rs (emptyAllMailboxes f s)) w = shown s w :=
  ((marks_setRecords f rs _).within w other).trans
    ((marks_emptyAllMailboxes f s).within w fun k => other (List.mem_append_left _ k))

theorem marks_linkIdle (f : Fin 4) (s : State) : Marks ([faceWord f 4] ++ (moduleWords f ++ [faceWord f 6])) s (linkIdle f s) := by
  have idle := marks_linkState f (fun l => { l with state := .idle, frameSetup := none, line := .idle }) (fun _ => ⟨rfl, rfl⟩) s
  refine idle.trans ⟨marks_emptied f resetRecords _, within_emptied f resetRecords _⟩ fun w member => ?_
  obtain rfl := List.mem_singleton.1 member
  simp [moduleWords]

theorem linkIdle_same (f : Fin 4) (s : State) : SameBesidesDirty (s.setFace f (s.face f).linkIdled) (linkIdle f s) :=
  faceAt_touch (faceAt_touch (faceAt_touch (faceAt_start s f) _ _) _ _) _ _

/-! The pins of the link (R97, R98). -/

theorem tlckRuns_of_line {t : State} {f : Fin 4} (released : t.porstAsserted = false) (line : (t.face f).link.line ≠ .idle) :
    t.tlckRuns f = true := by
  simp [State.tlckRuns, released, line]

theorem pins_of_sync {t : State} {f : Fin 4} (released : t.porstAsserted = false) (line : (t.face f).link.line = .sync) (i : Nat) :
    t.tlsync f i = decide (i = 0) ∧ t.tlout f i = false := by
  constructor
  · simp [State.tlsync, released, line, beq_eq_decide]
  · simp [State.tlout, released, line]

theorem pins_of_idle {t : State} {f : Fin 4} (line : (t.face f).link.line = .idle) :
    t.tlckRuns f = false ∧ ∀ i, t.tlsync f i = false ∧ t.tlout f i = false := by
  simp [State.tlckRuns, State.tlsync, State.tlout, line]

theorem pins_of_word {t : State} {f : Fin 4} {n : Fin 64} {w : LinkWord} {fs : FrameSetup} (released : t.porstAsserted = false)
    (line : (t.face f).link.line = .word n w) (setup : (t.face f).link.frameSetup = some fs) (i : Nat) :
    t.tlsync f i = false ∧
      t.tlout f i = (decide (i < fs.wordLength.bits) && (lineOrder fs.wordLength fs.bitOrder w).getLsbD i) := by
  simp [State.tlsync, State.tlout, released, line, setup]

/-! Syncs and drains. -/

theorem enabledSet_getLsbD (l : LinkSetup) (n : Fin 64) :
    l.enabledSet.getLsbD n.val = (decide (n.val < l.slotCount) && l.mask.getLsbD n.val) := by
  simp only [LinkSetup.enabledSet, BitVec.getLsbD_and, BitVec.getLsbD_ofNat, Nat.testBit_two_pow_sub_one, n.isLt, decide_true,
    Bool.true_and, Bool.and_comm]

theorem linkSync_running {f : Fin 4} {s : State} (running : (s.face f).link.state = .running) :
    linkSync f s =
      touch [faceWord f 4]
        (State.updFace f fun x =>
          { x with link := { x.link with frameSetup := some x.link.setup.frameSetup, frameCount := x.link.frameCount + 1, line := .sync } }) s :=
  if_pos running

/-- Settles O22: a sync and the end of a drain are each one change of the link. -/
theorem syncAndDrainEnd : Obligations.SyncAndDrainEnd := by
  intro f s
  refine ⟨fun running => ?_, fun stopped => ?_, fun draining => ?_, fun other => ?_⟩
  · have runs : exec (.linkSync f) s = .next (linkSync f s) := rfl
    rw [linkSync_running running] at runs
    have face := faceAt_touch (faceAt_start s f) [faceWord f 4] fun x =>
      { x with link := { x.link with frameSetup := some x.link.setup.frameSetup, frameCount := x.link.frameCount + 1, line := .sync } }
    have line := congrArg (fun x : Face => x.link.line) (faceAt_face face)
    refine ⟨_, (s.face f).link.setup.frameSetup, runs, face, ?_, fun released => ⟨?_, ?_⟩, rfl, rfl, rfl, rfl, rfl, enabledSet_getLsbD _⟩
    · exact (marks_linkState f (fun l => { l with frameSetup := some l.setup.frameSetup, frameCount := l.frameCount + 1, line := .sync })
        (fun _ => ⟨rfl, rfl⟩) s).exactly
    · exact tlckRuns_of_line released (by rw [line]; nofun)
    · exact pins_of_sync released line
  · exact congrArg _ (if_neg stopped)
  · have runs : exec (.drainEnd f) s = .next (linkIdle f s) := congrArg _ (if_pos draining)
    exact ⟨_, runs, linkIdle_same f s, (marks_linkIdle f s).exactly, pins_of_idle (by rw [face_linkIdle]; rfl)⟩
  · exact congrArg _ (if_neg other)

/-! Slot starts. -/

theorem exchange_of {l : LinkChannel} {n : Fin 64} {fs : FrameSetup} (busy : l.state ≠ .idle) (setup : l.frameSetup = some fs)
    (below : n.val < fs.slotCount) (enabled : fs.enabled.getLsbD n.val = true) : l.exchange n = some fs := by
  have enables : fs.enables n = true := by simp [FrameSetup.enables, below, enabled]
  unfold LinkChannel.exchange
  cases state : l.state with
  | idle => exact absurd state busy
  | running | draining =>
    rw [setup]
    exact if_pos enables

theorem exchange_none {l : LinkChannel} {n : Fin 64}
    (h : l.state = .idle ∨ l.frameSetup = none ∨
      (∃ fs, l.frameSetup = some fs ∧ (fs.slotCount ≤ n.val ∨ fs.enabled.getLsbD n.val = false))) : l.exchange n = none := by
  cases found : l.exchange n with
  | none => rfl
  | some fs =>
    obtain ⟨busy, setup, enables⟩ := exchange_some found
    simp only [FrameSetup.enables, Bool.and_eq_true, decide_eq_true_eq] at enables
    obtain ⟨below, enabled⟩ := enables
    rcases h with idle | none_ | ⟨gs, same, off⟩
    · exact absurd idle busy
    · rw [setup] at none_
      cases none_
    · rw [setup] at same
      cases same
      rcases off with above | off
      · omega
      · rw [enabled] at off
        cases off

theorem slotCommand_eq (x : Face) (fs : FrameSetup) (n : Fin 64) :
    slotCommand x fs n =
      commandWord fs.wordLength x.level.level (decide (x.sup.state ≠ .live ∨ slotStep x fs n = 3)) (slotStep x fs n)
        (if x.link.state = .running then pick x.mailboxes n else none) x.link.frameCount n := by
  have blank : (x.sup.state != .live || slotStep x fs n == 3) = decide (x.sup.state ≠ .live ∨ slotStep x fs n = 3) := by
    simp [bne, beq_eq_decide]
  unfold slotCommand
  rw [blank]
  rfl

/-- The state after the start of a slot: its word on the line, and the mailbox of a RUNNING link empty. -/
theorem slotStart_running {f : Fin 4} {n : Fin 64} {fs : FrameSetup} {s : State} (exchange : (s.face f).link.exchange n = some fs) :
    slotStart f n s =
      if (s.face f).link.state = .running then
        setMailbox f n none (s.updFace f fun x => { x with link := { x.link with line := .word n (slotCommand x fs n) } })
      else s.updFace f fun x => { x with link := { x.link with line := .word n (slotCommand x fs n) } } := by
  unfold slotStart
  dsimp only
  rw [exchange]

theorem slotStart_marks {f : Fin 4} {n : Fin 64} {fs : FrameSetup} {s : State} (exchange : (s.face f).link.exchange n = some fs) :
    MarksExactly s (slotStart f n s) := by
  have line := marks_line f (fun x => .word n (slotCommand x fs n)) s
  rw [slotStart_running exchange]
  split
  · exact (line.trans (marks_setMailbox f n none _) (by simp)).exactly
  · exact line.exactly

theorem slotStart_same {f : Fin 4} {n : Fin 64} {fs : FrameSetup} {s : State} (exchange : (s.face f).link.exchange n = some fs) :
    SameBesidesDirty
      (s.setFace f
        { s.face f with
          link := { (s.face f).link with line := .word n (slotCommand (s.face f) fs n) }
          mailboxes := if (s.face f).link.state = .running then put (s.face f).mailboxes n none else (s.face f).mailboxes })
      (slotStart f n s) := by
  have line := faceAt_updFace (faceAt_start s f) fun x => { x with link := { x.link with line := .word n (slotCommand x fs n) } }
  rw [slotStart_running exchange]
  split
  · exact faceAt_touch line [moduleWord f n] fun x => { x with mailboxes := put x.mailboxes n none }
  · exact line

/-- Settles O23: an exchange is under way exactly for an enabled slot of the frame setup. -/
theorem slotStartSendsTheCommandWord : Obligations.SlotStartSendsTheCommandWord := by
  intro f n s
  refine ⟨fun fs busy setup below enabled => ?_, fun noExchange => ?_⟩
  · have exchange := exchange_of busy setup below enabled
    have runs : exec (.slotStart f n) s = .next (slotStart f n s) := rfl
    have same := slotStart_same exchange
    have face := faceAt_face same
    rw [slotCommand_eq] at same face
    have line := congrArg (fun x : Face => x.link.line) face
    have kept := (congrArg (fun x : Face => x.link.frameSetup) face).trans setup
    have pins := ((effect_slotStart f n).confined.path s).porstAsserted
    refine ⟨_, runs, same, slotStart_marks exchange, fun released => ⟨?_, ?_⟩⟩
    · exact tlckRuns_of_line (pins.trans released) (by rw [line]; nofun)
    · exact pins_of_word (pins.trans released) line kept
  · have exchange := exchange_none noExchange
    have start : slotStart f n s = s := by
      unfold slotStart
      dsimp only
      rw [exchange]
    have end_ (samples : LinkWord) : slotEnd f n samples s = s := by
      unfold slotEnd receiveSlot
      rw [exchange]
      split <;> rfl
    exact ⟨congrArg Host.Outcome.next start, fun samples => congrArg Host.Outcome.next (end_ samples)⟩

/-! Slot ends. -/

/-- The state after the outcome of a slot is counted. -/
def counted (f : Fin 4) (n : Fin 64) (c : ReceivedClass) (s : State) : State :=
  countOutcome f c (s.updFace f fun x => { x with link := { x.link with line := x.link.line.afterSlot n } })

theorem counted_same (f : Fin 4) (n : Fin 64) (c : ReceivedClass) (s : State) :
    SameBesidesDirty (s.setFace f ((s.face f).counted n c)) (counted f n c s) := by
  have line := faceAt_updFace (faceAt_start s f) fun x => { x with link := { x.link with line := x.link.line.afterSlot n } }
  cases c <;> exact faceAt_touch line _ _

theorem marks_counted (f : Fin 4) (n : Fin 64) (c : ReceivedClass) (s : State) : Marks [faceWord f 5] s (counted f n c s) :=
  (marks_line f (fun x => x.link.line.afterSlot n) s).trans (marks_countOutcome f c _) (by simp)

theorem slotEnd_exchange {f : Fin 4} {n : Fin 64} {samples : LinkWord} {fs : FrameSetup} {s : State}
    (released : s.porstAsserted = false) (exchange : (s.face f).link.exchange n = some fs) :
    slotEnd f n samples s =
      if fs.sensorSlot = some n then
        sensorOutcome f fs.wordLength (classifyReceived fs.wordLength (lineOrder fs.wordLength fs.bitOrder samples))
          (lineOrder fs.wordLength fs.bitOrder samples)
          (counted f n (classifyReceived fs.wordLength (lineOrder fs.wordLength fs.bitOrder samples)) s)
      else
        recordOutcome f n
          (moduleOutcomeOf fs.wordLength (classifyReceived fs.wordLength (lineOrder fs.wordLength fs.bitOrder samples))
            (lineOrder fs.wordLength fs.bitOrder samples))
          (counted f n (classifyReceived fs.wordLength (lineOrder fs.wordLength fs.bitOrder samples)) s) := by
  rw [slotEnd_released released]
  unfold receiveSlot
  rw [exchange]
  rfl

theorem slotEnd_asserted {f : Fin 4} {n : Fin 64} {samples : LinkWord} {s : State} (asserted : s.porstAsserted = true) :
    slotEnd f n samples s = s := if_pos asserted

/-- A record handed an outcome that raises no event, at a face that scans. -/
theorem recordOutcome_quiet {f : Fin 4} {n : Fin 64} {s : State} {o : ModuleOutcome} (scanning : (s.face f).sup.state ≠ .off)
    (live : (pick (s.face f).records n).state ≠ .disabled)
    (event : recordEvent (pick (s.face f).records n) ((pick (s.face f).records n).taken (s.face f).link.setup o).1
      ((pick (s.face f).records n).taken (s.face f).link.setup o).2 = none) :
    recordOutcome f n o s = setRecord f n ((pick (s.face f).records n).taken (s.face f).link.setup o).1 s := by
  unfold recordOutcome
  dsimp only
  rw [if_pos (by simp [scanning_iff, scanning, live]), event]

/-- A record handed an outcome that raises an event, at a face that scans. -/
theorem recordOutcome_event {f : Fin 4} {n : Fin 64} {s : State} {o : ModuleOutcome} {e : RecordEvent}
    (scanning : (s.face f).sup.state ≠ .off) (live : (pick (s.face f).records n).state ≠ .disabled)
    (event : recordEvent (pick (s.face f).records n) ((pick (s.face f).records n).taken (s.face f).link.setup o).1
      ((pick (s.face f).records n).taken (s.face f).link.setup o).2 = some e) :
    recordOutcome f n o s =
      raiseEvent e.code f n e.detailA e.detailB
        (setRecord f n ((pick (s.face f).records n).taken (s.face f).link.setup o).1 s) := by
  unfold recordOutcome
  dsimp only
  rw [if_pos (by simp [scanning_iff, scanning, live]), event]

theorem recordOutcome_left {f : Fin 4} {n : Fin 64} {s : State}
    (h : (s.face f).sup.state = .off ∨ (pick (s.face f).records n).state = .disabled) (o : ModuleOutcome) :
    recordOutcome f n o s = s := by
  unfold recordOutcome
  dsimp only
  rw [if_neg]
  simp only [Bool.and_eq_true, scanning_iff, bne_iff_ne, not_and_or, not_not]
  exact h

theorem marks_recordOutcome (f : Fin 4) (n : Fin 64) (o : ModuleOutcome) (s : State) :
    Marks [moduleWord f n, faceWord f 6, partWord 6, partWord 3, partWord 7] s (recordOutcome f n o s) := by
  unfold recordOutcome
  dsimp only
  split
  · have record := marks_setRecord f n ((pick (s.face f).records n).taken (s.face f).link.setup o).1 s
    split
    · exact record.mono (by simp)
    · exact record.trans (marks_raiseEvent _ _ _ _ _ _) (by simp)
  · exact (Marks.refl s).mono nofun

/-- The face after a slot end that hands an outcome to its record. -/
def Face.recorded (x : Face) (n : Fin 64) (c : ReceivedClass) (o : ModuleOutcome) : Face :=
  { x.counted n c with records := put x.records n ((pick x.records n).taken x.link.setup o).1 }

theorem recorded_quiet {f : Fin 4} {n : Fin 64} {c : ReceivedClass} {o : ModuleOutcome} {s : State}
    (scanning : (s.face f).sup.state ≠ .off) (live : (pick (s.face f).records n).state ≠ .disabled)
    (event : recordEvent (pick (s.face f).records n) ((pick (s.face f).records n).taken (s.face f).link.setup o).1
      ((pick (s.face f).records n).taken (s.face f).link.setup o).2 = none) :
    SameBesidesDirty (s.setFace f ((s.face f).recorded n c o)) (recordOutcome f n o (counted f n c s)) := by
  have same := counted_same f n c s
  have face := faceAt_face same
  have handed := recordOutcome_quiet (f := f) (n := n) (s := counted f n c s) (o := o) (by rw [face]; exact scanning)
    (by rw [face]; exact live) (by rw [face]; exact event)
  rw [handed, face]
  exact faceAt_touch same _ _

theorem recorded_event {f : Fin 4} {n : Fin 64} {c : ReceivedClass} {o : ModuleOutcome} {e : RecordEvent} {s : State}
    (scanning : (s.face f).sup.state ≠ .off) (live : (pick (s.face f).records n).state ≠ .disabled)
    (event : recordEvent (pick (s.face f).records n) ((pick (s.face f).records n).taken (s.face f).link.setup o).1
      ((pick (s.face f).records n).taken (s.face f).link.setup o).2 = some e) :
    SameBesidesDirty (raiseEvent e.code f n e.detailA e.detailB (s.setFace f ((s.face f).recorded n c o)))
      (recordOutcome f n o (counted f n c s)) := by
  have same := counted_same f n c s
  have face := faceAt_face same
  have handed := recordOutcome_event (f := f) (n := n) (s := counted f n c s) (o := o) (by rw [face]; exact scanning)
    (by rw [face]; exact live) (by rw [face]; exact event)
  rw [handed, face]
  exact blind_raiseEvent _ _ _ _ _ _ _ (faceAt_touch same _ _)

/-- Settles O25: the outcome is counted, then the record takes it or is left. -/
theorem slotEndReachesTheRecord : Obligations.SlotEndReachesTheRecord := by
  intro f n samples fs s
  dsimp only
  intro busy setup below enabled module_
  have exchange := exchange_of busy setup below enabled
  refine ⟨fun asserted => congrArg Host.Outcome.next (slotEnd_asserted asserted), fun released => ?_⟩
  generalize word : lineOrder fs.wordLength fs.bitOrder samples = w
  generalize class_ : classifyReceived fs.wordLength w = c
  have ended := slotEnd_exchange (samples := samples) released exchange
  rw [if_neg module_, word, class_] at ended
  have runs : exec (.slotEnd f n samples) s = .next (recordOutcome f n (moduleOutcomeOf fs.wordLength c w) (counted f n c s)) :=
    congrArg Host.Outcome.next ended
  have same := counted_same f n c s
  have face := faceAt_face same
  refine ⟨_, runs, ?_, fun left => ?_, fun scanning live => ⟨?_, fun e => ?_⟩⟩
  · exact ((marks_counted f n c s).trans (marks_recordOutcome f n _ _) (by simp)).exactly
  · rw [recordOutcome_left (by rw [face]; exact left)]
    exact same
  · cases c <;> exact recorded_quiet scanning live
  · cases c <;> exact recorded_event scanning live

/-! The sensor slot (R24, R26, R109). -/

theorem sensorOutcome_left {f : Fin 4} {len : WordLength} {c : ReceivedClass} {w : LinkWord} {s : State}
    (h : (s.face f).sup.state = .off ∨ c ≠ .valid ∨ sensorFresh len w = false) : sensorOutcome f len c w s = s := by
  unfold sensorOutcome
  split
  · rename_i scanning
    rcases h with off | other | stale
    · exact absurd off ((scanning_iff _).1 scanning)
    · cases c with
      | valid => exact absurd rfl other
      | silent | garbled => rfl
    · cases c with
      | valid => simp only [stale, Bool.false_eq_true, if_false]
      | silent | garbled => rfl
  · rfl

theorem sensorOutcome_fresh {f : Fin 4} {len : WordLength} {w : LinkWord} {s : State} (scanning : (s.face f).sup.state ≠ .off)
    (fresh : sensorFresh len w = true) : sensorOutcome f len .valid w s = takeSample f (sensorAmbient len w) s := by
  unfold sensorOutcome
  rw [if_pos ((scanning_iff _).2 scanning)]
  exact if_pos fresh

theorem marks_takeSample (f : Fin 4) (a : Nat) (s : State) :
    Marks [faceWord f 3, partWord 6, partWord 3, partWord 7] s (takeSample f a s) := by
  have sample := marks_sensor f (fun x => x.level.sensor.fresh a) s
  unfold takeSample
  dsimp only
  split
  · exact sample.trans (marks_raiseEvent _ _ _ _ _ _) (by simp)
  · exact sample.mono (by simp)

theorem marks_sensorOutcome (f : Fin 4) (len : WordLength) (c : ReceivedClass) (w : LinkWord) (s : State) :
    Marks [faceWord f 3, partWord 6, partWord 3, partWord 7] s (sensorOutcome f len c w s) := by
  have kept := (Marks.refl s).mono (vs := [faceWord f 3, partWord 6, partWord 3, partWord 7]) nofun
  unfold sensorOutcome
  split
  · cases c with
    | silent | garbled => exact kept
    | valid =>
      dsimp only
      split
      · exact marks_takeSample f _ s
      · exact kept
  · exact kept

/-- The state after a fresh word of the sensor is counted and stored. -/
theorem sampled_same {f : Fin 4} {n : Fin 64} {a : Nat} {s : State} :
    let u := s.setFace f { (s.face f).counted n .valid with
      level := { (s.face f).level with sensor := { state := .valid, sample := min a 8191, count := 0 } } }
    ((s.face f).level.sensor.state ≠ .lost → SameBesidesDirty u (takeSample f a (counted f n .valid s))) ∧
      ((s.face f).level.sensor.state = .lost →
        SameBesidesDirty (raiseEvent .sensorRestored f ((s.face f).link.setup.sensorSlot.getD 0) (plainDetail 3) 0 u)
          (takeSample f a (counted f n .valid s))) := by
  have same := counted_same f n .valid s
  have face := faceAt_face same
  have sensor : ((counted f n .valid s).face f).level.sensor = (s.face f).level.sensor := by rw [face]; rfl
  have slot : ((counted f n .valid s).face f).link.setup = (s.face f).link.setup := by rw [face]; rfl
  have sampled := faceAt_touch same [faceWord f 3] fun x => { x with level := { x.level with sensor := x.level.sensor.fresh a } }
  refine ⟨fun kept => ?_, fun lost => ?_⟩ <;> unfold takeSample <;> dsimp only <;> rw [sensor]
  · rw [if_neg kept]
    exact sampled
  · rw [if_pos lost, sensorSlotOf, slot]
    exact blind_raiseEvent _ _ _ _ _ _ _ sampled

/-- Settles O26: the outcome is counted, then a fresh valid word is stored. -/
theorem slotEndReachesTheSensor : Obligations.SlotEndReachesTheSensor := by
  intro f n samples fs s
  dsimp only
  intro busy setup below enabled sensor
  have exchange := exchange_of busy setup below enabled
  refine ⟨fun asserted => congrArg Host.Outcome.next (slotEnd_asserted asserted), fun released => ?_⟩
  generalize word : lineOrder fs.wordLength fs.bitOrder samples = w
  generalize class_ : classifyReceived fs.wordLength w = c
  have ended := slotEnd_exchange (samples := samples) released exchange
  rw [if_pos sensor, word, class_] at ended
  have runs : exec (.slotEnd f n samples) s = .next (sensorOutcome f fs.wordLength c w (counted f n c s)) :=
    congrArg Host.Outcome.next ended
  have same := counted_same f n c s
  have face := faceAt_face same
  refine ⟨_, runs, ?_, fun left => ?_, fun scanning valid fresh => ?_⟩
  · exact ((marks_counted f n c s).trans (marks_sensorOutcome f _ _ _ _) (by simp)).exactly
  · rw [sensorOutcome_left (by rw [face]; exact left)]
    exact same
  · subst valid
    rw [sensorOutcome_fresh (by rw [face]; exact scanning) fresh]
    exact sampled_same

end Sys2Proof.Machine
end

/-! PROOFS. The words of the tile link (R99, R100, R106). -/

section

namespace Sys2Proof.Machine

/-! Command words (R100, R101). -/

theorem levelByte_le (level : Nat) : levelByte level ≤ 255 := Nat.min_le_left _ _

theorem bitOf_le (b : Bool) : bitOf b ≤ 1 := by cases b <;> decide

/-- The number a command word is made of, but for its parity bit: its top field, which holds the marker, then the blank
flag, the step, the two requests, the frame count and the slot. -/
def packed (top blank step test clear count slot : Nat) : Nat :=
  top * 2 ^ 15 + blank * 2 ^ 14 + step * 2 ^ 12 + test * 2 ^ 11 + clear * 2 ^ 10 + count * 2 ^ 7 + slot * 2

/-- Each field lies in its place, whatever the parity bit. -/
theorem packed_fields {top blank step test clear count slot v : Nat} (hb : blank ≤ 1) (hs : step < 4) (ht : test ≤ 1)
    (hc : clear ≤ 1) (hk : count < 8) (hn : slot < 64)
    (hv : v = packed top blank step test clear count slot ∨ v = packed top blank step test clear count slot + 1) :
    v / 2 ^ 15 = top ∧ v / 2 ^ 14 % 2 = blank ∧ v / 2 ^ 12 % 2 ^ 2 = step ∧ v / 2 ^ 11 % 2 = test ∧ v / 2 ^ 10 % 2 = clear ∧
      v / 2 ^ 7 % 2 ^ 3 = count ∧ v / 2 ^ 1 % 2 ^ 6 = slot := by
  unfold packed at hv
  omega

/-- The marker, and the level byte of a long word below it. -/
def topField (len : WordLength) (level : Nat) : Nat :=
  match len with
  | .w16 => 1
  | .w24 => 2 ^ 8 + levelByte level

/-- A request of a one-shot, if there is one. -/
def requested (o : Option OneShot) (request : OneShot → Bool) : Bool := (o.map request).getD false

theorem commandFields_eq (len : WordLength) (level : Nat) (blank : Bool) (step : Fin 4) (o : Option OneShot) (count : BitVec 16)
    (n : Fin 64) :
    commandFields len level blank step o count n =
      BitVec.ofNat 24 (packed (topField len level) (bitOf blank) step.val (bitOf (requested o OneShot.test))
        (bitOf (requested o OneShot.clearLatch)) (count.toNat % 8) n.val) := by
  unfold commandFields packed
  refine congrArg (BitVec.ofNat 24) ?_
  have flag (b : Bool) : flagBit b = bitOf b := rfl
  have absent (request : OneShot → Bool) : bitOf (requested none request) = 0 := rfl
  have present (q : OneShot) (request : OneShot → Bool) : requested (some q) request = request q := rfl
  cases len <;> cases o <;> simp only [topField, flag, absent, present] <;> ring

theorem packed_lt {top blank step test clear count slot : Nat} (htop : top < 2 ^ 9) (hb : blank ≤ 1) (hs : step < 4) (ht : test ≤ 1)
    (hc : clear ≤ 1) (hk : count < 8) (hn : slot < 64) : packed top blank step test clear count slot < 2 ^ 24 := by
  unfold packed
  omega

theorem packed_even (top blank step test clear count slot : Nat) : packed top blank step test clear count slot % 2 = 0 := by
  unfold packed
  omega

theorem topField_lt (len : WordLength) (level : Nat) : topField len level < 2 ^ 9 := by
  have byte := levelByte_le level
  cases len <;> simp only [topField] <;> omega

/-- The parity bit is the lowest: setting it in a word that has it clear adds 1. -/
theorem toNat_or_one {w : LinkWord} (clear : w.toNat % 2 = 0) : (w ||| 1#24).toNat = w.toNat + 1 := by
  have one : w.toNat ||| 1 = w.toNat + 1 := by
    have := Nat.two_pow_add_eq_or_of_lt (i := 1) (b := 1) (by decide) (w.toNat / 2)
    have twice : 2 ^ 1 * (w.toNat / 2) = w.toNat := by omega
    rw [twice] at this
    exact this.symm
  rw [BitVec.toNat_or]
  exact one

theorem onesCount_eq (w : LinkWord) : onesCount w = bitOf (w.getLsbD 0) + (List.range' 1 23).countP fun i => w.getLsbD i := by
  have split : List.range 24 = 0 :: List.range' 1 23 := by decide
  unfold onesCount
  rw [split, List.countP_cons, Nat.add_comm]
  rfl

theorem onesCount_or_one {w : LinkWord} (clear : w.getLsbD 0 = false) : onesCount (w ||| 1#24) = onesCount w + 1 := by
  have high : ((List.range' 1 23).countP fun i => (w ||| 1#24).getLsbD i) = (List.range' 1 23).countP fun i => w.getLsbD i := by
    refine List.countP_congr fun i member => ?_
    obtain ⟨_, _, rfl⟩ := List.mem_range'.1 member
    simp [BitVec.getLsbD_one]
  have low : (w ||| 1#24).getLsbD 0 = true := by simp
  rw [onesCount_eq, onesCount_eq w, high, low, clear]
  simp only [bitOf]
  simp only [if_true, Bool.false_eq_true, if_false]
  omega

theorem withOddParity_odd {w : LinkWord} (clear : w.getLsbD 0 = false) : onesCount (withOddParity w) % 2 = 1 := by
  unfold withOddParity
  split
  · rename_i odd
    exact beq_iff_eq.1 odd
  · rename_i even
    rw [onesCount_or_one clear]
    have : onesCount w % 2 ≠ 1 := fun k => even (beq_iff_eq.2 k)
    omega

theorem withOddParity_toNat {w : LinkWord} (clear : w.toNat % 2 = 0) :
    (withOddParity w).toNat = w.toNat ∨ (withOddParity w).toNat = w.toNat + 1 := by
  unfold withOddParity
  split
  · exact .inl rfl
  · exact .inr (toNat_or_one clear)

theorem getLsbD_of_mod {w : LinkWord} {i : Nat} {b : Bool} (h : w.toNat / 2 ^ i % 2 = bitOf b) : w.getLsbD i = b := by
  rw [← BitVec.testBit_toNat, Nat.testBit_eq_decide_div_mod_eq, h]
  cases b <;> decide

/-! Words across the link (R99, R106). -/

theorem lineOrder_w24 (order : BitOrder) (w : LinkWord) (i : Nat) (small : i < 24) :
    (lineOrder .w24 order w).getLsbD i = w.getLsbD (match order with | .lsbFirst => i | .msbFirst => 23 - i) := by
  cases order with
  | lsbFirst => rfl
  | msbFirst =>
    simp only [lineOrder, BitVec.getLsbD_reverse, BitVec.getMsbD, small, decide_true, Bool.true_and]

theorem lineOrder_w16 (order : BitOrder) (w : LinkWord) (i : Nat) (small : i < 16) :
    (lineOrder .w16 order w).getLsbD i = w.getLsbD (match order with | .lsbFirst => i | .msbFirst => 15 - i) := by
  have wide : i < 24 := by omega
  cases order with
  | lsbFirst => simp only [lineOrder, BitVec.getLsbD_setWidth, small, wide, decide_true, Bool.true_and]
  | msbFirst =>
    have other : 15 - i < 16 := by omega
    simp only [lineOrder, BitVec.getLsbD_setWidth, BitVec.getLsbD_reverse, BitVec.getMsbD, small, wide, decide_true, Bool.true_and]
    simp [other]

theorem lineOrder_w16_high (order : BitOrder) (w : LinkWord) : linkField (lineOrder .w16 order w) 16 8 = 0 := by
  have low : (lineOrder .w16 order w).toNat < 2 ^ 16 := by
    cases order with
    | lsbFirst =>
      simp only [lineOrder, BitVec.toNat_setWidth]
      exact (Nat.mod_le _ _).trans_lt (Nat.mod_lt _ (by decide))
    | msbFirst =>
      simp only [lineOrder, BitVec.toNat_setWidth]
      exact (Nat.mod_le _ _).trans_lt (BitVec.isLt _)
  unfold linkField
  rw [Nat.div_eq_of_lt low, Nat.zero_mod]

theorem lineOrder_twice (order : BitOrder) (w : LinkWord) : lineOrder .w24 order (lineOrder .w24 order w) = w := by
  cases order with
  | lsbFirst => rfl
  | msbFirst => exact BitVec.reverse_reverse_eq

theorem classifyReceived_silent {len : WordLength} {w : LinkWord} (marker : linkMarker len w = false) :
    classifyReceived len w = .silent := by
  simp [classifyReceived, marker]

theorem classifyReceived_marked {len : WordLength} {w : LinkWord} (marker : linkMarker len w = true) :
    classifyReceived len w = if onesCount w % 2 = 1 then .valid else .garbled := by
  simp [classifyReceived, marker, oddParity]

/-- Settles O24: a command word is a number in mixed radix, its fields the digits, and the parity bit its lowest; a bit
order is a reversal or none. -/
theorem linkWordsInBothDirections : Obligations.LinkWordsInBothDirections := by
  refine ⟨fun len level blank step o count n => ?_, fun order w => ?_⟩
  · have hb := bitOf_le blank
    have ht := bitOf_le (requested o OneShot.test)
    have hc := bitOf_le (requested o OneShot.clearLatch)
    have hk : count.toNat % 8 < 8 := Nat.mod_lt _ (by decide)
    have even := packed_even (topField len level) (bitOf blank) step.val (bitOf (requested o OneShot.test))
      (bitOf (requested o OneShot.clearLatch)) (count.toNat % 8) n.val
    have small := packed_lt (topField_lt len level) hb step.isLt ht hc hk n.isLt
    have fields : (commandFields len level blank step o count n).toNat =
        packed (topField len level) (bitOf blank) step.val (bitOf (requested o OneShot.test))
          (bitOf (requested o OneShot.clearLatch)) (count.toNat % 8) n.val := by
      rw [commandFields_eq, BitVec.toNat_ofNat, Nat.mod_eq_of_lt small]
    have parity : (commandFields len level blank step o count n).getLsbD 0 = false := getLsbD_of_mod (by
      rw [fields, Nat.pow_zero, Nat.div_one]
      exact even)
    have word := withOddParity_toNat (w := commandFields len level blank step o count n) (by rw [fields]; exact even)
    rw [fields] at word
    obtain ⟨top, blank_, step_, test, clear, count_, slot⟩ := packed_fields hb step.isLt ht hc hk n.isLt word
    have byte := levelByte_le level
    have high : (commandWord len level blank step o count n).toNat / 2 ^ 15 = topField len level := top
    refine ⟨?_, getLsbD_of_mod blank_, step_, ?_, ?_, count_, slot, ?_, ?_, withOddParity_odd parity⟩
    · cases len with
      | w16 => exact getLsbD_of_mod (i := 15) (b := true) (by rw [high]; rfl)
      | w24 =>
        have whole : topField .w24 level = 2 ^ 8 + levelByte level := rfl
        refine getLsbD_of_mod (i := 23) (b := true) ?_
        simp only [bitOf, if_true]
        omega
    · cases o <;> exact getLsbD_of_mod test
    · cases o <;> exact getLsbD_of_mod clear
    · rintro rfl
      have whole : topField .w24 level = 2 ^ 8 + levelByte level := rfl
      have least : levelByte level = min 255 (level / 16) := rfl
      unfold linkField
      omega
    · rintro rfl
      have whole : topField .w16 level = 1 := rfl
      unfold linkField
      omega
  · refine ⟨lineOrder_w24 order w, lineOrder_w16 order w, lineOrder_w16_high order w, lineOrder_twice order w, fun len => ?_⟩
    have silent := classifyReceived_silent (len := len) (w := w)
    have marked := classifyReceived_marked (len := len) (w := w)
    cases len <;>
      exact ⟨silent, fun marker even => (marked marker).trans (if_neg (by omega)), fun marker odd => (marked marker).trans (if_pos odd)⟩

end Sys2Proof.Machine
end

/-! PROOFS. Module records: the outcomes they take, their transitions and the events these raise (R115 to R125, R130). -/

section

namespace Sys2Proof.Machine

/-! Outcomes (R121 to R125), one equation per record state. -/

/-- A record after its silent run has risen. -/
def ModuleRecord.silenced (r : ModuleRecord) : ModuleRecord := { r with silentRun := min 255 (r.silentRun + 1) }

theorem taken_silence_lost {r : ModuleRecord} (l : LinkSetup) (st : r.state = .unseen ∨ r.state = .ok ∨ r.state = .suspect) :
    (r.taken l .silence).1 =
      if l.lostCount ≤ r.silenced.silentRun then { r.silenced with state := .lost, confirmRun := 0, cleanRun := 0 }
      else r.silenced := by
  rcases st with st | st | st <;> simp only [ModuleRecord.taken, ModuleRecord.afterSilence, ModuleRecord.silenced, satSucc_eq, st]

theorem taken_silence_kept {r : ModuleRecord} (l : LinkSetup) (st : r.state = .lost ∨ r.state = .faulted) :
    (r.taken l .silence).1 = r.silenced := by
  rcases st with st | st <;> simp only [ModuleRecord.taken, ModuleRecord.afterSilence, ModuleRecord.silenced, satSucc_eq, st]

theorem taken_word (r : ModuleRecord) (l : LinkSetup) (w : ModuleReport) :
    (r.taken l (.valid w)).1 = (r.reported l.thresholds w).afterWord l (judge l (r.reported l.thresholds w) w).faulty := rfl

theorem faulty_iff (l : LinkSetup) (q : ModuleRecord) (w : ModuleReport) :
    (judge l q w).faulty = true ↔ w.openFault = true ∨ w.shortFault = true ∨ l.stuckLimit ≤ q.stuckRun := by
  simp only [judge, Reasons.faulty, Bool.or_eq_true, decide_eq_true_eq, or_assoc]

section
variable {q : ModuleRecord} (l : LinkSetup)

theorem afterWord_unseen (st : q.state = .unseen) : q.afterWord l false = { q with state := .ok } := by
  simp [ModuleRecord.afterWord, st]

theorem afterWord_ok (st : q.state = .ok) : q.afterWord l false = q := by
  simp [ModuleRecord.afterWord, st]

theorem afterWord_faulty (st : q.state = .unseen ∨ q.state = .ok ∨ q.state = .lost) :
    q.afterWord l true = { q with state := .suspect, confirmRun := 1, cleanRun := 0 } := by
  rcases st with st | st | st <;> simp [ModuleRecord.afterWord, st, ModuleRecord.suspected]

theorem afterWord_lost (st : q.state = .lost) :
    q.afterWord l false = { q with state := .suspect, confirmRun := 0, cleanRun := 1 } := by
  simp [ModuleRecord.afterWord, st, ModuleRecord.suspected]

theorem afterWord_suspect_faulty (st : q.state = .suspect) :
    q.afterWord l true =
      { q with
        state := if l.confirmCount ≤ min 15 (q.confirmRun + 1) then .faulted else .suspect
        confirmRun := min 15 (q.confirmRun + 1)
        cleanRun := 0 } := by
  simp [ModuleRecord.afterWord, st, satSucc_eq]

theorem afterWord_suspect_clean (st : q.state = .suspect) :
    q.afterWord l false =
      if l.clearCount ≤ min 15 (q.cleanRun + 1) then { q with state := .ok, confirmRun := 0, cleanRun := 0 }
      else { q with confirmRun := 0, cleanRun := min 15 (q.cleanRun + 1) } := by
  simp [ModuleRecord.afterWord, st, satSucc_eq]

theorem afterWord_faulted (st : q.state = .faulted) (faulty : Bool) : q.afterWord l faulty = q := by
  simp [ModuleRecord.afterWord, st]

end

/-! Temperature levels (R120). -/

theorem rank_tempLevelOf {k : Nat} (h : k ≤ 3) : (tempLevelOf k).rank = k := by
  interval_cases k <;> rfl

theorem reached_eq (th : Thresholds) (t lowered : Int) :
    th.reached t lowered =
      (if th.warm - lowered ≤ t then 1 else 0) + (if th.hot - lowered ≤ t then 1 else 0) +
        (if th.critical - lowered ≤ t then 1 else 0) := by
  simp only [Thresholds.reached, List.countP_cons, List.countP_nil, decide_eq_true_eq]
  omega

theorem reached_le (th : Thresholds) (t lowered : Int) : th.reached t lowered ≤ 3 := List.countP_le_length

theorem rank_levelAfter (th : Thresholds) (present : TempLevel) (t : Int) :
    (th.levelAfter present t).rank =
      if present.rank < th.reached t 0 then th.reached t 0
      else if th.reached t th.hysteresis < present.rank then th.reached t th.hysteresis
      else present.rank := by
  unfold Thresholds.levelAfter
  dsimp only
  split
  · exact rank_tempLevelOf (reached_le th t 0)
  · split
    · exact rank_tempLevelOf (reached_le th t th.hysteresis)
    · rfl

/-- Settles O27: one equation for each record state, and the level is a count of thresholds reached. -/
theorem recordTakesOutcomes : Obligations.RecordTakesOutcomes := by
  refine ⟨fun r l => ⟨⟨taken_silence_lost l, taken_silence_kept l⟩, fun w => ?_⟩, fun th present w => ⟨fun h => ?_, fun t h => ?_⟩⟩
  · have judged := faulty_iff l (r.reported l.thresholds w) w
    have faulty (h : _) := (taken_word r l w).trans (congrArg ((r.reported l.thresholds w).afterWord l) (judged.2 h))
    have clean (h : _) := (taken_word r l w).trans
      (congrArg ((r.reported l.thresholds w).afterWord l) (Bool.eq_false_iff.2 (mt judged.1 h)))
    exact ⟨fun st h => (clean h).trans (afterWord_unseen l st), fun st h => (clean h).trans (afterWord_ok l st),
      fun st h => (faulty h).trans (afterWord_faulty l st), fun st h => (clean h).trans (afterWord_lost l st),
      fun st h => (faulty h).trans (afterWord_suspect_faulty l st), fun st h => (clean h).trans (afterWord_suspect_clean l st),
      fun st => (taken_word r l w).trans (afterWord_faulted (q := r.reported l.thresholds w) l st _)⟩
  · simp only [reportedLevel, h]
  · simp only [reportedLevel, h]
    rw [rank_levelAfter, reached_eq, reached_eq]

/-! Events (R130, R186). -/

section
variable {r t : ModuleRecord} (q : Reasons)

theorem recordEvent_same (same : r.state = t.state) :
    recordEvent r t q =
      if (t.state = .ok ∨ t.state = .suspect) ∧ r.derateStep ≠ t.derateStep then
        some { code := .derateChanged, detailA := stepDetail r.derateStep, detailB := thermalDetail t.derateStep t.tempLevel t.supplyLow }
      else none := if_pos same

theorem recordEvent_seen (before : r.state = .unseen) (after : t.state = .ok) :
    recordEvent r t q =
      some { code := .moduleSeen, detailA := plainDetail 1, detailB := thermalDetail t.derateStep t.tempLevel t.supplyLow } := by
  simp [recordEvent, before, after, RecordState.code]

theorem recordEvent_recovered (before : r.state = .suspect) (after : t.state = .ok) :
    recordEvent r t q =
      some { code := .moduleRecovered, detailA := plainDetail (min 15 (r.cleanRun + 1)), detailB := stepDetail t.derateStep } := by
  simp [recordEvent, before, after, satSucc_eq]

theorem recordEvent_suspect (before : r.state ≠ .suspect) (after : t.state = .suspect) :
    recordEvent r t q =
      some
        { code := .moduleSuspect, detailA := plainDetail r.state.code,
          detailB := reasonsDetail t.derateStep q.openFault q.shortFault q.frozen } := by
  simp [recordEvent, before, after]

theorem recordEvent_faulted (before : r.state = .suspect) (after : t.state = .faulted) :
    recordEvent r t q =
      some
        { code := .moduleFaulted, detailA := plainDetail t.confirmRun,
          detailB := reasonsDetail 3 q.openFault q.shortFault q.frozen } := by
  have step : t.derateStep = 3 := ModuleRecord.derateStep_of_not_reporting (.inr (.inr (.inl after)))
  simp [recordEvent, before, after, step]

theorem recordEvent_lost (before : r.state ≠ .lost) (after : t.state = .lost) :
    recordEvent r t q =
      some { code := .moduleLost, detailA := plainDetail r.state.code, detailB := plainDetail t.silentRun } := by
  simp [recordEvent, before, after]

end

/-- Details packed of fields as R186 places them. -/
theorem placed_cons (p : BitField) (fs : List BitField) :
    placed (p :: fs) = place p.value p.lo (p.hi + 1 - p.lo) ||| placed fs := rfl

theorem placed_single (p : BitField) : placed [p] = place p.value p.lo (p.hi + 1 - p.lo) := BitVec.or_zero

theorem laid_stepDetail (step : Fin 4) : Laid (stepDetail step) [⟨1, 0, step.val⟩] := by
  have packed : stepDetail step = placed [⟨1, 0, step.val⟩] := (placed_single ⟨1, 0, step.val⟩).symm
  rw [packed]
  exact laid_placed _ (by simp) (by simp)

theorem laid_thermalDetail (step : Fin 4) (level : TempLevel) (low : Bool) :
    Laid (thermalDetail step level low) [⟨1, 0, step.val⟩, ⟨5, 4, level.code⟩, ⟨8, 8, bitOf low⟩] := by
  have packed : thermalDetail step level low = placed [⟨1, 0, step.val⟩, ⟨5, 4, level.code⟩, ⟨8, 8, bitOf low⟩] := by
    rw [placed_cons, placed_cons, placed_single, ← BitVec.or_assoc]
    rfl
  rw [packed]
  exact laid_placed _ (by simp) (by simp)

theorem laid_reasonsDetail (step : Fin 4) (openFault shortFault frozen : Bool) :
    Laid (reasonsDetail step openFault shortFault frozen)
      [⟨1, 0, step.val⟩, ⟨16, 16, bitOf openFault⟩, ⟨17, 17, bitOf shortFault⟩, ⟨18, 18, bitOf frozen⟩] := by
  have packed : reasonsDetail step openFault shortFault frozen =
      placed [⟨1, 0, step.val⟩, ⟨16, 16, bitOf openFault⟩, ⟨17, 17, bitOf shortFault⟩, ⟨18, 18, bitOf frozen⟩] := by
    rw [placed_cons, placed_cons, placed_cons, placed_single, ← BitVec.or_assoc, ← BitVec.or_assoc]
    rfl
  rw [packed]
  exact laid_placed _ (by simp) (by simp)

/-- Settles O29: one equation for each transition, and the details are words of placed fields. -/
theorem recordEventsFollowTransitions : Obligations.RecordEventsFollowTransitions := by
  refine ⟨fun r t q => ⟨recordEvent_same q, recordEvent_seen q, recordEvent_suspect q, recordEvent_faulted q,
      recordEvent_lost q, recordEvent_recovered q⟩,
    fun value step level low openFault shortFault frozen =>
      ⟨BitVec.toNat_ofNat _ _, laid_stepDetail step, ?_, laid_reasonsDetail step openFault shortFault frozen⟩⟩
  cases level <;> exact laid_thermalDetail step _ low

end Sys2Proof.Machine
end

/-! PROOFS. The journal writer and the status writer: a record enqueued whole (R153, R154), the status writer's turn
(R161), and the layout of the image words (R160, R185). -/

section

namespace Sys2Proof.Machine

/-! A record enqueued. -/

theorem recordReady_iff (s : State) :
    s.recordReady = true ↔
      s.journal.configured = true ∧ s.journal.inProgress = none ∧
        (s.journal.produced - s.journal.consumed).toNat < s.journal.capacity ∧ (s.eventQueue ≠ [] ∨ s.journal.drops ≠ 0) := by
  simp only [State.recordReady, Bool.and_eq_true, Bool.or_eq_true, Bool.not_eq_true', Option.isNone_iff_eq_none,
    decide_eq_true_eq, List.isEmpty_eq_false_iff, and_assoc]
  rfl

theorem roomForRecord_iff (s : State) : s.roomForRecord = true ↔ s.ownWrites.length ≤ 4 := by
  simp [State.roomForRecord, Config.recordWords, Config.ownWriteQueueSize]

theorem eventCode_lt (code : EventCode) : code.code < 2 ^ 8 := by
  cases code <;> decide

theorem recordHeader_eq (sequence : BitVec 16) (code : EventCode) (f : Fin 4) (n : Fin 64) :
    recordHeader sequence code f n = BitVec.ofNat 32 (sequence.toNat * 65536 + code.code * 256 + f.val * 64 + n.val) := by
  have packed : recordHeader sequence code f n =
      placed [⟨31, 16, sequence.toNat⟩, ⟨15, 8, code.code⟩, ⟨7, 6, f.val⟩, ⟨5, 0, n.val⟩] := by
    rw [placed_cons, placed_cons, placed_cons, placed_single, ← BitVec.or_assoc, ← BitVec.or_assoc]
    rfl
  obtain ⟨fields, _⟩ := laid_placed [⟨31, 16, sequence.toNat⟩, ⟨15, 8, code.code⟩, ⟨7, 6, f.val⟩, ⟨5, 0, n.val⟩] (by simp) (by simp)
  rw [← packed] at fields
  simp only [List.forall_mem_cons, List.not_mem_nil, false_implies, implies_true, and_true] at fields
  obtain ⟨high, second, third, low⟩ := fields
  have := eventCode_lt code
  have := sequence.isLt
  have := (recordHeader sequence code f n).isLt
  apply BitVec.eq_of_toNat_eq
  rw [BitVec.toNat_ofNat]
  omega

theorem recordWrites_eq (addr : Addr) (sequence : BitVec 16) (e : EventEntry) :
    recordWrites addr sequence e =
      [{ addr := addr + 8, data := e.detailA, origin := .journal sequence false },
       { addr := addr + 12, data := e.detailB, origin := .journal sequence false },
       { addr := addr + 4, data := e.time, origin := .journal sequence false },
       { addr := addr,
         data := BitVec.ofNat 32 (sequence.toNat * 65536 + e.code.code * 256 + e.face.val * 64 + e.slot.val),
         origin := .journal sequence true }] := by
  unfold recordWrites
  rw [recordHeader_eq, BitVec.setWidth_eq]

theorem marks_enqueueRecord (e : EventEntry) (s : State) : Marks [] s (enqueueRecord e s) :=
  ⟨marksExactly_of rfl fun _ => rfl, fun _ _ => rfl⟩

theorem marks_eventQueue (q : List EventEntry) (s : State) :
    Marks [partWord 7] s (touch [partWord 7] (fun s => { s with eventQueue := q }) s) := by
  refine marks_touch_part rfl rfl fun i other => ?_
  match i with
  | 7 => simp at other
  | 0 | 1 | 2 | 3 | 4 | 5 | 6 => rfl

/-- Settles O36: a record is ready and has room, or nothing happens; the header is read off its fields. -/
theorem readyRecordIsEnqueuedWhole : Obligations.ReadyRecordIsEnqueuedWhole := by
  refine ⟨fun s => ⟨fun ready room => ?_, fun idle => ?_⟩, by decide⟩
  · have turn : (s.recordReady && s.roomForRecord) = true := by
      rw [Bool.and_eq_true]
      exact ⟨(recordReady_iff s).2 ready, (roomForRecord_iff s).2 room⟩
    refine ⟨journalEnqueue s, rfl, ?_, fun drops => ?_, fun e rest drops queue => ?_⟩
    · unfold journalEnqueue
      rw [if_pos turn]
      split
      · exact ((marks_enqueueRecord _ s).trans (marks_changeJournal _ _) nofun).exactly
      · split
        · exact marksExactly_refl s
        · exact ((marks_enqueueRecord _ s).trans (marks_eventQueue _ _) nofun).exactly
    · have runs : journalEnqueue s =
          changeJournal (fun j => { j with drops := 0 }) (enqueueRecord (droppedSummary s) s) := by
        unfold journalEnqueue
        rw [if_pos turn, if_pos drops]
      rw [runs, enqueueRecord, recordWrites_eq]
      exact changeJournal_same _ _
    · have runs : journalEnqueue s = touch [partWord 7] (fun s => { s with eventQueue := rest }) (enqueueRecord e s) := by
        unfold journalEnqueue
        rw [if_pos turn, if_neg (not_not.2 drops), queue]
      rw [runs, enqueueRecord, recordWrites_eq]
      rfl
  · have still : ¬(s.recordReady && s.roomForRecord) = true := by
      rw [Bool.and_eq_true, recordReady_iff, roomForRecord_iff]
      rintro ⟨ready, room⟩
      exact idle.elim (fun k => k ready) (Nat.not_lt.2 room)
    exact congrArg Host.Outcome.next (if_neg still)

/-! The layout of the image words. -/

theorem partImage_placed (s : State) (i : Fin 8) : partImage s i = placed (partFields s (0x040 + 4 * i.val)) := by
  match i with
  | 0 | 1 | 2 | 3 | 4 | 5 | 6 | 7 => simp [partImage, partFields, placed, BitVec.or_assoc, flagBit, bitOf, Journal.fill]

theorem faceImage_placed (x : Face) (i : Fin 8) : faceImage x i = placed (faceFields x (4 * i.val)) := by
  match i with
  | 0 | 1 | 2 | 3 | 4 | 5 | 6 | 7 => simp [faceImage, faceFields, placed, BitVec.or_assoc, flagBit, bitOf, recordsIn_eq]

theorem moduleFields_eq (x : Face) (n : Fin 64) :
    moduleFields x n =
      [⟨31, 24, (pick x.records n).silentRun⟩, ⟨23, 16, measuredCode (pick x.records n).measuredTemp⟩,
       ⟨15, 9, (pick x.records n).pixelFaults⟩, ⟨8, 8, bitOf (pick x.records n).supplyLow⟩,
       ⟨7, 6, (pick x.records n).tempLevel.code⟩, ⟨5, 4, (pick x.records n).derateStep.val⟩,
       ⟨3, 3, bitOf (pick x.mailboxes n).isSome⟩, ⟨2, 0, (pick x.records n).state.code⟩] := rfl

theorem moduleImage_placed (x : Face) (n : Fin 64) :
    moduleImage (pick x.records n) (pick x.mailboxes n) = placed (moduleFields x n) := by
  rw [moduleFields_eq]
  simp [moduleImage, placed, BitVec.or_assoc, flagBit, bitOf]

theorem partFields_apart (s : State) (i : Fin 8) :
    (∀ p ∈ partFields s (0x040 + 4 * i.val), p.lo ≤ p.hi ∧ p.hi < 32) ∧
      (partFields s (0x040 + 4 * i.val)).Pairwise fun p q => p.hi < q.lo ∨ q.hi < p.lo := by
  match i with
  | 0 | 1 | 2 | 3 | 4 | 5 | 6 | 7 => simp [partFields]

theorem faceFields_apart (x : Face) (i : Fin 8) :
    (∀ p ∈ faceFields x (4 * i.val), p.lo ≤ p.hi ∧ p.hi < 32) ∧
      (faceFields x (4 * i.val)).Pairwise fun p q => p.hi < q.lo ∨ q.hi < p.lo := by
  match i with
  | 0 | 1 | 2 | 3 | 4 | 5 | 6 | 7 => simp [faceFields]

theorem moduleFields_apart (x : Face) (n : Fin 64) :
    (∀ p ∈ moduleFields x n, p.lo ≤ p.hi ∧ p.hi < 32) ∧
      (moduleFields x n).Pairwise fun p q => p.hi < q.lo ∨ q.hi < p.lo := by
  simp [moduleFields]

theorem laid_part (s : State) (i : Fin 8) : Laid (imageValue s (partWord i)) (partFields s (0x040 + 4 * i.val)) := by
  have value : imageValue s (partWord i) = placed (partFields s (0x040 + 4 * i.val)) := by
    rw [← partImage_placed, imageValue, imagePlace_partWord]
  rw [value]
  exact laid_placed _ (partFields_apart s i).1 (partFields_apart s i).2

theorem laid_face (s : State) (f : Fin 4) (i : Fin 8) :
    Laid (imageValue s (faceWord f i)) (faceFields (s.face f) (4 * i.val)) := by
  have value : imageValue s (faceWord f i) = placed (faceFields (s.face f) (4 * i.val)) := by
    rw [← faceImage_placed, imageValue, imagePlace_faceWord]
  rw [value]
  exact laid_placed _ (faceFields_apart _ i).1 (faceFields_apart _ i).2

theorem laid_module (s : State) (f : Fin 4) (n : Fin 64) : Laid (imageValue s (moduleWord f n)) (moduleFields (s.face f) n) := by
  have value : imageValue s (moduleWord f n) = placed (moduleFields (s.face f) n) := by
    rw [← moduleImage_placed, imageValue, imagePlace_moduleWord]
  rw [value]
  exact laid_placed _ (moduleFields_apart _ n).1 (moduleFields_apart _ n).2

/-! The turn of the status writer. -/

theorem lowestDirty_iff (d : Vector Bool 296) (w : ImageWord) :
    lowestDirty d = some w ↔ pick d w = true ∧ ∀ v, v < w → pick d v = false := by
  unfold lowestDirty
  rw [List.find?_eq_some_iff_getElem]
  simp only [List.getElem_finRange, List.length_finRange, Fin.cast_mk, Bool.not_eq_true']
  refine and_congr_right fun _ => ⟨?_, fun clean => ?_⟩
  · rintro ⟨i, small, rfl, clean⟩ v lower
    exact clean v.val lower
  · exact ⟨w.val, w.isLt, rfl, fun j lower => clean ⟨j, lower.trans w.isLt⟩ lower⟩

theorem lowestDirty_none (d : Vector Bool 296) : lowestDirty d = none ↔ ∀ w, pick d w = false := by
  simp [lowestDirty]

theorem statusTurn_iff (s : State) : s.statusTurn = true ↔ s.ownWrites.length < 8 ∧ ¬s.recordReady = true := by
  simp only [State.statusTurn, Bool.and_eq_true, Bool.not_eq_true', Bool.not_eq_true, decide_eq_true_eq]
  rfl

theorem noneDirty_iff (d : Vector Bool 296) : noneDirty d = true ↔ ∀ w, pick d w = false := by
  rw [noneDirty, Option.isNone_iff_eq_none, lowestDirty_none]

/-- The set without its lowest word is empty exactly if no higher word is in it. -/
theorem noneDirty_put_iff {d : Vector Bool 296} {w : ImageWord} (lowest : ∀ v, v < w → pick d v = false) :
    noneDirty (put d w false) = true ↔ ∀ v, w < v → pick d v = false := by
  rw [noneDirty_iff]
  refine ⟨fun clean v higher => ?_, fun clean v => ?_⟩
  · rw [← clean v, pick_put_ne _ _ higher.ne]
  · rcases lt_trichotomy v w with lower | rfl | higher
    · rw [pick_put_ne _ _ lower.ne']; exact lowest v lower
    · exact pick_put_self _ _ _
    · rw [pick_put_ne _ _ higher.ne]; exact clean v higher

section
variable {s : State}

theorem statusEnqueue_idle (off : ¬s.statusTurn = true) : statusEnqueue s = s := if_neg off

theorem statusEnqueue_owed (turn : s.statusTurn = true) (owed : s.generationOwed = true) :
    statusEnqueue s = enqueueImageWord generationWord { s with generationOwed := false, dirty := put s.dirty generationWord false } :=
  (if_pos turn).trans (if_pos owed)

theorem statusEnqueue_clean (turn : s.statusTurn = true) (owed : s.generationOwed = false)
    (clean : ∀ w, pick s.dirty w = false) : statusEnqueue s = s := by
  simp [statusEnqueue, turn, owed, (lowestDirty_none s.dirty).2 clean]

theorem statusEnqueue_dirty {w : ImageWord} (turn : s.statusTurn = true) (owed : s.generationOwed = false)
    (dirty : pick s.dirty w = true) (lowest : ∀ v, v < w → pick s.dirty v = false) :
    statusEnqueue s = enqueueImageWord w (takeDirty w s) := by
  simp [statusEnqueue, turn, owed, (lowestDirty_iff s.dirty w).2 ⟨dirty, lowest⟩]

theorem takeDirty_more {w : ImageWord} (lowest : ∀ v, v < w → pick s.dirty v = false)
    (more : ∃ v, w < v ∧ pick s.dirty v = true) : takeDirty w s = { s with dirty := put s.dirty w false } := by
  refine if_neg fun empty => ?_
  obtain ⟨v, higher, dirty⟩ := more
  rw [(noneDirty_put_iff lowest).1 empty v higher] at dirty
  cases dirty

theorem takeDirty_last {w : ImageWord} (owed : s.generationOwed = false) (lowest : ∀ v, v < w → pick s.dirty v = false)
    (last : ∀ v, w < v → pick s.dirty v = false) :
    takeDirty w s =
      { s with dirty := put s.dirty w false, generation := s.generation + 1, generationOwed := decide (w ≠ 0) } := by
  have own : (s.generationOwed || w != generationWord) = decide (w ≠ 0) := by
    rw [owed, Bool.false_or, Bool.eq_iff_iff, bne_iff_ne, decide_eq_true_eq]
    rfl
  refine (if_pos ((noneDirty_put_iff lowest).2 last)).trans ?_
  rw [own]

end

theorem capacityCode_eq {j : Journal} {i : Nat} (small : i < 7) (on : j.configured = true) (size : j.capacity = 16 * 2 ^ i) :
    j.capacityCode = i + 1 := by
  unfold Journal.capacityCode
  rw [on, size]
  interval_cases i <;> rfl

/-- Settles O37: the turn, then the owed word, then the lowest dirty one; an image word is a word of placed fields. -/
theorem statusWriterTakesLowestDirtyWord : Obligations.StatusWriterTakesLowestDirtyWord := by
  refine ⟨fun s => ?_, fun s w => ⟨fun i small place => ?_, fun f i small place => ?_, fun f n place => ?_⟩,
    rfl, rfl, rfl, rfl, rfl, rfl, rfl, rfl, fun j => ⟨fun off => ?_, fun i => capacityCode_eq⟩⟩
  · have turn : s.statusTurn = true ↔ _ := (statusTurn_iff s).trans (and_congr_right fun _ => not_congr (recordReady_iff s))
    refine ⟨fun off => ?_, fun on owed => ?_, fun on owed clean => ?_, fun on owed w dirty lowest => ⟨fun more => ?_, fun last => ?_⟩⟩
    · exact congrArg Host.Outcome.next (statusEnqueue_idle fun on => off (turn.1 on))
    · exact congrArg Host.Outcome.next (statusEnqueue_owed (turn.2 on) owed)
    · exact congrArg Host.Outcome.next (statusEnqueue_clean (turn.2 on) owed clean)
    · have runs := statusEnqueue_dirty (turn.2 on) owed dirty lowest
      rw [takeDirty_more lowest more] at runs
      exact congrArg Host.Outcome.next runs
    · have runs := statusEnqueue_dirty (turn.2 on) owed dirty lowest
      rw [takeDirty_last owed lowest last] at runs
      exact congrArg Host.Outcome.next runs
  · obtain rfl : w = partWord ⟨i, small⟩ := Fin.ext place
    exact laid_part s ⟨i, small⟩
  · obtain rfl : w = faceWord f ⟨i, small⟩ := Fin.ext place
    exact laid_face s f ⟨i, small⟩
  · obtain rfl : w = moduleWord f n := Fin.ext place
    exact laid_module s f n
  · simp [Journal.capacityCode, off]

end Sys2Proof.Machine
end

/-! PROOFS. The stream decoder: BODY words (R166), refusals (R165, R167, R168) and abandoned commands (R164). -/

section

namespace Sys2Proof.Machine

/-! The decoder's own writes. -/

theorem marks_setDecoder (st : DecoderState) (n : Nat) (cmd : Option HeadWord) (r : Option ResultCode) (b : List Word)
    (s : State) : Marks [partWord 2] s (setDecoder st n cmd r b s) := by
  refine marks_touch_part rfl rfl fun i other => ?_
  match i with
  | 2 => simp at other
  | 0 | 1 | 3 | 4 | 5 | 6 | 7 => rfl

/-- A command that ends with a result other than DONE raises CMD_REFUSED with it. -/
theorem afterResult_refused (h : HeadWord) {r : ResultCode} (refused : r ≠ .done) (s : State) :
    afterResult h r s =
      raiseEvent .cmdRefused h.fields.face h.fields.slot (codeTagDetail h.code h.fields.tag) (plainDetail r.code)
        { s with decoder := endedDecoder h.code h.fields r } := by
  rw [← place_code]
  exact if_neg refused

/-! BODY words. -/

section
variable {s : State} (w : Word)

theorem takeBody_idle (idle : s.decoder.state = .idle) : takeBody w s = raiseEvent .streamStray 0 0 w 0 s := by
  simp [takeBody, idle]

theorem takeBody_collected (collecting : s.decoder.state = .collecting) (more : 2 ≤ s.decoder.remaining) :
    takeBody w s =
      setDecoder .collecting (s.decoder.remaining - 1) s.decoder.inProgress s.decoder.refusal (s.decoder.buffer ++ [w]) s := by
  have notLast : ¬s.decoder.remaining ≤ 1 := by omega
  simp [takeBody, collecting, notLast]

theorem takeBody_dropped (discarding : s.decoder.state = .discarding) (more : 2 ≤ s.decoder.remaining) :
    takeBody w s =
      setDecoder .discarding (s.decoder.remaining - 1) s.decoder.inProgress s.decoder.refusal s.decoder.buffer s := by
  have notLast : ¬s.decoder.remaining ≤ 1 := by omega
  simp [takeBody, discarding, notLast]

theorem takeBody_executes {h : HeadWord} (collecting : s.decoder.state = .collecting) (last : s.decoder.remaining = 1)
    (command : s.decoder.inProgress = some h) : takeBody w s = completeCommand h (s.decoder.buffer ++ [w]) s := by
  simp [takeBody, collecting, last, Decoder.command, command]

theorem takeBody_refuses {h : HeadWord} {r : ResultCode} (discarding : s.decoder.state = .discarding)
    (last : s.decoder.remaining = 1) (command : s.decoder.inProgress = some h) (refusal : s.decoder.refusal = some r) :
    takeBody w s = postResult h r s := by
  simp [takeBody, discarding, last, Decoder.command, command, refusal]

end

/-- Settles O39: one equation for each decoder state, before and at the last word. -/
theorem bodyWordByDecoderState : Obligations.BodyWordByDecoderState := by
  intro w s
  refine ⟨fun idle => ⟨takeBody w s, rfl, ?_⟩, fun collecting more => ⟨takeBody w s, rfl, ?_⟩,
    fun h c collecting last command named allowed whole => ?_,
    fun discarding more => ⟨takeBody w s, rfl, ?_⟩,
    fun h r discarding last command refusal refused => ⟨takeBody w s, rfl, ?_⟩⟩
  · rw [takeBody_idle w idle]
    exact ⟨(marks_raiseEvent _ _ _ _ _ s).exactly, rfl⟩
  · rw [takeBody_collected w collecting more]
    refine ⟨(marks_setDecoder _ _ _ _ _ s).exactly, ?_⟩
    rw [← collecting]
    rfl
  · intro idle
    have length : (s.decoder.buffer ++ [w]).length = h.fields.count.toNat := by
      rw [List.length_append]
      exact whole
    have taken : Taken c h.fields (s.decoder.buffer ++ [w]) idle := ⟨rfl, length, (congrArg c.allows length).trans allowed⟩
    obtain ⟨u, runs, row⟩ := exec_taken taken
    rw [code_of_commandOf named] at row
    refine ⟨taken, takeBody w s, u, rfl, runs, row.symm.trans ?_⟩
    rw [takeBody_executes w collecting last command]
    exact completeCommand_same c h named _ (Alike.symm rfl)
  · rw [takeBody_dropped w discarding more]
    refine ⟨(marks_setDecoder _ _ _ _ _ s).exactly, ?_⟩
    rw [← discarding]
    rfl
  · rw [takeBody_refuses w discarding last command refusal, ← afterResult_refused h refused]
    exact postResult_same h r (alike_refl s)

/-! HEAD words that refuse (R165). -/

/-- A HEAD word of a code and payload count that ends in a refusal whatever the part holds. -/
def RefusedAtHead (code : BitVec 8) (n : Nat) (r : ResultCode) : Prop :=
  (commandOf code = none ∧ r = .unknown) ∨ ∃ c : Command, commandOf code = some c ∧ c.allows n = false ∧ r = .count

theorem RefusedAtHead.ne_done {code : BitVec 8} {n : Nat} {r : ResultCode} (h : RefusedAtHead code n r) : r ≠ .done := by
  obtain ⟨_, rfl⟩ | ⟨_, _, _, rfl⟩ := h <;> nofun

theorem decodeHead_refused {h : HeadWord} {r : ResultCode} (refused : RefusedAtHead h.code h.fields.count.toNat r) (s : State) :
    decodeHead h s =
      if h.fields.count.toNat = 0 then postResult h r s
      else setDecoder .discarding h.fields.count.toNat (some h) (some r) [] s := by
  unfold decodeHead
  obtain ⟨unknown, rfl⟩ | ⟨c, named, count, rfl⟩ := refused
  · simp [unknown]
  · simp [named, count]

section
variable {code : BitVec 8} {h : HeadFields} {r : ResultCode} {s : State}

theorem streamCommand_refused {ws : List Word} (idle : s.decoder.state = .idle) (refused : RefusedAtHead code h.count.toNat r)
    (whole : ws.length = h.count.toNat) :
    SameBesidesDirty
      (raiseEvent .cmdRefused h.face h.slot (codeTagDetail code h.tag) (plainDetail r.code)
        { s with decoder := endedDecoder code h r })
      (streamCommand code h ws s) := by
  have ends := afterResult_refused { code := code, fields := h } refused.ne_done s
  dsimp only at ends
  rw [← ends]
  unfold streamCommand takeHead
  rw [abandon_idle idle, decodeHead_refused (h := { code := code, fields := h }) refused]
  cases ws with
  | nil =>
    have now : h.count.toNat = 0 := whole.symm
    rw [if_pos now]
    exact postResult_same _ r (alike_refl s)
  | cons w ws =>
    rw [if_neg fun (empty : h.count.toNat = 0) => by rw [empty] at whole; cases whole]
    exact takeBodies_discarding _ r s _ _ (alike_setDecoder _ _ _ _ _ s) rfl whole.symm nofun rfl rfl

theorem streamCommand_discards (idle : s.decoder.state = .idle) (refused : RefusedAtHead code h.count.toNat r)
    (words : h.count ≠ 0) :
    streamCommand code h [] s =
      setDecoder .discarding h.count.toNat (some { code := code, fields := h }) (some r) [] s := by
  have counted : ¬h.count.toNat = 0 := fun empty => words (BitVec.eq_of_toNat_eq empty)
  unfold streamCommand takeHead
  rw [abandon_idle idle, decodeHead_refused (h := { code := code, fields := h }) refused]
  exact if_neg counted

end

/-! The table of commands (11.4). -/

theorem laid_codeTagDetail (code tag : BitVec 8) : Laid (codeTagDetail code tag) [⟨15, 8, code.toNat⟩, ⟨7, 0, tag.toNat⟩] := by
  have packed : codeTagDetail code tag = placed [⟨15, 8, code.toNat⟩, ⟨7, 0, tag.toNat⟩] := by
    rw [placed_cons, placed_single]
    rfl
  rw [packed]
  exact laid_placed _ (by simp) (by simp)

theorem laid_resultCode (r : ResultCode) : Laid (plainDetail r.code) [⟨3, 0, r.code⟩] := by
  have packed : plainDetail r.code = placed [⟨3, 0, r.code⟩] := (place_code r).symm.trans (placed_single ⟨3, 0, r.code⟩).symm
  rw [packed]
  exact laid_placed _ (by simp) (by simp)

/-- The payload counts a command allows, as the table lists them. -/
def Command.counts (c : Command) : List Nat := ((commandTable.find? fun e => e.2.1 = c).map fun e => e.2.2).getD []

theorem mem_commandTable (c : Command) : (c.code, c, c.counts) ∈ commandTable := by
  cases c <;> decide

theorem commandTable_sound : ∀ e ∈ commandTable, e.1 = e.2.1.code ∧ e.2.2 = e.2.1.counts := by decide

theorem allows_iff (c : Command) (n : Nat) : c.allows n = true ↔ n ∈ c.counts := by
  cases c <;> simp [Command.allows, Command.counts, commandTable] <;> omega

theorem commandOf_iff (code : BitVec 8) (c : Command) : commandOf code = some c ↔ ∃ counts, (code, c, counts) ∈ commandTable := by
  refine ⟨fun named => ⟨c.counts, ?_⟩, fun ⟨counts, member⟩ => ?_⟩
  · rw [← code_of_commandOf named]
    exact mem_commandTable c
  · obtain ⟨code_, _⟩ := commandTable_sound _ member
    rw [show code = c.code from code_]
    exact commandOf_code c

/-- Settles O40: a refusal at HEAD and a refusal by a test both end in the same way, and the table of commands is
checked row by row. -/
theorem refusalsChangeNothing : Obligations.RefusalsChangeNothing := by
  refine ⟨fun h ws s idle => ⟨fun code unknown => ⟨fun whole => ?_, fun words => ?_⟩, fun c count => ⟨fun whole => ?_, fun words => ?_⟩⟩,
    fun c h ws s r taken first => ⟨?_, fun refused => ?_⟩,
    commandOf_iff, fun c => ⟨c.code, c.counts, mem_commandTable c⟩, fun e member => ?_, laid_codeTagDetail, laid_resultCode⟩
  · exact ⟨_, rfl, streamCommand_refused idle (.inl ⟨unknown, rfl⟩) whole⟩
  · refine ⟨_, rfl, ?_⟩
    rw [streamCommand_discards idle (.inl ⟨unknown, rfl⟩) words]
    exact ⟨(marks_setDecoder _ _ _ _ _ s).exactly, rfl⟩
  · exact ⟨_, exec_row c h ws s, streamCommand_refused idle (.inr ⟨c, commandOf_code c, count, rfl⟩) whole⟩
  · refine ⟨_, exec_row c h [] s, ?_⟩
    rw [streamCommand_discards idle (.inr ⟨c, commandOf_code c, count, rfl⟩) words]
    exact ⟨(marks_setDecoder _ _ _ _ _ s).exactly, rfl⟩
  · rw [passes_iff h taken.allowed, (firstFailing_tests h taken.allowed s r).1 first]
  · exact exec_refused taken ((firstFailing_tests h taken.allowed s r).1 first) refused
  · obtain ⟨code, counts⟩ := commandTable_sound e member
    refine ⟨code.symm, fun n => ?_⟩
    rw [counts]
    exact allows_iff _ n

/-! Abandoned commands (R164). -/

/-- A HEAD word leaves of the decoder before it the last result alone. -/
theorem decodeHead_alike (h : HeadWord) {a b : State} (k : Alike a b) (result : b.decoder.result = a.decoder.result) :
    SameBesidesDirty (decodeHead h a) (decodeHead h b) := by
  have posts (r : ResultCode) : SameBesidesDirty (postResult h r a) (postResult h r b) :=
    (postResult_same h r (alike_refl a)).symm.trans (postResult_same h r k)
  have sets (st : DecoderState) (n : Nat) (r : Option ResultCode) :
      SameBesidesDirty (setDecoder st n (some h) r [] a) (setDecoder st n (some h) r [] b) := by
    obtain ⟨d, ⟨st', n', cmd', r', buffer', result'⟩, rfl⟩ := k.exists
    obtain rfl : result' = a.decoder.result := result
    rfl
  unfold decodeHead
  cases commandOf h.code with
  | none =>
    dsimp only
    split
    · exact posts _
    · exact sets _ _ _
  | some c =>
    dsimp only
    split
    · split
      · exact (executeCommand_same c h [] (alike_refl a)).symm.trans (executeCommand_same c h [] k)
      · exact sets _ _ _
    · split
      · exact posts _
      · exact sets _ _ _

theorem abandonCommand_eq {s : State} {old : HeadWord} (busy : s.decoder.state ≠ .idle) (command : s.decoder.inProgress = some old) :
    abandonCommand s =
      raiseEvent .cmdAbandoned old.fields.face old.fields.slot (codeTagDetail old.code old.fields.tag) (plainDetail s.decoder.remaining)
        (setResult old .abandoned s) := by
  unfold abandonCommand
  cases st : s.decoder.state with
  | idle => exact absurd st busy
  | collecting => simp [command]
  | discarding => simp [command]

theorem streamCommand_abandons (code : BitVec 8) (h : HeadFields) (ws : List Word) {s : State} {old : HeadWord}
    (busy : s.decoder.state ≠ .idle) (command : s.decoder.inProgress = some old) :
    SameBesidesDirty
      (streamCommand code h ws
        (raiseEvent .cmdAbandoned old.fields.face old.fields.slot (codeTagDetail old.code old.fields.tag)
          (plainDetail s.decoder.remaining) { s with decoder := endedDecoder old.code old.fields .abandoned }))
      (streamCommand code h ws s) := by
  refine (confined_takeBodies ws).blind _ _ ?_
  unfold takeHead
  rw [abandon_idle (by rw [raiseEvent_decoder]; rfl), abandonCommand_eq busy command]
  refine decodeHead_alike _ ((effect_raiseEvent (fs := []) _ _ _ _ _).deaf _ _ rfl) ?_
  rw [raiseEvent_decoder, raiseEvent_decoder]
  rfl

/-- Settles O41: of the decoder before it a new HEAD word sees the last result alone. -/
theorem newHeadAbandonsTheOld : Obligations.NewHeadAbandonsTheOld := by
  rintro row h ws old s (⟨c, rfl⟩ | ⟨code, rfl⟩) busy command
  · exact ⟨_, _, exec_row c h ws s, exec_row c h ws _, streamCommand_abandons c.code h ws busy command⟩
  · exact ⟨_, _, rfl, rfl, streamCommand_abandons code h ws busy command⟩

end Sys2Proof.Machine
end

/-! PROOFS. The commands of a face: geometry and zone map (R169, R170), start and stop (R75, R80), outputs (R89), link setup
(R176), one-shots and releases (R177, R178). -/

section

namespace Sys2Proof.Machine

/-! A command of a face changes its own face and nothing else. -/

/-- The commands whose HEAD word names a face (R163). -/
def Command.OfFace (c : Command) : Prop := c ∉ [.attnConfig, .journalSetup, .timingSetup, .statusRefresh, .partReset]

theorem enterOff_same (f : Fin 4) (s : State) : SameBesidesDirty (s.setFace f (s.face f).offed) (enterOff f s) := by
  have start := faceAt_start s f
  have dark : SameBesidesDirty
      (s.setFace f { s.face f with sup := { (s.face f).sup with state := .off, stallTimer := 0 }, applied := darkForm })
      (darken f (stopSupervisor f s)) := faceAt_touch (faceAt_touch start _ _) _ _
  have found := faceAt_face dark
  unfold enterOff Face.offed
  by_cases off : (s.face f).sup.state = .off
  · rw [if_pos off, if_neg (by simp [off, FaceState.scanning])]
    exact start
  · rw [if_neg off, if_pos ((scanning_iff _).2 off), stopLink_eq, found]
    by_cases running : (s.face f).link.state = .running
    · rw [if_pos running, if_pos running]
      by_cases synced : (s.face f).link.frameSetup ≠ none
      · rw [if_pos synced, if_pos synced]
        exact faceAt_touch dark _ _
      · rw [if_neg synced, if_neg synced]
        exact faceAt_touch (faceAt_touch (faceAt_touch dark _ _) _ _) _ _
    · rw [if_neg running, if_neg running]
      exact dark

theorem startFace_same (f : Fin 4) (s : State) : SameBesidesDirty (s.setFace f (s.face f).started) (startFace f s) := by
  have before : SameBesidesDirty
      (s.setFace f
        { s.face f with
          sup := { (s.face f).sup with state := .starting, stallTimer := (s.face f).sup.stallTimeout }
          level := { (s.face f).level with
            level := 0, sensor := sensorAfterSetup (s.face f).link.setup.sensorSlot (s.face f).level.sensor } })
      (startLevel f (startSupervisor f s)) := faceAt_touch (faceAt_touch (faceAt_start s f) _ _) _ _
  unfold startFace startRecords
  rw [faceAt_face before]
  exact faceAt_touch (faceAt_touch before _ _) _ _

theorem faceEffect_same {c : Command} (own : c.OfFace) (h : HeadFields) (ws : List Word) (s : State) :
    SameBesidesDirty (s.setFace h.face (c.faceAfter h ws (s.face h.face))) (c.effect h ws s) := by
  have start := faceAt_start s h.face
  cases c with
  | faceGeometry => exact faceAt_updFace start _
  | faceZonemap => exact faceAt_updFace start _
  | faceCurve => exact levelEffect_same (.inl rfl) h ws s
  | faceLimits => exact levelEffect_same (.inr (.inl rfl)) h ws s
  | faceStart => exact startFace_same h.face s
  | faceStop => exact enterOff_same h.face s
  | faceHold => exact levelEffect_same (.inr (.inr (.inl rfl))) h ws s
  | faceRelease => exact levelEffect_same (.inr (.inr (.inr rfl))) h ws s
  | outputConfig => exact faceAt_updFace start _
  | linkSetup => exact faceAt_touch start _ _
  | moduleCommand => exact faceAt_touch start _ _
  | moduleClear =>
    simp only [Command.faceAfter, Command.effect, moduleClearEffect]
    split
    · exact faceAt_touch start _ _
    · exact faceAt_touch start _ _
  | attnConfig | journalSetup | timingSetup | statusRefresh | partReset => exact absurd own (by unfold Command.OfFace; decide)

/-- A command of a face that its tests pass ends DONE with its face as its effect makes it. -/
theorem exec_face_done {c : Command} {h : HeadFields} {ws : List Word} {s : State} {x : Face} (own : c.OfFace)
    (taken : Taken c h ws s) (passes : Passes c h ws s) (after : c.faceAfter h ws (s.face h.face) = x) :
    ∃ t, exec (c.row h ws) s = .next t ∧ SameBesidesDirty (doneWith c h (s.setFace h.face x)) t :=
  exec_done taken ((passes_iff h taken.allowed s).1 passes) (after ▸ faceEffect_same own h ws s).symm.alike

/-! Geometry and zone map. -/

theorem setField_eq (w : Word) : setField w = w.setWidth 8 := by
  apply BitVec.eq_of_toNat_eq
  simp [setField, field]

/-- Settles O42: the tests that passed give the plane its bounds and the map its slots. -/
theorem geometryAndZoneMapWrite : Obligations.GeometryAndZoneMapWrite := by
  intro h ws s
  refine ⟨fun taken passes => ?_, fun taken passes => ?_⟩
  · obtain ⟨_, ⟨columns, _⟩, ⟨rows, _⟩, count, range, _⟩ := faceGeometry_passed ((passes_iff h taken.allowed s).1 passes)
    obtain ⟨cols, rws⟩ := planeOf_bounds ws count
    obtain ⟨_, _, zones⟩ := planeOf_bands count columns rows
    obtain ⟨_, _, _, _, few, spare, _⟩ := (planeInRange_iff _ _ _ _).1 range
    obtain ⟨t, runs, after⟩ := exec_face_done (by unfold Command.OfFace; decide) taken passes rfl
    refine ⟨t, _, _, runs, after, rfl, baseField_toNat _, ?_, rfl, rfl, setField_eq _, cols, rws, zones, fun z unused => ?_, fun z used => ?_⟩
    · simp [planeOf, field]
    · exact pick_defaultMap_unused (zones.trans_le unused)
    · have room : (s.face h.face).link.setup.sensorSlot.isSome = true → (planeOf ws).zoneCount < 64 := fun sensor => by
        have := spare sensor
        omega
      obtain ⟨n, picked, plain, next⟩ := pick_defaultMap room (lt_of_lt_of_eq used zones.symm)
      rw [zones] at next
      exact ⟨n, picked, fun k => ⟨next k, plain⟩⟩
  · obtain ⟨_, _, count, small, _⟩ := faceZonemap_passed ((passes_iff h taken.allowed s).1 passes)
    obtain ⟨t, runs, after⟩ := exec_face_done (by unfold Command.OfFace; decide) taken passes rfl
    have length := zoneSlots_length count
    refine ⟨t, _, runs, after, fun z unused => ?_, fun z used => ?_⟩
    · exact pick_mapWithSlots_unused (length.trans_le unused)
    · have slots := zoneSlots_eq (s.face h.face) ws count
      obtain ⟨n, picked, slot⟩ := pick_mapWithSlots small (lt_of_lt_of_eq used length.symm)
      refine ⟨n, picked, slot.trans ?_⟩
      simp only [slots, List.getElem_map, List.getElem_range]

/-! Start and stop. -/

theorem sensorAfterSetup_eq (sensor : Option (Fin 64)) (r : SensorRecord) :
    sensorAfterSetup sensor r = { r with state := if sensor = none then .none else .waiting, count := 0 } := by
  cases sensor <;> rfl

theorem pick_started (x : Face) (n : Fin 64) :
    pick x.started.records n =
      if n.val < x.link.setup.slotCount ∧ x.link.setup.mask.getLsbD n.val = true ∧ x.link.setup.sensorSlot ≠ some n then
        { resetRecord with state := .unseen }
      else pick x.records n := by
  have slot : x.link.setup.isModuleSlot n = true ↔
      n.val < x.link.setup.slotCount ∧ x.link.setup.mask.getLsbD n.val = true ∧ x.link.setup.sensorSlot ≠ some n :=
    (isModuleSlot_iff _ n).trans and_assoc
  simp only [Face.started, pick_ofFn, slot]
  rfl

section
variable {x : Face}

theorem offed_of_off (off : x.sup.state = .off) : x.offed = x := if_pos off

theorem offed_of_synced (on : x.sup.state ≠ .off) (running : x.link.state = .running) (synced : x.link.frameSetup ≠ none) :
    x.offed =
      { x with
        sup := { x.sup with state := .off, stallTimer := 0 }, applied := darkForm, link := { x.link with state := .draining } } := by
  simp only [Face.offed, if_neg on, if_pos running, if_pos synced]

theorem offed_of_unsynced (on : x.sup.state ≠ .off) (running : x.link.state = .running) (fresh : x.link.frameSetup = none) :
    x.offed = { x with sup := { x.sup with state := .off, stallTimer := 0 }, applied := darkForm }.linkIdled := by
  simp only [Face.offed, if_neg on, if_pos running, if_neg (not_not.2 fresh)]

end

/-- Settles O44: a start and an entry to OFF are changes of one face; the entry to OFF by the state of the link. -/
theorem faceStartAndStop : Obligations.FaceStartAndStop := by
  refine ⟨fun h s taken passes => ?_, fun h s taken => ?_⟩
  · obtain ⟨t, runs, after⟩ := exec_face_done (by unfold Command.OfFace; decide) taken passes rfl
    refine ⟨t, _, runs, pick_started (s.face h.face), ?_⟩
    rw [← sensorAfterSetup_eq]
    exact after
  · obtain ⟨t, runs, after⟩ := exec_face_done (by unfold Command.OfFace; decide) taken (passes_of_no_tests rfl) rfl
    have became {x : Face} (same : (s.face h.face).offed = x) : SameBesidesDirty (doneWith .faceStop h (s.setFace h.face x)) t :=
      same ▸ after
    refine ⟨t, runs, fun off => ?_, fun on running synced => became (offed_of_synced on running synced),
      fun on running fresh => became (offed_of_unsynced on running fresh)⟩
    have same := became (offed_of_off off)
    rwa [setFace_face] at same

/-! Outputs, link setup and module commands. -/

/-- Settles O45: the command has no tests, and the fields are those of the payload word. -/
theorem outputConfigWritesAsOneUnit : Obligations.OutputConfigWritesAsOneUnit := by
  intro h w s taken
  exact exec_face_done (by unfold Command.OfFace; decide) taken (passes_of_no_tests rfl) rfl

/-- Settles O46: the fields of the payload one by one. -/
theorem linkSetupWritesAsOneUnit : Obligations.LinkSetupWritesAsOneUnit := by
  intro h ws s taken passes
  obtain ⟨t, runs, after⟩ := exec_face_done (by unfold Command.OfFace; decide) taken passes rfl
  refine ⟨t, linkSetupOf ws, runs, ?_, linkSetupOf_slotCount ws, fun n => ⟨?_, ?_⟩, rfl, rfl, rfl, ?_,
    linkSetupOf_lostCount ws, rfl, rfl, rfl, linkSetupOf_thresholds ws⟩
  · have sensor : (linkSetupOf ws).sensorSlot = none ↔ ¬(payloadWord ws 2).getLsbD 15 = true := by
      rw [linkSetupOf_sensorSlot, ite_eq_right_iff]
      exact ⟨fun absent present => Option.some_ne_none _ (absent present), fun absent present => absurd present absent⟩
    have state : sensorAfterSetup (linkSetupOf ws).sensorSlot (s.face h.face).level.sensor =
        { (s.face h.face).level.sensor with
          state := if (payloadWord ws 2).getLsbD 15 then .waiting else .none, count := 0 } := by
      rw [sensorAfterSetup_eq]
      simp only [sensor, ite_not]
    rw [← state]
    exact after
  · refine (getLsbD_pair ws n.val (by omega)).trans ?_
    rw [Nat.div_eq_of_lt n.isLt, Nat.mod_eq_of_lt n.isLt]
  · refine (getLsbD_pair ws (32 + n.val) (by omega)).trans ?_
    rw [Nat.add_div_left _ (by decide), Nat.add_mod_left, Nat.div_eq_of_lt n.isLt, Nat.mod_eq_of_lt n.isLt]
  · rw [linkSetupOf_sensorSlot]
    split <;> rfl

/-- Settles O47: the mailbox of the slot, and the record of the slot or every record. -/
theorem moduleCommandAndClear : Obligations.ModuleCommandAndClear := by
  intro h ws s
  refine ⟨fun w one taken passes => ?_, fun taken passes => ?_⟩
  · subst one
    exact exec_face_done (by unfold Command.OfFace; decide) taken passes rfl
  · obtain ⟨t, runs, after⟩ := exec_face_done (by unfold Command.OfFace; decide) taken passes rfl
    have form := allSlotsForm_iff taken.allowed
    refine ⟨t, runs, fun single => ?_, fun all => ?_⟩
    · have one : ¬allSlotsForm ws = true := fun all => single (form.1 all)
      simp only [Command.faceAfter, if_neg one] at after
      exact after
    · simp only [Command.faceAfter, if_pos (form.2 all)] at after
      exact after

end Sys2Proof.Machine
end

/-! PROOFS. The part-wide commands: ATTN_CONFIG (R144, R179), JOURNAL_SETUP, TIMING_SETUP and STATUS_REFRESH (R180, R181),
PART_RESET (R182). -/

section

namespace Sys2Proof.Machine

/-! ATTN_CONFIG. -/

theorem reconfigured_eq (ws : List Word) (a : Attention) :
    a.reconfigured ws =
      { a.configured ws with
        pulse :=
          if (a.configured ws).mode = a.mode then
            a.pulse ||
              ((a.configured ws).mode == .pulse && (a.configured ws).presented.isSome && (a.configured ws).presented != a.presented)
          else false } := by
  unfold Attention.reconfigured
  split
  · rfl
  · rfl

/-- A second payload word clears its classes from the pending set; without one none are cleared. -/
theorem configured_single (w : Word) (a : Attention) :
    a.configured [w] =
      { a with
        mask := w.setWidth 8, mode := if w.getLsbD 8 then .pulse else .level, autoFinish := w.getLsbD 9,
        rotateOnAuto := w.getLsbD 10 } := by
  have kept : a.pending &&& ~~~(0 : Set8) = a.pending := BitVec.and_allOnes
  rw [← setField_eq]
  refine Eq.trans ?_ (congrArg (fun p => { a with
    mask := setField w, mode := if w.getLsbD 8 then .pulse else .level, autoFinish := w.getLsbD 9,
    rotateOnAuto := w.getLsbD 10, pending := p }) kept)
  rfl

theorem configured_pair (w v : Word) (a : Attention) :
    a.configured [w, v] =
      { a with
        mask := w.setWidth 8, mode := if w.getLsbD 8 then .pulse else .level, autoFinish := w.getLsbD 9,
        rotateOnAuto := w.getLsbD 10, pending := a.pending &&& ~~~v.setWidth 8 } := by
  rw [← setField_eq, ← setField_eq]
  rfl

/-- Settles O48: the payload has one word or two, and only the second clears pending classes. -/
theorem attnConfigWritesAsOneUnit : Obligations.AttnConfigWritesAsOneUnit := by
  intro h ws s taken
  have allowed := taken.allowed
  have done {b : Attention} (same : s.attention.reconfigured ws = b) :=
    exec_done taken rfl (show Alike (configureAttention ws s) { s with attention := b } from same ▸ rfl)
  refine done ((reconfigured_eq ws s.attention).trans ?_)
  match ws with
  | [] => cases allowed
  | [w] => rw [configured_single]; rfl
  | [w, v] => rw [configured_pair]; rfl
  | _ :: _ :: _ :: _ => simp [Command.allows] at allowed

/-! Commands without payload. -/

theorem postResult_dirty (h : HeadWord) (r : ResultCode) {s : State} {w : ImageWord} (dirty : pick s.dirty w = true) :
    pick (postResult h r s).dirty w = true :=
  ((confined_postResult h r).tracks s w).2 dirty

theorem streamCommand_bare {c : Command} {h : HeadFields} (none : h.count.toNat = 0) (allowed : c.allows 0 = true) (s : State) :
    streamCommand c.code h [] s = executeCommand c { code := c.code, fields := h } [] (abandonCommand s) := by
  simp [streamCommand, takeBodies, takeHead, decodeHead, commandOf_code, none, allowed]

/-- Settles O49: each command's effect on its own owner. -/
theorem partWideSetups : Obligations.PartWideSetups := by
  intro h ws s
  refine ⟨fun taken passes => ?_, fun taken passes => ?_, fun taken => ?_⟩
  · have done := (passes_iff h taken.allowed s).1 passes
    obtain ⟨t, runs, after⟩ := exec_done taken done (changeJournal_same _ s).symm.alike
    have capacity : capacityField ws = (payloadWord ws 1).toNat % 2 ^ 16 := field_low_half _
    have threshold : thresholdField ws = (payloadWord ws 1).toNat / 2 ^ 16 := field_high _
    rw [capacity, threshold] at after
    exact ⟨t, baseField (payloadWord ws 0), runs, baseField_toNat _, after⟩
  · have done := (passes_iff h taken.allowed s).1 passes
    have few : (payloadWord ws 0).toNat % 2 ^ 8 ≤ 3 := passes _ (List.mem_singleton.2 rfl)
    have select : epochSelectField ws = (payloadWord ws 0).toNat % 2 ^ 8 := by simp [epochSelectField, field]
    obtain ⟨t, runs, after⟩ := exec_done taken done (alike_refl _)
    refine ⟨t, Fin.ofNat 4 (epochSelectField ws), runs, ?_, after⟩
    rw [select]
    exact Nat.mod_eq_of_lt (by omega)
  · have none : ws = [] := List.length_eq_zero_iff.1 (beq_iff_eq.1 taken.allowed)
    subst none
    have runs := streamCommand_bare (c := .statusRefresh) taken.whole.symm rfl s
    rw [abandon_idle taken.idle] at runs
    refine ⟨_, rfl, fun w => ?_, ?_⟩
    · rw [runs]
      exact postResult_dirty _ _ (pick_allDirty w)
    · rw [runs]
      exact postResult_same { code := Command.statusRefresh.code, fields := h } .done (b := markAll s) rfl

/-! PART_RESET. -/

/-- A change of nothing but the decoder, the attention controller, the events and the dirty set. -/
def Disturbed (s t : State) : Prop :=
  t = { s with
    attention := t.attention, eventQueue := t.eventQueue, journal := { s.journal with drops := t.journal.drops },
    decoder := t.decoder, dirty := t.dirty }

theorem Disturbed.exists {s t : State} (h : Disturbed s t) :
    ∃ a q n e d, t = { s with
      attention := a, eventQueue := q, journal := { s.journal with drops := n }, decoder := e, dirty := d } :=
  ⟨_, _, _, _, _, h⟩

theorem Disturbed.trans {s t u : State} (h : Disturbed s t) (k : Disturbed t u) : Disturbed s u := by
  obtain ⟨_, _, _, _, _, rfl⟩ := h.exists
  obtain ⟨_, _, _, _, _, rfl⟩ := k.exists
  rfl

theorem disturbed_raiseEvent {code : EventCode} {c : Fin 8} (cls : code.cls = some c) (f : Fin 4) (n : Fin 64) (x y : Word)
    (s : State) : Disturbed s (raiseEvent code f n x y s) := by
  by_cases room : s.eventQueue.length < 32
  · obtain ⟨d, after⟩ := (raiseEvent_room cls f n x y s room).exists
    rw [after]
    rfl
  · obtain ⟨d, after⟩ := (raiseEvent_full cls f n x y s (Nat.not_lt.1 room)).exists
    rw [after]
    rfl

theorem disturbed_abandonCommand (s : State) : Disturbed s (abandonCommand s) := by
  by_cases idle : s.decoder.state = .idle
  · rw [abandon_idle idle]
    rfl
  · cases command : s.decoder.inProgress with
    | none =>
      have same : abandonCommand s = s := by
        unfold abandonCommand
        rw [command]
        cases s.decoder.state <;> rfl
      rw [same]
      rfl
    | some old =>
      rw [abandonCommand_eq idle command]
      have noted : Disturbed s (setResult old .abandoned s) := rfl
      exact noted.trans (disturbed_raiseEvent rfl _ _ _ _ _)

theorem faces_partResetEffect {s t : State} (faces : t.faces = s.faces) : (partResetEffect t).faces = (partResetEffect s).faces := by
  refine pick_ext fun f => ?_
  have before : t.face f = s.face f := congrArg (pick · f) faces
  have after := face_partResetEffect t f
  rw [before, ← face_partResetEffect s f] at after
  exact after

/-- PART_RESET of a state with an abandoned command is that of the state. -/
theorem partResetEffect_disturbed {s t : State} (h : Disturbed s t) : Alike (partResetEffect s) (partResetEffect t) := by
  have faces : t.faces = s.faces := by
    obtain ⟨_, _, _, _, _, rfl⟩ := h.exists
    rfl
  refine alike_of ⟨allDirty, t.decoder, (partResetEffect_same t).trans ?_⟩
  rw [faces_partResetEffect faces, partResetEffect_same s]
  obtain ⟨_, _, _, _, _, rfl⟩ := h.exists
  rfl

theorem offed_of_stopped {x : Face} (on : x.sup.state ≠ .off) (stopped : x.link.state ≠ .running) :
    x.offed = { x with sup := { x.sup with state := .off, stallTimer := 0 }, applied := darkForm } := by
  simp only [Face.offed, if_neg on, if_neg stopped]

/-- An entry to OFF leaves its face dark. -/
theorem offed_applied_eq (x : Face) : x.offed.applied = if x.sup.state = .off then x.applied else darkForm := by
  by_cases off : x.sup.state = .off
  · rw [offed_of_off off, if_pos off]
  · rw [if_neg off]
    by_cases running : x.link.state = .running
    · by_cases fresh : x.link.frameSetup = none
      · rw [offed_of_unsynced off running fresh]; rfl
      · rw [offed_of_synced off running fresh]
    · rw [offed_of_stopped off running]

/-- An entry to OFF stops a RUNNING link: to DRAINING after a sync, or else to IDLE. -/
theorem offed_link_eq (x : Face) :
    x.offed.link =
      { x.link with
        state :=
          if x.sup.state ≠ .off ∧ x.link.state = .running then
            if x.link.frameSetup = none then .idle else .draining
          else x.link.state
        line := if x.sup.state ≠ .off ∧ x.link.state = .running ∧ x.link.frameSetup = none then .idle else x.link.line } := by
  by_cases off : x.sup.state = .off
  · simp [offed_of_off off, off]
  · by_cases running : x.link.state = .running
    · by_cases fresh : x.link.frameSetup = none
      · simp [offed_of_unsynced off running fresh, off, running, fresh, Face.linkIdled]
      · simp [offed_of_synced off running fresh, off, running, fresh]
    · simp [offed_of_stopped off running, running]

theorem partReset_same {h : HeadFields} (none : h.count.toNat = 0) (s : State) :
    SameBesidesDirty (endedWith { code := 0x1F, fields := h } .done (partResetEffect s))
      (streamCommand Command.partReset.code h [] s) := by
  rw [streamCommand_bare none rfl]
  exact postResult_same { code := Command.partReset.code, fields := h } .done
    (partResetEffect_disturbed (disturbed_abandonCommand s))

theorem dirty_partResetEffect (s : State) : (partResetEffect s).dirty = allDirty := rfl

theorem partReset_dirty {h : HeadFields} (none : h.count.toNat = 0) (s : State) (w : ImageWord) :
    pick (streamCommand Command.partReset.code h [] s).dirty w = true := by
  have reset : pick (partResetEffect (abandonCommand s)).dirty w = true := by
    rw [dirty_partResetEffect]
    exact pick_allDirty w
  rw [streamCommand_bare none rfl]
  exact postResult_dirty _ .done reset

theorem partResetEffect_owners (s : State) :
    ∃ fs, partResetEffect s =
      { s with
        faces := fs
        epochSelect := resetEpochSelect
        epochTimer := resetEpochTimer
        attention := resetAttention
        eventQueue := []
        journal := { resetJournal with inProgress := s.journal.superseded }
        dirty := allDirty
        generationOwed := false
        ownWriteErrors := 0 } := ⟨_, partResetEffect_same s⟩

theorem sameBesides_partReset {h : HeadFields} {s t : State}
    (same : SameBesidesDirty (endedWith { code := 0x1F, fields := h } .done (partResetEffect s)) t) :
    t = { s with
      epochSelect := 2
      epochTimer := 10
      faces := t.faces
      attention := State.reset.attention
      eventQueue := []
      journal := { State.reset.journal with inProgress := s.journal.inProgress.map fun r => { r with superseded := true } }
      dirty := t.dirty
      generationOwed := false
      ownWriteErrors := 0
      decoder := endedDecoder 0x1F h .done } := by
  obtain ⟨d, rfl⟩ := same.exists
  obtain ⟨fs, owners⟩ := partResetEffect_owners s
  rw [owners]
  rfl

theorem face_partReset {h : HeadFields} {s t : State}
    (same : SameBesidesDirty (endedWith { code := 0x1F, fields := h } .done (partResetEffect s)) t) (f : Fin 4) :
    t.face f = (s.face f).offed.partReset := by
  obtain ⟨d, rfl⟩ := same.exists
  have face := face_partResetEffect s f
  obtain ⟨fs, owners⟩ := partResetEffect_owners s
  rw [owners] at face ⊢
  exact face

theorem exec_partReset (h : HeadFields) (s : State) :
    exec (.partReset h []) s = .next (streamCommand Command.partReset.code h [] s) := rfl

/-- Settles O50: an abandoned command leaves no trace in what PART_RESET keeps. -/
theorem partResetValues : Obligations.PartResetValues := by
  intro h s bare
  have none : h.count.toNat = 0 := congrArg BitVec.toNat bare
  have same := partReset_same none s
  have dirty := partReset_dirty none s
  have runs := exec_partReset h s
  generalize streamCommand Command.partReset.code h [] s = t at same dirty runs
  refine ⟨t, runs, sameBesides_partReset same, dirty, fun f => ?_⟩
  have value : State.reset.face f = resetFace := pick_replicate _ _
  rw [face_partReset same, value]
  refine ⟨rfl, rfl, rfl, rfl, rfl, rfl, offed_applied_eq _, ?_⟩
  have link : (s.face f).offed.partReset.link = (s.face f).offed.link.partReset := rfl
  rw [link, offed_link_eq]
  rfl

end Sys2Proof.Machine
end

/-! PROOFS. Commands at the front of the queue (R165), power-on reset (R16, R73) and the invariants at reset. -/

section

namespace Sys2Proof.Machine

/-- Settles O1: by the definition of a step. -/
theorem stepRunsFrontCommand : Obligations.StepRunsFrontCommand :=
  ⟨fun _ _ _ => rfl, fun s idle => by rw [step, idle]⟩

/-! Power-on reset. -/

theorem face_powerOn (wsel : BitVec 2) (s : State) (f : Fin 4) : (powerOn wsel s).face f = resetFace :=
  pick_replicate _ _

theorem windowBaseOf_toNat (wsel : BitVec 2) : (Config.windowBaseOf wsel).toNat = 0x0FFC0000 + wsel.toNat * 0x10000 := by
  revert wsel; decide

theorem presented_reset : resetAttention.presented = none := by decide

/-! PORST_N asserted. -/

section
variable {s : State}

theorem acceptFrom_held (held : s.porstAsserted = true) (rs : List Request) : acceptFrom rs s = { s with cportWaiting := rs } := by
  cases rs with
  | nil => rfl
  | cons r rs => simp [acceptFrom, canAccept, held]

theorem acceptWaiting_held (held : s.porstAsserted = true) : acceptWaiting s = s := acceptFrom_held held s.cportWaiting

theorem grantBeat_held (held : s.porstAsserted = true) : grantBeat s = s := by
  simp [grantBeat, State.canIssue, held]

theorem exec_offer_held (held : s.porstAsserted = true) (r : Request) : exec (.cportRequestAccept r) s = .next s :=
  congrArg Host.Outcome.next (if_pos held)

theorem exec_grant_held (held : s.porstAsserted = true) : exec .mportGrant s = .next s := by
  refine congrArg Host.Outcome.next (a₁ := acceptWaiting (grantBeat s)) ?_
  rw [grantBeat_held held, acceptWaiting_held held]

end

/-- Settles O3: the reset values stand in the state; with PORST_N asserted no request is accepted and no beat issued. -/
theorem powerOnReset : Obligations.PowerOnReset := by
  refine ⟨fun wsel s => ⟨powerOn wsel s, rfl, rfl, rfl, windowBaseOf_toNat wsel, rfl, rfl, rfl, rfl, rfl, rfl, rfl, rfl, rfl, rfl,
      rfl, rfl, rfl, rfl, rfl, rfl, rfl, rfl, rfl, presented_reset, ?_, rfl, rfl, pick_allDirty, rfl, rfl, rfl, rfl, fun f => ?_, rfl⟩,
    fun s => ⟨{ s with porstAsserted := true }, rfl, rfl, fun f => ⟨rfl, rfl, rfl, fun i => ⟨rfl, rfl⟩⟩, rfl, exec_offer_held rfl, exec_grant_held rfl⟩⟩
  · exact congrArg Option.isNone presented_reset
  · rw [State.oeA, State.oeB, face_powerOn]
    have identity (z : Fin 64) : pick identityMap z = some z := by simp [identityMap]
    exact ⟨rfl, identity, rfl, rfl, rfl, fun z => pick_replicate _ _, rfl, rfl, rfl, rfl, rfl, rfl, rfl, rfl, rfl, rfl, rfl,
      fun n => pick_replicate _ _, fun n => ⟨pick_replicate _ _, congrArg ModuleRecord.derateStep (pick_replicate resetRecord n)⟩⟩

/-! The invariants at reset. -/

theorem countsSound_powerOn (wsel : BitVec 2) (s : State) : CountsSound (powerOn wsel s) where
  divider := Nat.zero_le _
  epochTimer := show 1 ≤ 10 ∧ 10 ≤ 10 by decide
  levelMode _ := rfl
  errors := Nat.zero_le _
  counters f := by
    rw [face_powerOn]
    exact ⟨Nat.zero_le _, Nat.zero_le _, Nat.zero_le _⟩

theorem regionsApart_powerOn (wsel : BitVec 2) (s : State) : RegionsApart (powerOn wsel s) :=
  regionsApart_bare (fun f => by rw [face_powerOn]; rfl) rfl rfl (show 0 < 16 by decide)

/-- Settles O51: State.reset is itself a power-on state. -/
theorem invariantsHoldAtReset : Obligations.InvariantsHoldAtReset := by
  intro wsel s t reset
  obtain ⟨w, u, rfl⟩ : ∃ w u, t = powerOn w u := by
    rcases reset with rfl | runs
    · exact ⟨0, State.reset, rfl⟩
    · cases runs
      exact ⟨wsel, s, rfl⟩
  refine ⟨pathSound_powerOn w u, nofun, rfl, journalSound_reset none rfl, regionsApart_powerOn w u, decoderSound_idle _,
    countsSound_powerOn w u, fun f => ?_⟩
  rw [face_powerOn]
  exact ⟨planeSound_invalid rfl, levelSound_reset, faceSound_reset⟩

end Sys2Proof.Machine
end
